-- ==== Sys2Proof/Word.lean ====
section
/-! DEFINITION. The word types of the DX-9's registers, bytes and 64-bit quantities (spec 00 R7, R8). -/

namespace Sys2Proof

/-- One byte of memory or of a ring entry. -/
abbrev Byte := BitVec 8
/-- A 32-bit set-up register, payload word or FP32 pattern (R8). -/
abbrev Word := BitVec 32
/-- A 64-bit quantity held in two registers (R8). -/
abbrev DWord := BitVec 64

end Sys2Proof
end

