-- ==== Sys2Proof/Syntax.lean ====
section
/-! DEFINITION. The commands of the DX-9: one constructor of `Instr` for each row of the
operations and events table, with the row's operands. Identifiers have the widths of 00 R13. -/

namespace Sys2Proof

/-- The four envelope words of an engine command (10 R315). -/
structure Env where
  w0 : Word
  w1 : Word
  w2 : Word
  w3 : Word
  deriving DecidableEq, Repr

/-- The eight payload words of an engine command (03 R80 and the other payload tables). -/
structure Pay where
  w0 : Word
  w1 : Word
  w2 : Word
  w3 : Word
  w4 : Word
  w5 : Word
  w6 : Word
  w7 : Word
  deriving DecidableEq, Repr

/-- A Span packet: the fields of its 32 B header and its data bytes (09 R253). -/
structure Pkt where
  opc    : Byte
  strict : Bool
  nbytes : BitVec 9
  dmod   : BitVec 16
  smod   : BitVec 16
  dpid   : BitVec 5
  spid   : BitVec 5
  sctx   : BitVec 10
  tepoch : BitVec 16
  sepoch : BitVec 16
  addr   : BitVec 48
  status : Byte
  flags  : Byte
  tag    : BitVec 16
  dcrc   : Word
  data   : List Byte
  deriving DecidableEq, Repr

/-- A reduction packet: its Span header and the 16 B sub-header (13 R414). -/
structure RedPkt where
  opc    : Byte
  dmod   : BitVec 16
  smod   : BitVec 16
  dpid   : BitVec 5
  spid   : BitVec 5
  sctx   : BitVec 10
  tepoch : BitVec 16
  sepoch : BitVec 16
  step   : Word
  ch     : BitVec 4
  bseq   : BitVec 16
  member : BitVec 16
  cfg    : Word
  arg    : DWord
  data   : List Byte
  deriving DecidableEq, Repr

/-- A 256 B link flit: header, the 240 B of its packet slots, and its CRC (09 R247, R248). -/
structure Flit where
  hdr   : DWord
  slots : List Byte
  crc   : DWord
  deriving DecidableEq, Repr

/-- A Span port: X-die and port number (09 R243). -/
structure PortId where
  x : BitVec 1
  p : BitVec 4
  deriving DecidableEq, Repr

/-- A fast throttle source (16 R488). -/
inductive FastSrc where
  | vin | iin | ext
  deriving DecidableEq, Repr

/-- The element additions a control core can send (09 R274). -/
inductive AddOp where
  | fadd | iadd32 | iadd64
  deriving DecidableEq, Repr

/-- What a host memory read that failed was for (10 R299, 12 R384). -/
inductive HostReadUse where
  | fetch
  | data (seq : Word)
  deriving DecidableEq, Repr

/-- How it failed: at the link, or as a sealed record that fails its check (10 R299, 12 R384). -/
inductive HostReadErr where
  | link | record
  deriving DecidableEq, Repr

/-- A control core exception (14 R427 code 0xE7) or a refused fetch (08 R223 code 0x62). -/
inductive CcExc where
  | illegalInstruction
  | misaligned
  | badFetch
  deriving DecidableEq, Repr

/-- What the patrol scrubber's read of a unit finds (08 R237-R240). -/
inductive PatrolFind where
  | clean | corrected | uncorrectable
  deriving DecidableEq, Repr

/-- What a BAR access aimed at and how it was wrong (00 R9, 18 R519, 10 R290, 18 R531). -/
inductive BadAccess where
  | width | align | reserved
  deriving DecidableEq, Repr

/-- The queue whose watchdog fires: the rows of 14 R429. -/
inductive WdgQueue where
  | engine (cls : BitVec 4) (unit : BitVec 12) (ctx : BitVec 10)
  | control (core : BitVec 9) (ctx : BitVec 10)
  | bank (pid : BitVec 5) (unit : BitVec 12) (ctx : BitVec 10)
  | completion (ctx : BitVec 10)
  | span (pid : BitVec 5) (unit : BitVec 12) (ctx : Option (BitVec 10))
  | hbm (group : BitVec 7)
  deriving DecidableEq, Repr

/-- The kind of a peer notice (09 R278). -/
inductive PeerKind where
  | partDown | partUp | modDown | modUp
  deriving DecidableEq, Repr

/-- How an access to set-up registers arrives: through which function, and whether on the partition's IDE stream (12 R380). -/
structure Via where
  fn  : BitVec 6
  ide : Bool
  deriving DecidableEq, Repr

/-- How a message of an SPDM session arrives: by the mailbox of which function, and whether it passes the session's own integrity check
(12 R379). -/
structure SessVia where
  fn : BitVec 6
  ok : Bool
  deriving DecidableEq, Repr

/-- The commands and events of the DX-9, in the order of the table. A `fn` is 0 for the PF and v for VF v. -/
inductive Instr where
  -- power, boot, pins
  | vauxUp (straps : BitVec 2)
  | bootImageSelect
  | vauxLost
  | modEnRise
  | vinEntersRange
  | railFamilyGood
  | railFamilyTimeout
  | modEnFall
  | vinUndervoltage
  | vinOvervoltage
  | dieTempCritical (sensor : BitVec 6)
  | throttleFastSource (src : FastSrc)
  | pcapSample (vin iin pin : BitVec 16)
  | ratioStep
  | throttleFloorTimeout
  | sensorUpdate (temps : List (BitVec 16))
  | leakDetect
  | perstAssert
  | perstRelease
  | flrVf (v : BitVec 6)
  | flrPf
  | dripSelftestDone (pass : Bool)
  | fullSelftestDone (clustersPass hbmPass : Bool)
  | hbmFillBlock (group : BitVec 7)
  | clusterGate (cl : BitVec 5)
  | clusterOff (cl : BitVec 5)
  | clusterWake (cl : BitVec 5)
  | clusterWakeDone (cl : BitVec 5)
  | dtimeTick
  | unitHeartbeat (cls : Byte) (unit : BitVec 12)
  | rtpHeartbeat
  | rtpRestart
  | entropyFail
  | smbReadState
  | smbReadVin
  | smbReadIin
  | smbReadPin
  | smbReadEvt
  | smbReadCause
  | smbSensorSelect (n : Byte)
  | smbReadTemp
  | tapIdcode
  | tapBypass
  -- set-up registers
  | barBadAccess (fn : BitVec 6) (why : BadAccess) (write : Bool)
  | regWrite (via : Via) (bar4 : Bool) (off : BitVec 26) (val : Word)
  | counterLowRead (via : Via) (off : BitVec 26)
  | mxCtrClr (core : BitVec 9)
  | vxCtrClr (core : BitVec 9)
  | pgCtrClr (cl : BitVec 5)
  | gxCtrClr (cl : BitVec 5)
  | memCtrClr (ofCore : Bool) (unit : BitVec 9)
  | spnCtrClr (pid : BitVec 5)
  | gcClr
  | rdcClr (ch : BitVec 4)
  | fnAccerrClr
  | vfAccerrClr (via : Via)
  -- host rings and submissions
  | sqEnable (ctx : BitVec 10) (val : Word)
  | sqDisable (ctx : BitVec 10) (val : Word)
  | cqEnable (ctx : BitVec 10) (val : Word)
  | cqDisable (ctx : BitVec 10) (val : Word)
  | ctxCrecWrite (via : Via) (ctx : BitVec 10) (val : Word)
  | sqTail (fn : BitVec 6) (ctx : BitVec 10) (val : Word)
  | cqHead (fn : BitVec 6) (ctx : BitVec 10) (val : Word)
  | sqFetch (ctx : BitVec 10) (entry : List Byte)
  | hostReadFail (ctx : BitVec 10) (use : HostReadUse) (err : HostReadErr)
  | submissionComplete (ctx : BitVec 10) (seq : Word)
  | cqModerationTimer (ctx : BitVec 10)
  | nop (ctx : BitVec 10) (seq : Word)
  | run (ctx : BitVec 10) (seq : Word) (input : List Byte)
  | runDispatch (ctx : BitVec 10) (seq : Word)
  | runEnd (ctx : BitVec 10) (seq : Word)
  | copyin (ctx : BitVec 10) (seq : Word) (data : List Byte)
  | copyout (ctx : BitVec 10) (seq : Word)
  | loadimg (ctx : BitVec 10) (seq : Word) (data : List Byte)
  | unloadimg (ctx : BitVec 10) (seq : Word)
  | admission (ctx : BitVec 10) (seq : Word)
  | commit (ctx : BitVec 10) (seq : Word) (data : List Byte)
  | groupStage (pid : BitVec 5)
  | commitDrainStart (pid : BitVec 5)
  | commitPoint (pid : BitVec 5)
  | commitDrainTimeout (pid : BitVec 5)
  | periodClose (pid : BitVec 5) (slot : Byte) (entry : Byte)
  | budgetOverrun (ctx : BitVec 10) (cls : BitVec 4) (unit : BitVec 12)
  -- engine commands
  | commandStart (core : BitVec 9) (ctx : BitVec 10) (env : Env)
  | commandComplete (core : BitVec 9) (ctx : BitVec 10) (opc : Byte)
  | unitSchedule (cls : BitVec 4) (unit : BitVec 12)
  | controlCoreException (core : BitVec 9) (ctx : BitVec 10) (exc : CcExc) (addr : BitVec 48)
  | mxmul (core : BitVec 9) (ctx : BitVec 10) (p : Pay)
  | mxtamp (core : BitVec 9) (ctx : BitVec 10) (p : Pay)
  | drcvt (core : BitVec 9) (ctx : BitVec 10) (p : Pay)
  | drred (core : BitVec 9) (ctx : BitVec 10) (p : Pay)
  | drsplit (core : BitVec 9) (ctx : BitVec 10) (p : Pay)
  | drrsld (core : BitVec 9) (ctx : BitVec 10) (p : Pay)
  | grpass (core : BitVec 9) (ctx : BitVec 10) (p : Pay)
  | vew (core : BitVec 9) (ctx : BitVec 10) (p : Pay)
  | vrow (core : BitVec 9) (ctx : BitVec 10) (p : Pay)
  | vsf (core : BitVec 9) (ctx : BitVec 10) (p : Pay)
  | vtld (core : BitVec 9) (ctx : BitVec 10) (p : Pay)
  | vsmax (core : BitVec 9) (ctx : BitVec 10) (p : Pay)
  | vnorm (core : BitVec 9) (ctx : BitVec 10) (p : Pay)
  | gtroute (core : BitVec 9) (ctx : BitVec 10) (p : Pay)
  | combineRow (cl : BitVec 5)
  | cmbfin (core : BitVec 9) (ctx : BitVec 10) (p : Pay)
  | pourRow (cl : BitVec 5)
  | pageSeal (cl : BitVec 5)
  | pginit (core : BitVec 9) (ctx : BitVec 10) (p : Pay)
  | pgpush (core : BitVec 9) (ctx : BitVec 10) (p : Pay)
  | pggath (core : BitVec 9) (ctx : BitVec 10) (p : Pay)
  | pgrels (core : BitVec 9) (ctx : BitVec 10) (p : Pay)
  | kvscan (core : BitVec 9) (ctx : BitVec 10) (p : Pay)
  | dmcopy (core : BitVec 9) (ctx : BitVec 10) (p : Pay)
  | spcopy (core : BitVec 9) (ctx : BitVec 10) (p : Pay)
  | spatom (core : BitVec 9) (ctx : BitVec 10) (p : Pay)
  | spfence (core : BitVec 9) (ctx : BitVec 10) (p : Pay)
  | cgsubmit (core : BitVec 9) (ctx : BitVec 10) (p : Pay)
  | rdpost (core : BitVec 9) (ctx : BitVec 10) (p : Pay)
  | ccRemoteLoad (core : BitVec 9) (ctx : BitVec 10) (gaddr : DWord) (log2n : BitVec 2)
  | ccRemoteStore (core : BitVec 9) (ctx : BitVec 10) (gaddr : DWord) (log2n : BitVec 2) (val : DWord)
  | ccRemoteAdd (core : BitVec 9) (ctx : BitVec 10) (op : AddOp) (gaddr : DWord) (val : DWord)
  -- memories
  | starveLimit (ofCore : Bool) (unit : BitVec 9) (waited : Word)
  | hbmCreditGrant (group : BitVec 7)
  | imbWindowEnd (pid : BitVec 5)
  | patrolScrub (group : BitVec 7) (find : PatrolFind)
  | scrubZero (group : BitVec 7) (row : BitVec 26)
  -- Span
  | portEnable (port : PortId) (val : Word)
  | portDisable (port : PortId) (val : Word)
  | portTrained (port : PortId) (low high : Bool)
  | linkDown (port : PortId)
  | flitReceive (port : PortId) (f : Flit)
  | nakReplay (port : PortId) (seq : BitVec 12)
  | init (port : PortId) (vc : BitVec 2) (credits : BitVec 12)
  | marker (port : PortId) (id : Byte)
  | echo (port : PortId) (id : Byte) (ackseq : BitVec 12)
  | echoTimeout (port : PortId)
  | rd (port : PortId) (k : Pkt)
  | wr (port : PortId) (k : Pkt)
  | fadd (port : PortId) (k : Pkt)
  | iadd32 (port : PortId) (k : Pkt)
  | iadd64 (port : PortId) (k : Pkt)
  | rdrsp (port : PortId) (k : Pkt)
  | ack (port : PortId) (k : Pkt)
  | spanBadPacket (port : PortId) (opc : Byte)
  | spanReqTimeout (tag : BitVec 16)
  | windowPortTimeout (pid : BitVec 5) (win : BitVec 6)
  | announceTimer (port : PortId)
  | assign (seq : BitVec 16) (authentic : Bool) (modnum : BitVec 16) (gen : Word)
  | peerNotice (seq : BitVec 16) (authentic : Bool) (kind : PeerKind) (modnum : BitVec 16)
      (pid : BitVec 5) (epoch : BitVec 16)
  | query (seq : BitVec 16) (authentic : Bool)
  | noticeAck (authentic : Bool) (opc : Byte) (seq : BitVec 16)
  | noticeResend
  | sessFrag (attempt index count : BitVec 16) (data : List Byte)
  -- gradient reduction
  | bucketStart (ch : BitVec 4)
  | bucketPhase2 (ch : BitVec 4)
  | homeSumDone (ch : BitVec 4)
  | bucketComplete (ch : BitVec 4)
  | rdmax (k : RedPkt)
  | rdpart (k : RedPkt)
  | rdpair (k : RedPkt)
  | rddone (k : RedPkt)
  | rdres (k : RedPkt)
  | rdcTimeout (ch : BitVec 4)
  -- partitions and the mailbox
  | partCreate (body : List Byte)
  | partSeal (body : List Byte)
  | partDestroy (body : List Byte)
  | getCerts (fn : BitVec 6) (body : List Byte)
  | getReport (fn : BitVec 6) (body : List Byte)
  | bkeySet (fn : BitVec 6) (body : List Byte)
  | fwWrite (fn : BitVec 6) (body : List Byte)
  | fwActivate (fn : BitVec 6) (body : List Byte)
  | svnCommit (fn : BitVec 6) (body : List Byte) (burnOk : Bool)
  | dbgChallenge (fn : BitVec 6) (body : List Byte)
  | dbgUnlock (fn : BitVec 6) (body : List Byte)
  | fmrootSet (fn : BitVec 6) (body : List Byte)
  | crashDump (fn : BitVec 6) (body : List Byte)
  | crashUnitTimeout (cls : Byte) (unit : BitVec 12)
  | crashRead (fn : BitVec 6) (body : List Byte)
  -- SPDM and IDE
  | getVersion (fn : BitVec 6)
  | getCapabilities (fn : BitVec 6)
  | negotiateAlgorithms (fn : BitVec 6)
  | getDigests (fn : BitVec 6)
  | getCertificate (fn : BitVec 6) (offset length : BitVec 16)
  | challenge (fn : BitVec 6) (nonce : List Byte)
  | getMeasurements (fn : BitVec 6) (nonce : List Byte)
  | lwKex (fn : BitVec 6) (x25519 kem nonce : List Byte)
  | finish (fn : BitVec 6) (verify : Bool)
  | keyUpdate (via : SessVia)
  | heartbeat (via : SessVia)
  | endSession (via : SessVia)
  | sessionHeartbeatMiss (fn : BitVec 6)
  | ideQuery (via : SessVia)
  | keyProg (via : SessVia) (sub : BitVec 3) (set : BitVec 1) (key : BitVec 256)
  | kSetGo (via : SessVia) (sub : BitVec 3) (set : BitVec 1)
  | kSetStop (via : SessVia) (sub : BitVec 3) (set : BitVec 1)
  | ideCheckFail (fn : BitVec 6)
  -- resets, watchdogs, debug
  | ctxRst (ctx : BitVec 10)
  | ctxResetDrained (ctx : BitVec 10)
  | ctxResetEscalate (ctx : BitVec 10)
  | rcvPrst (pid : BitVec 5)
  | partResetDrained (pid : BitVec 5)
  | partResetDomainReset (pid : BitVec 5)
  | watchdogFire (q : WdgQueue)
  | unitUnresponsive (cls : BitVec 4) (unit : BitVec 12)
  | haltreq (ctx : BitVec 10)
  | resume (ctx : BitVec 10)
  | step (ctx : BitVec 10)
  | breakpointMatch (ctx : BitVec 10) (core : BitVec 9) (cmp : BitVec 1) (pc : Word)
  | haltDrained (ctx : BitVec 10) (pcs : List (BitVec 9 × Word × List DWord))
  | snpTrig (scope : Option (BitVec 5))
  | snapshotTick (scope : Option (BitVec 5))
  | snapshotReadoutDone (scope : Option (BitVec 5)) (unreachable : List (Byte × BitVec 12))
  | crmArm (ofCore : Bool) (unit : BitVec 9) (tap : BitVec 2) (val : Word)
  | crmDisarm (ofCore : Bool) (unit : BitVec 9) (tap : BitVec 2) (val : Word)
  | dumpFire (pid : BitVec 5) (entry : BitVec 6)
  | dumpComplete (pid : BitVec 5)
  -- ends of conditions
  | fastSourceEnd (src : FastSrc)
  | leakClear
  | spanTagRelease (tag : BitVec 16)
  | destroyTeardownDrained (pid : BitVec 5)
  | pfReady
  | mbUnknownCode (fn : BitVec 6) (code : Byte) (body : List Byte)
  deriving DecidableEq, Repr

end Sys2Proof
end

