-- ==== Sys2Proof/Config.lean ====
section
/-! DEFINITION. What the spec leaves open: free values with no body, and the cryptographic standards that
00 cites without restating. A claim about a value below holds whatever the value is. -/

namespace Sys2Proof.Config

/-- A byte of HBM that nothing has written under the memory key with this serial number (12 R390,
16 R496). The second argument is the physical byte. Log 5. -/
opaque hbmUnwritten : Nat → Nat → Byte

/-- Flash bytes as the module is delivered (12 R368). Log 6. -/
opaque flashInit : Nat → Byte

/-- Random bits (09 R260, 12 R366). Log 7. -/
opaque random : Nat → DWord

/-- A free number: a count of cycles, a place inside an AO tick (log 8). -/
opaque freeNat : Nat → Nat

/-- Whether the boot ROM can read the fuses (12 R399). Log 8. -/
opaque fusesRead : Nat → Bool

/-- What the host link's partner makes of a training: the rate and the width (11 R344). Log 92. -/
opaque linkTrained : Nat → Nat × Nat

/-- Payload rate of the host link in GB/s, trained at another rate (1 to 6) and width than 64 GT/s x16 (11 R344). Log 92. -/
opaque hostRate : Nat → Nat → Nat

/-- What may strike a powered module while no command waits: kind, place, amount (08 R216-R218, R236; 14 R422, R423). Log 105. -/
opaque event : Nat → Nat × Nat × Nat

/-- Native results of the special-function unit, taken where they lie within the bound of 05 R127: function number, the FP32
argument, strict. Log 9. -/
opaque sfuNative : Nat → Word → Bool → Word

/-- SHA3-256, byte `n` of the digest. Log 10. -/
opaque sha3Byte : List Byte → Nat → Byte

/-- HKDF-SHA3-256: salt, input, info. Log 10. -/
opaque hkdf : List Byte → List Byte → List Byte → List Byte

/-- HKDF-Extract with SHA3-256: salt, input (12 R386). Log 10. -/
opaque hkdfExtract : List Byte → List Byte → List Byte

/-- AES-256-GCM opening: key, nonce, additional data, ciphertext, tag. Log 10. -/
opaque gcmOpen : List Byte → List Byte → List Byte → List Byte → List Byte → Option (List Byte)

/-- AES-256-GCM sealing: key, nonce, additional data, plaintext; byte `n` of ciphertext and tag. Log 10. -/
opaque gcmSealByte : List Byte → List Byte → List Byte → List Byte → Nat → Byte

/-- ML-KEM-768 decapsulation under the key of the running firmware (its digest): ciphertext. Log 10. -/
opaque kemDecap : List Byte → List Byte → List Byte

/-- Whether a signature verifies: algorithm (0 Ed25519, 1 ML-DSA-65), the authority (0 firmware,
1 debug), message, signature. Log 10. -/
opaque sigOk : Nat → Nat → List Byte → List Byte → Bool

/-- Byte `n` of a signature by the alias key of a firmware digest: algorithm, digest, message. Log 10. -/
opaque signByte : Nat → List Byte → List Byte → Nat → Byte

/-- Public material of the module: 0 identity digest, 1 boot ROM digest, 2 other firmware digest,
3 the PCI vendor ID and SPDM constants, 4 alias public keys, as byte strings. Log 10. -/
opaque identity : Nat → List Byte

/-- The public ML-KEM-768 encapsulation key under a firmware digest (12 R365). Log 10. -/
opaque kemPub : List Byte → List Byte

/-- A certificate chain in DER: the key it certifies (0 identity, 1 alias, 2 encapsulation), the algorithm of its signatures (0 Ed25519, 1
ML-DSA-65), the firmware digest (12 R367). Log 10. -/
opaque certChain : Nat → Nat → List Byte → List Byte

/-- The device's half of a hybrid key exchange: draw, requester X25519 key, requester ML-KEM key.
Answers the X25519 key, the ML-KEM ciphertext, and the X25519 and the ML-KEM-768 shared secret. Log 10. -/
opaque keyExchange : Nat → List Byte → List Byte → List Byte × List Byte × List Byte × List Byte

/-- Whether the manager's certificate chains in an OFFER end at keys with this digest, and its CONFIRM
signatures verify (12 R388). Log 10. -/
opaque managerOk : List Byte → List Byte → Bool

/-- The control state of a unit as a crash or snapshot record shows it: class, unit, draw (15 R455, R466). Log 11. -/
opaque unitState : Nat → Nat → Nat → DWord

end Sys2Proof.Config
end

