-- ==== Sys2Proof/Machine/Tab.lean ====
section
/-! DEFINITION. Sparse tables in canonical form: a list of (key, value) pairs, keys strictly
rising, no pair equal to what an unlisted key reads as. Memory, registers and every other
indexed store of the State are such tables. -/

namespace Sys2Proof.Machine

/-- The value listed for a key, if any. -/
def tabFind {α : Type} (k : Nat) : List (Nat × α) → Option α
  | [] => none
  | (k', v) :: r => if k' = k then some v else tabFind k r

/-- The table without a key. -/
def tabDrop {α : Type} (k : Nat) : List (Nat × α) → List (Nat × α)
  | [] => []
  | (k', v) :: r => if k' = k then tabDrop k r else (k', v) :: tabDrop k r

/-- Insert a pair before the first greater key. -/
def tabIns {α : Type} (k : Nat) (v : α) : List (Nat × α) → List (Nat × α)
  | [] => [(k, v)]
  | (k', v') :: r => if k < k' then (k, v) :: (k', v') :: r else (k', v') :: tabIns k v r

/-- Write `v` at `k`. `isDef k v` says whether `v` is what an unlisted `k` reads as: then
the key is left unlisted. -/
def tabPut {α : Type} (isDef : Nat → α → Bool) (k : Nat) (v : α) (t : List (Nat × α)) :
    List (Nat × α) :=
  if isDef k v then tabDrop k t else tabIns k v (tabDrop k t)

/-- The canonical form: keys strictly rising, no listed pair is a default. -/
def tabWf {α : Type} (isDef : Nat → α → Bool) : List (Nat × α) → Bool
  | [] => true
  | (k, v) :: r =>
    !isDef k v && (match r with | [] => true | (k', _) :: _ => decide (k < k')) && tabWf isDef r

/-- Forget every key of the half-open range. -/
def tabClear {α : Type} (lo hi : Nat) : List (Nat × α) → List (Nat × α)
  | [] => []
  | (k, v) :: r => if lo ≤ k ∧ k < hi then tabClear lo hi r else (k, v) :: tabClear lo hi r

/-- A set of keys, kept rising without repeats. -/
def setIns (k : Nat) : List Nat → List Nat
  | [] => [k]
  | x :: r => if k < x then k :: x :: r else if k = x then x :: r else x :: setIns k r

/-- Remove a key from a set. -/
def setDel (k : Nat) : List Nat → List Nat
  | [] => []
  | x :: r => if x = k then setDel k r else x :: setDel k r

/-- `n` numbers from `a` upwards. -/
def rangeFrom (a : Nat) : Nat → List Nat
  | 0 => []
  | n + 1 => a :: rangeFrom (a + 1) n

/-- Ceiling of a division by a positive number. -/
def ceilDiv (a b : Nat) : Nat := (a + (b - 1)) / b

/-- Round up to a multiple of a positive number. -/
def roundUp (a b : Nat) : Nat := ceilDiv a b * b

/-- The field [hi:lo] of a word, as a number. -/
def fld {w : Nat} (x : BitVec w) (hi lo : Nat) : Nat := (x.toNat >>> lo) % 2 ^ (hi + 1 - lo)

/-- Bit `i` of a word. -/
def bit {w : Nat} (x : BitVec w) (i : Nat) : Bool := x.getLsbD i

/-- Replace the field [hi:lo] of a word by a number. -/
def putFld (x : Word) (hi lo : Nat) (v : Nat) : Word :=
  let m : Nat := (2 ^ (hi + 1 - lo) - 1) <<< lo
  (x &&& ~~~(BitVec.ofNat 32 m)) ||| BitVec.ofNat 32 ((v % 2 ^ (hi + 1 - lo)) <<< lo)

/-- A 32-bit word from four bytes, lowest address first (R7). -/
def leNat : List Byte → Nat
  | [] => 0
  | b :: r => b.toNat + 256 * leNat r

/-- `n` bytes of a number, lowest first (R7). -/
def leBytes : Nat → Nat → List Byte
  | 0, _ => []
  | n + 1, x => BitVec.ofNat 8 x :: leBytes n (x / 256)

/-- Bytes `a` to `a + n - 1` of a byte list as a little-endian number. -/
def leAt (l : List Byte) (a n : Nat) : Nat := leNat ((l.drop a).take n)

/-- Two's complement reading of the low `w` bits. -/
def signed (w x : Nat) : Int :=
  let y := x % 2 ^ w
  if y < 2 ^ (w - 1) then (y : Int) else (y : Int) - (2 ^ w : Nat)

/-- Saturating increment of a 32-bit counter. -/
def sat32Add (x : Word) (n : Nat) : Word := BitVec.ofNat 32 (min (x.toNat + n) 0xFFFFFFFF)

/-- Replace element `i` of a list. -/
def listSet {α : Type} (i : Nat) (v : α) : List α → List α
  | [] => []
  | x :: r => match i with
    | 0 => v :: r
    | j + 1 => x :: listSet j v r

/-- The least element under a key, the first among equals. -/
def leastBy {α : Type} (f : α → Nat) : List α → Option α
  | [] => none
  | x :: r => match leastBy f r with
    | some y => if f y < f x then some y else some x
    | none => some x

/-- How far ahead a number stands in a round of `n` after the one served last: that one itself stands last. -/
def turnAfter (n last k : Nat) : Nat := (k + n - last - 1) % n

/-- Element `i` of a list, or a default. -/
def listGet {α : Type} (d : α) : List α → Nat → α
  | [], _ => d
  | x :: _, 0 => x
  | _ :: r, n + 1 => listGet d r n

end Sys2Proof.Machine
end

