-- ==== Sys2Proof/Machine/Float.lean ====
section
/-! DEFINITION. Exact binary arithmetic and its one rounding (02 R28-R34, R40-R53): values are dyadic
rationals, every operation is exact, and a result is rounded once. -/

namespace Sys2Proof.Machine

/-- Flag bits of 02 R55. -/
def flNV : Nat := 1
def flOF : Nat := 2
def flUF : Nat := 4
def flNAN : Nat := 8
def flSAT : Nat := 16
def flCSAT : Nat := 32
def flCNAN : Nat := 64
def flSNAN : Nat := 128

/-- A value: a NaN with its FP32 pattern, an infinity, or (-1)^neg * m * 2^e. -/
inductive FV where
  | nan (w : Word)
  | inf (neg : Bool)
  | fin (neg : Bool) (m : Nat) (e : Int)
  deriving DecidableEq, Repr

/-- The canonical quiet NaN of FP32. -/
def qnan : Word := 0x7FC00000

/-- Shift a natural number left by an integer amount; right shifts round to nearest even. -/
def rneShift (m : Nat) (sh : Nat) : Nat :=
  if sh = 0 then m
  else
    let h := m >>> sh
    let r := m - (h <<< sh)
    let half := 1 <<< (sh - 1)
    if half < r ∨ (r = half ∧ h % 2 = 1) then h + 1 else h

/-- Round the magnitude m * 2^e to precision `p`, least exponent `emin`, nearest even, with no upper
bound. Answers mantissa, exponent and whether the result is exact. -/
def roundMag (p : Nat) (emin : Int) (m : Nat) (e : Int) : Nat × Int × Bool :=
  if m = 0 then (0, emin - (p - 1 : Nat), true)
  else
    let q := max (e + (m.log2 : Int) - (p - 1 : Nat)) (emin - (p - 1 : Nat))
    if q ≤ e then (m <<< (e - q).toNat, q, true)
    else
      let sh := (q - e).toNat
      let r := rneShift m sh
      (r, q, r <<< sh == m)

/-- Round a magnitude stochastically with the 16 drawn bits `u` (02 R53). -/
def roundMagSR (u : Nat) (p : Nat) (emin : Int) (m : Nat) (e : Int) : Nat × Int × Bool :=
  if m = 0 then (0, emin - (p - 1 : Nat), true)
  else
    let q := max (e + (m.log2 : Int) - (p - 1 : Nat)) (emin - (p - 1 : Nat))
    if q ≤ e then (m <<< (e - q).toNat, q, true)
    else
      let sh := (q - e).toNat
      let lo := m >>> sh
      let rem := m - (lo <<< sh)
      let f := (rem <<< 16) >>> sh
      (if u < f then lo + 1 else lo, q, rem == 0)

/-- The sign bit in front of a field of `w` magnitude bits. -/
def withSign (neg : Bool) (w mag : Nat) : Nat := (if neg then 2 ^ w else 0) + mag

/-- Encode a rounded magnitude (of at most `p` bits, or a power of two of `p + 1`) that does not
overflow: `p` bits of precision, bias. -/
def encodeMag (p : Nat) (bias : Int) (m : Nat) (q : Int) : Nat :=
  if m < 2 ^ (p - 1) then m
  else
    let l := m.log2
    let ex := (l : Int) + q + bias
    (ex.toNat <<< (p - 1)) + ((m >>> (l - (p - 1))) - 2 ^ (p - 1))

/-- Whether m * 2^e exceeds n * 2^f. -/
def magGt (m : Nat) (e : Int) (n : Nat) (f : Int) : Bool :=
  if f ≤ e then decide (n < m <<< (e - f).toNat) else decide (n <<< (f - e).toNat < m)

/-- Round (-1)^neg * m * 2^e to FP32 (02 R41-R43, R45): fast mode flushes subnormal results. UF is that of 02 R55: a subnormal result of
strict mode raises it when it is inexact. -/
def fp32Round (strict neg : Bool) (m : Nat) (e : Int) : Word × Nat :=
  let (r, q, ex) := roundMag 24 (-126) m e
  if r = 0 then (BitVec.ofNat 32 (withSign neg 31 0), if m = 0 then 0 else flUF)
  else if 128 ≤ (r.log2 : Int) + q then (BitVec.ofNat 32 (withSign neg 31 0x7F800000), flOF)
  else if r < 2 ^ 23 then
    if strict then (BitVec.ofNat 32 (withSign neg 31 r), if ex then 0 else flUF)
    else (BitVec.ofNat 32 (withSign neg 31 0), flUF)
  else (BitVec.ofNat 32 (withSign neg 31 (encodeMag 24 127 r q)), 0)

/-- The value of an FP32 pattern. -/
def ofFp32 (w : Word) : FV :=
  let x := w.toNat
  let ex := (x >>> 23) % 256
  let m := x % 2 ^ 23
  let neg := w.getLsbD 31
  if ex = 255 then (if m = 0 then .inf neg else .nan w)
  else if ex = 0 then .fin neg m (-149)
  else .fin neg (m + 2 ^ 23) ((ex : Int) - 150)

/-- The value of an FP32 input in an arithmetic mode: fast mode flushes subnormals to a zero of the same sign (02 R42). -/
def inFp32 (strict : Bool) (w : Word) : FV :=
  match ofFp32 w with
  | .fin neg m e => if !strict && decide (m < 2 ^ 23) then .fin neg 0 (-149) else .fin neg m e
  | v => v

/-- The FP32 pattern of an FP16 pattern's NaN, or its value. -/
def ofFp16 (x : Nat) : FV :=
  let ex := (x >>> 10) % 32
  let m := x % 1024
  let neg := x.testBit 15
  if ex = 31 then
    (if m = 0 then .inf neg else .nan (BitVec.ofNat 32 (withSign neg 31 (0x7F800000 + m <<< 13))))
  else if ex = 0 then .fin neg m (-24)
  else .fin neg (m + 1024) ((ex : Int) - 25)

/-- The value of a DB16 pattern: the top half of an FP32 pattern (02 R28). -/
def ofDb16 (x : Nat) : FV := ofFp32 (BitVec.ofNat 32 (x <<< 16))

/-- Exponent bits, mantissa bits, bias of the short float with a format code (02 R30). -/
def shortShape (code : Nat) : Nat × Nat × Int :=
  match code with
  | 3 => (4, 3, 7)
  | 4 => (5, 2, 15)
  | 5 => (3, 2, 3)
  | 6 => (2, 3, 1)
  | _ => (2, 1, 1)

/-- The value of a short-float encoding (02 R29, R30). A NaN enters as the FP32 pattern of R46. -/
def ofShort (code x : Nat) : FV :=
  let (eb, mb, bias) := shortShape code
  let neg := x.testBit (eb + mb)
  let ex := (x >>> mb) % 2 ^ eb
  let m := x % 2 ^ mb
  if (code = 3 ∨ code = 4) ∧ x % 128 = 127 then .nan (if neg then 0xFFC00000 else qnan)
  else if ex = 0 then .fin neg m (1 - bias - mb)
  else .fin neg (m + 2 ^ mb) ((ex : Int) - bias - mb)

/-- Element width in bits of a format code (02 R26). -/
def fmtBits (code : Nat) : Nat :=
  match code with
  | 0 => 32 | 1 => 16 | 2 => 16 | 3 => 8 | 4 => 8 | 5 => 6 | 6 => 6 | 7 => 4 | 8 => 8 | 9 => 4
  | 10 => 32 | 11 => 64 | _ => 0

/-- Whether a code names a short float. -/
def isShort (code : Nat) : Bool := decide (3 ≤ code ∧ code ≤ 7)
/-- Whether a code names a short integer. -/
def isDI (code : Nat) : Bool := decide (code = 8 ∨ code = 9)
/-- Whether a code names a long format. -/
def isLong (code : Nat) : Bool := decide (code ≤ 2)

/-- Whether a scale layout is allowed for a format (02 R26, R27). -/
def layoutOk (code lay : Nat) : Bool :=
  if isLong code then lay == 0 else if isShort code then lay != 0 else if isDI code then lay == 3 else false

/-- The value of an element, without scale. -/
def ofElem (code x : Nat) : FV :=
  if code = 0 then ofFp32 (BitVec.ofNat 32 x)
  else if code = 1 then ofFp16 x
  else if code = 2 then ofDb16 x
  else if isShort code then ofShort code x
  else
    let i := signed (fmtBits code) x
    .fin (decide (i < 0)) i.natAbs 0

/-- The value with its exponent moved by `k`. -/
def FV.scale (v : FV) (k : Int) : FV :=
  match v with
  | .fin neg m e => .fin neg m (e + k)
  | v => v

/-- Unpack `n` elements of `w` bits from bytes (02 R35). -/
def unpackBits (w n : Nat) (bs : List Byte) : List Nat :=
  (rangeFrom 0 n).map fun i =>
    (leAt bs (w * i / 8) ((w + 14) / 8) >>> (w * i % 8)) % 2 ^ w

/-- Split a list into chunks of `n` (fuel: its length). -/
def chunks {α : Type} (n : Nat) : Nat → List α → List (List α)
  | 0, _ => []
  | _ + 1, [] => []
  | f + 1, l => l.take n :: chunks n f (l.drop n)

/-- A sum of elements as one number, element `i` at bit `w * i`. -/
def packNat (w : Nat) : List Nat → Nat
  | [] => 0
  | x :: r => x % 2 ^ w + (packNat w r) <<< w

/-- Pack elements of `w` bits into bytes (02 R35); the last byte is filled with zeros. -/
def packBits (w : Nat) (xs : List Nat) : List Byte :=
  (chunks 8 xs.length xs).flatMap fun c => leBytes (ceilDiv (w * c.length) 8) (packNat w c)

/-- A NaN operand of an FP32 operation: the result and the flags (02 R46). The first NaN in the given
order wins in strict mode. -/
def nanResult (strict : Bool) (ws : List Word) : Word × Nat :=
  if strict then
    let sn := ws.any fun w => !w.getLsbD 22
    (match ws with | [] => qnan | w :: _ => w ||| 0x400000, flNAN ||| (if sn then flNV ||| flSNAN else 0))
  else (qnan, flNAN)

/-- The FP32 patterns of the NaNs among values. -/
def nansOf (vs : List FV) : List Word := vs.filterMap fun v => match v with | .nan w => some w | _ => none

/-- Exact product of finite or infinite values; `none` when it is zero times infinity. -/
def fvMul (a b : FV) : Option FV :=
  match a, b with
  | .inf n, .inf n' => some (.inf (n != n'))
  | .inf n, .fin n' m _ => if m = 0 then none else some (.inf (n != n'))
  | .fin n m _, .inf n' => if m = 0 then none else some (.inf (n != n'))
  | .fin n m e, .fin n' m' e' => some (.fin (n != n') (m * m') (e + e'))
  | v, _ => some v

/-- A signed mantissa. -/
def sgn (neg : Bool) (m : Nat) : Int := if neg then -(m : Int) else (m : Int)

/-- Exact sum of two finite values: mantissa and exponent. -/
def dySum (x : Int) (e : Int) (y : Int) (f : Int) : Int × Int :=
  if e ≤ f then (x + y * (2 : Int) ^ (f - e).toNat, e) else (x * (2 : Int) ^ (e - f).toNat + y, f)

/-- FP32 product rounded once (02 R40, R45). -/
def fpMulV (strict : Bool) (a b : FV) : Word × Nat :=
  match nansOf [a, b] with
  | [] => match fvMul a b with
    | none => (qnan, flNV ||| flNAN)
    | some (.inf n) => (BitVec.ofNat 32 (withSign n 31 0x7F800000), 0)
    | some (.fin n m e) => fp32Round strict n m e
    | some (.nan w) => (w, flNAN)
  | ws => nanResult strict ws

/-- FP32 sum rounded once (02 R45, R46); zero sums follow IEEE 754 signs. -/
def fpAddV (strict : Bool) (a b : FV) : Word × Nat :=
  match nansOf [a, b] with
  | [] => match a, b with
    | .inf n, .inf n' =>
      if n = n' then (BitVec.ofNat 32 (withSign n 31 0x7F800000), 0) else (qnan, flNV ||| flNAN)
    | .inf n, _ => (BitVec.ofNat 32 (withSign n 31 0x7F800000), 0)
    | _, .inf n => (BitVec.ofNat 32 (withSign n 31 0x7F800000), 0)
    | .fin n m e, .fin n' m' e' =>
      let (z, k) := dySum (sgn n m) e (sgn n' m') e'
      if z = 0 then (BitVec.ofNat 32 (withSign (n && n' && (m == 0) && (m' == 0)) 31 0), 0)
      else fp32Round strict (decide (z < 0)) z.natAbs k
    | _, _ => (qnan, flNAN)
  | ws => nanResult strict ws

/-- Negate an FP32 pattern. -/
def fneg (w : Word) : Word := w ^^^ 0x80000000

/-- FP32 addition of patterns in a mode (05 R117). -/
def fpAdd (strict : Bool) (a b : Word) : Word × Nat := fpAddV strict (inFp32 strict a) (inFp32 strict b)
/-- FP32 multiplication of patterns in a mode. -/
def fpMul (strict : Bool) (a b : Word) : Word × Nat := fpMulV strict (inFp32 strict a) (inFp32 strict b)

/-- FP32 subtraction. -/
def fpSub (strict : Bool) (a b : Word) : Word × Nat :=
  match inFp32 strict b with
  | .nan w => fpAddV strict (inFp32 strict a) (.nan w)
  | .inf n => fpAddV strict (inFp32 strict a) (.inf !n)
  | .fin n m e => fpAddV strict (inFp32 strict a) (.fin (!n) m e)

/-- Fused multiply and add, rounded once. -/
def fpFma (strict : Bool) (a b c : Word) : Word × Nat :=
  let x := inFp32 strict a
  let y := inFp32 strict b
  let z := inFp32 strict c
  match nansOf [x, y, z] with
  | [] => match fvMul x y with
    | none => (qnan, flNV ||| flNAN)
    | some p => fpAddV strict p z
  | ws => nanResult strict ws

/-- FP32 quotient rounded once. -/
def fpDiv (strict : Bool) (a b : Word) : Word × Nat :=
  let x := inFp32 strict a
  let y := inFp32 strict b
  match nansOf [x, y] with
  | [] => match x, y with
    | .inf _, .inf _ => (qnan, flNV ||| flNAN)
    | .inf n, .fin n' _ _ => (BitVec.ofNat 32 (withSign (n != n') 31 0x7F800000), 0)
    | .fin n _ _, .inf n' => (BitVec.ofNat 32 (withSign (n != n') 31 0), 0)
    | .fin n m e, .fin n' m' e' =>
      if m' = 0 then
        (if m = 0 then (qnan, flNV ||| flNAN)
         else (BitVec.ofNat 32 (withSign (n != n') 31 0x7F800000), flOF))
      else
        let k := 30 + m'.log2
        let q := (m <<< k) / m'
        let st := if (m <<< k) % m' = 0 then 0 else 1
        fp32Round strict (n != n') (2 * q + st) (e - e' - k - 1)
    | _, _ => (qnan, flNAN)
  | ws => nanResult strict ws

/-- Integer square root by bits: the largest `r` with r * r ≤ n, from bit `k` down. -/
def isqrtAux (n : Nat) : Nat → Nat → Nat
  | 0, r => if (r + 1) * (r + 1) ≤ n then r + 1 else r
  | k + 1, r => let t := r + 2 ^ (k + 1); isqrtAux n k (if t * t ≤ n then t else r)

/-- Square root of (-1)^0 m * 2^e as a mantissa with a sticky bit, and its exponent. -/
def sqrtMag (m : Nat) (e : Int) : Nat × Int :=
  let k : Nat := 64 + (if (e % 2) = 0 then 0 else 1)
  let n := m <<< k
  let r := isqrtAux n (n.log2 / 2 + 1) 0
  (2 * r + (if r * r = n then 0 else 1), (e - k) / 2 - 1)

/-- The order of FP32 patterns as signed magnitudes; -0 and +0 are equal. -/
def ordKey (w : Word) : Int := if w.getLsbD 31 then -((w.toNat % 2 ^ 31 : Nat) : Int) else ((w.toNat % 2 ^ 31 : Nat) : Int)

/-- Whether a pattern is a NaN. -/
def isNan (w : Word) : Bool := decide (0x7F800000 < w.toNat % 2 ^ 31)
/-- Whether a pattern is a signalling NaN. -/
def isSnan (w : Word) : Bool := isNan w && !w.getLsbD 22
/-- Whether a pattern is an infinity. -/
def isInf (w : Word) : Bool := w.toNat % 2 ^ 31 == 0x7F800000
/-- Magnitude bits of a pattern. -/
def magBits (w : Word) : Nat := w.toNat % 2 ^ 31

/-- Round to an integer, nearest even, saturating at two's complement of width `w` (INT results). -/
def rneInt (neg : Bool) (m : Nat) (e : Int) : Int :=
  sgn neg (if 0 ≤ e then m <<< e.toNat else rneShift m (-e).toNat)

/-- FP32 of an exact integer or dyadic value. -/
def fpOfDy (strict : Bool) (z : Int) (e : Int) : Word × Nat := fp32Round strict (decide (z < 0)) z.natAbs e

/-- Precision, least exponent, largest finite mantissa and its exponent, and the encoding of the largest
finite value, of a narrowing target (02 R30, R49). -/
def targetShape (code : Nat) : Nat × Int × Nat × Int × Nat :=
  match code with
  | 1 => (11, -14, 2047, 5, 0x7BFF)
  | 2 => (8, -126, 255, 120, 0x7F7F)
  | 3 => (4, -6, 7, 6, 0x7E)
  | 4 => (3, -14, 3, 15, 0x7E)
  | 5 => (3, -2, 7, 2, 0x1F)
  | 6 => (4, 0, 15, -1, 0x1F)
  | 8 => (7, 0, 127, 0, 0x7F)
  | 9 => (3, 0, 7, 0, 0x7)
  | _ => (2, 0, 3, 1, 0x07)

/-- How a conversion rounds: nearest even, or stochastically with 16 drawn bits. -/
def convRound (sr : Option Nat) (p : Nat) (emin : Int) (m : Nat) (e : Int) : Nat × Int × Bool :=
  match sr with
  | none => roundMag p emin m e
  | some u => roundMagSR u p emin m e

/-- The flags of a NaN input of a conversion: strict mode sees signalling NaNs (02 R46, R55). -/
def convNanFlags (strict : Bool) (w : Word) (fl : Nat) : Nat :=
  fl ||| (if strict && isSnan w then flSNAN ||| flNV else 0)

/-- A narrowing conversion (02 R49, R50, R53, R534): target code, IEEE mode, strict, rounding, the scale exponent
(`none` for the DS8 byte 0xFF), the FP32 input. Answers the encoding and the flags. -/
def narrow (code : Nat) (ieee strict : Bool) (sr : Option Nat) (xs : Option Int) (w : Word) : Nat × Nat :=
  let neg := w.getLsbD 31
  if isDI code then
    let lo : Nat := if code = 8 then 128 else 8
    match xs, ofFp32 w with
    | none, _ => (0, convNanFlags strict w flCNAN)
    | some _, .nan w => (0, convNanFlags strict w flCNAN)
    | some _, .inf n => (if n then lo else lo - 1, flCSAT)
    | some x, .fin n m e =>
      let r : Nat := match sr with
        | none => if 0 ≤ e - x then m <<< (e - x).toNat else rneShift m (x - e).toNat
        | some u =>
          if 0 ≤ e - x then m <<< (e - x).toNat
          else
            let sh := (x - e).toNat
            let h := m >>> sh
            if u < ((m - (h <<< sh)) <<< 16) >>> sh then h + 1 else h
      if n then
        (if lo < r then (lo, flCSAT) else ((2 * lo - r) % (2 * lo), if r = 0 ∧ m ≠ 0 then flUF else 0))
      else (if lo - 1 < r then (lo - 1, flCSAT) else (r, if r = 0 ∧ m ≠ 0 then flUF else 0))
  else
    let (p, emin, mm, me, top) := targetShape code
    let bits := fmtBits code - 1
    let ovf := if code ≤ 2 then
        (if ieee then (withSign neg bits (if code = 1 then 0x7C00 else 0x7F80), flOF)
         else (withSign neg bits top, flCSAT))
      else if code ≤ 4 then
        (if ieee then (withSign neg bits 0x7F, flOF) else (withSign neg bits top, flCSAT))
      else (withSign neg bits top, if ieee then flOF else flCSAT)
    let nanOut : Word → Nat × Nat := fun w =>
      if code = 1 then
        (withSign neg bits (if strict && ieee then 0x7E00 ||| ((w.toNat % 2 ^ 23) >>> 13) else 0x7E00), convNanFlags strict w flNAN)
      else if code = 2 then
        (withSign neg bits (if strict && ieee then 0x7FC0 ||| ((w.toNat % 2 ^ 23) >>> 16) else 0x7FC0), convNanFlags strict w flNAN)
      else if code ≤ 4 then (withSign neg bits 0x7F, convNanFlags strict w flNAN)
      else (0, convNanFlags strict w flCNAN)
    match xs, ofFp32 w with
    | none, .nan w => nanOut w
    | none, _ => if code ≤ 4 then (withSign neg bits 0x7F, flNAN) else (0, flCNAN)
    | some _, .nan w => nanOut w
    | some _, .inf _ => ovf
    | some x, .fin n m e =>
      let (r, q, ex) := convRound sr p emin m (e - x)
      if magGt r q mm me then ovf
      else if r < 2 ^ (p - 1) ∧ code ≤ 2 ∧ !strict then
        (withSign n bits 0, if m = 0 then 0 else flUF)
      else
        (withSign n bits (encodeMag p (1 - emin) r q),
         if m ≠ 0 ∧ r < 2 ^ (p - 1) ∧ !ex then flUF else 0)

/-- floor(log2) of the magnitude of a finite non-zero FP32 pattern. -/
def fpLog2 (w : Word) : Int :=
  match ofFp32 w with
  | .fin _ m e => e + (m.log2 : Int)
  | _ => 0

/-- The block scale exponent of 02 R51 for a block of FP32 values. -/
def blockScale (code : Nat) (ws : List Word) : Int :=
  let amax := (ws.filter fun w => !isNan w && !isInf w).foldl (fun a w => max a (magBits w)) 0
  if amax = 0 then -127
  else
    let w : Word := BitVec.ofNat 32 amax
    let (_, _, mm, me, _) := targetShape code
    let x := fpLog2 w - ((mm.log2 : Int) + me)
    let big := match ofFp32 w with
      | .fin _ m e => magGt m e mm (me + x)
      | _ => false
    max (-127) (min 127 (if big then x + 1 else x))

/-- The finaliser of 02 R52. -/
def mix (x : Nat) : Nat :=
  let k := 2 ^ 64
  let z := (x + 0x9E3779B97F4A7C15) % k
  let z := ((z ^^^ (z >>> 30)) * 0xBF58476D1CE4E5B9) % k
  let z := ((z ^^^ (z >>> 27)) * 0x94D049BB133111EB) % k
  z ^^^ (z >>> 31)

/-- The 16 random bits of an element (02 R52): seed, stream, index. -/
def srBits (seed : DWord) (stream i : Nat) : Nat :=
  mix ((seed.toNat ^^^ ((stream % 2 ^ 24) <<< 40)) ^^^ (i % 2 ^ 40)) % 2 ^ 16

/-- The exponent of a DS8 byte; `none` for 0xFF (02 R33). -/
def ds8 (b : Nat) : Option Int := if b = 255 then none else some ((b : Int) - 127)

/-- The exact value of a dyadic as an FP64 pattern (round to nearest even), for the crema digest (15 R458). -/
def fp64Round (neg : Bool) (m : Nat) (e : Int) : Nat :=
  let (r, q, _) := roundMag 53 (-1022) m e
  if r = 0 then withSign neg 63 0
  else if 1024 ≤ (r.log2 : Int) + q then withSign neg 63 (0x7FF <<< 52)
  else withSign neg 63 (encodeMag 53 1023 r q)

/-- The value of an FP64 pattern; a NaN is the canonical one. -/
def ofFp64 (x : Nat) : FV :=
  let ex := (x >>> 52) % 2048
  let m := x % 2 ^ 52
  let neg := x.testBit 63
  if ex = 2047 then (if m = 0 then .inf neg else .nan qnan)
  else if ex = 0 then .fin neg m (-1074)
  else .fin neg (m + 2 ^ 52) ((ex : Int) - 1075)

/-- FP64 sum of patterns. -/
def fp64Add (x : Nat) (b : FV) : Nat :=
  match ofFp64 x, b with
  | .fin n m e, .fin n' m' e' =>
    let (z, k) := dySum (sgn n m) e (sgn n' m') e'
    if z = 0 then withSign (n && n' && (m == 0) && (m' == 0)) 63 0 else fp64Round (decide (z < 0)) z.natAbs k
  | .inf n, .inf n' => if n = n' then withSign n 63 (0x7FF <<< 52) else 0x7FF8000000000000
  | .inf n, .fin _ _ _ => withSign n 63 (0x7FF <<< 52)
  | .fin _ _ _, .inf n => withSign n 63 (0x7FF <<< 52)
  | _, _ => 0x7FF8000000000000

end Sys2Proof.Machine
end

