-- ==== Sys2Proof/Machine/Regs.lean ====
section
/-! DEFINITION. The set-up register map (spec 18 R518-R528): the number of every register in one
register space, its access masks (00 R11) and its reset value. A register of the PF view is numbered by its
BAR0 offset. The registers that belong to one VF (18 R524, R526) and the mailbox registers
(18 R531) have numbers above the 64 MiB of BAR0. -/

namespace Sys2Proof.Machine

/-- What the spec says of one register: the masks of its RW, W1C, SL and WO bits, its reset value, and the fields
(high, low, least, greatest) whose other values are reserved encodings (00 R10). -/
structure RegSpec where
  rw   : Nat := 0
  w1c  : Nat := 0
  sl   : Nat := 0
  wo   : Nat := 0
  rst  : Nat := 0
  rng  : List (Nat × Nat × Nat × Nat) := []
  deriving DecidableEq, Repr

/-- Number of context `c`'s register at offset `o` (18 R518, R528). -/
def kCtx (c o : Nat) : Nat := 0x40000 + 256 * c + o
/-- Number of partition `p`'s register at offset `o` (18 R518, R523). -/
def kPart (p o : Nat) : Nat := 0x100000 + 0x4000 * p + o
/-- Number of cluster `c`'s register at offset `o` (18 R518, R527). -/
def kCl (c o : Nat) : Nat := 0x200000 + 0x1000 * c + o
/-- Number of core `n`'s register at offset `o` (18 R518, R527). -/
def kCore (n o : Nat) : Nat := 0x400000 + 0x1000 * n + o
/-- Number of VF `v`'s own register at offset `o` of its slice (18 R524). -/
def kVf (v o : Nat) : Nat := 0x4000000 + 0x10000 * v + o
/-- Number of the mailbox register at offset `o` of function `f`'s BAR4 (18 R531). -/
def kMb (f o : Nat) : Nat := 0x5000000 + 0x10000 * f + o
/-- Number of the Span block register of port `p` on X-die `x` (09 R285). -/
def kPort (x p o : Nat) : Nat := 0x1100 + 0x100 * x + 16 * p + o
/-- Number of reduction channel `k`'s register at offset `o` (13 R419). -/
def kRdc (k o : Nat) : Nat := 0x2000 + 0x40 * k + o
/-- Number of stack `s`'s error log register at offset `o` (18 R522). -/
def kSel (s o : Nat) : Nat := 0x3000 + 0x20 * s + o

def regRO : RegSpec := {}
def regCount : RegSpec := {}
def regRW (m : Nat) : RegSpec := { rw := m }

/-- Context set-up block (18 R528; 10 R291, 02 R56, 05 R151, 15 R443, 06 R162, 07 R192, 11 R342,
14 R426). -/
def ctxSpec (o : Nat) : Option RegSpec := match o with
  | 0x00 => some { rw := 0xFFFFF000 }
  | 0x04 => some { rw := 0xFFFFFFFF }
  | 0x08 => some { rw := 0x8000011F, rst := 4, rng := [(4, 0, 4, 16)] }
  | 0x0C => some regRO
  | 0x10 => some { rw := 0xFFFFF000 }
  | 0x14 => some { rw := 0xFFFFFFFF }
  | 0x18 => some { rw := 0xFFFFFFFF, rst := 4, rng := [(4, 0, 4, 16)] }
  | 0x1C => some { rst := 0x10000 }
  | 0x20 => some { rst := 0x40000000 }
  | 0x24 => some regRO
  | 0x28 => some regCount
  | 0x2C => some { rw := 0xFFFFE000 }
  | 0x40 => some { rw := 3 }
  | 0x44 => some { rw := 0xFFFFFFFF }
  | 0x48 => some { rw := 0xFFFFFFFF }
  | 0x4C => some { w1c := 0xFF }
  | 0x50 => some { rw := 1 }
  | 0x54 => some { rw := 0xFFFE0000 }
  | 0x60 => some { rw := 0xFFFFC000, rng := [(31, 24, 1, 255), (23, 19, 1, 16)] }
  | 0x64 => some { rw := 0xFFFF }
  | 0x68 => some { rw := 0xFFFFFFC0 }
  | 0x6C => some { rw := 0xFFFF }
  | 0x70 => some { rw := 0xFFFFFFC0 }
  | 0x74 => some { rw := 0xFFFF }
  | 0x78 => some { rw := 0xFFFFFFC0 }
  | 0x7C => some { rw := 0xFFFF }
  | 0x80 => some { rw := 0xFFFFFFFF, rng := [(31, 0, 0, 0xFFFFFFFE)] }
  | 0x84 => some { rw := 0xFFFFFFFF }
  | 0x88 => some regRO
  | 0x90 => some { rw := 0xFFFFFFF0 }
  | 0x94 => some { rw := 0xFFFF }
  | 0x98 => some { rw := 0x1FF, rng := [(8, 0, 0, 256)] }
  | 0x9C => some { rw := 0xFFFFFFFF }
  | 0xA0 => some regRO
  | 0xA4 => some { sl := 0x3F, rng := [(5, 0, 0, 32)] }
  | 0xA8 => some { sl := 0x1F1F1F1F }
  | 0xAC => some { sl := 0x1F1F1F1F }
  | 0xB0 => some { sl := 0x1F1F1F1F }
  | 0xB4 => some { sl := 0x1F1F1F1F }
  | 0xB8 => some { sl := 0x1F1F1F1F }
  | 0xBC => some { sl := 0x1F1F1F1F }
  | 0xC0 => some { sl := 0x1F1F1F1F }
  | 0xC4 => some { sl := 0x1F1F1F1F }
  | 0xC8 => some regCount
  | 0xCC => some regCount
  | 0xD0 => some { w1c := 0x80000000 }
  | 0xD4 => some regRO
  | 0xD8 => some regRO
  | 0xDC => some regRO
  | 0xE0 => some regRO
  | 0xE4 => some regRO
  | 0xE8 => some regCount
  | 0xEC => some { wo := 1 }
  | 0xF0 => some { rw := 0xC0000000, wo := 0x38000000 }
  | 0xF4 => some { rw := 0xFFFFFFFF }
  | 0xF8 => some { rw := 0xFFFFFFFF }
  | 0xFC => some regRO
  | _ => none

/-- Memory counter block (08 R241). -/
def memCtrSpec (o : Nat) : Option RegSpec := match o with
  | 0x00 => some regCount
  | 0x04 => some regCount
  | 0x08 => some regCount
  | 0x0C => some regCount
  | 0x10 => some regCount
  | 0x14 => some { w1c := 0xFFFFFFFF }
  | 0x18 => some { rw := 0xFFFF, w1c := 0x10000, rst := 0x1000, rng := [(15, 0, 1, 65535)] }
  | 0x1C => some { wo := 1 }
  | _ => none

/-- One tap of a crema block (15 R456). -/
def cremaSpec (o : Nat) : Option RegSpec := match o with
  | 0x00 => some { rw := 0xFFF803FF }
  | 0x04 => some { rw := 0x01FFFFC0 }
  | 0x08 => some { rw := 0x01FFFFC0 }
  | 0x0C => some regCount
  | 0x10 => some regCount
  | 0x14 => some regCount
  | 0x18 => some { rst := 0x7F800000 }
  | 0x1C => some { rst := 0xFF800000 }
  | 0x20 => some regCount
  | 0x24 => some regCount
  | 0x28 => some regCount
  | 0x2C => some regCount
  | 0x30 => some regCount
  | 0x34 => some regCount
  | 0x38 => some regCount
  | _ => none

/-- One region register entry (08 R220). -/
def regionSpec (o : Nat) : Option RegSpec := match o with
  | 0x0 => some { sl := 0xF80003FF }
  | 0x4 => some { sl := 0xFFFFFFC0 }
  | 0x8 => some { sl := 0xFFFFFFC0 }
  | 0xC => some { sl := 0xFFFFFFFF }
  | _ => none

/-- A four-counter block with a status word at 0x20 and a clear register at 0x24 (05 R152,
06 R188, 07 R211). -/
def fourCtrSpec (o : Nat) : Option RegSpec :=
  if o < 0x24 then some regCount else if o = 0x24 then some { wo := 1 } else none

/-- Core block (18 R527): matrix counters (03 R90), vector counters (05 R152), memory counters
(08 R241), Grind slots (04 R110), residency (11 R340), crema taps (15 R456), region sets
(08 R220). -/
def coreSpec (o : Nat) : Option RegSpec :=
  if o < 0x44 then some regCount
  else if o = 0x44 then some { wo := 1 }
  else if 0x80 ≤ o ∧ o < 0xA8 then fourCtrSpec (o - 0x80)
  else if 0x100 ≤ o ∧ o < 0x120 then memCtrSpec (o - 0x100)
  else if 0x140 ≤ o ∧ o < 0x180 then
    (if o % 8 = 0 then some { rw := 0x7F } else some { rw := 0x7FFF })
  else if 0x180 ≤ o ∧ o < 0x1C0 then
    (if o % 8 = 0 then some { sl := 0x800003FF }
     else some { sl := 0x1FFF0FFF, rng := [(28, 16, 0, 4096)] })
  else if o = 0x1C0 ∨ o = 0x1C4 then some regCount
  else if 0x200 ≤ o ∧ o < 0x300 then cremaSpec (o % 0x40)
  else if 0x400 ≤ o ∧ o < 0x900 then regionSpec (o % 16)
  else none

/-- Cluster block (18 R527): memory, page, gate and combine counters, crema taps, region sets. -/
def clusterSpec (o : Nat) : Option RegSpec :=
  if o < 0x20 then memCtrSpec o
  else if 0x40 ≤ o ∧ o < 0x68 then fourCtrSpec (o - 0x40)
  else if 0x80 ≤ o ∧ o < 0xA8 then fourCtrSpec (o - 0x80)
  else if 0x100 ≤ o ∧ o < 0x200 then cremaSpec (o % 0x40)
  else if 0x400 ≤ o ∧ o < 0x700 then regionSpec (o % 16)
  else none

/-- Snapshot block (15 R453). -/
def snpSpec (o : Nat) : Option RegSpec := match o with
  | 0x00 => some { rw := 0x40000000, wo := 0x80000000 }
  | 0x04 => some regRO
  | 0x08 => some { rw := 0xFFFFFFC0 }
  | 0x0C => some { rw := 0xFFFFFFFF }
  | 0x10 => some { rw := 0xFFFFFFC0 }
  | 0x14 => some regRO
  | 0x18 => some regRO
  | 0x1C => some regRO
  | _ => none

/-- Partition Span block (09 R259, R261, R284). -/
def pspanSpec (o : Nat) : Option RegSpec :=
  if o = 0 then some regRO
  else if o = 4 then some { w1c := 7 }
  else if 0x400 ≤ o ∧ o < 0x600 then
    (if o % 8 = 0 then some { sl := 0x801FFFFF } else some { sl := 0xFFFF })
  else if 0x800 ≤ o ∧ o < 0x1000 then match o % 32 with
    | 0x00 => some { sl := 0xB9FF8000 }
    | 0x04 => some { sl := 0xFFFFFFFF }
    | 0x08 => some { sl := 0xFFFFFFC0 }
    | 0x0C => some { sl := 0xFFFFFFC0 }
    | 0x10 => some { sl := 0xFFFFFFFF }
    | _ => none
  else if 0x1000 ≤ o ∧ o < 0x1018 then some regCount
  else if o = 0x1018 then some { wo := 1 }
  else none

/-- Partition block (18 R523): control (11 R337), security (12 R398), recovery (14 R442), snapshot
(15 R453), dump (15 R460), power (16 R501), HBM counters (08 R242), Span, HBM share (08 R229), Span ingress and
host DMA region sets (08 R220). -/
def partSpec (o : Nat) : Option RegSpec :=
  if o < 0x24 then some regRO
  else if 0x40 ≤ o ∧ o < 0x60 then some regRO
  else if 0x80 ≤ o ∧ o < 0xB0 then some regRO
  else if 0x100 ≤ o ∧ o < 0x138 then match o with
    | 0x100 => some { sl := 1 }
    | 0x104 => some { rw := 0x0FFFFFFF, rst := 0x01D4C00, rng := [(27, 0, 192, 192000000)] }
    | 0x108 => some { wo := 1 }
    | 0x118 => some { w1c := 0x80000000 }
    | 0x134 => some { w1c := 0x80000000 }
    | _ => some regRO
  else if 0x180 ≤ o ∧ o < 0x1A0 then snpSpec (o - 0x180)
  else match o with
    | 0x1C0 => some { rw := 0x40000000, sl := 0x80000000 }
    | 0x1C4 => some { sl := 0xFFFF }
    | 0x1C8 => some { rw := 0xFFFFFFC0 }
    | 0x1CC => some { rw := 0xFFFF }
    | 0x1D0 => some { rw := 0x7F, rng := [(6, 0, 0, 64)] }
    | 0x1D4 => some { w1c := 0x7FFFFFF }
    | 0x1D8 => some { w1c := 0x80000000 }
    | 0x200 => some { sl := 1 }
    | 0x204 => some { rst := 4 }
    | 0x208 => some { rst := 0x100 }
    | 0x20C => some regCount
    | 0x210 => some regCount
    | 0x25C => some { w1c := 0xFFFF }
    | 0x260 => some { rw := 0xFFFFF, rst := 0x4B00, rng := [(19, 0, 192, 1048575)] }
    | 0x2400 => some { sl := 1 }
    | 0x2404 => some { sl := 0xFFFFFFFF }
    | 0x2408 => some { sl := 0xFFFFFFFF }
    | 0x240C => some { sl := 0xFFFFFFFF }
    | 0x2410 => some { sl := 0xFFFFFFFF }
    | 0x2414 => some { sl := 0xFFFFFFFF }
    | 0x2418 => some { sl := 0x3FFFFFF }
    | 0x241C => some { sl := 0x3FFFFFF, rng := [(25, 0, 0, 50331648)] }
    | 0x2420 => some { sl := 0x3FFFFFF }
    | 0x2424 => some { sl := 0x3FFFFFF }
    | 0x2428 => some regRO
    | 0x242C => some regRO
    | _ =>
      if 0x240 ≤ o ∧ o < 0x25C then some regRO
      else if 0x1000 ≤ o ∧ o < 0x201C then pspanSpec (o - 0x1000)
      else if 0x2800 ≤ o ∧ o < 0x2A00 then regionSpec (o % 16)
      else none

/-- Reduction channel block (13 R419). -/
def rdcSpec (o : Nat) : Option RegSpec := match o with
  | 0x00 => some { sl := 0x8000001F }
  | 0x04 => some { rw := 0x0FFF1FFF }
  | 0x08 => some { rw := 0xFFFFFFF0 }
  | 0x0C => some { rw := 0xFFFF }
  | 0x10 => some { rw := 0xFFFFFFC0 }
  | 0x14 => some { rw := 0xFFFF }
  | 0x18 => some { rw := 0xFFFFFFFF }
  | 0x1C => some { rw := 0x0FFFFFFF, rst := 0x002EE00, rng := [(27, 0, 192, 192000000)] }
  | 0x20 => some regRO
  | 0x24 => some regRO
  | 0x28 => some regCount
  | 0x2C => some regCount
  | 0x30 => some { wo := 1 }
  | 0x34 => some { rw := 0xFFFF }
  | _ => none

/-- Device Span block (09 R285), offsets from 0x1000. -/
def dspanSpec (o : Nat) : Option RegSpec :=
  if o < 8 then some regRO
  else if o = 8 then some { rw := 0x0FFFFFFF, rst := 0x002EE00, rng := [(27, 0, 192, 192000000)] }
  else if o < 0x14 then some regCount
  else if 0x100 ≤ o ∧ o < 0x300 then
    (if o % 16 = 0 then some { rw := 0x80000003, rng := [(1, 0, 0, 1)] } else some regRO)
  else none

/-- Device region (18 R520-R522): information, power (16 R500), thermal (17 R517), security
(12 R399), counters (15 R450), snapshot, Span, reduction channels, stack error logs. The reset value of PCAP is
the assembly's and is listed by the State itself. -/
def devSpec (o : Nat) : Option RegSpec :=
  if 0x200 ≤ o ∧ o < 0x2D8 then some { rst := 0x8000 }
  else if 0x400 ≤ o ∧ o < 0x414 then some regRO
  else if 0x800 ≤ o ∧ o < 0x874 then (if o = 0x868 then some { rst := 0x100 } else some regCount)
  else if o = 0x874 then some { wo := 1 }
  else if 0x900 ≤ o ∧ o < 0x920 then snpSpec (o - 0x900)
  else if 0x1000 ≤ o ∧ o < 0x1300 then dspanSpec (o - 0x1000)
  else if 0x2000 ≤ o ∧ o < 0x2400 then rdcSpec (o % 0x40)
  else if 0x3000 ≤ o ∧ o < 0x3180 then
    (if 16 ≤ o % 0x20 then none else if o % 0x20 = 8 then some { w1c := 0x80000000 } else some regRO)
  else match o with
    | 0x00 => some { rst := 0x4200 }
    | 0x08 => some regRO
    | 0x0C => some regRO
    | 0x10 => some regCount
    | 0x14 => some { wo := 1 }
    | 0x100 => some regRO
    | 0x104 => some { w1c := 0xF }
    | 0x108 => some regRO
    | 0x10C => some regRO
    | 0x110 => some { rw := 0xFFFF }
    | 0x114 => some { rw := 0xFFFF, rst := 0x0A28, rng := [(15, 0, 24, 2600)] }
    | 0x118 => some regRO
    | 0x11C => some regRO
    | 0x120 => some { rst := 0xFFFFFFFF }
    | 0x124 => some { rst := 0xFFFFFFFF }
    | 0x128 => some { rw := 0xFFFF, rst := 0x40 }
    | 0x12C => some regRO
    | _ => none

/-- What the spec says of the register numbered `k`; `none` for a reserved offset (18 R518, R519). -/
def regSpec (k : Nat) : Option RegSpec :=
  if k % 4 ≠ 0 then none
  else if k < 0x10000 then devSpec k
  else if 0x40000 ≤ k ∧ k < 0x80000 then ctxSpec (k % 0x100)
  else if 0x100000 ≤ k ∧ k < 0x180000 then partSpec (k % 0x4000)
  else if 0x200000 ≤ k ∧ k < 0x220000 then clusterSpec (k % 0x1000)
  else if 0x400000 ≤ k ∧ k < 0x600000 then coreSpec (k % 0x1000)
  else if 0x4000000 ≤ k ∧ k < 0x4210000 then match k % 0x10000 with
    | 0x3010 => some regCount
    | 0x3014 => some { wo := 1 }
    | 0x3018 => some { rw := 0x1F }
    | _ => none
  else if 0x5000000 ≤ k ∧ k < 0x5210000 then match k % 0x10000 with
    | 0x0 => some { wo := 1 }
    | 0x4 => some { rw := 0xFF01FFFF }
    | 0x8 => some { w1c := 0x40000000 }
    | 0xC => some regRO
    | 0x10 => some regRO
    | _ => none
  else none

/-- The reset value of the register numbered `k`. -/
def regReset (k : Nat) : Word := match regSpec k with
  | some r => BitVec.ofNat 32 r.rst
  | none => 0

/-- Whether a register value is what an unlisted register reads as. -/
def regIsReset (k : Nat) (v : Word) : Bool := v == regReset k

/-- The 64-bit counters and times whose low word latches the high word when read (03 R91 and the
rules that name it): the numbers of their low words. Register pairs that are no counters do not latch. -/
def isCounterLo (k : Nat) : Bool :=
  if k = 0x8 then true
  else if 0x800 ≤ k ∧ k < 0x868 then k % 8 = 0
  else if 0x400000 ≤ k ∧ k < 0x600000 then
    let o := k % 0x1000
    (o < 0x40 && o % 8 = 0) || (0x80 ≤ o && o < 0xA0 && o % 8 = 0) || o = 0x100 || o = 0x108 ||
    (0x200 ≤ o && o < 0x300 && (o % 0x40 = 0x20 || o % 0x40 = 0x28 || o % 0x40 = 0x30))
  else if 0x200000 ≤ k ∧ k < 0x220000 then
    let o := k % 0x1000
    o = 0 || o = 8 || (0x40 ≤ o && o < 0x60 && o % 8 = 0) || (0x80 ≤ o && o < 0xA0 && o % 8 = 0) ||
    (0x100 ≤ o && o < 0x200 && (o % 0x40 = 0x20 || o % 0x40 = 0x28 || o % 0x40 = 0x30))
  else if 0x100000 ≤ k ∧ k < 0x180000 then
    let o := k % 0x4000
    o = 0x20C || o = 0x240 || o = 0x248 || o = 0x2000 || o = 0x2008
  else false

end Sys2Proof.Machine
end

