-- ==== Sys2Proof/Machine/State.lean ====
section
/-! DEFINITION. The state of a DX-9: every register, memory, queue, mode and pin the spec gives the
module, as plain data; the reasons a step can stop; the state after reset. -/

namespace Sys2Proof.Machine

/-- A fault of a context while it is being raised: reason code, address, remote module, and the unit class and
unit number of 11 R344 (14 R426). -/
structure Flt where
  reason : Nat
  addr   : Nat := 0
  modnum : Nat := 0
  cls    : Nat := 15
  unit   : Nat := 0
  deriving DecidableEq, Repr

/-- One rescale entry of a drain (04 R102). -/
structure Rescale where
  mult  : Word := 0
  shift : Nat := 0
  rnd   : Bool := false
  deriving DecidableEq, Repr

/-- An engine command that has been issued and has not completed, with what it sampled when it started (02 R57), and the bytes a
SPCOPY with a digest has received so far, by offset (09 R275). -/
structure EngCmd where
  core    : Nat
  ctx     : Nat
  env     : Env
  cseq    : Nat
  strict  : Bool := false
  satm    : Bool := false
  compat  : Bool := false
  seed    : DWord := 0
  banks   : Nat := 0
  running : Bool := false
  grind   : List Word := []
  status  : Word := 0
  got     : List (Nat × List Byte) := []
  pay     : Option Pay := none
  deriving DecidableEq, Repr

/-- An expert output row on its way from a drain to the combine engine of cluster `dst` (07 R204, R205): route descriptor
address and, once read, its bytes; first column; group and row. -/
structure CombineRow where
  core : Nat
  ctx  : Nat
  cseq : Nat
  dst  : Nat
  rd   : Nat
  desc : List Byte := []
  col  : Nat
  grp  : Nat
  row  : Nat
  strict : Bool
  data : List Word
  deriving DecidableEq, Repr

/-- A key or value row on its way from a drain to the page engine (06 R170-R172): element bytes and scale bytes. -/
structure PourRow where
  core : Nat
  ctx  : Nat
  cseq : Nat
  slot : Nat
  layer : Nat
  group : Nat
  isV  : Bool
  pos  : Option Nat
  elems : List Byte
  scales : List Byte
  deriving DecidableEq, Repr

/-- A page that is full and not yet sealed, at the page engine of cluster `cl` (06 R174). -/
structure FullPage where
  cl     : Nat
  ctx    : Nat
  stream : Nat
  page   : Nat
  deriving DecidableEq, Repr

/-- What a context's rings hold beside their registers (10 R289-R300). -/
structure Ring where
  tail    : Nat := 0
  cqHead  : Nat := 0
  resv    : Nat := 0
  bound   : Option Nat := none
  modCnt  : Nat := 0
  stopped : Bool := false
  deriving DecidableEq, Repr

/-- Where a fetched submission stands (10 R295, R304, R307, R324). -/
inductive SubSt where
  | fetched | held | input | running | fetchedGroup | staged | done
  deriving DecidableEq, Repr

/-- A fetched submission (10 R294-R309), with the device time at which it finished. -/
structure Sub where
  ctx      : Nat
  seq      : Nat
  v1       : Bool
  ent      : List Byte
  st       : SubSt := .fetched
  out      : List (Nat × List Byte) := []
  status   : Nat := 0
  reason   : Nat := 0
  result   : Nat := 0
  time     : Nat := 0
  deadline : Option Nat := none
  gdata    : List Byte := []
  deriving DecidableEq, Repr

/-- One entry table record (10 R312). -/
structure EntryRec where
  ncore  : Nat
  first  : Nat
  pc     : Nat
  inoff  : Nat
  inmax  : Nat
  outoff : Nat
  outmax : Nat
  deriving DecidableEq, Repr

/-- One manifest record: type, entry field, body (10 R313). -/
structure MRec where
  typ   : Nat
  entry : Nat
  body  : List Byte
  deriving DecidableEq, Repr

/-- A bound image slot (10 R306, 11 R354); `codes` are its CODE sections, as relative core and offset. -/
structure Image where
  pid     : Nat
  slot    : Nat
  ctx     : Nat
  base    : Nat
  digest  : List Byte
  entries : List EntryRec
  recs    : List MRec
  codes   : List (Nat × Nat) := []
  last    : Nat
  deriving DecidableEq, Repr

/-- Where a staged group came from (10 R324). -/
inductive GroupSrc where
  | commit (seq : Nat)
  | cg (core oaddr : Nat)
  deriving DecidableEq, Repr

/-- A staged commit group (10 R322). -/
structure Group where
  pid   : Nat
  owner : Nat
  src   : GroupSrc
  gtag  : Nat
  tmo   : Nat
  acts  : List (List Byte)
  deriving DecidableEq, Repr

/-- A commit drain: the submissions it waits for (10 R325). -/
structure Drain where
  pid   : Nat
  waits : List (Nat × Nat)
  deriving DecidableEq, Repr

/-- An open period (11 R350). -/
structure Period where
  ctx   : Nat
  slot  : Nat
  entry : Nat
  opened : Nat
  runs  : Nat
  deriving DecidableEq, Repr

/-- A budget counter: an entry's declared count on a unit and what the open period has used of it (11 R351). -/
structure Budget where
  ctx  : Nat
  slot : Nat
  entry : Nat
  cls  : Nat
  unit : Nat
  limit : Nat
  used : Nat := 0
  deriving DecidableEq, Repr

/-- What a PID holds beside its registers. -/
structure Part where
  drip    : Bool := false
  gset    : List Nat := []
  inForce : Bool := false
  mek     : Nat := 0
  kb      : List Byte := []
  kbEpoch : Nat := 0
  cnts    : List Nat := [0, 0, 0, 0]
  kex     : List Byte := []
  sess    : Bool := false
  keys    : List (Nat × BitVec 256) := []
  go      : List Nat := []
  rstCause : Option Nat := none
  destroyWaits : Bool := false
  deriving DecidableEq, Repr

/-- What a Span tag's response does when it arrives (09 R263, R270-R274). -/
inductive TagUse where
  | pull (dst : Nat)
  | push
  | load
  | retired
  deriving DecidableEq, Repr

/-- An outstanding or held Span tag (09 R268): the window, module and port it went to and the target address. A control core's request has
`cseq` 65536. -/
structure Tag where
  tag    : Nat
  pid    : Nat
  ctx    : Nat
  core   : Nat
  cseq   : Nat
  win    : Nat
  mod    : Nat
  addr   : Nat
  port   : Nat := 0
  use    : TagUse
  deriving DecidableEq, Repr

/-- A Span access that waits for its window's port (09 R269). -/
structure SpanWait where
  pid  : Nat
  win  : Nat
  port : Nat
  tag  : Tag
  pkt  : Pkt
  deriving DecidableEq, Repr

/-- The link of one Span port (09 R246-R252, R282). Numbered 16x + p. `txq` holds packets to send, each with its VC and its flits; `mid` says
that the first has begun. `turn` and `unit` are the VC and the requesting unit served last, `half` that the port came up on two lanes, `rate` the lane rate
it trained at, `sent` the DATA flits sent on each VC. `rxSlots` is the packet that has begun to arrive. A hang snapshot's capture has its identifier, what was outbound, the inbound headers, the ECHO's sequence, and whether the port gave up
waiting for the ECHO. -/
structure Link where
  txSeq   : Nat := 0
  rxSeq   : Nat := 0
  naking  : Bool := false
  unacked : List Flit := []
  txq     : List (Nat × List Flit) := []
  mid     : Bool := false
  turn    : Nat := 0
  unit    : Nat := 0
  half    : Bool := false
  rate    : Nat := 0
  sent    : List Nat := [0, 0, 0, 0]
  credits : List Nat := [0, 0, 0, 0]
  freed   : List Nat := [0, 0, 0, 0]
  rxSlots : List Byte := []
  replays : Nat := 0
  repSeq  : Nat := 0
  capId   : Option Nat := none
  capIn   : List DWord := []
  capOut  : List DWord := []
  capEnd  : Option Nat := none
  capDone : Bool := false
  deriving DecidableEq, Repr

/-- An unacknowledged notice to the fabric manager (09 R280). -/
structure Notice where
  seq : Nat
  opc : Nat
  payload : List Byte
  deriving DecidableEq, Repr

/-- Everything a Span port sends to its link partner, in order. -/
inductive SpanOut where
  | flit (port : Nat) (f : Flit)
  | pkt (port : Nat) (k : Pkt)
  | red (port : Nat) (k : RedPkt)
  deriving DecidableEq, Repr

/-- A post on a reduction channel (13 R411), with what its command sampled; `bad` when a reserved field was not 0. -/
structure Post where
  core : Nat
  ctx  : Nat
  cseq : Nat
  bd   : Nat
  step : Nat
  bseq : Nat
  last : Bool
  strict : Bool
  satm : Bool
  bad  : Bool
  deriving DecidableEq, Repr

/-- One member table entry (13 R416). -/
structure Memb where
  modnum : Nat
  pid    : Nat
  port   : Nat
  epoch  : Nat
  v      : Bool
  deriving DecidableEq, Repr

/-- A bucket maximum of a member (13 R404, R410), with the module, partition and epoch that its packet came from. -/
structure Maximum where
  member : Nat
  smod   : Nat
  spid   : Nat
  sepoch : Nat
  step   : Nat
  bseq   : Nat
  cfg    : Nat
  a      : Word
  nf     : Bool
  deriving DecidableEq, Repr

/-- The current bucket of a channel (13 R404, R405): its post, descriptor and member table; the maxima received; whether phase 2 has
run; the bucket maximum, the exponent, the elements selected; counts announced and elements received from each member; whether the home has sent
its results; results received from each home; flags. -/
structure Bucket where
  post   : Post
  desc   : List Byte
  membs  : List Memb
  self   : Nat
  maxima : List Maximum
  phase2 : Bool := false
  m      : Word := 0
  nf     : Bool := false
  x      : Int := 0
  rows   : Nat := 0
  counts : List (Nat × Nat) := []
  got    : List (Nat × Nat) := []
  homeDone : Bool := false
  resGot : List (Nat × Nat) := []
  flags  : Nat := 0
  deriving DecidableEq, Repr

/-- A reduction channel beside its registers (13 R409, R410): queued posts, the current bucket, the next-maximum table, whether a
step has begun and not ended. -/
structure RedCh where
  posts : List Post := []
  cur   : Option Bucket := none
  next  : List Maximum := []
  inStep : Bool := false
  deriving DecidableEq, Repr

/-- A snapshot scope in progress: pid 0-31, or 32 for the device (15 R451-R455). -/
structure Snap where
  pending : Bool := false
  recs    : List (List Byte) := []
  deriving DecidableEq, Repr

/-- A dump in progress (15 R461, R462). -/
structure Dump where
  pid   : Nat
  entry : Nat
  ctx   : Nat
  data  : List Byte
  dcl   : Nat
  dsem  : Nat
  deriving DecidableEq, Repr

/-- The kinds of SPDM and IDE_KM answers on a DOE mailbox (12 R385-R387). -/
inductive SpdmRsp where
  | version | capabilities | algorithms | digests | certificate | challengeAuth | measurements | lwKex | finish
  | keyUpdate | heartbeat | endSession | ideQuery | ideAck | refused
  deriving DecidableEq, Repr

/-- What the device sends over the host link, in order: reads and writes of host memory, each with the requester's function (10 R289) and, where
it travels on one, the partition whose IDE stream it is (12 R387); MSI-X messages (10 R296); answers on DOE mailboxes (12 R385). -/
inductive HostOut where
  | read (fn : Nat) (ide : Option Nat) (addr n : Nat)
  | write (fn : Nat) (ide : Option Nat) (addr : Nat) (relaxed : Bool) (data : List Byte)
  | msi (fn vec : Nat)
  | doe (fn : Nat) (rsp : SpdmRsp) (data : List Byte)
  deriving DecidableEq, Repr

/-- The engines of the cores and clusters beside their registers and memories. `starts` is where the program of each core began, by core and
context (10 R312). `active` is what each unit serves, `credit` the service credit of each context on each unit (11 R535). -/
structure Engines where
  sticky   : List Nat := []
  rescale  : List (Nat × Rescale) := []
  banks    : List Nat := []
  shadow   : List Nat := []
  sems     : List (Nat × BitVec 16) := []
  cmds     : List EngCmd := []
  cseq     : List (Nat × BitVec 16) := []
  recs     : List (Nat × Nat) := []
  cmbRows  : List CombineRow := []
  pourRows : List PourRow := []
  full     : List FullPage := []
  loads    : List (Nat × DWord) := []
  starts   : List (Nat × Nat) := []
  active   : List (Nat × Nat) := []
  credit   : List (Nat × Int) := []
  deriving DecidableEq, Repr

/-- Rings, submissions, images, groups, periods and budgets. `admq` holds the LOADIMGs that have reached the RTP, in order (11 R343). -/
structure Jobs where
  rings   : List (Nat × Ring) := []
  subs    : List Sub := []
  images  : List Image := []
  admq    : List (Nat × Nat) := []
  wptr    : List (Nat × (Nat × Nat)) := []
  groups  : List Group := []
  drains  : List Drain := []
  heldBack : List (Nat × Nat) := []
  periods : List Period := []
  budgets : List Budget := []
  resetting : List (Nat × Nat) := []
  deriving DecidableEq, Repr

/-- The Span fabric of the module. Of the fabric manager session (12 R388): its messages sent and received, the fragments of the set-up's current
attempt, OFFER, REPLY and the handshake secret between them, the keys of the two directions. -/
structure Span where
  links   : List (Nat × Link) := []
  tags    : List Tag := []
  waits   : List SpanWait := []
  out     : List SpanOut := []
  notices : List Notice := []
  seq     : Nat := 0
  sessTx  : Nat := 0
  sessRx  : Nat := 0
  frags   : List (Nat × List Byte) := []
  annPort : Bool := false
  attempt : Nat := 0
  offer   : List Byte := []
  reply   : List Byte := []
  offerKey : List Byte := []
  keyTx   : List Byte := []
  keyRx   : List Byte := []
  deriving DecidableEq, Repr

/-- The root-of-trust processor and the security state. -/
structure Sec where
  ready    : Bool := false
  misses   : Nat := 0
  hasImage : Bool := false
  runDigest : List Byte := []
  pref     : Option Bool := none
  flash    : List (Nat × Byte) := []
  svnMin   : Nat := 0
  dbgFuse  : Bool := false
  nonce    : List Byte := []
  fmroot   : List Byte := []
  mekSerial : Nat := 0
  mailBusy : List (Nat × Nat) := []
  bodies   : List (Nat × List Byte) := []
  spdm     : List (Nat × Nat) := []
  log      : List (Nat × Nat) := []
  crashUnreach : List (Nat × Nat) := []
  deriving DecidableEq, Repr

/-- Supplies, rails, pins and throttling. -/
structure Power where
  vaux    : Bool := false
  modEn   : Bool := false
  vinOk   : Bool := false
  needLow : Bool := false
  rails   : Nat := 0
  raising : Bool := false
  pwrgd   : Bool := false
  faultLow : Bool := false
  leak    : Bool := false
  perst   : Bool := true
  pfReady : Bool := false
  straps  : Nat := 0
  ratio   : Nat := 256
  rate    : Nat := 6
  width   : Nat := 16
  dripOk  : Bool := false
  fullOk  : Bool := false
  fill    : List (Nat × Nat) := []
  early   : List Nat := []
  sensor  : Nat := 0
  lowAt   : Option Nat := none
  waking  : List Nat := []
  deriving DecidableEq, Repr

/-- Snapshots, dumps, heartbeats; the cores that a STEP lets execute one instruction, as core · 1024 + context (15 R447). The watchdogs (14 R429): by
queue, what tells its progress and the AO ticks counted, none once it has fired; the queues that have fired whose progress is not seen. -/
structure Debug where
  snaps  : List (Nat × Snap) := []
  markid : Nat := 0
  dumps  : List Dump := []
  fired  : List Nat := []
  halting : List (Nat × Nat) := []
  steps  : List Nat := []
  wdg    : List (Nat × (Nat × Option Nat)) := []
  quiet  : List Nat := []
  pcs    : List (Nat × Word × List DWord) := []
  hearts : List (Nat × Nat) := []
  deriving DecidableEq, Repr

/-- Device time, AO tick phase and the last stamp of each tap (15 R467-R469). -/
structure Time where
  dtime : DWord := 0
  phase : Nat := 0
  stamps : List (Nat × Nat) := []
  deriving DecidableEq, Repr

/-- Memory bookkeeping. Error marks (08 R236-R238, 14 R422, R423): HBM units and on-chip 8 B words that hold an uncorrectable or a correctable
error, and 256 B blocks whose next transfer fails its CRC-32C. Units still to be scrubbed or filled, the patrol position; unit counts and length of
the current imbalance window. Each channel group's request queue (08 R232-R235): units queued, masters that wait for a credit as (group, master,
partition), partition groups that withheld credits in the window, the master each group last granted a credit to. -/
structure Hbm where
  ue      : List Nat := []
  ce      : List Nat := []
  sramUe  : List Nat := []
  sramCe  : List Nat := []
  netErr  : List Nat := []
  scrub   : List (Nat × Nat × Nat) := []
  patrol  : List (Nat × Nat) := []
  win     : List (Nat × Nat) := []
  imbwin  : List (Nat × Nat) := []
  occ     : List (Nat × Nat) := []
  waits   : List (Nat × Nat × Nat) := []
  hot     : List Nat := []
  lastGrant : List (Nat × Nat) := []
  deriving DecidableEq, Repr

/-- Values on buses: the last word read over BAR0, the last SMBus data, the last TAP data register; the functions whose Device Control register does
not enable relaxed ordering (10 R286). -/
structure Bus where
  read : Word := 0
  smb  : Option (BitVec 16) := none
  tdo  : Word := 0
  strictOrder : List Nat := []
  deriving DecidableEq, Repr

/-- The module. -/
structure State where
  assy    : BitVec 2
  regs    : List (Nat × Word)
  latch   : List (Nat × Word)
  mem     : List Host.Cell
  eng     : Engines
  jobs    : Jobs
  parts   : List (Nat × Part)
  span    : Span
  red     : List (Nat × RedCh)
  sec     : Sec
  pwr     : Power
  dbg     : Debug
  time    : Time
  hbm     : Hbm
  host    : List HostOut
  bus     : Bus
  free    : Nat
  pending : List Instr
  deriving DecidableEq, Repr

/-- Why a step can stop as a fault. -/
inductive Fault where
  /-- Raised by no command of this model: every command of the table has an effect the spec gives. Safe. -/
  | noEffect
  deriving DecidableEq, Repr

/-- Why a step can be refused. -/
inductive Refusal where
  /-- Raised for a command whose meaning is not written yet, by its arm in `exec`. Safe. -/
  | notModelled (mnemonic : String)
  deriving DecidableEq, Repr

/-- What an unlisted byte of memory reads as, where that is a fixed byte: 0 in the on-chip memories and
the table stores, which are zeroed when a cluster leaves DARK (16 R481). An unlisted byte of HBM has no fixed value
(12 R390). -/
def memIsDef (k : Nat) (v : Byte) : Bool := decide (0xF00000000000 ≤ k) && v == 0

/-- The canonical form of memory: addresses strictly rising, no byte listed that is what an unlisted address reads as. -/
abbrev Memory.wf (m : List Host.Cell) : Bool := tabWf memIsDef m

/-- The canonical form of the register space. -/
abbrev Regs.wf (r : List (Nat × Word)) : Bool := tabWf regIsReset r

/-- The module before VAUX is applied: every register at its reset value, nothing stored, nothing waiting (log 1, log 2). -/
def State.reset : State where
  assy := 3
  regs := [(0x110, 3500)]
  latch := []
  mem := []
  eng := {}
  jobs := {}
  parts := []
  span := {}
  red := []
  sec := {}
  pwr := {}
  dbg := {}
  time := {}
  hbm := {}
  host := []
  bus := {}
  free := 0
  pending := []

end Sys2Proof.Machine
end

