-- ==== Sys2Proof/Machine/Operands.lean ====
section
/-! DEFINITION. Operand forms: the fields of submission entries (10 R303-R308) and of command payloads. -/

namespace Sys2Proof.Machine

/-! Submission entries -/

def Sub.opc (x : Sub) : Nat := leAt x.ent 0 1
def Sub.flags (x : Sub) : Nat := leAt x.ent 1 1
def Sub.irq (x : Sub) : Bool := x.flags.testBit 0
def Sub.fence (x : Sub) : Bool := !x.v1 && x.flags.testBit 1
def Sub.dig (x : Sub) : Bool := !x.v1 && x.flags.testBit 2
def Sub.tag (x : Sub) : Nat := if x.v1 then leAt x.ent 2 2 else leAt x.ent 4 4
def Sub.slot (x : Sub) : Nat := if x.v1 then leAt x.ent 4 2 else leAt x.ent 8 2
def Sub.entry (x : Sub) : Nat := if x.v1 then leAt x.ent 6 1 else leAt x.ent 10 1
def Sub.inlen (x : Sub) : Nat := if x.v1 then leAt x.ent 24 4 else leAt x.ent 12 4
def Sub.inaddr (x : Sub) : Nat := if x.v1 then leAt x.ent 8 8 else leAt x.ent 16 8
def Sub.outlen (x : Sub) : Nat := if x.v1 then leAt x.ent 28 4 else leAt x.ent 24 4
def Sub.outaddr (x : Sub) : Nat := if x.v1 then leAt x.ent 16 8 else leAt x.ent 32 8
def Sub.hostAddr (x : Sub) : Nat := leAt x.ent 8 8
def Sub.localAddr (x : Sub) : Nat := leAt x.ent 16 8
def Sub.len (x : Sub) : Nat := leAt x.ent 24 8
def Sub.digest (x : Sub) : List Byte := (x.ent.drop 32).take 32
def Sub.loadSlot (x : Sub) : Nat := leAt x.ent 32 2
def Sub.commitLen (x : Sub) : Nat := leAt x.ent 16 2

/-- Whether bytes `a` to `b - 1` of an entry are 0. -/
def zeroAt (l : List Byte) (a b : Nat) : Bool := leAt l a (b - a) == 0

/-- A copy's LOCAL and LEN are in range (10 R305). -/
def Sub.copyOk (x : Sub) : Bool := x.localAddr % 64 == 0 && decide (1 ≤ x.len) && decide (x.len < 2 ^ 40)

/-- Whether an entry has a defined opcode, zero reserved fields and operands in range (10 R303-R308). -/
def Sub.legal (x : Sub) : Bool :=
  let e := x.ent
  if x.v1 then
    decide (x.flags < 2) && (match x.opc with
      | 0 => zeroAt e 4 32
      | 1 => decide (x.slot < 256) && zeroAt e 7 8
      | 2 => zeroAt e 4 8 && x.copyOk
      | 3 => zeroAt e 4 8 && x.copyOk
      | _ => false)
  else
    decide (x.flags < 8) && zeroAt e 2 4 && (!x.dig || x.opc == 2) && (match x.opc with
      | 0 => zeroAt e 8 64
      | 1 => decide (x.slot < 256) && zeroAt e 11 12 && zeroAt e 28 32 && zeroAt e 40 64
      | 2 => x.copyOk && (x.dig || zeroAt e 32 64)
      | 3 => x.copyOk && zeroAt e 32 64
      | 4 => x.localAddr % 4096 == 0 && decide (128 ≤ x.len) && decide (x.len ≤ 2 ^ 40) &&
          decide (x.loadSlot < 256) && zeroAt e 34 64
      | 5 => decide (x.slot < 256) && zeroAt e 10 64
      | 6 => decide (144 ≤ x.commitLen) && decide (x.commitLen ≤ 5184) && (x.commitLen - 64) % 80 == 0 && zeroAt e 18 64
      | _ => false)

/-! Command payloads -/

/-- Word `i` of a payload. -/
def pw (p : Pay) (i : Nat) : Word :=
  match i with
  | 0 => p.w0 | 1 => p.w1 | 2 => p.w2 | 3 => p.w3 | 4 => p.w4 | 5 => p.w5 | 6 => p.w6 | _ => p.w7

/-- Field [hi:lo] of word `i` of a payload. -/
def pf (p : Pay) (i hi lo : Nat) : Nat := fld (pw p i) hi lo
/-- Bit `b` of word `i` of a payload. -/
def pb (p : Pay) (i b : Nat) : Bool := bit (pw p i) b

/-- Whether the bits of `m` are 0 in word `i`. -/
def pz (p : Pay) (i m : Nat) : Bool := (pw p i).toNat &&& m == 0

/-- Cluster of a core. -/
def clOf (core : Nat) : Nat := core / 16

end Sys2Proof.Machine
end

