-- ==== Sys2Proof/Machine/Ops.lean ====
section
/-! DEFINITION. The named operations over registers, time, memory and the host link. Every register and every
byte of memory is read and written through these. -/

namespace Sys2Proof.Machine

/-- What a command answers. -/
abbrev Out := Host.Outcome State Fault Refusal

/-- The stored value of the register numbered `k`. -/
def getR (s : State) (k : Nat) : Word := (tabFind k s.regs).getD (regReset k)

/-- Store a register. -/
def setR (k : Nat) (v : Word) (s : State) : State := { s with regs := tabPut regIsReset k v s.regs }

/-- A field of a register, as a number. -/
def getF (s : State) (k hi lo : Nat) : Nat := fld (getR s k) hi lo

/-- Replace a field of a register. -/
def setF (k hi lo v : Nat) (s : State) : State := setR k (putFld (getR s k) hi lo v) s

/-- Store a number in a register. -/
def setN (k v : Nat) (s : State) : State := setR k (BitVec.ofNat 32 v) s

/-- Set bits of a register. -/
def orR (k v : Nat) (s : State) : State := setR k (getR s k ||| BitVec.ofNat 32 v) s

/-- Clear bits of a register. -/
def andnR (k v : Nat) (s : State) : State := setR k (getR s k &&& ~~~(BitVec.ofNat 32 v)) s

/-- Return a register to its reset value. -/
def rstR (k : Nat) (s : State) : State := setR k (regReset k) s

/-- Advance a saturating 32-bit counter. -/
def inc32 (k n : Nat) (s : State) : State := setR k (sat32Add (getR s k) n) s

/-- Advance a saturating 16-bit field at bit 0 of a register. -/
def inc16 (k n : Nat) (s : State) : State := setF k 15 0 (min (getF s k 15 0 + n) 0xFFFF) s

/-- The value of the 64-bit quantity whose low word is register `k` (00 R8). -/
def get64 (s : State) (k : Nat) : Nat := (getR s k).toNat + 2 ^ 32 * (getR s (k + 4)).toNat

/-- Store a 64-bit quantity. -/
def set64 (k v : Nat) (s : State) : State := setN (k + 4) (v / 2 ^ 32) (setN k v s)

/-- Advance a saturating 64-bit counter (03 R91). -/
def inc64 (k n : Nat) (s : State) : State := set64 k (min (get64 s k + n) (2 ^ 64 - 1)) s

/-- Apply a function to the state once for each element of a list, in order. -/
def each {α : Type} (l : List α) (f : α → State → State) (s : State) : State := l.foldl (fun t x => f x t) s

/-- Return registers to their reset values. -/
def rstRs (ks : List Nat) (s : State) : State := each ks rstR s

/-- Return every register listed in the half-open range to its reset value. -/
def rstRange (lo hi : Nat) (s : State) : State := { s with regs := tabClear lo hi s.regs }

/-! Assembly facts -/

/-- HBM stacks of the assembly (00 R3). -/
def stackCount (s : State) : Nat := match s.assy.toNat with | 0 => 6 | 1 => 8 | 2 => 8 | _ => 12
/-- X-dies of the assembly (00 R3). -/
def xdies (s : State) : Nat := if s.assy.toNat < 2 then 1 else 2
/-- Peak module power (00 R3). -/
def peakW (s : State) : Nat := match s.assy.toNat with | 0 => 2900 | 1 => 3050 | 2 => 3250 | _ => 3500
/-- HBM channel groups of the assembly (08 R225). -/
def groupsN (s : State) : Nat := 8 * stackCount s

/-! Tables with a default entry -/

def partOf (s : State) (p : Nat) : Part := (tabFind p s.parts).getD {}
def setPart (p : Nat) (v : Part) (s : State) : State :=
  { s with parts := tabPut (fun _ x => x == {}) p v s.parts }
def modPart (p : Nat) (f : Part → Part) (s : State) : State := setPart p (f (partOf s p)) s

def ringOf (s : State) (c : Nat) : Ring := (tabFind c s.jobs.rings).getD {}
def modRing (c : Nat) (f : Ring → Ring) (s : State) : State :=
  { s with jobs := { s.jobs with rings := tabPut (fun _ x => x == {}) c (f (ringOf s c)) s.jobs.rings } }

def linkOf (s : State) (p : Nat) : Link := (tabFind p s.span.links).getD {}
def modLink (p : Nat) (f : Link → Link) (s : State) : State :=
  { s with span := { s.span with links := tabPut (fun _ x => x == {}) p (f (linkOf s p)) s.span.links } }

def redOf (s : State) (k : Nat) : RedCh := (tabFind k s.red).getD {}
def setRed (k : Nat) (v : RedCh) (s : State) : State :=
  { s with red := tabPut (fun _ x => x == {}) k v s.red }

/-- A number of a table whose default is 0. -/
def tab0 (t : List (Nat × Nat)) (k : Nat) : Nat := (tabFind k t).getD 0
/-- Write a table whose default is 0. -/
def tabSet0 (k v : Nat) (t : List (Nat × Nat)) : List (Nat × Nat) := tabPut (fun _ x => x == 0) k v t

/-- The semaphore's number: context, cluster, semaphore (10 R316). -/
def semKey (ctx cl sem : Nat) : Nat := (ctx * 32 + cl) * 64 + sem
def semOf (s : State) (ctx cl sem : Nat) : BitVec 16 := (tabFind (semKey ctx cl sem) s.eng.sems).getD 0

/-- Signal a semaphore: add 1 modulo 2^16 (10 R316). -/
def semSignal (ctx cl sem : Nat) (s : State) : State :=
  let k := semKey ctx cl sem
  { s with eng := { s.eng with sems := tabPut (fun _ x => x == 0) k (semOf s ctx cl sem + 1) s.eng.sems } }

/-- Set every semaphore of a context to 0 in every cluster. -/
def semZero (ctx : Nat) (s : State) : State :=
  { s with eng := { s.eng with sems := tabClear (semKey ctx 0 0) (semKey (ctx + 1) 0 0) s.eng.sems } }

/-- Whether a wait for `v` is met (10 R316). -/
def semMet (have_ : BitVec 16) (v : Nat) : Bool := decide ((have_ - BitVec.ofNat 16 v).toNat < 2 ^ 15)

/-! Contexts and partitions -/

/-- Whether a partition owns context `c`, and which (11 R342). -/
def ctxOwner (s : State) (c : Nat) : Option Nat :=
  if bit (getR s (kCtx c 0xA0)) 31 then some (getF s (kCtx c 0xA0) 4 0) else none

/-- The partition of a context; 0 for one nobody owns. -/
def ctxPid (s : State) (c : Nat) : Nat := getF s (kCtx c 0xA0) 4 0

/-- The contexts of a partition in ascending order (10 R288). -/
def partCtxs (s : State) (p : Nat) : List Nat :=
  s.regs.filterMap fun (k, v) =>
    if 0x40000 ≤ k ∧ k < 0x80000 ∧ k % 256 = 0xA0 ∧ bit v 31 ∧ fld v 4 0 = p then some ((k - 0x40000) / 256)
    else none

/-- PART_STATE.STATE (11 R330): 0 FREE, 1 OPEN, 2 SEALED, 3 RESETTING, 4 CLOSING. -/
def partState (s : State) (p : Nat) : Nat := getF s (kPart p 0) 2 0
def setPartState (p v : Nat) (s : State) : State := setF (kPart p 0) 2 0 v s
def clMask (s : State) (p : Nat) : Word := getR s (kPart p 4)
/-- The clusters of a partition. -/
def partCls (s : State) (p : Nat) : List Nat := (rangeFrom 0 32).filter fun c => bit (clMask s p) c
/-- The cores of a list of clusters. -/
def coresOf (cls : List Nat) : List Nat := cls.flatMap fun c => rangeFrom (16 * c) 16
/-- CONF_STATE.CONF (12 R377). -/
def conf (s : State) (p : Nat) : Nat := getF s (kPart p 0x80) 3 0
def cmode (s : State) (p : Nat) : Nat := getF s (kPart p 0x80) 15 8
/-- Current epoch (09 R284). -/
def epochOf (s : State) (p : Nat) : Nat := getF s (kPart p 0x1000) 15 0

/-- The function a ring of context `c` would be bound to now (10 R289): its partition's VF when that is present
and the context is among the partition's first 128, else the PF. -/
def homeFn (s : State) (c : Nat) : Nat :=
  match ctxOwner s c with
  | some p => if s.pwr.pfReady && ((partCtxs s p).take 128).contains c then p + 1 else 0
  | none => 0

/-- The function that carries a partition's own events: its VF when that is enabled, else the PF (10 R287, R290). -/
def partFn (s : State) (p : Nat) : Nat := if s.pwr.pfReady then p + 1 else 0

/-- The bound function of a context (10 R289). -/
def boundFn (s : State) (c : Nat) : Nat := (ringOf s c).bound.getD (homeFn s c)

/-- Residency slot of a context on a core (11 R339, R340). -/
def slotOf (s : State) (core ctx : Nat) : Option Nat :=
  (rangeFrom 0 8).find? fun i =>
    let v := getR s (kCore core (0x180 + 8 * i))
    bit v 31 && fld v 9 0 == ctx

/-- Whether any partition is under drip service restrictions, by PID (16 R497, R499). -/
def isDrip (s : State) (p : Nat) : Bool := (partOf s p).drip

/-- Service state (16 R492). -/
def svc (s : State) : Nat := getF s 0x100 31 29

/-- The clusters of a context's placement list (11 R342). -/
def placeOf (s : State) (c : Nat) : List Nat :=
  (rangeFrom 0 (getF s (kCtx c 0xA4) 5 0)).map fun i =>
    getF s (kCtx c (0xA8 + 4 * (i / 4))) (8 * (i % 4) + 4) (8 * (i % 4))

/-- The core that a relative core of a context's images names (10 R312, 11 R342). -/
def placedCore (place : List Nat) (r : Nat) : Nat := 16 * listGet 0 place (r / 16) + r % 16

def findImage (s : State) (p slot : Nat) : Option Image := s.jobs.images.find? fun i => i.pid == p && i.slot == slot

/-- The image a context may use in a slot (11 R342): one bound to that context. -/
def myImage (s : State) (c slot : Nat) : Option Image :=
  (findImage s (ctxPid s c) slot).filter fun i => i.ctx == c

/-- The relative cores an entry runs on, those the placement has (10 R312). -/
def entryCores (place : List Nat) (e : EntryRec) : List Nat :=
  (rangeFrom e.first e.ncore).filter fun r => decide (r < 16 * place.length)

/-- The RUN of a context that has been dispatched and has not finished. -/
def runningRun (s : State) (c : Nat) : Option Sub :=
  s.jobs.subs.find? fun x => x.ctx == c && x.opc == 1 && x.st == .running

/-- Whether the context's running RUN runs on a core: its entry names it, by the context's placement (10 R312, 11 R342). -/
def runsOn (s : State) (core c : Nat) : Bool :=
  match runningRun s c with
  | some x =>
    (match (myImage s c x.slot).bind fun i => i.entries[x.entry]? with
     | some e => (entryCores (placeOf s c) e).any fun r => placedCore (placeOf s c) r == core
     | none => false)
  | none => false

/-- Charge a counted unit to the budget of the context's running RUN (11 R351). -/
def charge (c cls unit n : Nat) (s : State) : State :=
  match runningRun s c with
  | some x =>
    { s with jobs := { s.jobs with budgets := s.jobs.budgets.map fun b =>
        if b.ctx == c && b.slot == x.slot && b.entry == x.entry && b.cls == cls && b.unit == unit then
          { b with used := b.used + n } else b } }
  | none => s

/-! Host link, logs, free values -/

/-- The IDE stream that host requests made for a partition travel on (12 R387). -/
def ideOf (s : State) (own : Option Nat) : Option Nat := own.filter fun p => conf s p == 6
/-- Bytes of a DMA write, made by a function for a partition, cross the host link (10 R289; 15 R450; log 17). -/
def hostWrite (fn : Nat) (own : Option Nat) (addr : Nat) (relaxed : Bool) (d : List Byte) (s : State) : State :=
  inc64 0x808 d.length { s with host := s.host ++ [.write fn (ideOf s own) addr relaxed d] }
/-- Bytes of a DMA read, made by the bound function of a context, come from the host (10 R289; 15 R450; log 17). -/
def hostRead (c addr n : Nat) (s : State) : State :=
  inc64 0x800 n { s with host := s.host ++ [.read (boundFn s c) (ideOf s (ctxOwner s c)) addr n] }
/-- Send an MSI-X message. -/
def msi (fn vec : Nat) (s : State) : State := { s with host := s.host ++ [.msi fn vec] }
/-- Signal vector 0 of a function (10 R290). -/
def vec0 (fn : Nat) (s : State) : State := msi fn 0 s
/-- Enter an event in the RTP's privileged device log and signal the PF (14 R425). -/
def devLog (kind arg : Nat) (s : State) : State :=
  vec0 0 { s with sec := { s.sec with log := s.sec.log ++ [(kind, arg)] } }

/-- Advance the counter that free values are applied to. -/
def bumpFree (s : State) : State := { s with free := s.free + 1 }
/-- A free number, not yet advanced past. -/
def freeN (s : State) : Nat := Config.freeNat s.free

/-- SHA3-256 of bytes. -/
def sha3 (l : List Byte) : List Byte := (rangeFrom 0 32).map (Config.sha3Byte l)

/-! Device time and stamps (15 R467-R469) -/

def now (s : State) : Nat := s.time.dtime.toNat
/-- Nanoseconds from this AO tick to the next. -/
def tickLen (s : State) : Nat := if s.time.phase = 11 then 53 else 52
/-- State of a cluster's power domain (16 R481, R500). -/
def clst (s : State) (c : Nat) : Nat := getF s (0x120 + 4 * (c / 16)) (2 * (c % 16) + 1) (2 * (c % 16))
def setClst (c v : Nat) (s : State) : State :=
  setF (0x120 + 4 * (c / 16)) (2 * (c % 16) + 1) (2 * (c % 16)) v s

/-- The stamp the time tap of a clock region takes now (15 R468). Regions 0-31 are clusters, 32 X-die 0, 33 the always-on domain, 34 X-die 1, from
35 on the B-dies. The place inside the AO tick is a free value. -/
def stampOf (s : State) (r : Nat) : Nat :=
  let prev := tab0 s.time.stamps r
  if r = 33 then now s
  else if r < 32 ∧ (s.pwr.ratio < 256 ∨ clst s r ≠ 0) then 2 ^ 63 + max (now s) prev
  else max (now s + freeN s % tickLen s) prev

/-- Take a stamp: the tap remembers it and the free value is used up. -/
def noteStamp (r : Nat) (s : State) : State :=
  bumpFree { s with time := { s.time with stamps := tabSet0 r (stampOf s r % 2 ^ 63) s.time.stamps } }

/-! Memory: physical bytes -/

/-- Physical byte of unit row `row` of channel group `g` (08 R226). -/
def hbmKey (g row byte : Nat) : Nat := (g * 50331648 + row) * 256 + byte
def keyIsHbm (k : Nat) : Bool := decide (k < 0xF00000000000)
def keyGroup (k : Nat) : Nat := k / 256 / 50331648

def cmBase (c : Nat) : Nat := 0xF00000000000 + c * 0x2000000
def spBase (n : Nat) : Nat := 0xF80000000000 + n * 0x200000
def accBase (n a : Nat) : Nat := 0xFC0000000000 + n * 0x40000 + a * 0x20000
/-- The table store of a core, beyond the local map: slot, programmable table, bank (05 R135). -/
def tblBase (core slot prog bank : Nat) : Nat :=
  0x1000000000000 + core * 67584 + slot * 8448 + prog * 2112 + bank * 1056
def cmSize : Nat := 0x1800000
def spSize : Nat := 0x200000
def accSize : Nat := 0x20000

/-- One byte of memory as a partition with memory key serial `mek` reads it. -/
def memByte (mek : Nat) (s : State) (k : Nat) : Byte :=
  match tabFind k s.mem with
  | some b => b
  | none => if keyIsHbm k then Config.hbmUnwritten mek k else 0

/-- Write one byte of memory. -/
def memPut (k : Nat) (b : Byte) (s : State) : State := { s with mem := tabPut memIsDef k b s.mem }

/-- Write bytes at their physical places, in order. -/
def memPuts (ks : List Nat) (bs : List Byte) (s : State) : State :=
  (ks.zip bs).foldl (fun t (k, b) => memPut k b t) s

/-- Forget the bytes of a half-open range: on chip they read 0, in HBM as unwritten. -/
def memForget (lo hi : Nat) (s : State) : State := { s with mem := tabClear lo hi s.mem }

/-! HBM shares (08 R227-R230) -/

def shareRows (s : State) (p : Nat) : Nat := getF s (kPart p 0x241C) 25 0
def sharePin (s : State) (p : Nat) : Nat := getF s (kPart p 0x2424) 25 0
def shareKey (s : State) (p : Nat) : Nat := get64 s (kPart p 0x2404)
/-- Groups named by an isolated share's mask. -/
def maskGroups (s : State) (p : Nat) : List Nat :=
  (rangeFrom 0 96).filter fun g => bit (getR s (kPart p (0x240C + 4 * (g / 32)))) (g % 32)

/-- The keyed interleave (08 R227): physical byte of offset `a` in a set of groups. -/
def interleave (key : Nat) (set : List Nat) (rowbase a : Nat) : Nat :=
  let g := a / 256
  let n := set.length
  let r := g / n
  let f := mix (key ^^^ r) % n
  hbmKey (listGet 0 set ((g % n + f) % n)) (rowbase + r) (a % 256)

/-- Main size of a partition's share (08 R229). -/
def mainSize (s : State) (p : Nat) : Nat := (partOf s p).gset.length * shareRows s p * 256
/-- Size of the pinned range of a stack (08 R228). -/
def pinSize (s : State) (p st : Nat) : Nat :=
  min (((partOf s p).gset.filter fun g => g / 8 == st).length * sharePin s p * 256) (2 ^ 32)

/-- The physical byte of a local address, or the reason it has none (08 R212, R213). -/
def locate (s : State) (p a : Nat) : Except Nat Nat :=
  if a < 0x20000000000 then
    if a < mainSize s p then
      .ok (interleave (shareKey s p) (partOf s p).gset (getF s (kPart p 0x2418) 25 0) a)
    else .error 0x64
  else if a < 0x20000000000 + 12 * 2 ^ 32 then
    let st := (a - 0x20000000000) / 2 ^ 32
    let o := a % 2 ^ 32
    if o < pinSize s p st then
      .ok (interleave (shareKey s p) ((partOf s p).gset.filter fun g => g / 8 == st)
        (getF s (kPart p 0x2420) 25 0) o)
    else .error 0x64
  else if 0xF00000000000 ≤ a ∧ a < cmBase 32 then
    (if a % 0x2000000 < cmSize then .ok a else .error 0x63)
  else if 0xF80000000000 ≤ a ∧ a < spBase 512 then .ok a
  else if 0xFC0000000000 ≤ a ∧ a < accBase 512 0 then .ok a
  else .error 0x63

/-- Physical keys of a run of units of a share that are in force, used to test scrub and fill: the (group, row)
pairs of a partition's main and pinned rows. -/
def shareHas (s : State) (p g row : Nat) : Bool :=
  let part := partOf s p
  part.inForce && part.gset.contains g &&
    (let rb := getF s (kPart p 0x2418) 25 0
     let pb := getF s (kPart p 0x2420) 25 0
     (decide (rb ≤ row) && decide (row < rb + shareRows s p)) ||
     (decide (pb ≤ row) && decide (row < pb + sharePin s p)))

/-- The partition whose share holds a unit. -/
def unitOwner (s : State) (g row : Nat) : Option Nat := (rangeFrom 0 32).find? fun p => shareHas s p g row

end Sys2Proof.Machine
end

