-- ==== Sys2Proof/Machine/Crema.lean ====
section
/-! DEFINITION. Crema digests (15 R456-R459): what an armed tap does with a write it watches. -/

namespace Sys2Proof.Machine

/-- One word into the rolling checksum (15 R458). -/
def csumStep (c w o : Nat) : Nat :=
  let rot := ((c <<< 13) ||| (c >>> 51)) % 2 ^ 64
  ((rot ^^^ w ^^^ o) * 0x9E3779B97F4A7C15) % 2 ^ 64

/-- The checksum of a span of bytes at offset `o`, widened to whole 8 B words with zeros. -/
def csumSpan (c o : Nat) (bs : List Byte) : Nat :=
  let pre := List.replicate (o % 8) (0 : Byte)
  let all := pre ++ bs
  (rangeFrom 0 (ceilDiv all.length 8)).foldl
    (fun acc i => csumStep acc (leAt all (8 * i) 8) (o - o % 8 + 8 * i)) c

/-- A total order of FP32 patterns that puts -0 below +0. -/
def totKey (w : Word) : Int := if w.getLsbD 31 then -(magBits w : Int) - 1 else (magBits w : Int)

/-- The FP32 pattern of an element value that FP32 holds exactly. -/
def fp32Of (v : FV) : Word :=
  match v with
  | .nan w => w
  | .inf n => BitVec.ofNat 32 (withSign n 31 0x7F800000)
  | .fin n m e => (fp32Round true n m e).1

/-- One element into a tap's results. `k` is the tap's first register. -/
def cremaElem (k : Nat) (v : FV) (s : State) : State :=
  let s := inc32 (k + 0x0C) 1 s
  match v with
  | .nan _ => inc32 (k + 0x10) 1 s
  | .inf _ => inc32 (k + 0x14) 1 s
  | .fin n m e =>
    let w := fp32Of (.fin n m e)
    let s := if totKey w < totKey (getR s (k + 0x18)) then setR (k + 0x18) w s else s
    let s := if totKey (getR s (k + 0x1C)) < totKey w then setR (k + 0x1C) w s else s
    let s := set64 (k + 0x20) (fp64Add (get64 s (k + 0x20)) (.fin n m e)) s
    set64 (k + 0x28) (fp64Add (get64 s (k + 0x28)) (ofFp64 (fp64Round false (m * m) (2 * e)))) s

/-- Bytes of one element of a tap's FMT; 0 for bytes only. -/
def cremaWidth (fmt : Nat) : Nat :=
  match fmt with | 0 => 4 | 1 => 2 | 2 => 2 | 3 => 1 | 4 => 1 | 8 => 1 | _ => 0

/-- A watched write of bytes at offset `o` of the memory, already cut to the tap's range. -/
def cremaWrite (k o : Nat) (bs : List Byte) (s : State) : State :=
  if bs.isEmpty then s
  else
    let fmt := getF s k 26 23
    let base := getF s (k + 4) 24 6 * 64
    let w := cremaWidth fmt
    let s := inc32 (k + 0x38) 1 s
    let s := set64 (k + 0x30) (csumSpan (get64 s (k + 0x30)) (o - base) bs) s
    if w = 0 then inc32 (k + 0x0C) bs.length s
    else each (rangeFrom 0 (bs.length / w)) (fun i => cremaElem k (ofElem fmt (leAt bs (w * i) w))) s

/-- Whether a tap watches writes of a master class by a context. `lc` is the master's local core, for a tap on a
cluster memory. -/
def cremaSees (s : State) (k mst ctx : Nat) (lc : Option Nat) : Bool :=
  let v := getR s k
  bit v 31 && fld v 30 27 == mst && fld v 9 0 == ctx &&
    (match lc with | some l => fld v 22 19 == l | none => true)

/-- Show a write to one tap. -/
def cremaTap (k mst ctx : Nat) (lc : Option Nat) (o : Nat) (bs : List Byte) (s : State) : State :=
  if cremaSees s k mst ctx lc then
    let b := getF s (k + 4) 24 6 * 64
    let e := (getF s (k + 8) 24 6 + 1) * 64
    let lo := max o b
    let hi := min (o + bs.length) e
    if lo < hi then cremaWrite k lo ((bs.drop (lo - o)).take (hi - lo)) s else s
  else s

/-- Show a write at local address `a` to the taps of the memory it lands in. -/
def cremaObserve (mst ctx : Nat) (lc : Option Nat) (a : Nat) (bs : List Byte) (s : State) : State :=
  if 0xF80000000000 ≤ a ∧ a < spBase 512 then
    let n := (a - 0xF80000000000) / spSize
    each (rangeFrom 0 4) (fun t => cremaTap (kCore n (0x200 + 0x40 * t)) mst ctx none (a - spBase n) bs) s
  else if 0xF00000000000 ≤ a ∧ a < cmBase 32 then
    let c := (a - 0xF00000000000) / 0x2000000
    each (rangeFrom 0 4) (fun t => cremaTap (kCl c (0x100 + 0x40 * t)) mst ctx lc (a - cmBase c) bs) s
  else s

end Sys2Proof.Machine
end

