-- ==== Sys2Proof/Machine/Access.lean ====
section
/-! DEFINITION. Masters and the checked accesses they make (08 R212-R224, R237, R238; 14 R422-R424). An engine's
work is a computation that stops at its first fault, with everything it did before standing. -/

namespace Sys2Proof.Machine

/-- A computation of an engine: a state step that can stop with a fault. -/
abbrev Eng := EStateM Flt State

/-- Change the state. -/
def upd (f : State → State) : Eng Unit := fun s => .ok () (f s)
/-- Read the state. -/
def look {α : Type} (f : State → α) : Eng α := fun s => .ok (f s) s
/-- Stop with a fault. -/
def stop {α : Type} (f : Flt) : Eng α := fun s => .error f s
/-- Do something for each element in order. -/
def eachM {α : Type} : List α → (α → Eng Unit) → Eng Unit
  | [], _ => pure ()
  | x :: r, f => f x >>= fun _ => eachM r f
/-- Collect results in order. -/
def gatherM {α β : Type} : List α → (α → Eng β) → Eng (List β)
  | [], _ => pure []
  | x :: r, f => f x >>= fun y => gatherM r f >>= fun ys => pure (y :: ys)
/-- Accumulate in order. -/
def foldE {α β : Type} : List α → β → (β → α → Eng β) → Eng β
  | [], b, _ => pure b
  | x :: r, b, f => f b x >>= fun b' => foldE r b' f

/-- The masters of 08 R219. -/
inductive Master where
  | ctl (core : Nat) | feed (core : Nat) | drain (core : Nat) | vec (core : Nat) | dma (core : Nat)
  | gate (cl : Nat) | comb (cl : Nat) | page (cl : Nat)
  | spanIn (pid : Nat) | hostDma (pid : Nat)
  deriving DecidableEq, Repr

/-- Register number of a master's region set (18 R523, R527). -/
def Master.setBase : Master → Nat
  | .ctl n => kCore n 0x400
  | .feed n => kCore n 0x500
  | .drain n => kCore n 0x600
  | .vec n => kCore n 0x700
  | .dma n => kCore n 0x800
  | .gate c => kCl c 0x400
  | .comb c => kCl c 0x500
  | .page c => kCl c 0x600
  | .spanIn p => kPart p 0x2800
  | .hostDma p => kPart p 0x2900

/-- A master working for a context of a partition. `cls` and `unit` name it in a fault record; `crema` is its class for
crema taps; `lc` its local core. `allOnly` counts only entries with ALLCTX set (09 R262, 15 R453). `die` is where it works when that is not
its master's own place. -/
structure Who where
  m     : Master
  pid   : Nat
  ctx   : Nat
  cls   : Nat
  unit  : Nat
  crema : Option Nat := none
  lc    : Option Nat := none
  allOnly : Bool := false
  die   : Option Nat := none
  deriving DecidableEq, Repr

def whoCtl (s : State) (core ctx : Nat) : Who := { m := .ctl core, pid := ctxPid s ctx, ctx, cls := 0, unit := core }
def whoFeed (s : State) (core ctx : Nat) : Who := { m := .feed core, pid := ctxPid s ctx, ctx, cls := 1, unit := core }
def whoGrind (s : State) (core ctx : Nat) : Who :=
  { m := .feed core, pid := ctxPid s ctx, ctx, cls := 4, unit := core, crema := some 2, lc := some (core % 16) }
def whoDrain (s : State) (core ctx : Nat) : Who :=
  { m := .drain core, pid := ctxPid s ctx, ctx, cls := 2, unit := core, crema := some 0, lc := some (core % 16) }
def whoVec (s : State) (core ctx : Nat) : Who :=
  { m := .vec core, pid := ctxPid s ctx, ctx, cls := 3, unit := core, crema := some 1, lc := some (core % 16) }
def whoDma (s : State) (core ctx : Nat) : Who :=
  { m := .dma core, pid := ctxPid s ctx, ctx, cls := 5, unit := core, crema := some 3, lc := some (core % 16) }
def whoGate (s : State) (cl ctx : Nat) : Who :=
  { m := .gate cl, pid := ctxPid s ctx, ctx, cls := 6, unit := cl, crema := some 4 }
def whoComb (s : State) (cl ctx : Nat) : Who :=
  { m := .comb cl, pid := ctxPid s ctx, ctx, cls := 7, unit := cl, crema := some 6 }
def whoPage (s : State) (cl ctx : Nat) : Who :=
  { m := .page cl, pid := ctxPid s ctx, ctx, cls := 8, unit := cl, crema := some 5 }
def whoSpan (p : Nat) (port : Nat := 0) : Who :=
  { m := .spanIn p, pid := p, ctx := 0, cls := 12, unit := port, crema := some 7, allOnly := true }
def whoHost (p ctx : Nat) : Who := { m := .hostDma p, pid := p, ctx, cls := 15, unit := 0, crema := some 8 }

/-- Granule numbers an access touches. -/
def granules (a n : Nat) : List Nat :=
  if n = 0 then [] else rangeFrom (a / 64) ((a + n - 1) / 64 - a / 64 + 1)

def rgnBase (s : State) (b n : Nat) : Nat := getF s (b + 16 * n + 4) 31 6 + getF s (b + 16 * n + 12) 15 0 * 2 ^ 26
def rgnLim (s : State) (b n : Nat) : Nat := getF s (b + 16 * n + 8) 31 6 + getF s (b + 16 * n + 12) 31 16 * 2 ^ 26

/-- Whether entry `n` of the set at `b` applies to a master's context (08 R221). -/
def rgnApplies (s : State) (w : Who) (n : Nat) : Bool :=
  let v := getR s (w.m.setBase + 16 * n)
  bit v 31 && (bit v 30 || (!w.allOnly && fld v 9 0 == w.ctx))

/-- Whether a granule is granted a permission: bit 29 read, 28 write, 27 fetch. -/
def granted (s : State) (w : Who) (pbit g : Nat) : Bool :=
  (rangeFrom 0 16).any fun n =>
    let b := w.m.setBase
    rgnApplies s w n && bit (getR s (b + 16 * n)) pbit &&
      decide (rgnBase s b n ≤ g) && decide (g ≤ rgnLim s b n)

/-- The refusal of an access at an address. -/
def Who.flt (w : Who) (reason addr : Nat) : Flt := { reason, addr, cls := w.cls, unit := w.unit }

/-- The first granule whose local address names no memory, with the reason. -/
def firstHole (s : State) (p : Nat) : List Nat → Option (Nat × Nat)
  | [] => none
  | g :: r => match locate s p (64 * g) with
    | .ok _ => firstHole s p r
    | .error e => some (g, e)

/-- Why an access is refused, if it is (08 R221, R223): the address map first, then read, write and
fetch permission. -/
def refusal (s : State) (w : Who) (rd wr fx : Bool) (a n : Nat) : Option Flt :=
  let gs := granules a n
  match firstHole s w.pid gs with
  | some (g, e) => some (w.flt e (max a (64 * g)))
  | none =>
    match (if rd then gs.find? (fun g => !granted s w 29 g) else none) with
    | some g => some (w.flt 0x60 (max a (64 * g)))
    | none =>
      match (if wr then gs.find? (fun g => !granted s w 28 g) else none) with
      | some g => some (w.flt 0x61 (max a (64 * g)))
      | none =>
        match (if fx then gs.find? (fun g => !granted s w 27 g) else none) with
        | some g => some (w.flt 0x62 (max a (64 * g)))
        | none => none

/-- Physical bytes of a run of local addresses that all exist. -/
def keysOf (s : State) (p a n : Nat) : List Nat :=
  (granules a n).flatMap fun g =>
    match locate s p (64 * g) with
    | .ok k =>
      let lo := max a (64 * g)
      let hi := min (a + n) (64 * g + 64)
      rangeFrom (k + (lo - 64 * g)) (hi - lo)
    | .error _ => []

/-- Runs of equal values of keys divided by `d`, with their lengths. -/
def runsOf (d : Nat) : List Nat → List (Nat × Nat)
  | [] => []
  | k :: r => match runsOf d r with
    | (u, n) :: t => if u = k / d then (u, n + 1) :: t else (k / d, 1) :: (u, n) :: t
    | [] => [(k / d, 1)]

/-- The runs of keys that lie in one aligned 256 B block. -/
def blocks : List Nat → List (List Nat)
  | [] => []
  | k :: r => match blocks r with
    | (l :: b) :: t => if k / 256 = l / 256 then (k :: l :: b) :: t else [k] :: (l :: b) :: t
    | t => [k] :: t

/-- Why the transfer of a block fails, if it does (08 R238, 14 R422, R423): an uncorrectable HBM unit or on-chip word, which a write of all of it
replaces; a CRC-32C mismatch. -/
def badBlock (s : State) (wr : Bool) (b : List Nat) : Option Nat :=
  let u := b.headD 0 / 256
  if keyIsHbm (256 * u) && !(wr && b.length == 256) && s.hbm.ue.contains u then some 0x68
  else if !keyIsHbm (256 * u) && (runsOf 8 b).any (fun (w, n) => !(wr && n == 8) && s.hbm.sramUe.contains w) then some 0xE5
  else if s.hbm.netErr.contains u then some 0xE6
  else none

/-- The first block of a transfer that fails: its offset, the reason, its bytes. -/
def firstBad (f : List Nat → Option Nat) : Nat → List (List Nat) → Option (Nat × Nat × List Nat)
  | _, [] => none
  | n, b :: r => match f b with
    | some e => some (n, e, b)
    | none => firstBad f (n + b.length) r

/-- Where a transfer of these bytes fails. -/
def errAt (s : State) (wr : Bool) (ks : List Nat) : Option (Nat × Nat × List Nat) := firstBad (badBlock s wr) 0 (blocks ks)

/-- A write replaces whole units and words: their error marks are gone. -/
def errClear (ks : List Nat) (s : State) : State :=
  let us := (runsOf 256 (ks.filter keyIsHbm)).filter (fun (_, n) => n == 256)
  let ws := (runsOf 8 (ks.filter fun k => !keyIsHbm k)).filter (fun (_, n) => n == 8)
  let drop : List (Nat × Nat) → List Nat → List Nat := fun l t => l.foldl (fun t (u, _) => setDel u t) t
  { s with hbm := { s.hbm with ue := drop us s.hbm.ue, ce := drop us s.hbm.ce, sramUe := drop ws s.hbm.sramUe, sramCe := drop ws s.hbm.sramCe } }

/-- The C-die an HBM stack is attached to (01 R22). -/
def stackDie (s : State) (st : Nat) : Nat :=
  match s.assy.toNat with | 0 => listGet 3 [0, 0, 1, 2, 3, 3] st | 3 => st / 3 | _ => st / 2

/-- The C-die of a physical byte (01 R22; 128 cores and 8 clusters to a die). -/
def keyDie (s : State) (k : Nat) : Nat :=
  if keyIsHbm k then stackDie s (keyGroup k / 8)
  else if k < 0xF80000000000 then (k - 0xF00000000000) / 0x2000000 / 8
  else if k < 0xFC0000000000 then (k - 0xF80000000000) / 0x200000 / 128
  else if k < 0x1000000000000 then (k - 0xFC0000000000) / 0x40000 / 128
  else (k - 0x1000000000000) / 67584 / 128

/-- Where a master is: a C-die, or an X-die numbered from 4 (host DMA on X-die 0). -/
def Master.die (m : Master) (unit : Nat) : Nat :=
  match m with
  | .ctl n => n / 128
  | .feed n => n / 128
  | .drain n => n / 128
  | .vec n => n / 128
  | .dma n => n / 128
  | .gate c => c / 8
  | .comb c => c / 8
  | .page c => c / 8
  | .spanIn _ => 4 + unit / 16 % 2
  | .hostDma _ => 4

/-- The link between two C-dies (15 R450). -/
def pairLink (a b : Nat) : Nat :=
  match min a b, max a b with
  | 0, 1 => 0 | 0, 2 => 1 | 0, 3 => 2 | 1, 2 => 3 | 1, 3 => 4 | _, _ => 5

/-- Bytes cross die links (01 R19, 15 R450). From an X-die to a C-die it has no link to, which of its two C-dies they pass is
a free value. -/
def crossDies (a d n : Nat) (s : State) : State :=
  if n = 0 ∨ a = d then s
  else if a < 4 then inc64 (0x810 + 8 * pairLink a d) n s
  else
    let x := a - 4
    if d / 2 = x then inc64 (0x810 + 8 * (6 + 2 * x + d % 2)) n s
    else
      let e := freeN s % 2
      inc64 (0x810 + 8 * (6 + 2 * x + e)) n (inc64 (0x810 + 8 * pairLink (2 * x + e) d) n (bumpFree s))

/-- Where a master works: a C-die, or an X-die numbered from 4. -/
def Who.place (w : Who) : Nat := w.die.getD (w.m.die w.unit)

/-- The die links an access of these bytes crosses are counted. -/
def countDies (w : Who) (ks : List Nat) (s : State) : State :=
  let ds := ks.map (keyDie s)
  each (rangeFrom 0 4) (fun d => crossDies w.place d (ds.filter fun x => x == d).length) s

/-- A unit request enters its channel group's queue of 256; when that is full, or others wait for it, the master waits for a credit, withheld
from its partition (08 R232, R234). The access itself is not delayed (log 105). -/
def queueUnit (w : Who) (g c : Nat) (s : State) : State :=
  if tab0 s.hbm.occ g < 256 && !(s.hbm.waits.any fun x => x.1 == g) then { s with hbm := { s.hbm with occ := tabSet0 g (tab0 s.hbm.occ g + c) s.hbm.occ } }
  else
    let x := (g, w.m.setBase, w.pid)
    { s with hbm := { s.hbm with waits := if s.hbm.waits.contains x then s.hbm.waits else s.hbm.waits ++ [x]
                                 hot := setIns (w.pid * 96 + g) s.hbm.hot } }

/-- Blocks of the fill of one channel group (16 R496). -/
def fillBlocks : Nat := 12288

/-- Whether the fill has reached the block of a unit row of HBM: in its order, or because of an access (16 R496). -/
def hbmFilled (s : State) (u : Nat) : Bool :=
  svc s == 3 && (decide (u % 50331648 / 4096 < tab0 s.pwr.fill (u / 50331648)) || s.pwr.early.contains (u / 4096))

/-- An access to a block not yet filled has it filled first (16 R496). -/
def fillFirst (u : Nat) (s : State) : State :=
  if svc s = 3 ∧ !hbmFilled s u then
    setF 0x12C 20 0 (getF s 0x12C 20 0 - 1) { s with pwr := { s.pwr with early := setIns (u / 4096) s.pwr.early } }
  else s

/-- Count the 256 B units an access moves, for the partition and its imbalance window (08 R226, R235, R242): a write of
part of a unit costs two. An engine's units are charged to its context (11 R351). -/
def countUnits (w : Who) (wr : Bool) (ks : List Nat) (s : State) : State :=
  countDies w ks <| each (runsOf 256 (ks.filter keyIsHbm)) (fun (u, n) t =>
    let c := if wr && n < 256 then 2 else 1
    let t := queueUnit w (u / 50331648) c (inc64 (kPart w.pid 0x240) c (fillFirst u t))
    let t := if w.cls = 15 ∨ w.allOnly then t else charge w.ctx 11 (u / 50331648) c t
    let wk := w.pid * 96 + u / 50331648
    { t with hbm := { t.hbm with win := tabSet0 wk (tab0 t.hbm.win wk + c) t.hbm.win } }) s

/-- Count an uncorrectable HBM unit found by a read: partition, stack log and device counters (08 R238, 18 R522). -/
def noteUe (patrol : Bool) (u : Nat) (own : Option Nat) (s : State) : State :=
  let g := u / 50331648
  let st := g / 8
  let s := match own with | some q => inc32 (kPart q 0x254) 1 s | none => s
  let s := inc32 (kSel st 4) 1 s
  let s := inc32 0x870 1 s
  let s := setN (kSel st 8) (2 ^ 31 + (if patrol then 2 ^ 30 else 0) + (g % 8) * 2 ^ 26 + u % 50331648) s
  setN (kSel st 12) (match own with | some q => 2 ^ 31 + q | none => 0) s

/-- A transfer failed: the counters of its memory or path advance; a CRC-32C mismatch does not last (08 R238; 14 R422, R423, R442). -/
def errNoted (p : Nat) (x : Nat × Nat × List Nat) (s : State) : State :=
  let u := x.2.2.headD 0 / 256
  if x.2.1 = 0x68 then noteUe false u (some p) s
  else if x.2.1 = 0xE5 then inc32 (kPart p 0x124) 1 s
  else inc32 (kPart p 0x128) 1 { s with hbm := { s.hbm with netErr := setDel u s.hbm.netErr } }

/-- A corrected unit is written back and counted, for its partition, in the stack's log and the device's (08 R237; 14 R425; 18 R522). -/
def noteCe (u : Nat) (own : Option Nat) (s : State) : State :=
  let s := match own with | some p => inc32 (kPart p 0x250) 1 s | none => s
  devLog 0xCE u (inc32 0x86C 1 (inc32 (kSel (u / 50331648 / 8 % 16) 0) 1 { s with hbm := { s.hbm with ce := setDel u s.hbm.ce } }))

/-- A corrected on-chip word is written back and counted (14 R422, R425). -/
def noteWord (w p : Nat) (s : State) : State :=
  devLog 0xCE w (inc32 (kPart p 0x120) 1 { s with hbm := { s.hbm with sramCe := setDel w s.hbm.sramCe } })

/-- What a read of these bytes, or the read that a write of parts of units and words makes, corrects (08 R226, R237; 14 R422). -/
def mend (p : Nat) (wr : Bool) (ks : List Nat) (s : State) : State :=
  if s.hbm.ce.isEmpty && s.hbm.sramCe.isEmpty then s
  else
    each (runsOf 256 (ks.filter keyIsHbm)) (fun (u, n) t =>
        if !(wr && n == 256) && t.hbm.ce.contains u then noteCe u (some p) t else t) <|
      each (runsOf 8 (ks.filter fun k => !keyIsHbm k)) (fun (w, n) t =>
        if !(wr && n == 8) && t.hbm.sramCe.contains w then noteWord w p t else t) s

/-- Bytes have been read: errors corrected, units counted. -/
def tookBytes (w : Who) (ks : List Nat) (s : State) : State := countUnits w false ks (mend w.pid false ks s)

/-- Read bytes for a master, checked (08 R221, R223, R237, R238). The blocks before one that fails have been read. -/
def readE (w : Who) (a n : Nat) : Eng (List Byte) := fun s =>
  match refusal s w true false false a n with
  | some f => .error f s
  | none =>
    let ks := keysOf s w.pid a n
    match errAt s false ks with
    | some x => .error (w.flt x.2.1 (a + x.1)) (errNoted w.pid x (tookBytes w (ks.take x.1) s))
    | none => .ok (ks.map (memByte (partOf s w.pid).mek s)) (tookBytes w ks s)

/-- Bytes land at a local address, unchecked: parts of units and words corrected, units counted, error marks replaced, crema taps shown. -/
def landBytes (w : Who) (a : Nat) (bs : List Byte) (s : State) : State :=
  let ks := keysOf s w.pid a bs.length
  let s := countUnits w true ks (errClear ks (memPuts ks bs (mend w.pid true ks s)))
  match w.crema with
  | some m => cremaObserve m w.ctx w.lc a bs s
  | none => s

/-- Bytes land that must: where a CRC-32C mismatch discards the write of a block, it is performed again until it lands, and the RTP's log records it
(10 R323, R329; 14 R425). -/
def landSure (w : Who) (a : Nat) (bs : List Byte) (s : State) : State :=
  let us := (runsOf 256 (keysOf s w.pid a bs.length)).filter fun (u, _) => s.hbm.netErr.contains u
  landBytes w a bs (each us (fun (u, _) t =>
    devLog 0xE6 u (inc32 (kPart w.pid 0x128) 1 { t with hbm := { t.hbm with netErr := setDel u t.hbm.netErr } })) s)

/-- Write bytes for a master, checked; a refused write changes nothing. The blocks before one that fails have landed (14 R423). -/
def writeE (w : Who) (a : Nat) (bs : List Byte) : Eng Unit := fun s =>
  match refusal s w false true false a bs.length with
  | some f => .error f s
  | none =>
    match errAt s true (keysOf s w.pid a bs.length) with
    | some x => .error (w.flt x.2.1 (a + x.1)) (errNoted w.pid x (landBytes w a (bs.take x.1) s))
    | none => .ok () (landBytes w a bs s)

/-- Read, change and write back in one indivisible access (08 R221: both permissions). -/
def rmwE (w : Who) (a n : Nat) (f : List Byte → List Byte) : Eng Unit := fun s =>
  match refusal s w true true false a n with
  | some x => .error x s
  | none =>
    let ks := keysOf s w.pid a n
    match errAt s false ks with
    | some x => .error (w.flt x.2.1 (a + x.1)) (errNoted w.pid x s)
    | none => .ok () (landBytes w a (f (ks.map (memByte (partOf s w.pid).mek s))) (mend w.pid false ks s))

/-- Bytes read by the RTP's own port, with no region check (12 R363). -/
def rawRead (s : State) (p a n : Nat) : List Byte :=
  (keysOf s p a n).map (memByte (partOf s p).mek s)

/-- Bytes written by the RTP's own port. -/
def rawWrite (p a : Nat) (bs : List Byte) (s : State) : State :=
  let ks := keysOf s p a bs.length
  errClear ks (memPuts ks bs s)

/-- The base of a context's share in a memory, as a master sees it (08 R222): the lowest-indexed valid entry with ALLCTX
clear, the context, and a BASE inside the memory. -/
def shareOf (s : State) (w : Who) (lo size : Nat) : Option Nat :=
  let b := w.m.setBase
  ((rangeFrom 0 16).find? fun n =>
    let v := getR s (b + 16 * n)
    bit v 31 && !bit v 30 && fld v 9 0 == w.ctx &&
      decide (lo ≤ 64 * rgnBase s b n) && decide (64 * rgnBase s b n < lo + size)).map fun n => 64 * rgnBase s b n

/-- The share base, or a region violation at the memory's first address. -/
def shareE (w : Who) (lo size : Nat) (wr : Bool) : Eng Nat := fun s =>
  match shareOf s w lo size with
  | some b => .ok b s
  | none => .error (w.flt (if wr then 0x61 else 0x60) lo) s

def spShare (w : Who) (core : Nat) (wr : Bool) : Eng Nat := shareE w (spBase core) spSize wr
def cmShare (w : Who) (cl : Nat) (wr : Bool) : Eng Nat := shareE w (cmBase cl) cmSize wr
def accShare (w : Who) (core a : Nat) (wr : Bool) : Eng Nat := shareE w (accBase core a) accSize wr

/-- Fail an access check without making the access. -/
def guardE (b : Bool) (f : Flt) : Eng Unit := if b then pure () else stop f

/-- Check an access without making it. -/
def checkE (w : Who) (rd wr : Bool) (a n : Nat) : Eng Unit := fun s =>
  match refusal s w rd wr false a n with
  | some f => .error f s
  | none => .ok () s

end Sys2Proof.Machine
end

