-- ==== Sys2Proof/Machine/Flags.lean ====
section
/-! DEFINITION. What engine commands share: decode codes, status words, and rows of elements: read, converted with their flags, and
written (02 R34-R37, R49-R53, R534; 04 R97, R99). -/

namespace Sys2Proof.Machine

/-- The first code whose condition holds; codes are listed from the lowest. 03 R86 and 04 R115 state that order; for the vector commands 05
R154 states none and the model takes the same (log 104). -/
def firstCode (l : List (Nat × Bool)) : Option Nat := (l.find? fun x => x.2).map (·.1)

/-- Refuse a command at decode with the first code that applies. -/
def decodeE (w : Who) (l : List (Nat × Bool)) : Eng Unit :=
  match firstCode l with
  | some c => stop { reason := c, cls := w.cls, unit := w.unit }
  | none => pure ()

/-- A status word: a count in [31:16], saturating, and flags in [7:0] (04 R97). -/
def statusWord (rows flags : Nat) : Word := BitVec.ofNat 32 (min rows 65535 * 65536 + flags % 256)

/-- OR of flag sets. -/
def orFlags (l : List Nat) : Nat := l.foldl (· ||| ·) 0

/-- Flags of a command's status word enter the context's sticky flags (02 R55, R56; 04 R97). -/
def stickFlags (c : Nat) (st : Word) (s : State) : State := orR (kCtx c 0x4C) (st.toNat % 256) s

/-- Bytes of one row of `n` elements (02 R35). -/
def rowBytes (fmt n : Nat) : Nat := ceilDiv (n * fmtBits fmt) 8
/-- Block size of a layout; 0 for none and tensor (02 R27). -/
def blockOf (lay : Nat) : Nat := if lay = 1 then 32 else if lay = 2 then 16 else 0
/-- Bytes of one scale row (02 R36). -/
def scaleBytes (lay n : Nat) : Nat := if blockOf lay = 0 then 0 else ceilDiv n (blockOf lay)

/-- An address field, in units of `u` bytes, beyond its memory: 2 MiB of scratchpad, 24 MiB of cluster memory (04 R98, 05 R120). -/
def addrBad (cluster : Bool) (u v : Nat) : Bool := decide ((if cluster then 0x1800000 else 0x200000) ≤ u * v)

/-- A code is a reserved format or its layout is not allowed (02 R26, R27). -/
def fmtBad (fmt lay : Nat) : Bool := decide (9 < fmt) || !layoutOk fmt lay

/-- A long-format input in fast mode: a subnormal of its own format counts as a zero (02 R42). -/
def flushIn (fmt : Nat) (strict : Bool) (v : FV) : FV :=
  match v with
  | .fin n m e =>
    let normal : Nat := match fmt with | 0 => 2 ^ 23 | 1 => 1024 | 2 => 2 ^ 23 | _ => 0
    if !strict && isLong fmt && decide (m < normal) then .fin n 0 (-149) else .fin n m e
  | v => v

/-- How a conversion rounds: nearest even, or stochastically from seed, stream and element index (02 R52). -/
inductive Rounding where
  | near
  | stoch (seed : DWord) (stream : Nat)
  deriving DecidableEq, Repr

def Rounding.bits (r : Rounding) (i : Nat) : Option Nat :=
  match r with | .near => none | .stoch seed stream => some (srBits seed stream i)

/-- The element encodings of a run that shares one scale exponent, with flags. FP32 output keeps every bit; a NaN that reaches
it raises NAN (05 R121), and in strict mode a signalling one NV and SNAN besides (02 R55). -/
def convRun (fmt : Nat) (ieee strict : Bool) (r : Rounding) (x : Option Int) : Nat → List Word → List Nat × Nat
  | _, [] => ([], 0)
  | i, w :: ws =>
    let (e, f) := if fmt = 0 then (w.toNat, if isNan w then convNanFlags strict w flNAN else 0) else narrow fmt ieee strict (r.bits i) x w
    let (es, g) := convRun fmt ieee strict r x (i + 1) ws
    (e :: es, f ||| g)

/-- The blocks of a row, each with its own scale (02 R51). -/
def convBlocks (fmt : Nat) (ieee strict : Bool) (r : Rounding) (b : Nat) : Nat → List (List Word) → List Nat × List Nat × Nat
  | _, [] => ([], [], 0)
  | i, ws :: rest =>
    let x := blockScale fmt ws
    let (es, f) := convRun fmt ieee strict r (some x) i ws
    let (es', ss, g) := convBlocks fmt ieee strict r b (i + b) rest
    (es ++ es', (x + 127).toNat :: ss, f ||| g)

/-- Convert a row of FP32 values: encodings, scale bytes, flags. `i` is the index of its first element for R52; `tx` the
exponent of a tensor scale, `none` for 0xFF. -/
def convRow (fmt lay : Nat) (ieee strict : Bool) (r : Rounding) (tx : Option Int) (i : Nat) (ws : List Word) :
    List Nat × List Nat × Nat :=
  if blockOf lay = 0 then
    let (es, f) := convRun fmt ieee strict r (if lay = 3 then tx else some 0) i ws
    (es, [], f)
  else convBlocks fmt ieee strict r (blockOf lay) i (chunks (blockOf lay) ws.length ws)

/-- Pack encodings (02 R35). -/
def packElems (fmt : Nat) (es : List Nat) : List Byte := packBits (fmtBits fmt) es

/-- Read `n` elements of a row: values before scaling. -/
def readElems (w : Who) (fmt a n : Nat) : Eng (List Nat) :=
  (fun bs => unpackBits (fmtBits fmt) n bs) <$> readE w a (rowBytes fmt n)

/-- Read a row as FP32 words. -/
def readWords (w : Who) (a n : Nat) : Eng (List Word) :=
  (fun bs => (rangeFrom 0 n).map fun i => BitVec.ofNat 32 (leAt bs (4 * i) 4)) <$> readE w a (4 * n)

/-- Words as bytes. -/
def wordBytes (ws : List Word) : List Byte := ws.flatMap fun w => leBytes 4 w.toNat

/-- Read the scale exponents of a row, one per block; no block scales answer none. -/
def readScales (w : Who) (lay a n : Nat) : Eng (List (Option Int)) :=
  if blockOf lay = 0 then pure []
  else (fun bs : List Byte => bs.map fun b => ds8 b.toNat) <$> readE w a (scaleBytes lay n)

/-- The scale exponent of element `k`: its block's, the tensor's, or 0. -/
def scaleAt (lay : Nat) (ss : List (Option Int)) (tx : Option Int) (k : Nat) : Option Int :=
  if lay = 0 then some 0
  else if lay = 3 then tx
  else listGet (some 0) ss (k / blockOf lay)

/-- The value of a stored element under its scale (02 R34): a 0xFF scale makes it a NaN of its sign. -/
def scaledElem (fmt : Nat) (x : Option Int) (e : Nat) : FV :=
  let v := ofElem fmt e
  match x, v with
  | some k, v => v.scale k
  | none, .fin n _ _ => .nan (if n then 0xFFC00000 else qnan)
  | none, v => v

/-- Write a converted row: elements at `a`, scale bytes at `sa`. -/
def writeRow (w : Who) (fmt a sa : Nat) (r : List Nat × List Nat × Nat) : Eng Unit := do
  writeE w a (packElems fmt r.1)
  if r.2.1.isEmpty then pure () else writeE w sa (r.2.1.map fun b => BitVec.ofNat 8 b)

/-- Where and how a command writes its output rows (04 R98, R99; 05 R122). Addresses are local, strides in bytes; `tx` is the
exponent of a tensor scale. -/
structure OutForm where
  fmt     : Nat
  lay     : Nat
  satm    : Bool
  strict  : Bool
  sr      : Rounding
  tx      : Option Int
  addr    : Nat
  stride  : Nat
  saddr   : Nat
  sstride : Nat
  deriving DecidableEq, Repr

/-- Write output row `m` from FP32 values; `i` is the stochastic index of its first element. Answers the flags. -/
def outRow (w : Who) (o : OutForm) (m i : Nat) (ws : List Word) : Eng Nat := do
  let r := convRow o.fmt o.lay o.satm o.strict o.sr o.tx i ws
  writeRow w o.fmt (o.addr + m * o.stride) (o.saddr + m * o.sstride) r
  pure r.2.2

/-- The base of the memory an output or input lies in: 0 the core's scratchpad, 1 its cluster's memory. -/
def memBase (w : Who) (core : Nat) (cluster : Bool) (wr : Bool) : Eng Nat :=
  if cluster then cmShare w (clOf core) wr else spShare w core wr

def roundingOf (m : EngCmd) (sr : Bool) (stream : Nat) : Rounding := if sr then .stoch m.seed stream else .near

end Sys2Proof.Machine
end

