-- ==== Sys2Proof/Machine/Crc.lean ====
section
/-! DEFINITION. The two cyclic codes the spec names: the flit CRC-64 (09 R247) and CRC-32C (14 R421). -/

namespace Sys2Proof.Machine

/-- One bit of a reflected CRC. -/
def crcBit (poly c : Nat) : Nat := if c % 2 = 1 then (c / 2) ^^^ poly else c / 2

/-- One byte of a reflected CRC. -/
def crcByte (poly c : Nat) (b : Byte) : Nat :=
  let x := c ^^^ b.toNat
  crcBit poly (crcBit poly (crcBit poly (crcBit poly (crcBit poly (crcBit poly (crcBit poly (crcBit poly x)))))))

/-- CRC-64, ECMA-182 reflected: initial and final all ones (09 R247). -/
def crc64 (bs : List Byte) : Nat := bs.foldl (crcByte 0xC96C5795D7870F42) (2 ^ 64 - 1) ^^^ (2 ^ 64 - 1)

/-- CRC-32C, the Castagnoli code in its usual reflected form (14 R421; log 12). -/
def crc32c (bs : List Byte) : Nat := bs.foldl (crcByte 0x82F63B78) (2 ^ 32 - 1) ^^^ (2 ^ 32 - 1)

end Sys2Proof.Machine
end

