-- ==== Sys2Proof/Machine/Links.lean ====
section
/-! DEFINITION. What a Span port sends: flits, packets, notices to the fabric manager (09 R247-R255, R277-R280). Ports
are numbered 16x + p. -/

namespace Sys2Proof.Machine

/-- Register `o` of port `P` (09 R285). -/
def kP (P o : Nat) : Nat := 0x1100 + 16 * P + o
def portSt (s : State) (P : Nat) : Nat := getF s (kP P 4) 31 29
def setPortSt (P v : Nat) (s : State) : State := setF (kP P 4) 31 29 v s
def portUp (s : State) (P : Nat) : Bool := portSt s P == 2 || portSt s P == 3
/-- Ports of the assembly. -/
def portsN (s : State) : Nat := 16 * xdies s
/-- The lowest-numbered port that is up: the one the device sends management messages on (log 13). -/
def anyPort (s : State) : Option Nat := (rangeFrom 0 (portsN s)).find? (portUp s)

/-- The words of a packet header (09 R253). -/
def pktHeader (k : Pkt) : List Nat :=
  let vc : Nat := let o := k.opc.toNat
    if o = 8 ∨ o = 9 then 1 else if 0x10 ≤ o ∧ o < 0x20 then 2 else if 0x20 ≤ o ∧ o < 0x30 then 3 else 0
  [k.opc.toNat * 2 ^ 24 + vc * 2 ^ 22 + (if k.strict then 2 ^ 21 else 0) + k.nbytes.toNat * 2 ^ 12,
   k.dmod.toNat * 2 ^ 16 + k.smod.toNat,
   k.dpid.toNat * 2 ^ 27 + k.spid.toNat * 2 ^ 22 + k.sctx.toNat * 2 ^ 12,
   k.tepoch.toNat * 2 ^ 16 + k.sepoch.toNat,
   k.addr.toNat % 2 ^ 32,
   k.status.toNat * 2 ^ 24 + k.flags.toNat * 2 ^ 16 + k.addr.toNat / 2 ^ 32,
   k.tag.toNat * 2 ^ 16,
   k.dcrc.toNat]

/-- Bytes padded with zeros to a multiple of `n`. -/
def padTo (n : Nat) (bs : List Byte) : List Byte := bs ++ List.replicate (roundUp bs.length n - bs.length) 0

/-- The slots of a packet as bytes. -/
def pktBytes (k : Pkt) : List Byte := (pktHeader k).flatMap (leBytes 4) ++ padTo 16 k.data

/-- A link header (09 R248). -/
def linkHdr (mark crcnt crvc nak ack ftype seq : Nat) : DWord :=
  BitVec.ofNat 64 (mark % 256 * 2 ^ 56 + crcnt % 4096 * 2 ^ 36 + crvc % 4 * 2 ^ 34 + nak % 2 * 2 ^ 33 +
    ack % 4096 * 2 ^ 20 + ftype % 16 * 2 ^ 16 + seq % 4096)

/-- The CRC-64 of a flit's header and slots. -/
def flitCrc (hdr : DWord) (slots : List Byte) : DWord := BitVec.ofNat 64 (crc64 (leBytes 8 hdr.toNat ++ slots))

/-- The flit a link sends now with a type, sequence number, marker and slots: its header carries the acknowledgement or NAK
and the credits of the first VC with buffer space to return (09 R248-R252). -/
def mkFlit (l : Link) (ftype seq mark : Nat) (slots : List Byte) : Flit :=
  let vc := ((rangeFrom 0 4).find? fun v => listGet 0 l.freed v != 0).getD 0
  let ack := if l.naking then l.rxSeq else (l.rxSeq + 4095) % 4096
  let h := linkHdr mark (listGet 0 l.freed vc) vc (if l.naking then 1 else 0) ack ftype seq
  { hdr := h, slots := slots, crc := flitCrc h slots }

/-- After sending a flit its returned credits are gone. -/
def creditsSent (l : Link) : Link :=
  let vc := ((rangeFrom 0 4).find? fun v => listGet 0 l.freed v != 0).getD 0
  { l with freed := listSet vc (listGet 0 l.freed vc - listGet 0 l.freed vc % 4096) l.freed }

/-- The first queued packet of a VC, and the queue without it. -/
def takeVc (v : Nat) : List (Nat × List Flit) → Option (List Flit × List (Nat × List Flit))
  | [] => none
  | (u, fs) :: r =>
    if u = v then some (fs, r)
    else match takeVc v r with
      | some (x, t) => some (x, (u, fs) :: t)
      | none => none

/-- The packet to send from now: the rest of one that has begun; else, round-robin over the VCs, the first of a VC that has credit for all of
its flits (09 R252; 11 R349; log 13). Answers its VC, its flits and the queue without it. -/
def takeReady (l : Link) : Option (Nat × List Flit × List (Nat × List Flit)) :=
  if l.mid then
    match l.txq with
    | [] => none
    | (v, fs) :: r => if fs.length ≤ listGet 0 l.credits v then some (v, fs, r) else none
  else
    let fits : Nat → Bool := fun v => match takeVc v l.txq with
      | some (fs, _) => decide (fs.length ≤ listGet 0 l.credits v)
      | none => false
    match ((rangeFrom 1 4).map fun i => (l.turn + i) % 4).find? fits with
    | some v => (takeVc v l.txq).map fun (fs, r) => (v, fs, r)
    | none => none

/-- Send queued DATA flits while the port is up, a VC has credit and fewer than 512 are unacknowledged (09 R249, R252). -/
def pump (P : Nat) : Nat → State → State
  | 0, s => s
  | n + 1, s =>
    let l := linkOf s P
    if portUp s P && decide (l.unacked.length < 512) then
      match takeReady l with
      | some (v, f :: fs, rest) =>
        let g := mkFlit l 0 l.txSeq 0 f.slots
        let s := modLink P (fun l => { creditsSent l with
          txSeq := (l.txSeq + 1) % 4096, mid := !fs.isEmpty, turn := v
          txq := if fs.isEmpty then rest else (v, fs) :: rest
          unacked := l.unacked ++ [g], sent := listSet v (listGet 0 l.sent v + 1) l.sent, credits := listSet v (listGet 0 l.credits v - 1) l.credits }) s
        pump P n { s with span := { s.span with out := s.span.out ++ [.flit P g] } }
      | _ => s
    else s

/-- Flits that wait to be sent. -/
def queuedFlits (l : Link) : Nat := l.txq.foldl (fun n x => n + x.2.length) 0

/-- Send as many queued flits of a port as may go. -/
def pumpAll (P : Nat) (s : State) : State := pump P (queuedFlits (linkOf s P)) s

/-- Queue the slots of one packet on a port's VC, 15 slots to a flit (log 13), and send what may go. -/
def sendSlots (P vc : Nat) (bs : List Byte) (s : State) : State :=
  let fl := (chunks 240 bs.length bs).map fun c => ({ hdr := 0, slots := padTo 240 c, crc := 0 } : Flit)
  pumpAll P (modLink P (fun l => { l with txq := l.txq ++ [(vc, fl)] }) s)

/-- Whether a packet of a VC with `n` slots would begin to leave at once. -/
def roomFor (s : State) (P vc n : Nat) : Bool :=
  let l := linkOf s P
  portUp s P && decide (l.unacked.length < 512) && !l.mid && (takeVc vc l.txq).isNone &&
    decide (ceilDiv n 15 ≤ listGet 0 l.credits vc)

/-- A port's link starts afresh (09 R250): sequences, credits, the replay buffer and what it received are gone, with a packet that had begun to
leave; its width, the turns of its senders, the packets not begun and a capture stay. -/
def relink (l : Link) : Link :=
  { txq := if l.mid then l.txq.tail else l.txq, turn := l.turn, unit := l.unit, half := l.half, rate := l.rate, sent := l.sent
    capId := l.capId, capIn := l.capIn, capOut := l.capOut, capEnd := l.capEnd, capDone := l.capDone }

/-- Forget the packets of a partition on some VCs that have not begun to leave (12 R393, 14 R438). Management carries none. -/
def dropQueued (p : Nat) (vc : Nat → Bool) (s : State) : State :=
  let keep : Nat × List Flit → Bool := fun (v, fs) =>
    v == 3 || !vc v || match fs with | f :: _ => fld (BitVec.ofNat 32 (leAt f.slots 8 4)) 26 22 != p | [] => true
  each (rangeFrom 0 (portsN s)) (fun P => modLink P fun l =>
    { l with txq := (if l.mid then l.txq.take 1 else []) ++ (if l.mid then l.txq.drop 1 else l.txq).filter keep }) s

/-- Send a packet on a port. -/
def sendPkt (P vc : Nat) (k : Pkt) (s : State) : State :=
  sendSlots P vc (pktBytes k) { s with span := { s.span with out := s.span.out ++ [.pkt P k] } }

/-- The module's number (09 R285). -/
def modNum (s : State) : Nat := getF s 0x1000 15 0
def assigned (s : State) : Bool := bit (getR s 0x1000) 31
/-- Whether a fabric manager session is established (12 R399). -/
def fmSess (s : State) : Bool := bit (getR s 0x400) 27

/-- A management packet (09 R277). -/
def mgmtPkt (s : State) (opc : Nat) (payload : List Byte) : Pkt :=
  { opc := BitVec.ofNat 8 opc, strict := false, nbytes := BitVec.ofNat 9 payload.length, dmod := 0,
    smod := BitVec.ofNat 16 (modNum s), dpid := 0, spid := 0, sctx := 0, tepoch := 0, sepoch := 0, addr := 0,
    status := 0, flags := 0, tag := 0, dcrc := BitVec.ofNat 32 (crc32c payload), data := payload }

/-- Send a management message on a port (09 R277). -/
def sendMgmt (P opc : Nat) (payload : List Byte) (s : State) : State := sendPkt P 3 (mgmtPkt s opc payload) s

/-- The 16 B tag of a session message from the device (12 R388). -/
def mgmtTag (s : State) (seq : Nat) (payload : List Byte) : List Byte :=
  (rangeFrom payload.length 16).map
    (Config.gcmSealByte s.span.keyTx ((1 : Byte) :: leBytes 11 seq) [] payload)

/-- A new sequence number for a message of the device. -/
def nextSeq (s : State) : State := { s with span := { s.span with seq := (s.span.seq + 1) % 65536 } }

/-- ANNOUNCE on a port (09 R278). -/
def announce (P : Nat) (s : State) : State :=
  let body := leBytes 1 s.assy.toNat ++ [0x42] ++ leBytes 1 P ++ leBytes 1 (if assigned s then 1 else 0) ++
    leBytes 2 (modNum s) ++ leBytes 4 (getR s 0x1004).toNat ++ (Config.identity 0).take 8
  sendMgmt P 0x20 (leBytes 2 s.span.seq ++ body) (nextSeq s)

/-- The fabric manager session ends: its keys are gone and the module announces itself until an ASSIGN is accepted (12 R388). -/
def endFmSess (s : State) : State :=
  if fmSess s then
    { setF 0x400 27 27 0 s with span := { s.span with annPort := true, keyTx := [], keyRx := [], sessTx := 0, sessRx := 0 } }
  else s

/-- After 65,535 messages in either direction the session ends, and the device sends ANNOUNCE again (12 R388). -/
def sessCheck (s : State) : State :=
  if 65535 ≤ s.span.sessTx ∨ 65535 ≤ s.span.sessRx then
    match anyPort s with
    | some P => announce P (endFmSess s)
    | none => endFmSess s
  else s

/-- The session has sent a message. -/
def sessSent (s : State) : State := sessCheck { s with span := { s.span with sessTx := s.span.sessTx + 1 } }

/-- Send a message within the session, if there is one and a port is up. -/
def sendSess (opc seq : Nat) (body : List Byte) (s : State) : State :=
  let pl := leBytes 2 seq ++ body
  match anyPort s with
  | some P => if fmSess s then sessSent (sendMgmt P opc (pl ++ mgmtTag s seq pl) s) else s
  | none => s

/-- Raise a notice that is resent until it is acknowledged (09 R280). -/
def notice (opc : Nat) (body : List Byte) (s : State) : State :=
  let q := s.span.seq
  sendSess opc q body
    (nextSeq { s with span := { s.span with notices := s.span.notices ++ [{ seq := q, opc := opc, payload := body }] } })

/-- PART_DOWN with the retiring epoch and the cause (09 R278). -/
def noticeDown (p epoch cause : Nat) : State → State :=
  notice 0x23 (leBytes 1 p ++ leBytes 2 epoch ++ leBytes 1 cause)
/-- PART_UP with the epoch (09 R278; 14 R436). -/
def noticeUp (p : Nat) (s : State) : State := notice 0x24 (leBytes 1 p ++ leBytes 2 (epochOf s p)) s
/-- PORT_EVENT with the port's new state (09 R278). -/
def noticePort (P : Nat) (s : State) : State :=
  notice 0x26 (leBytes 1 (P / 16) ++ leBytes 1 (P % 16) ++ leBytes 1 (portSt s P)) s

end Sys2Proof.Machine
end

