-- ==== Sys2Proof/Machine/Rings.lean ====
section
/-! DEFINITION. Shared ring operations (10 R289-R302, R309; 12 R382, R383): stopping a ring, finishing a submission, writing its
completion. -/

namespace Sys2Proof.Machine

def sqCfg (s : State) (c : Nat) : Word := getR s (kCtx c 0x08)
def cqCfg (s : State) (c : Nat) : Word := getR s (kCtx c 0x18)
def sqEn (s : State) (c : Nat) : Bool := bit (sqCfg s c) 31
def cqEn (s : State) (c : Nat) : Bool := bit (cqCfg s c) 31
def sqSize (s : State) (c : Nat) : Nat := 2 ^ fld (sqCfg s c) 4 0
def cqSize (s : State) (c : Nat) : Nat := 2 ^ fld (cqCfg s c) 4 0
def sqHead (s : State) (c : Nat) : Nat := getF s (kCtx c 0x0C) 15 0
def cqTail (s : State) (c : Nat) : Nat := getF s (kCtx c 0x1C) 15 0
def ringErr (s : State) (c : Nat) : Bool := bit (getR s (kCtx c 0x20)) 31

/-- Free completion slots (10 R294): whether one more may be reserved. -/
def slotFree (s : State) (c : Nat) : Bool :=
  let n := cqSize s c
  let used := (cqTail s c + n - (ringOf s c).cqHead % n) % n
  decide (used + (ringOf s c).resv + 1 ≤ n - 1)

/-- The ring stops on an error (10 R293, R299; 12 R384). -/
def stopRing (c code : Nat) (s : State) : State :=
  setF (kCtx c 0x20) 23 16 code (setF (kCtx c 0x20) 31 31 1 s)

/-- The submissions of a context. -/
def subsOf (s : State) (c : Nat) : List Sub := s.jobs.subs.filter fun x => x.ctx == c

/-- Show INFLIGHT and IDLE of a context (10 R291). -/
def showInflight (c : Nat) (s : State) : State :=
  let n := (subsOf s c).length
  setF (kCtx c 0x20) 15 0 n (setF (kCtx c 0x20) 30 30 (if n = 0 then 1 else 0) s)

def findSub (s : State) (c seq : Nat) : Option Sub := s.jobs.subs.find? fun x => x.ctx == c && x.seq == seq

/-- Change the first element of a list that satisfies a test. -/
def mapFirst {α : Type} (p : α → Bool) (f : α → α) : List α → List α
  | [] => []
  | x :: r => if p x then f x :: r else x :: mapFirst p f r

/-- Change one submission: the one fetched first, where a ring was enabled again and two have one number (10 R292). -/
def modSub (c seq : Nat) (f : Sub → Sub) (s : State) : State :=
  { s with jobs := { s.jobs with subs := mapFirst (fun x => x.ctx == c && x.seq == seq) f s.jobs.subs } }

/-- A submission has finished with an outcome, at the device time its completion will carry; the completion is still to be written (10 R296-R298). -/
def finishSub (c seq status reason : Nat) (s : State) : State :=
  noteStamp 32 (modSub c seq (fun x => { x with st := .done, status := status, reason := reason, time := stampOf s 32 }) s)

/-- The key of a direction of bounce traffic (12 R382), of the epoch its K_B was set in. -/
def bounceKey (s : State) (p : Nat) (d2h : Bool) : List Byte :=
  Config.hkdf [] (partOf s p).kb
    ((if d2h then [0x44, 0x58, 0x39, 0x2D, 0x44, 0x32, 0x48] else [0x44, 0x58, 0x39, 0x2D, 0x48, 0x32, 0x44]) ++
      leBytes 1 p ++ leBytes 2 (partOf s p).kbEpoch)

/-- The header of a sealed record (12 R382). -/
def recHeader (sid plen cnt : Nat) : List Byte := [0x42, 0x52] ++ leBytes 1 sid ++ [0] ++ leBytes 4 plen ++ leBytes 8 cnt

/-- The nonce of a sealed record. -/
def recNonce (sid cnt : Nat) : List Byte := leBytes 1 sid ++ [0, 0, 0] ++ leBytes 8 cnt

/-- One sealed record of device-to-host data (12 R382, R383). -/
def sealRec (s : State) (p sid cnt : Nat) (d : List Byte) : List Byte :=
  let h := recHeader sid d.length cnt
  h ++ (rangeFrom 0 (d.length + 16)).map (Config.gcmSealByte (bounceKey s p true) (recNonce sid cnt) h d)

def setCnt (p sid v : Nat) : State → State := modPart p fun x => { x with cnts := listSet sid v x.cnts }
def cntOf (s : State) (p sid : Nat) : Nat := listGet 0 (partOf s p).cnts sid

/-- Open a sealed record of a stream: MAGIC, SID, PLEN and CNT must fit and the tag verify (12 R383). -/
def openRec (s : State) (p sid plen : Nat) (r : List Byte) : Option (List Byte) :=
  let cnt := cntOf s p sid
  let h := r.take 16
  if h = recHeader sid plen cnt ∧ r.length = plen + 32 then
    Config.gcmOpen (bounceKey s p false) (recNonce sid cnt) h ((r.drop 16).take plen) (r.drop (16 + plen))
  else none

/-- Write one sealed record for a context: header and ciphertext, then the tag (12 R383). The tag is never relaxed, so that it lands last
(10 R301). -/
def writeSealed (c p sid addr : Nat) (relaxed : Bool) (d : List Byte) (s : State) : State :=
  let cnt := cntOf s p sid
  let r := sealRec s p sid cnt d
  let fn := boundFn s c
  let n := 16 + d.length
  setCnt p sid (cnt + 1) (hostWrite fn (some p) (addr + n) false (r.drop n) (hostWrite fn (some p) addr relaxed (r.take n) s))

/-- Write result data to host memory for a context, in relaxed order where its function enables it (10 R286), sealed in bounce mode (12 R382): chunks of
4,096 B of stream `sid`. -/
def hostData (c sid addr : Nat) (d : List Byte) (s : State) : State :=
  let p := ctxPid s c
  let relaxed := !(s.bus.strictOrder.contains (boundFn s c))
  if conf s p = 3 ∧ (ctxOwner s c).isSome then
    ((chunks 4096 d.length d).foldl (fun (t, a) ch => (writeSealed c p sid a relaxed ch t, a + 32 + ch.length)) (s, addr)).1
  else hostWrite (boundFn s c) (ctxOwner s c) addr relaxed d s

/-- The 32 B completion entry (10 R297). -/
def complEntry (s : State) (x : Sub) : List Byte :=
  leBytes 4 x.seq ++ leBytes 4 x.tag ++ leBytes 1 x.status ++ leBytes 1 x.reason ++ leBytes 1 x.opc ++ [0] ++
    leBytes 2 (sqHead s x.ctx) ++ [0, 0] ++ leBytes 8 x.time ++ leBytes 4 x.result ++
    leBytes 4 (getF s (kCtx x.ctx 0x1C) 16 16 * 2 ^ 31)

/-- Send the completion interrupt when 10 R300 calls for it: `irq` of the submission, or MCNT entries. -/
def cqIrq (c : Nat) (irq : Bool) (s : State) : State :=
  let n := (ringOf s c).modCnt + 1
  if irq || decide (max 1 (fld (cqCfg s c) 19 12) ≤ n) then
    msi (boundFn s c) (fld (cqCfg s c) 30 20) (modRing c (fun r => { r with modCnt := 0 }) s)
  else modRing c (fun r => { r with modCnt := n }) s

/-- Write the completion entry of a finished submission into its ring: bytes 0-27, then the PHASE word, then the interrupt;
in bounce mode one sealed record (10 R296, 12 R383). -/
def writeEntry (x : Sub) (s : State) : State :=
  let c := x.ctx
  let e := complEntry s x
  let base := get64 s (kCtx c 0x10)
  let t := cqTail s c
  let p := ctxPid s c
  let s :=
    if conf s p = 3 then writeSealed c p 1 (base + 64 * t) false e s
    else
      hostWrite (boundFn s c) (ctxOwner s c) (base + 32 * t + 28) false (e.drop 28)
        (hostWrite (boundFn s c) (ctxOwner s c) (base + 32 * t) false (e.take 28) s)
  let t' := (t + 1) % cqSize s c
  let s := setF (kCtx c 0x1C) 15 0 t' s
  let s := if t' = 0 then setF (kCtx c 0x1C) 16 16 (1 - getF s (kCtx c 0x1C) 16 16) s else s
  cqIrq c x.irq s

/-- A RUN that completes after its deadline is counted (11 R353). -/
def countMiss (x : Sub) (s : State) : State :=
  match x.deadline with
  | some d =>
    if x.opc = 1 ∧ x.status = 0 ∧ d < now s then
      inc32 (kPart (ctxPid s x.ctx) 0x20) 1 (inc32 (kCtx x.ctx 0xC8) 1 s)
    else s
  | none => s

/-- Complete a finished submission (10 R296): result data, entry, interrupt; with the CQ disabled the
completion is dropped (R292). -/
def completeSub (x : Sub) (s : State) : State :=
  let s := x.out.foldl (fun t (a, d) => hostData x.ctx 3 a d t) s
  let s := countMiss x s
  let s := if cqEn s x.ctx then writeEntry x s else s
  let s := modRing x.ctx (fun r => { r with resv := r.resv - 1 }) s
  showInflight x.ctx
    { s with jobs := { s.jobs with
        subs := s.jobs.subs.eraseP fun y => y.ctx == x.ctx && y.seq == x.seq
        admq := s.jobs.admq.filter (· != (x.ctx, x.seq)) } }

/-- Complete every fetched submission of a context with STATUS 0x06 and a cause; those that had already finished keep
their own outcome (10 R302, 14 R432). -/
def completeReset (c cause : Nat) (s : State) : State :=
  each (subsOf s c) (fun x t =>
    if x.st = .done then completeSub x t
    else completeSub { x with st := .done, status := 6, reason := cause, time := stampOf t 32, out := [] } (noteStamp 32 t)) s

end Sys2Proof.Machine
end

