-- ==== Sys2Proof/Machine/Recover.lean ====
section
/-! DEFINITION. Fault records, context resets and partition resets (14 R424-R438), scrubs (12 R389-R391), the end of
a partition (11 R335, R336). Each is one shared operation that every trigger uses. -/

namespace Sys2Proof.Machine

/-- The clock region whose tap stamps an event of a unit (15 R468). -/
def regionOf (cls unit : Nat) : Nat :=
  if cls ≤ 5 then unit / 16 % 32
  else if cls ≤ 8 then unit % 32
  else if cls = 9 then 35 + unit
  else if cls = 10 then (if unit % 2 = 0 then 32 else 34)
  else if cls = 11 then 35 + unit / 8
  else if cls = 12 then (if unit % 32 < 16 then 32 else 34)
  else 32

/-- Fill a context's fault record, if it holds no fault, and signal its function (14 R426, R427): a record that holds one keeps it. KIND 0 and 1 are
faults and advance COUNT (log 14). -/
def recordFault (c kind : Nat) (esc : Bool) (f : Flt) (opc cseq : Nat) (s : State) : State :=
  let s := if kind < 2 then inc32 (kCtx c 0xE8) 1 s else s
  if bit (getR s (kCtx c 0xD0)) 31 then s
  else
    let r := regionOf f.cls f.unit
    let t := stampOf s r
    let s := noteStamp r s
    let s := setN (kCtx c 0xD0) (2 ^ 31 + kind * 2 ^ 29 + (if esc then 2 ^ 28 else 0) + f.cls % 16 * 2 ^ 24 +
      f.reason % 256 * 2 ^ 16 + f.unit % 4096) s
    let s := setN (kCtx c 0xD4) (f.addr % 2 ^ 32) s
    let s := setN (kCtx c 0xD8) (f.modnum % 2 ^ 16 * 2 ^ 16 + f.addr / 2 ^ 32 % 2 ^ 16) s
    let s := setN (kCtx c 0xDC) (t % 2 ^ 32) s
    let s := setN (kCtx c 0xE0) (t / 2 ^ 32) s
    let s := setN (kCtx c 0xE4) (opc % 256 * 2 ^ 24 + cseq % 2 ^ 16) s
    vec0 (boundFn s c) s

/-- The outcome of a commit group (10 R327-R329): a COMMIT finishes, a CGSUBMIT gets its outcome word. -/
def groupOutcome (g : Group) (status reason idx : Nat) (s : State) : State :=
  match g.src with
  | .commit seq =>
    modSub g.owner seq (fun x => { x with result := idx }) (finishSub g.owner seq status reason s)
  | .cg core oaddr =>
    landSure (whoDma s core g.owner) oaddr (leBytes 1 status ++ leBytes 1 reason ++ leBytes 1 idx ++ [0] ++ leBytes 4 g.gtag) s

/-- Abort the staged groups that satisfy a test, with 0x8B (10 R327). -/
def abortGroups (p : Group → Bool) (s : State) : State :=
  let gs := s.jobs.groups.filter p
  let s := { s with jobs := { s.jobs with groups := s.jobs.groups.filter fun g => !p g } }
  each gs (fun g => groupOutcome g 2 0x8B 0) s

/-- STEP of a reduction channel's current or last bucket, and NEXTSEQ (13 R419). -/
def rdcStep (s : State) (k : Nat) : Nat := (getR s (kRdc k 0x24)).toNat
def rdcNext (s : State) (k : Nat) : Nat := getF s (kRdc k 0x20) 15 0

/-- Whether a (STEP, BSEQ) pair is the next a channel without a current bucket expects (13 R409). -/
def rdcExpects (s : State) (k step bseq : Nat) : Bool :=
  if (redOf s k).inStep then step == rdcStep s k && bseq == rdcNext s k else bseq == 0

/-- Whether a pair's bucket has already completed in the current step (13 R417 code 0xD0). -/
def rdcLate (s : State) (k step bseq : Nat) : Bool :=
  (redOf s k).inStep && step == rdcStep s k && decide (bseq < rdcNext s k)

/-- Whether a queued post can become current: it is the next expected, or its BSEQ has completed, which is a fault then. -/
def mayStart (s : State) (k : Nat) (q : Post) : Bool := rdcExpects s k q.step q.bseq || rdcLate s k q.step q.bseq

/-- RDC_STATE shows what the channel does (13 R419). -/
def showRdc (k : Nat) (s : State) : State :=
  let r := redOf s k
  setF (kRdc k 0x20) 31 30 (if r.cur.isSome then 1 else if r.posts.isEmpty || r.posts.any (mayStart s k) then 0 else 2) s

/-- A reduction channel gives up what a context has on it (13 R417, R418): its current bucket if it posted it, and its
queued posts. Without a current bucket the channel is idle again, and expects BSEQ 0 of any step. -/
def redAbandon (k c : Nat) (s : State) : State :=
  let r := redOf s k
  let mine := match r.cur with | some b => b.post.ctx == c | none => false
  if mine || r.posts.any (fun q => q.ctx == c) then
    let posts := r.posts.filter fun q => q.ctx != c
    let s := setRed k { r with posts := posts, cur := if mine then none else r.cur,
                               inStep := if mine then false else r.inStep,
                               next := if mine then [] else r.next } s
    showRdc k (if mine then setF (kRdc k 0x20) 15 0 0 s else s)
  else s

/-- The cores a context runs on no longer run it (11 R340), and its credits are gone (11 R535). -/
def leaveCores (c : Nat) (s : State) : State :=
  let s := { s with
    eng := { s.eng with starts := s.eng.starts.filter fun x => x.1 % 1024 != c
                        credit := tabClear (c * 65536) ((c + 1) * 65536) s.eng.credit }
    dbg := { s.dbg with steps := s.dbg.steps.filter fun k => k % 1024 != c } }
  each (rangeFrom 0 512) (fun n t =>
    if bit (getR t (kCore n 0x1C0)) 13 && getF t (kCore n 0x1C0) 9 0 == c then setR (kCore n 0x1C0) 0 t else t) s

/-- CMB_ACT of each cluster: its combine engine holds rows or a CMBFIN (07 R211). -/
def showCmb (s : State) : State :=
  each (rangeFrom 0 32) (fun c t =>
    let on := t.eng.cmbRows.any (fun r => r.dst == c) || t.eng.cmds.any (fun m => fld m.env.w0 31 24 == 0x34 && m.core / 16 == c && m.pay.isSome)
    if bit (getR t (kCl c 0xA0)) 11 == on then t else setF (kCl c 0xA0) 11 11 (if on then 1 else 0) t) s

/-- What MX_STATUS of a core shows of a command that its arrays hold (03 R90): shape, gang, arrays, context. -/
def mxShown (n : Nat) (m : EngCmd) : Option Nat :=
  let opc := fld m.env.w0 31 24
  match m.pay with
  | some p =>
    let gang := bit p.w0 29
    if (opc == 0x10 || opc == 0x11) && (m.core == n || (gang && m.core + 1 == n)) then
      some (fld p.w0 28 27 * 2 ^ 13 + (if gang then 2 ^ 12 else 0) + fld p.w0 31 30 * 2 ^ 10 + m.ctx)
    else none
  | none => none

/-- What VX_STATUS of a core, GX_STATUS and PG_STATUS of a cluster show of a command (05 R152, 07 R211, 06 R188). -/
def vxShown (n : Nat) (m : EngCmd) : Option Nat :=
  let opc := fld m.env.w0 31 24
  if m.pay.isSome && decide (0x20 ≤ opc ∧ opc ≤ 0x25) && m.core == n then some ((opc - 0x20) * 2 ^ 11 + 2 ^ 10 + m.ctx) else none
def gtShown (c : Nat) (m : EngCmd) : Option Nat :=
  if m.pay.isSome && fld m.env.w0 31 24 == 0x30 && m.core / 16 == c then some (2 ^ 10 + m.ctx) else none
def pgShown (c : Nat) (m : EngCmd) : Option Nat :=
  let opc := fld m.env.w0 31 24
  if m.pay.isSome && decide (0x38 ≤ opc ∧ opc ≤ 0x3C) && m.core / 16 == c then some ((opc - 0x38) * 2 ^ 11 + 2 ^ 10 + m.ctx) else none

/-- The last thing that commands show, or 0. -/
def lastShown (f : EngCmd → Option Nat) (l : List EngCmd) : Nat := (l.filterMap f).getLast?.getD 0

/-- A field of a status register shows a number. -/
def showF (k hi v : Nat) (s : State) : State := if getF s k hi 0 = v then s else setF k hi 0 v s

/-- The status registers of a core, and of a cluster, show the commands still held there: the last that did its work, or none (03 R90, 05 R152,
06 R188, 07 R211). -/
def showCore (n : Nat) (s : State) : State :=
  showF (kCore n 0xA0) 14 (lastShown (vxShown n) s.eng.cmds) (showF (kCore n 0x40) 14 (lastShown (mxShown n) s.eng.cmds) s)
def showCl (c : Nat) (s : State) : State :=
  showF (kCl c 0xA0) 10 (lastShown (gtShown c) s.eng.cmds) (showF (kCl c 0x60) 14 (lastShown (pgShown c) s.eng.cmds) s)

/-- Every unit shows what it still holds. -/
def leaveEngines (s : State) : State :=
  showCmb (each (rangeFrom 0 32) showCl (each (rangeFrom 0 512) showCore s))

/-- BUSY of a partition's dump block: a dump is in progress (15 R460). -/
def showDump (p : Nat) (s : State) : State :=
  let on := s.dbg.dumps.any fun d => d.pid == p
  if bit (getR s (kPart p 0x1D8)) 30 == on then s else setF (kPart p 0x1D8) 30 30 (if on then 1 else 0) s

/-- Drop everything a context has in flight in the engines, on Span and at the commit point (14 R433 steps 2 and 3, R434;
03 R89, 06 R187, 07 R209). Its tags are retired and held (09 R268). -/
def dropCtx (c : Nat) (s : State) : State :=
  let s := { s with eng := { s.eng with
      cmds := s.eng.cmds.filter fun x => x.ctx != c
      cmbRows := s.eng.cmbRows.filter fun x => x.ctx != c
      pourRows := s.eng.pourRows.filter fun x => x.ctx != c } }
  let s := { s with span := { s.span with
      waits := s.span.waits.filter fun w => w.tag.ctx != c
      tags := s.span.tags.map fun t => if t.ctx = c then { t with use := .retired } else t } }
  let s := each (rangeFrom 0 16) (fun k => redAbandon k c) s
  let s := abortGroups (fun g => g.owner == c) s
  let s := setF (kCtx c 0xFC) 31 30 0 s
  let s := { s with dbg := { s.dbg with
      halting := s.dbg.halting.filter fun (x, _) => x != c
      pcs := s.dbg.pcs.filter fun (x, _) => x % 1024 != c
      dumps := s.dbg.dumps.filter fun d => d.ctx != c } }
  let s := showDump (ctxPid s c) s
  semZero c (leaveEngines (leaveCores c s))

/-- A context reset starts (14 R432, R433). A reset of a context that is being reset, or whose partition is, adds nothing
(R435); a context of no sealed partition does not run. -/
def startCtxReset (c cause : Nat) (s : State) : State :=
  match ctxOwner s c with
  | none => s
  | some p =>
    if partState s p ≠ 2 ∨ bit (getR s (kCtx c 0xEC)) 1 then s
    else
      let s := inc32 (kPart p 0x114) 1 s
      let s := setF (kCtx c 0xEC) 1 1 1 s
      let s := modRing c (fun r => { r with stopped := true }) s
      let s := { s with jobs := { s.jobs with resetting := s.jobs.resetting ++ [(c, cause)] } }
      dropCtx c s

/-- Close the open periods of a context and give up its budgets (14 R433 step 5). -/
def closeJobs (c : Nat) (s : State) : State :=
  { s with jobs := { s.jobs with
      periods := s.jobs.periods.filter fun q => q.ctx != c
      budgets := s.jobs.budgets.filter fun b => b.ctx != c } }

/-- A context reset ends: bookkeeping, completions, BUSY clears, the function is signalled (14 R433 steps 5 and 6). -/
def finishCtxReset (c : Nat) (s : State) : State :=
  match s.jobs.resetting.find? fun (x, _) => x == c with
  | none => s
  | some (_, cause) =>
    let s := { s with jobs := { s.jobs with resetting := s.jobs.resetting.filter fun (x, _) => x != c } }
    let s := completeReset c cause (closeJobs c s)
    let s := modRing c (fun r => { r with stopped := false }) s
    vec0 (boundFn s c) (setF (kCtx c 0xEC) 1 1 0 s)

/-- A partition reset starts (14 R436 steps 1 and 2): accesses not yet sent are refused with reason 0x72, and what its teardown awaits is a free
number (log 78). It needs a sealed partition; one in progress is joined (R437). A context reset that escalates sets ESC in its context's record
(R435). -/
def startPartReset (p cause : Nat) (esc : Option Nat) (s : State) : State :=
  if partState s p ≠ 2 then s
  else
    let s := setPartState p 3 s
    let old := epochOf s p
    let s := setN (kPart p 0x10C) (cause % 256 * 2 ^ 24 + old) s
    let s := inc32 (kPart p 0x110) 1 s
    let s := bumpFree (setN (kPart p 0x12C) (freeN s % 2 ^ 32) s)
    let s := dropQueued p (fun v => v == 0 || v == 2) s
    let s := setF (kPart p 0x84) 7 0 cause s
    let s := noticeDown p old cause s
    let s := setN (kPart p 0x1000) ((old + 1) % 65536) s
    let s := modPart p (fun x => { x with rstCause := some cause }) s
    let cs := partCtxs s p
    let s := { s with jobs := { s.jobs with
        resetting := s.jobs.resetting.filter fun (x, _) => !cs.contains x
        drains := s.jobs.drains.filter fun d => d.pid != p } }
    each cs (fun c t =>
      let t := recordFault c 3 false { reason := cause } 0 0 t
      let t := if esc == some c then setF (kCtx c 0xD0) 28 28 1 t else t
      let t := each (t.span.waits.filter fun w => w.tag.ctx == c) (fun _ => recordFault c 0 false { reason := 0x72 } 0 0) t
      let t := modRing c (fun r => { r with stopped := true }) t
      dropCtx c t) s

/-- A fault of a context (14 R426-R428): the record, with ESC where the fault starts a partition reset, then the reset FAULT_ACT selects. -/
def faultCtx (c kind : Nat) (f : Flt) (opc cseq : Nat) (s : State) : State :=
  match ctxOwner s c with
  | none => recordFault c kind false f opc cseq s
  | some p =>
    if bit (getR s (kPart p 0x100)) 0 then
      startPartReset p f.reason none (recordFault c kind (partState s p == 2) f opc cseq s)
    else startCtxReset c f.reason (recordFault c kind false f opc cseq s)

/-- Zero the on-chip memories, table stores and rescale entries of clusters, with valid SECDED (12 R391 stage 1, 16 R481). -/
def zeroClusters (cls : List Nat) (s : State) : State :=
  let s := each cls (fun c t => memForget (cmBase c) (cmBase c + cmSize) t) s
  let s := each (coresOf cls) (fun n t =>
    let t := memForget (spBase n) (spBase n + spSize) t
    let t := memForget (accBase n 0) (accBase n 0 + 2 * accSize) t
    memForget (tblBase n 0 0 0) (tblBase (n + 1) 0 0 0) t) s
  let inCl : Nat → Bool := fun n => cls.contains (n / 16)
  let out : Nat → Bool := fun w =>
    !(let k := 8 * w
      if k < 0xF80000000000 then cls.contains ((k - 0xF00000000000) / 0x2000000)
      else if k < 0xFC0000000000 then inCl ((k - 0xF80000000000) / 0x200000)
      else if k < 0x1000000000000 then inCl ((k - 0xFC0000000000) / 0x40000)
      else inCl ((k - 0x1000000000000) / 67584))
  { s with
    eng := { s.eng with
      sticky := s.eng.sticky.filter fun k => !inCl (k / 65536)
      rescale := s.eng.rescale.filter fun (k, _) => !inCl (k / 8192)
      banks := s.eng.banks.filter fun k => !inCl (k / 64)
      shadow := s.eng.shadow.filter fun k => !inCl (k / 4096)
      cmds := s.eng.cmds.filter fun x => !inCl x.core
      full := s.eng.full.filter fun x => !cls.contains x.cl }
    hbm := { s.hbm with sramUe := s.hbm.sramUe.filter out, sramCe := s.hbm.sramCe.filter out } }

/-- Forget what the units of a partition's share hold: they no longer read as written (12 R390). -/
def forgetShare (p : Nat) (s : State) : State :=
  { s with mem := s.mem.filter fun (k, _) => !(keyIsHbm k && shareHas s p (k / 256 / 50331648) (k / 256 % 50331648)) }

/-- A new memory encryption key for a PID (12 R389, R390, R398). -/
def newMek (p : Nat) (s : State) : State :=
  let s := forgetShare p s
  let s := { s with sec := { s.sec with mekSerial := s.sec.mekSerial + 1 } }
  inc32 (kPart p 0x88) 1 (modPart p (fun x => { x with mek := s.sec.mekSerial }) s)

/-- Unbind every image slot of a partition and release its demand (11 R335, R336). -/
def unbindAll (p : Nat) (s : State) : State :=
  let s := { s with jobs := { s.jobs with images := s.jobs.images.filter fun i => i.pid != p } }
  rstRs ((rangeFrom 0 8).map fun i => kPart p (0x40 + 4 * i)) s

/-- Empty every weight pointer of a partition (10 R320, 11 R336). -/
def emptyWptr (p : Nat) (s : State) : State :=
  { s with jobs := { s.jobs with wptr := tabClear (p * 4096) ((p + 1) * 4096) s.jobs.wptr } }

/-- The image ledger starts again as zero bytes (12 R375). -/
def resetLedger (p : Nat) (s : State) : State := rstRs ((rangeFrom 0 8).map fun i => kPart p (0x90 + 4 * i)) s

/-- The waiting state of a confidentiality mode (12 R377). -/
def confWait (cm : Nat) : Nat := if cm = 0 then 1 else if cm = 1 then 2 else 4

/-- Keys, session and IDE stream of a partition are gone (12 R378). -/
def dropKeys (p : Nat) : State → State :=
  modPart p fun x => { x with kb := [], cnts := [0, 0, 0, 0], kex := [], sess := false, keys := [], go := [] }

/-- What a context's rings do at the end of a partition reset: completions with STATUS 0x06, then both EN bits clear (10 R302). -/
def ringsOff (cause c : Nat) (s : State) : State :=
  let s := completeReset c cause (closeJobs c s)
  let s := setF (kCtx c 0x08) 31 31 0 (setF (kCtx c 0x18) 31 31 0 s)
  let s := setF (kCtx c 0xEC) 1 1 0 s
  modRing c (fun _ => {}) s

/-- The SFU banks of a context are empty again (05 R137, R151). -/
def clearSfu (c : Nat) (s : State) : State := setF (kCtx c 0x50) 11 4 0 s

/-- The windows of a partition are no longer valid, and nothing of it waits to leave on Span (12 R393). -/
def windowsOff (p : Nat) (s : State) : State :=
  dropQueued p (fun _ => true) (each (rangeFrom 0 64) (fun n => setF (kPart p (0x1800 + 32 * n)) 31 31 0) s)

/-- What the groups counted of a partition is gone with it: units of the imbalance window, waiting masters, withheld credits (08 R234, R235). -/
def forgetLoad (p : Nat) (s : State) : State :=
  { s with hbm := { s.hbm with
      win := tabClear (p * 96) ((p + 1) * 96) s.hbm.win
      imbwin := tabClear p (p + 1) s.hbm.imbwin
      waits := s.hbm.waits.filter fun x => x.2.2 != p
      hot := s.hbm.hot.filter fun k => k / 96 != p } }

/-- Stage 2 is pending for the unit rows of a partition's share in force (12 R391). -/
def scrubLater (p : Nat) (s : State) : State :=
  let part := partOf s p
  let seg := if part.inForce then
      part.gset.flatMap fun g =>
        [(g, getF s (kPart p 0x2418) 25 0, shareRows s p), (g, getF s (kPart p 0x2420) 25 0, sharePin s p)]
    else []
  let seg := seg.filter fun (_, _, n) => n ≠ 0
  let units := seg.foldl (fun a (_, _, n) => a + n) 0
  set64 0x408 (get64 s 0x408 + units) { s with hbm := { s.hbm with scrub := s.hbm.scrub ++ seg } }

/-- The reduction channels of a partition are bound to it no more (11 R335). -/
def releaseCh (p : Nat) (s : State) : State :=
  each (rangeFrom 0 16) (fun k t =>
    if bit (getR t (kRdc k 0)) 31 && getF t (kRdc k 0) 4 0 == p then setRed k {} (setR (kRdc k 0x20) 0 (setF (kRdc k 0) 31 31 0 t)) else t) s

/-- A partition's clusters, envelope, keys and ownership are given back: it is FREE (11 R335; 12 R393; 16 R481). -/
def freePart (p : Nat) (s : State) : State :=
  let s := each (partCls s p) (fun c => setClst c 3) s
  let s := setF 0x118 15 0 (getF s 0x118 15 0 - getF s (kPart p 8) 31 16) s
  let s := setN (kPart p 4) 0 (setN (kPart p 0xC) 0 s)
  let s := setF (kPart p 0x80) 3 0 0 (dropKeys p s)
  setPartState p 0 (modPart p (fun _ => {}) s)

/-- Teardown of a closing partition has drained (11 R335 steps 3 to 5; 12 R391, R393): its rings are disabled and its windows invalid, then
crypto-erase with its key slot erased, zeroed on-chip memories, stage 2 pending for its units, images unbound, ownership cleared, FREE. -/
def finishDestroy (p : Nat) (s : State) : State :=
  if partState s p ≠ 4 then s
  else
    let cs := partCtxs s p
    let s := windowsOff p (each cs (ringsOff 0) s)
    let s := forgetLoad p (forgetShare p s)
    let s := zeroClusters (partCls s p) s
    let s := emptyWptr p (unbindAll p (scrubLater p s))
    let s := abortGroups (fun g => g.pid == p) s
    let s := each cs (fun c => clearSfu c ∘ setR (kCtx c 0xA0) 0) s
    freePart p (releaseCh p s)

/-- The operations a partition's destruction starts with (11 R335 steps 1 and 2). -/
def startDestroy (p cause : Nat) (s : State) : State :=
  let s := noticeDown p (epochOf s p) cause s
  let s := setPartState p 4 s
  let s := { s with jobs := { s.jobs with
      drains := s.jobs.drains.filter fun d => d.pid != p
      resetting := s.jobs.resetting.filter fun (x, _) => ctxPid s x != p } }
  each (partCtxs s p) (fun c t => dropCtx c (modRing c (fun r => { r with stopped := true }) t)) s

/-- Teardown of a partition reset has drained (14 R436 steps 5 and 6; 11 R336; 12 R378): the partition is sealed again under
a new key; a PART_DESTROY that waited for it begins (11 R335). Its submissions complete and its rings are disabled first, while what they write can
still be sealed or carried on its stream (12 R382, R387, R393; log 106). -/
def finishPartReset (p : Nat) (s : State) : State :=
  if partState s p ≠ 3 then s
  else
    let cause := ((partOf s p).rstCause).getD 0
    let cs := partCtxs s p
    let s := abortGroups (fun g => g.pid == p) s
    let s := each cs (ringsOff cause) s
    let s := newMek p s
    let s := zeroClusters (partCls s p) s
    let s := each cs clearSfu s
    let s := resetLedger p (dropKeys p (emptyWptr p (unbindAll p s)))
    let s := setF (kPart p 0x80) 3 0 (confWait (cmode s p)) s
    let s := setR (kPart p 0x12C) 0 s
    let s := setPartState p 2 s
    let s := modPart p (fun x => { x with rstCause := none }) s
    let s := noticeUp p s
    if (partOf s p).destroyWaits then startDestroy p 0 (modPart p (fun x => { x with destroyWaits := false }) s)
    else s

end Sys2Proof.Machine
end

