-- ==== Sys2Proof/Machine/Service.lean ====
section
/-! DEFINITION. Units and their service: the units an entry of an image uses and its reserved rates (10 R313; 11 R344, R345), the contexts
with ready work on a unit, service credits and the choice of a context (11 R348, R535), what a control core may issue (11 R339; 14 R433; 15 R444). -/

namespace Sys2Proof.Machine

/-! Engine commands and their queues -/

/-- Unit class of an assigned opcode (10 R318, 11 R344). -/
def opcClass (o : Nat) : Option Nat :=
  if o = 0x10 ∨ o = 0x11 then some 1
  else if 0x18 ≤ o ∧ o ≤ 0x1B then some 2
  else if o = 0x1C then some 4
  else if 0x20 ≤ o ∧ o ≤ 0x25 then some 3
  else if o = 0x30 then some 6
  else if o = 0x34 then some 7
  else if 0x38 ≤ o ∧ o ≤ 0x3B then some 8
  else if o = 0x3C then some 9
  else if o = 0x40 ∨ (0x48 ≤ o ∧ o ≤ 0x4A) ∨ o = 0x60 then some 5
  else if o = 0x50 then some 10
  else none

/-- The opcode of an envelope (10 R315). -/
def envOpc (e : Env) : Nat := fld e.w0 31 24

/-- The queue a command stands in: class and unit. A scan or a post stands in a queue of its core until it names its stack
or channel. -/
def EngCmd.queue (m : EngCmd) : Nat :=
  let c := (opcClass (envOpc m.env)).getD 15
  c * 4096 + (if c = 6 ∨ c = 7 ∨ c = 8 then clOf m.core else m.core)

/-- The unit a command is queued on. The stack of a scan, and the reduction engine of a post that has not named its channel, are free values
(log 8). -/
def cmdUnit (s : State) (m : EngCmd) : Nat :=
  let open_ := Config.freeNat (2 ^ 40 + m.core * 2 ^ 16 + m.cseq)
  match m.queue / 4096 with
  | 9 => open_ % stackCount s
  | 10 => (match m.pay with | some p => fld p.w0 12 9 / 8 | none => open_ % xdies s)
  | _ => m.queue % 4096

/-! What an image's entries declare -/

/-- The record of a type that applies to an entry of an image (10 R313). -/
def Image.record (i : Image) (typ entry : Nat) : Option MRec := i.recs.find? fun r => r.typ == typ && r.entry == entry

/-- PERIOD_NS, DEADLINE_NS and RUNS of a deadline entry (10 R313, 11 R342). -/
def Image.period (i : Image) (e : Nat) : Option (Nat × Nat × Nat) :=
  (i.record 2 e).map fun r => (leAt r.body 0 8, leAt r.body 8 8, leAt r.body 16 4)

/-- The counts an entry declares on units, as (class, unit, numerator, denominator), those of 0 too. `gs` is the group
set of the share, `place` the placement. -/
def declared (gs place : List Nat) (i : Image) (e : Nat) : List (Nat × Nat × Nat × Nat) :=
  let cyc := (i.recs.filter fun r => r.typ == 3 && r.entry == e).flatMap fun r =>
    let cls := leAt r.body 0 1
    (rangeFrom 0 (leAt r.body 1 2)).map fun k =>
      (cls, (if cls ≤ 5 then placedCore place k else if cls ≤ 8 then listGet 0 place k else k), leAt r.body (3 + 4 * k) 4, 1)
  let hbm := match i.record 4 e with
    | none => []
    | some r =>
      if leAt r.body 0 1 = 1 then gs.map fun g => (11, g, 5 * leAt r.body 1 8, 4 * gs.length)
      else (rangeFrom 0 gs.length).map fun k => (11, listGet 0 gs k, leAt r.body (9 + 8 * k) 8, 1)
  let spn := match i.record 5 e with
    | none => []
    | some r => (rangeFrom 0 32).flatMap fun k =>
        [(12, k, leAt r.body (16 * k) 8, 1), (12, k + 32, leAt r.body (16 * k + 8) 8, 1)]
  let hst := match i.record 6 e with
    | none => []
    | some r => [(13, 0, leAt r.body 0 8, 1), (13, 1, leAt r.body 8 8, 1)]
  cyc ++ hbm ++ spn ++ hst

/-- The units an entry uses: those with a count that is not 0 (11 R344). -/
def demand (gs place : List Nat) (i : Image) (e : Nat) : List (Nat × Nat × Nat × Nat) :=
  (declared gs place i e).filter fun (_, _, n, _) => n != 0

/-- Blocking time of a class, in cycles of its clock (11 R344). -/
def blocking (cls : Nat) : Nat :=
  match cls with
  | 0 => 192 | 1 => 16384 | 2 => 1024 | 3 => 5160 | 4 => 1024 | 5 => 512 | 6 => 1024 | 7 => 256 | 8 => 512 | 9 => 8392
  | _ => 1024

/-- Clock of a class in MHz (11 R344). -/
def classClock (envclk cls : Nat) : Nat := if cls = 0 then 2 * envclk else if cls ≤ 8 then envclk else 800

/-- ENVCLK of a partition. -/
def envclkOf (s : State) (p : Nat) : Nat := getF s (kPart p 8) 15 0

/-- Bytes per µs that a Span port moves in each direction, times 3: 250/3 GB/s, half of that at the lower lane rate (09 R255, 11 R344). -/
def portRate3 (s : State) (unit : Nat) : Nat := if getF s (0x1100 + 16 * (unit % 32)) 1 0 = 1 then 125 else 250

/-- Payload rate of the host link in GB/s at the rate and width it trained at: 121 at 64 GT/s x16, others free (11 R344, log 92). -/
def hostRate (s : State) : Nat :=
  if s.pwr.rate = 6 ∧ s.pwr.width = 16 then 121 else max 1 (Config.hostRate s.pwr.rate s.pwr.width)

/-- The reserved rate of a count on a unit within a deadline of `dl` ns (11 R345); `none` where it is unbounded. -/
def phi (s : State) (envclk dl cls unit num den : Nat) : Option (Nat × Nat) :=
  if cls ≤ 10 then
    let f := classClock envclk cls
    let b := blocking cls * 1000
    if dl * f ≤ b then none else some (num * 1000, den * (dl * f - b))
  else if dl = 0 then none
  else if cls = 11 then some (num, den * 320 * dl)
  else if cls = 12 then some (3 * num, den * portRate3 s unit * dl)
  else some (num, den * hostRate s * dl)

/-! Ready work -/

/-- CTX_BRK_ST.STATE (15 R443): 0 running, 1 halting, 2 halted. -/
def brkState (s : State) (c : Nat) : Nat := getF s (kCtx c 0xFC) 31 30

/-- Whether a core of a context still waits for a Span access of its own (09 R274). -/
def ccWaits (s : State) (core ctx : Nat) : Bool :=
  s.span.tags.any (fun t => t.core == core && t.ctx == ctx && t.cseq == 65536 && t.use != .retired) ||
    s.span.waits.any (fun w => w.tag.core == core && w.tag.ctx == ctx && w.tag.cseq == 65536)

/-- Whether a context has a runnable instruction stream on a core (11 R535): its running RUN runs there, it is not being reset (14 R433), halting or
halted (15 R444, R446) and it is not blocked on a Span access (09 R274). -/
def runnable (s : State) (core c : Nat) : Bool :=
  runsOn s core c && !bit (getR s (kCtx c 0xEC)) 1 && brkState s c == 0 && !ccWaits s core c

/-- The contexts with ready work on a unit (11 R535): a runnable program on a control core, a command that has started and has not
done its work on an engine. -/
def readyCtxs (s : State) (cls unit : Nat) : List Nat :=
  if cls = 0 then
    ((rangeFrom 0 8).filterMap fun i =>
      let v := getR s (kCore unit (0x180 + 8 * i))
      if bit v 31 then some (fld v 9 0) else none).filter (runnable s unit)
  else
    (s.eng.cmds.filter fun m => m.running && m.pay.isNone && m.queue / 4096 == cls && cmdUnit s m == unit).foldl
      (fun l m => setIns m.ctx l) []

/-- The cores whose residency slots order the contexts of a unit: its own, those of its cluster, all for a unit of no cluster. -/
def unitCores (cls unit : Nat) : List Nat :=
  if cls ≤ 5 then [unit] else if cls ≤ 8 then coresOf [unit] else rangeFrom 0 512

/-- Residency slot of a context on a unit: the lowest on its cores. -/
def unitSlot (s : State) (cls unit ctx : Nat) : Nat :=
  (unitCores cls unit).foldl (fun a n => match slotOf s n ctx with | some i => min a i | none => a) 8

/-! Service credits (11 R348, R535) -/

/-- The reserved rate of a context's running deadline RUN on a unit. -/
def runRate (s : State) (cls unit c : Nat) : Option (Nat × Nat) :=
  match runningRun s c with
  | none => none
  | some x => match myImage s c x.slot with
    | none => none
    | some i => match i.period x.entry with
      | none => none
      | some (_, dl, _) =>
        match (demand (partOf s i.pid).gset (placeOf s c) i x.entry).find? fun (k, u, _, _) => k == cls && u == unit with
        | some (_, _, n, d) => phi s (envclkOf s i.pid) dl cls unit n d
        | none => none

/-- Where a credit is kept: by context and unit. -/
def creditKey (c cls unit : Nat) : Nat := c * 65536 + cls * 4096 + unit

/-- The credit of a context on a unit, in 1/(256000 · d) of a cycle, where d is the denominator of its rate; with that denominator. -/
def creditOf (s : State) (cls unit c : Nat) : Int × Nat :=
  ((tabFind (creditKey c cls unit) s.eng.credit).getD 0, match runRate s cls unit c with | some (_, d) => d | none => 1)

/-- Whether one credit is greater than another. -/
def creditLt (a b : Int × Nat) : Bool := decide (a.1 * b.2 < b.1 * a.2)

/-- The context a unit serves, if it has chosen one: stored as its number and 1 (11 R535). -/
def servedBy (s : State) (cls unit : Nat) : Option Nat :=
  match tab0 s.eng.active (cls * 4096 + unit) with | 0 => none | n + 1 => some n

/-- Whether a unit serves its context for its credit, by step 1. -/
def underCredit (s : State) (cls unit : Nat) : Bool := tab0 s.eng.active (131072 + cls * 4096 + unit) != 0

/-- `ns` nanoseconds pass for a context's credit on a unit: it grows by the rate of each cycle in which the RUN has ready work there, and falls by 1
for each in which the unit serves it under step 1. A throttled cluster's clock runs at RATIO / 256 (16 R488). -/
def accrueUnit (ns c : Nat) (d : Nat × Nat × Nat × Nat) (s : State) : State :=
  let cls := d.1
  let unit := d.2.1
  match runRate s cls unit c with
  | none => s
  | some (pn, pd) =>
    if cls ≤ 10 && (readyCtxs s cls unit).contains c then
      let cyc := ns * classClock (envclkOf s (ctxPid s c)) cls * (if cls ≤ 8 then s.pwr.ratio else 256)
      let served := servedBy s cls unit == some c && underCredit s cls unit
      let v : Int := (creditOf s cls unit c).1 + (pn * cyc : Nat) - (if served then (pd * cyc : Nat) else (0 : Nat) : Int)
      { s with eng := { s.eng with credit := tabPut (fun _ x => x == 0) (creditKey c cls unit) v s.eng.credit } }
    else s

/-- `ns` nanoseconds pass for the credits of every running deadline RUN. -/
def accrue (ns : Nat) (s : State) : State :=
  each (s.jobs.subs.filter fun x => x.opc == 1 && x.st == .running && x.deadline.isSome) (fun x t =>
    match myImage t x.ctx x.slot with
    | none => t
    | some i => each (demand (partOf t i.pid).gset (placeOf t x.ctx) i x.entry) (accrueUnit ns x.ctx) t) s

/-- A unit's choice: the context, and whether it is served for its credit. Deadline RUNs with positive credit, greatest first, equal ones by the
earlier deadline, then the lower slot; then background RUNs round-robin in slot order; then the earliest deadline (11 R535). -/
def choose (s : State) (cls unit : Nat) : Option (Nat × Bool) :=
  let r := readyCtxs s cls unit
  let dl : Nat → Option Nat := fun c => (runningRun s c).bind fun x => x.deadline
  let slot : Nat → Nat := fun c => unitSlot s cls unit c * 1024 + c
  let order : Nat → Nat := fun c => (dl c).getD 0 * 16384 + slot c
  let ded := r.filter fun c => (dl c).isSome
  let pos := ded.filter fun c => decide (0 < (creditOf s cls unit c).1)
  let due := pos.filter fun c => pos.all fun d => !creditLt (creditOf s cls unit c) (creditOf s cls unit d)
  let last := tab0 s.eng.active (65536 + cls * 4096 + unit)
  match leastBy order due with
  | some c => some (c, true)
  | none => match leastBy (fun c => turnAfter 16384 last (slot c + 1)) (r.filter fun c => (dl c).isNone) with
    | some c => some (c, false)
    | none => (leastBy order ded).map fun c => (c, false)

/-- Whether it is a context's turn on a unit: the unit has chosen it, or its choice has no ready work there now. -/
def turnOf (s : State) (cls unit c : Nat) : Bool :=
  match servedBy s cls unit with
  | none => true
  | some d => d == c || !(readyCtxs s cls unit).contains d

/-- Whether a context's program on a core can issue a command: it is resident in a sealed partition that has the core, its running RUN runs there
(10 R304, 11 R339, R342), its cluster is in RUN (16 R483), it is not being reset (14 R433), not halting or halted but for the one instruction of a STEP (15 R444, R447), not blocked
on a Span access (09 R274), and the core serves it (11 R535). -/
def mayIssue (s : State) (core ctx : Nat) : Bool :=
  (match ctxOwner s ctx with
   | some p => partState s p == 2 && bit (clMask s p) (clOf core)
   | none => false) &&
  (slotOf s core ctx).isSome && clst s (clOf core) == 0 && !bit (getR s (kCtx ctx 0xEC)) 1 && runsOn s core ctx &&
  (brkState s ctx == 0 || (brkState s ctx == 1 && s.dbg.steps.contains (core * 1024 + ctx))) && !ccWaits s core ctx &&
  turnOf s 0 core ctx

end Sys2Proof.Machine
end

