-- ==== Sys2Proof/Machine/Envelope.lean ====
section
/-! DEFINITION. The engine command envelope (10 R315-R318; 02 R57; 05 R139), the choice of contexts by units (11 R535), control core
exceptions (08 R223, 14 R427). -/

namespace Sys2Proof.Machine

/-- Whether one wait word of an envelope is met (10 R315, R316). -/
def waitMet (s : State) (m : EngCmd) (w : Word) : Bool :=
  !bit w 31 || semMet (semOf s m.ctx (clOf m.core) (fld w 30 25)) (fld w 15 0)

def waitsMet (s : State) (m : EngCmd) : Bool := waitMet s m m.env.w1 && waitMet s m m.env.w2

/-- Start the commands that may start: waits met, and nothing of their context before them in their queue that has not done its
work (10 R316). `seen` are the commands before. -/
def startable (s : State) : List EngCmd → List EngCmd → List EngCmd
  | _, [] => []
  | seen, m :: r =>
    let blocked := seen.any fun q => q.ctx == m.ctx && q.queue == m.queue && q.pay.isNone
    let m := if m.running || blocked || !waitsMet s m then m else { m with running := true }
    m :: startable s (seen ++ [m]) r

def promote (s : State) : State := { s with eng := { s.eng with cmds := startable s [] s.eng.cmds } }

/-- Signal a semaphore and start what waited for it. -/
def signal (ctx cl sem : Nat) (s : State) : State := promote (semSignal ctx cl sem s)

def cseqOf (s : State) (core ctx : Nat) : BitVec 16 := (tabFind (core * 1024 + ctx) s.eng.cseq).getD 0

/-- Whether a reserved field of an envelope is not 0 (10 R315). -/
def envReserved (e : Env) : Bool :=
  fld e.w0 12 0 != 0 || fld e.w1 24 16 != 0 || fld e.w2 24 16 != 0 || fld e.w3 19 16 != 0 || fld e.w3 3 0 != 0

/-- Whether a signal names a cluster outside the partition (10 R318). -/
def envOutside (s : State) (ctx : Nat) (e : Env) : Bool :=
  let cm := clMask s (ctxPid s ctx)
  (bit e.w3 31 && !bit cm (fld e.w3 24 20)) || (bit e.w3 15 && !bit cm (fld e.w3 8 4))

/-- A command is issued (10 R315-R318): counted, checked, its modes sampled (02 R57; 04 R110; 05 R130, R139), queued, and started when it
may start. -/
def issue (core ctx : Nat) (e : Env) (s : State) : State :=
  if !mayIssue s core ctx then s
  else
    let q := cseqOf s core ctx + 1
    let s := { s with
      eng := { s.eng with cseq := tabPut (fun _ x => x == 0) (core * 1024 + ctx) q s.eng.cseq }
      dbg := { s.dbg with steps := s.dbg.steps.filter (· != core * 1024 + ctx) } }
    let f : Nat → State → State := fun r => faultCtx ctx 0 { reason := r, cls := 0, unit := core } (envOpc e) q.toNat
    if (opcClass (envOpc e)).isNone || envReserved e then f 0x80 s
    else if envOutside s ctx e then f 0x81 s
    else
      let m : EngCmd :=
        { core, ctx, env := e, cseq := q.toNat, strict := bit (getR s (kCtx ctx 0x40)) 0, satm := bit (getR s (kCtx ctx 0x40)) 1
          compat := bit (getR s (kCtx ctx 0x50)) 0
          grind := (rangeFrom 0 16).map fun i => getR s (kCore core (0x140 + 4 * i))
          seed := BitVec.ofNat 64 (get64 s (kCtx ctx 0x44)), banks := getF s (kCtx ctx 0x50) 11 4 }
      promote { s with eng := { s.eng with cmds := s.eng.cmds ++ [m] } }

def execCommandStart (core : BitVec 9) (ctx : BitVec 10) (env : Env) (s : State) : Out :=
  .next (issue core.toNat ctx.toNat env s)

/-- An envelope with no waits, signals or record. -/
def plainEnv (opc : Nat) : Env := { w0 := BitVec.ofNat 32 (opc * 2 ^ 24), w1 := 0, w2 := 0, w3 := 0 }

/-- The first command of an opcode that a context issued on a core and that has not done its work. -/
def findCmd (s : State) (core ctx opc : Nat) : Option EngCmd :=
  s.eng.cmds.find? fun m => m.core == core && m.ctx == ctx && envOpc m.env == opc && m.pay.isNone

/-- Replace a command, known by core, context and CSEQ. -/
def modCmd (m : EngCmd) (f : EngCmd → EngCmd) (s : State) : State :=
  { s with eng := { s.eng with cmds := s.eng.cmds.map fun x =>
      if x.core == m.core && x.ctx == m.ctx && x.cseq == m.cseq then f x else x } }

/-- Whether it is the turn of a command's context on its unit (11 R535). A scan or a post names its stack or channel only when it runs: its turn
is not held back (log 8). -/
def cmdTurn (s : State) (m : EngCmd) : Bool :=
  let cls := m.queue / 4096
  decide (8 < cls) || turnOf s cls (m.queue % 4096) m.ctx

/-- A command runs on its engine: the one issued first, or, when none of its opcode is waiting there, one issued now with nothing
to wait for or signal (log 19). While its unit serves another context, or `hold` says what its waiting changes, it does no work. Its work ends with
a status word, or faults the context (14 R427). -/
def runHeld (core ctx opc : Nat) (p : Pay) (hold : EngCmd → State → Option State) (work : EngCmd → Eng Word) (s : State) : State :=
  let s := if (findCmd s core ctx opc).isSome then s else issue core ctx (plainEnv opc) s
  match findCmd s core ctx opc with
  | none => s
  | some m =>
    if !m.running || !cmdTurn s m then s
    else match hold m s with
    | some s => s
    | none => match work m s with
      | .error f s => faultCtx ctx 0 f opc m.cseq s
      | .ok st s => promote (modCmd m (fun x => { x with status := st, pay := some p }) s)

/-- A command with nothing of its own to wait for. -/
def runCmd (core ctx opc : Nat) (p : Pay) (work : EngCmd → Eng Word) (s : State) : State :=
  runHeld core ctx opc p (fun _ _ => none) work s

/-- Whether every effect of a command that has done its work has landed: its Span requests answered (09 R272), its rows taken by
the combine and page engines (06 R170, 07 R204), its post done (13 R411). -/
def landed (s : State) (m : EngCmd) : Bool :=
  let opc := envOpc m.env
  !(s.span.tags.any fun t => t.core == m.core && t.ctx == m.ctx && t.cseq == m.cseq && t.use != .retired) &&
  !(s.span.waits.any fun w => w.tag.core == m.core && w.tag.ctx == m.ctx && w.tag.cseq == m.cseq) &&
  !(opc == 0x18 && (s.eng.cmbRows.any (fun r => r.core == m.core && r.ctx == m.ctx && r.cseq == m.cseq) ||
      s.eng.pourRows.any (fun r => r.core == m.core && r.ctx == m.ctx && r.cseq == m.cseq))) &&
  !(opc == 0x50 && s.red.any fun (_, r) => r.posts.any (isPost m) || (match r.cur with | some b => isPost m b.post | none => false))
where
  isPost (m : EngCmd) (q : Post) : Bool := q.core == m.core && q.ctx == m.ctx && q.cseq == m.cseq

/-- The record of R317 in the context's ring in the issuing core's scratchpad; one that is not granted is not written. -/
def writeRecord (m : EngCmd) (s : State) : State :=
  let r := getR s (kCtx m.ctx 0x2C)
  let n := fld r 16 13
  if !bit m.env.w0 13 || n = 0 then s
  else
    let k := m.core * 1024 + m.ctx
    let i := tab0 s.eng.recs k
    let s := { s with eng := { s.eng with recs := tabSet0 k ((i + 1) % 4096) s.eng.recs } }
    let w := whoCtl s m.core m.ctx
    let body := leBytes 4 m.status.toNat ++ leBytes 1 (envOpc m.env) ++ [0] ++ leBytes 2 m.cseq
    let act : Eng Unit := spShare w m.core true >>= fun b => writeE w (b + 64 * fld r 31 17 + 8 * (i % 2 ^ n)) body
    match act s with
    | .ok _ t => t
    | .error _ t => t

/-- SHVALID of a slot: the shadow is valid on every core where the context is resident (05 R137, R151). -/
def showShadow (ctx prog : Nat) (s : State) : State :=
  let all := (rangeFrom 0 512).all fun n => (slotOf s n ctx).isNone || s.eng.shadow.contains ((n * 1024 + ctx) * 4 + prog)
  setF (kCtx ctx 0x50) (8 + prog) (8 + prog) (if all then 1 else 0) s

/-- A VTLD that completes marks its slot's shadow bank valid on its core (05 R137). -/
def markShadow (m : EngCmd) (s : State) : State :=
  match m.pay with
  | some p =>
    if envOpc m.env = 0x23 ∧ (slotOf s m.core m.ctx).isSome then
      showShadow m.ctx (pf p 0 31 30)
        { s with eng := { s.eng with shadow := setIns ((m.core * 1024 + m.ctx) * 4 + pf p 0 31 30) s.eng.shadow } }
    else s
  | none => s

/-- A command completes (10 R316, R317; 02 R56; 03 R82): flags, record, signals; what waited behind it may start. -/
def complete (m : EngCmd) (s : State) : State :=
  let s := { s with eng := { s.eng with cmds := s.eng.cmds.filter fun x =>
    !(x.core == m.core && x.ctx == m.ctx && x.cseq == m.cseq) } }
  let s := writeRecord m (stickFlags m.ctx m.status (markShadow m s))
  let sig : Nat → Nat → State → State := fun cl sem t => semSignal m.ctx cl sem t
  let s := if bit m.env.w3 31 then sig (fld m.env.w3 24 20) (fld m.env.w3 30 25) s else s
  let s := if bit m.env.w3 15 then sig (fld m.env.w3 8 4) (fld m.env.w3 14 9) s else s
  promote (showCmb (showCl (clOf m.core) (showCore (m.core + 1) (showCore m.core s))))

/-- COMMAND_COMPLETE: the oldest command of the opcode that has done its work and whose effects have all landed. -/
def doComplete1 (core ctx opc : Nat) (s : State) : State :=
  match s.eng.cmds.find? fun m => m.core == core && m.ctx == ctx && envOpc m.env == opc && m.pay.isSome && landed s m with
  | some m => complete m s
  | none => s

def execCommandComplete (core : BitVec 9) (ctx : BitVec 10) (opc : Byte) (s : State) : Out :=
  .next (doComplete1 core.toNat ctx.toNat opc.toNat s)

/-- UNIT_SCHEDULE: the unit takes its choice, or serves none; on a control core RES_RUN shows it and RES_SWITCH counts a change (11 R340). -/
def doSchedule (cls unit : Nat) (s : State) : State :=
  let k := cls * 4096 + unit
  match choose s cls unit with
  | none =>
    let s := { s with eng := { s.eng with active := tabSet0 k 0 s.eng.active } }
    if cls = 0 ∧ unit < 512 then setR (kCore unit 0x1C0) 0 s else s
  | some (c, owed) =>
    let bg := ((runningRun s c).bind fun x => x.deadline).isNone
    let act := tabSet0 (131072 + k) (if owed then 1 else 0) (tabSet0 k (c + 1) s.eng.active)
    let act := if bg then tabSet0 (65536 + k) (unitSlot s cls unit c * 1024 + c + 1) act else act
    let s := { s with eng := { s.eng with active := act } }
    if cls = 0 ∧ unit < 512 then
      let v : Word := BitVec.ofNat 32 (2 ^ 13 + unitSlot s 0 unit c * 1024 + c)
      if getR s (kCore unit 0x1C0) = v then s else inc32 (kCore unit 0x1C4) 1 (setR (kCore unit 0x1C0) v s)
    else s

def execUnitSchedule (cls : BitVec 4) (unit : BitVec 12) (s : State) : Out := .next (doSchedule cls.toNat unit.toNat s)

/-- A control core's exception (14 R427 code 0xE7). A fetch that the region registers refuse is that refusal (08 R221, R223). -/
def doCcExc (core ctx : Nat) (exc : CcExc) (addr : Nat) (s : State) : State :=
  if mayIssue s core ctx then
    let f : Flt := { reason := 0xE7, addr := addr, cls := 0, unit := core }
    let f := match exc with
      | .badFetch => (refusal s (whoCtl s core ctx) false false true addr 4).getD f
      | _ => f
    faultCtx ctx 0 f 0 0 s
  else s

def execControlCoreException (core : BitVec 9) (ctx : BitVec 10) (exc : CcExc) (addr : BitVec 48) (s : State) : Out :=
  .next (doCcExc core.toNat ctx.toNat exc addr.toNat s)

end Sys2Proof.Machine
end

