-- ==== Sys2Proof/Machine/Matrix.lean ====
section
/-! DEFINITION. The matrix engine (chapter 03) and the Grind unit's rotation (04 R110-R112). -/

namespace Sys2Proof.Machine

/-! The Grind unit -/

/-- A sampled Grind slot (04 R110): input format, smoothing, block, table address. -/
structure GrSlot where
  ifmt   : Nat
  smooth : Bool
  blk    : Nat
  table  : Nat
  deriving DecidableEq, Repr

def grSlot (m : EngCmd) (n : Nat) : GrSlot :=
  let a := listGet 0 m.grind (2 * n)
  { ifmt := fld a 3 0, smooth := bit a 4, blk := 128 * 2 ^ fld a 6 5, table := fld (listGet 0 m.grind (2 * n + 1)) 14 0 * 64 }

/-- Two lists of results with flags side by side. -/
def zipFl (f : Word → Word → Word × Nat) : List Word → List Word → List Word × Nat
  | a :: r, b :: t =>
    let (x, g) := f a b
    let (xs, h) := zipFl f r t
    (x :: xs, g ||| h)
  | _, _ => ([], 0)

/-- One stage of the rotation over pieces of 2h elements. -/
def hadStage (strict : Bool) (h : Nat) : List (List Word) → List Word × Nat
  | [] => ([], 0)
  | c :: r =>
    let (p, f) := zipFl (fpAdd strict) (c.take h) (c.drop h)
    let (q, g) := zipFl (fpSub strict) (c.take h) (c.drop h)
    let (t, k) := hadStage strict h r
    (p ++ q ++ t, f ||| g ||| k)

/-- The stages h = 2^j upward. -/
def hadStages (strict : Bool) : Nat → Nat → List Word → List Word × Nat
  | 0, _, xs => (xs, 0)
  | n + 1, h, xs =>
    let (ys, f) := hadStage strict h (chunks (2 * h) xs.length xs)
    let (zs, g) := hadStages strict n (2 * h) ys
    (zs, f ||| g)

/-- Multiply a value by 2^-g. -/
def scaleDown (strict : Bool) (g : Nat) (w : Word) : Word × Nat :=
  match ofFp32 w with
  | .fin n m e => fp32Round strict n m (e - g)
  | _ => (w, 0)

/-- The blocks of a row rotated (04 R111). -/
def rotBlocks (strict : Bool) (n : Nat) : List (List Word) → List Word × Nat
  | [] => ([], 0)
  | b :: r =>
    let (x, f) := hadStages strict n.log2 1 b
    let ys := x.map (scaleDown strict (if n ≤ 256 then 4 else 5))
    let (t, k) := rotBlocks strict n r
    (ys.map (·.1) ++ t, f ||| orFlags (ys.map (·.2)) ||| k)

/-- A row through the Grind unit: smoothing by the factors given, then rotation in blocks of `blk` (04 R111). -/
def grindRow (strict : Bool) (blk : Nat) (fs : List Word) (xs : List FV) : List Word × Nat :=
  let ws := xs.map fp32Of
  let (sm, f) := zipFl (fpMul strict) ws fs
  let ys := sm ++ ws.drop sm.length
  let (r, g) := rotBlocks strict blk (chunks blk ys.length ys)
  (r, f ||| g)

/-- The smoothing factors of a slot for a row of `k` elements, if it smooths (04 R110). -/
def grFactors (w : Who) (core : Nat) (g : GrSlot) (k : Nat) : Eng (List Word) :=
  if g.smooth then spShare w core false >>= fun b => readWords w (b + g.table) k else pure []

/-! Geometry (03 R61, R62, R70) -/

/-- Output width of a shape. -/
def shapeW (sh : Nat) : Nat := 128 * 2 ^ sh
/-- Tile depth of a shape. -/
def shapeDk (sh : Nat) (pair : Bool) : Nat := (if pair then 256 else 128) / 2 ^ sh
/-- Largest padded row count of a shape. -/
def shapeM (sh : Nat) : Nat := 256 / 2 ^ sh

def pairMode (a b : Nat) : Bool := a == b && (a == 7 || a == 9)

/-- The operand pairs of 02 R38. -/
def pairOk (a b : Nat) : Bool := (isShort a && isShort b) || (isDI a && isDI b) || (isLong a && a == b)

/-- Cycles a row occupies the array (03 R70). -/
def rowRate (a : Nat) (strict : Bool) : Nat :=
  (if a = 0 then 16 else if a ≤ 2 then 4 else 1) * (if strict then 4 else 1)

/-- A matrix command as its payload gives it. -/
structure Mx where
  tamp   : Bool
  core   : Nat
  arrs   : Nat
  gang   : Bool
  shape  : Nat
  afmt   : Nat
  alay   : Nat
  bfmt   : Nat
  blay   : Nat
  acci   : Nat
  grind  : Option GrSlot
  k      : Nat
  n      : Nat
  astr   : Nat
  asstr  : Nat
  bstr   : Nat
  bsstr  : Nat
  ascale : Nat
  bscale : Nat
  deriving DecidableEq, Repr

/-- One problem: a group table entry, or an MXMUL itself (03 R80, R83). -/
structure Prob where
  m  : Nat
  a  : Nat
  sa : Nat
  b  : Nat
  sb : Nat
  accb : Nat
  deriving DecidableEq, Repr

def mxOf (m : EngCmd) (p : Pay) (tamp : Bool) : Mx :=
  { tamp, core := m.core, arrs := pf p 0 31 30, gang := pb p 0 29, shape := pf p 0 28 27, afmt := pf p 0 26 23
    alay := pf p 0 22 21, bfmt := pf p 0 20 17, blay := pf p 0 16 15, acci := pf p 0 14 13
    grind := if pb p 0 12 then some (grSlot m (pf p 0 11 9)) else none
    k := pf p 1 31 16, n := pf p 1 15 4
    astr := (if tamp then pf p 3 31 21 else pf p 2 16 6) * 64, asstr := pf p 3 14 4 * 16
    bstr := pf p 4 16 6 * 64, bsstr := pf p 5 14 4 * 16, ascale := pf p 6 31 24, bscale := pf p 6 23 16 }

def mxProb (p : Pay) : Prob :=
  { m := pf p 0 8 0, a := pf p 2 31 17 * 64, sa := pf p 3 31 15 * 16, b := pf p 4 31 17 * 64, sb := pf p 5 31 15 * 16
    accb := pf p 6 15 9 }

/-- A group table entry from its 16 bytes (03 R83). -/
def entryProb (e : List Byte) : Prob :=
  let w : Nat → Word := fun i => BitVec.ofNat 32 (leAt e (4 * i) 4)
  { m := fld (w 0) 16 8, a := fld (w 0) 31 17 * 64, sa := fld (w 2) 31 15 * 16, b := fld (w 1) 31 17 * 64
    sb := fld (w 1) 16 0 * 16, accb := fld (w 2) 14 8 }

/-- Whether a reserved field of a group table entry is not 0. -/
def entryReserved (e : List Byte) : Bool := leAt e 0 1 != 0 || leAt e 8 1 != 0 || leAt e 12 2 != 0

/-- The arrays of a command in column order: (core, array) (03 R66). -/
def Mx.arrays (c : Mx) : List (Nat × Nat) :=
  let one : Nat → List (Nat × Nat) := fun n => ((rangeFrom 0 2).filter fun a => c.arrs.testBit a).map fun a => (n, a)
  one c.core ++ (if c.gang then one (c.core + 1) else [])

def Mx.w (c : Mx) : Nat := shapeW c.shape
def Mx.dk (c : Mx) : Nat := shapeDk c.shape (pairMode c.afmt c.bfmt)
def Mx.kpad (c : Mx) : Nat := roundUp c.k c.dk
/-- Elements of a summation group (02 R39). -/
def Mx.gs (c : Mx) : Nat := if c.alay = 2 ∨ c.blay = 2 then 16 else 32

/-- Bytes of a problem's region (03 R81). -/
def regionEnd (w : Nat) (q : Prob) : Nat := q.accb * 1024 + roundUp q.m 16 * w * 4

/-- The conditions of 03 R86 that the payload decides, code 0x06 last. A Grind slot with another input format than 04 R110 allows
is a reserved format code (log 20). -/
def mxCodes (c : Mx) (p : Pay) : List (Nat × Bool) :=
  let gcount := pf p 2 16 6
  let blkBad : Nat → Bool := fun lay => blockOf lay != 0 && c.k % blockOf lay != 0
  [(0x01, fmtBad c.afmt c.alay || fmtBad c.bfmt c.blay || (match c.grind with | some g => decide (2 < g.ifmt) | none => false)),
   (0x02, !pairOk c.afmt c.bfmt),
   (0x03, c.arrs == 0 || c.shape == 3 || decide (1 < c.acci) || !pz p 1 15 || !pz p 2 63 || !pz p 5 15 || !pz p 7 0xFFFFFFFF ||
     (if c.tamp then !pz p 0 511 || !pz p 3 0x1F800F || !pz p 4 0xFFFE003F || !pz p 5 0xFFFF8000 || !pz p 6 0xFFFF
      else !pz p 3 15 || !pz p 4 63 || !pz p 6 0x1FF)),
   (0x04, c.k == 0 || c.n == 0 || (if c.tamp then gcount == 0 else pf p 0 8 0 == 0 || decide (256 < pf p 0 8 0))),
   (0x05, decide (c.w * c.arrays.length < c.n)),
   (0x07, blkBad c.alay || blkBad c.blay),
   (0x08, decide (c.astr < rowBytes (match c.grind with | some g => g.ifmt | none => c.afmt) c.k) ||
     decide (c.bstr < rowBytes c.bfmt c.k) ||
     (c.grind.isNone && decide (c.asstr < scaleBytes c.alay c.k)) || decide (c.bsstr < scaleBytes c.blay c.k)),
   (0x09, c.gang && (c.core % 2 == 1 || c.arrs != 3)),
   (0x0A, match c.grind with | some g => c.dk % g.blk != 0 | none => false),
   (0x06, !c.tamp && decide (131072 < regionEnd c.w (mxProb p)))]

/-! Operands -/

/-- An operand row or column: its values and the scale exponent of each summation group. -/
abbrev Line := List FV × List Int

/-- Values under the scales of their groups: a 0xFF scale makes its elements NaN of their sign (02 R46, R48). -/
def mkLine (gs : Nat) (vs : List FV) (xs : List (Option Int)) : Line :=
  ((chunks gs vs.length vs).zip xs).foldr (fun (g, x) (l : Line) => match x with
    | some e => (g ++ l.1, e :: l.2)
    | none => (g.map (fun v => match v with | .fin n _ _ => .nan (if n then 0xFFC00000 else qnan)
                                             | .inf n => .nan (if n then 0xFFC00000 else qnan) | v => v) ++ l.1, 0 :: l.2))
    ([], [])

def zeroFV : FV := .fin false 0 0

/-- A line of `k` stored elements padded to `kpad` with +0 and scale 0x7F (03 R77). Integer tensor scales are not applied by the
arrays (02 R32). -/
def lineOf (fmt lay gs kpad : Nat) (strict : Bool) (tscale : Nat) (es : List Nat) (ss : List (Option Int)) : Line :=
  let k := es.length
  let vs := es.map (fun e => flushIn fmt strict (ofElem fmt e)) ++ List.replicate (kpad - k) zeroFV
  let tx : Option Int := if isDI fmt then some 0 else ds8 tscale
  mkLine gs vs ((rangeFrom 0 (kpad / gs)).map fun g => if g * gs < k then scaleAt lay ss tx (g * gs) else some 0)

def zeroLine (gs kpad : Nat) : Line := (List.replicate kpad zeroFV, List.replicate (kpad / gs) 0)

/-! Float accumulation (02 R40-R48) -/

/-- An element product, rounded to FP32 where it is not exact (02 R40). -/
def elemProd (long : Bool) (a b : FV) : FV × Nat :=
  match nansOf [a, b] with
  | [] => match fvMul a b with
    | none => (.nan qnan, flNV ||| flNAN)
    | some (.fin n m e) => if long then (ofFp32 (fp32Round false n m e).1, (fp32Round false n m e).2) else (.fin n m e, 0)
    | some v => (v, 0)
  | _ => (.nan qnan, flNAN)

/-- What a group's sum holds while it grows: NaN seen, infinities seen, the exact sum. -/
structure GSum where
  nan : Bool := false
  pinf : Bool := false
  ninf : Bool := false
  z : Int := 0
  e : Int := 0
  fl : Nat := 0
  deriving DecidableEq, Repr

def gAdd (long : Bool) (g : GSum) (a b : FV) : GSum :=
  let (v, f) := elemProd long a b
  let g := { g with fl := g.fl ||| f }
  match v with
  | .nan _ => { g with nan := true }
  | .inf n => if n then { g with ninf := true } else { g with pinf := true }
  | .fin n m e => if m = 0 then g else if g.z = 0 then { g with z := sgn n m, e := e } else
    let (z, k) := dySum g.z g.e (sgn n m) e
    { g with z := z, e := k }

/-- The scaled group value v of 02 R41. -/
def gVal (g : GSum) (x : Int) : Word × Nat :=
  if g.nan then (qnan, g.fl ||| flNAN)
  else if g.pinf && g.ninf then (qnan, g.fl ||| flNV ||| flNAN)
  else if g.pinf || g.ninf then (BitVec.ofNat 32 (withSign g.ninf 31 0x7F800000), g.fl)
  else if g.z = 0 then (0, g.fl)
  else
    let (w, f) := fp32Round false (decide (g.z < 0)) g.z.natAbs (g.e + x)
    (w, g.fl ||| f)

def gSum (long : Bool) : GSum → List FV → List FV → GSum
  | g, a :: r, b :: t => gSum long (gAdd long g a b) r t
  | g, _, _ => g

/-- Fast mode (02 R41): one group at a time, `fuel` groups. -/
def dotFast (long : Bool) (gs : Nat) : List Int → List Int → List FV → List FV → Word → Word × Nat
  | xa :: ra, xb :: rb, as, bs, acc =>
    let (v, f) := gVal (gSum long {} (as.take gs) (bs.take gs)) (xa + xb)
    let (acc, g) := fpAddV false (ofFp32 acc) (ofFp32 v)
    let (r, h) := dotFast long gs ra rb (as.drop gs) (bs.drop gs) acc
    (r, f ||| g ||| h)
  | _, _, _, _, acc => (acc, 0)

/-- The scaled product p of 02 R43, rounded once. Where the scale exponents alone lie outside the FP32 range, an underflow raises UF though it
be exact, as 02 R47 states for that case; elsewhere 02 R55 asks that it be inexact (log 104). -/
def strictProd (x : Int) (a b : FV) : Word × Nat :=
  match nansOf [a, b] with
  | [] => match fvMul a b with
    | none => (qnan, flNV ||| flNAN)
    | some (.fin n m e) =>
      let (p, f) := fp32Round true n m (e + x)
      (p, if m ≠ 0 ∧ x < -126 ∧ magBits p < 2 ^ 23 then f ||| flUF else f)
    | some (.inf n) => (BitVec.ofNat 32 (withSign n 31 0x7F800000), 0)
    | some (.nan w) => (w, flNAN)
  | ws => nanResult true ws

/-- One element of strict mode (02 R43, R45, R46): the product is formed, with its flags, whatever the accumulator holds. -/
def strictStep (x : Int) (acc : Word) (a b : FV) : Word × Nat :=
  let (p, f) := strictProd x a b
  let (r, g) := fpAddV true (ofFp32 acc) (ofFp32 p)
  (r, f ||| g)

def strictRun (x : Int) : List FV → List FV → Word → Word × Nat
  | a :: r, b :: t, acc =>
    let (acc, f) := strictStep x acc a b
    let (w, g) := strictRun x r t acc
    (w, f ||| g)
  | _, _, acc => (acc, 0)

/-- Strict mode (02 R43). -/
def dotStrict (gs : Nat) : List Int → List Int → List FV → List FV → Word → Word × Nat
  | xa :: ra, xb :: rb, as, bs, acc =>
    let (acc, f) := strictRun (xa + xb) (as.take gs) (bs.take gs) acc
    let (w, g) := dotStrict gs ra rb (as.drop gs) (bs.drop gs) acc
    (w, f ||| g)
  | _, _, _, _, acc => (acc, 0)

/-- One output element of a float product (03 R60). -/
def dotFloat (strict long : Bool) (gs : Nat) (a b : Line) (acc : Word) : Word × Nat :=
  if strict then dotStrict gs a.2 b.2 a.1 b.1 acc else dotFast long gs a.2 b.2 a.1 b.1 acc

/-! Integer accumulation (04 R93) -/

/-- Saturating addition at ±(2^31 - 1): the sum and whether it saturated. -/
def satAdd31 (x y : Int) : Int × Bool :=
  let z := x + y
  if 2147483647 < z then (2147483647, true) else if z < -2147483647 then (-2147483647, true) else (z, false)

def intOf (v : FV) : Int := match v with | .fin n m _ => sgn n m | _ => 0

def intProds : List FV → List FV → Int
  | a :: r, b :: t => intOf a * intOf b + intProds r t
  | _, _ => 0

/-- Tile sums absorbed in ascending K; `fuel` tiles of depth `dk`. -/
def dotInt (dk : Nat) : Nat → List FV → List FV → Int → Int × Bool
  | 0, _, _, acc => (acc, false)
  | t + 1, as, bs, acc =>
    let (x, f) := satAdd31 acc (intProds (as.take dk) (bs.take dk))
    let (r, g) := dotInt dk t (as.drop dk) (bs.drop dk) x
    (r, f || g)

def wordOfInt (z : Int) : Word := BitVec.ofInt 32 z

/-- One output element: word, flags, sticky bit. A matrix command whose INT32 accumulator saturates reports SAT in its own status word: 02 R55
raises the flag at that event, and the cases that 04 R97 lists for drains add to it (log 104). -/
def dotElem (c : Mx) (strict : Bool) (a b : Line) (acc : Word) (stk : Bool) : Word × Nat × Bool :=
  if isDI c.afmt then
    let (z, f) := dotInt c.dk (c.kpad / c.dk) a.1 b.1 acc.toInt
    (wordOfInt z, if f then flSAT else 0, f || stk)
  else
    let (w, f) := dotFloat strict (c.afmt == 0 || c.afmt == 2) c.gs a b acc
    (w, f, false)

/-! Running a problem -/

/-- A rows of a problem, through the Grind unit where the command says so (03 R80, 04 R112), with the rotation's flags. -/
def readRow (c : Mx) (m : EngCmd) (w : Who) (base : Nat) (q : Prob) (fs : List Word) (i : Nat) : Eng (Line × Nat) :=
  match c.grind with
  | none => do
    let es ← readElems w c.afmt (base + q.a + i * c.astr) c.k
    let ss ← readScales w c.alay (base + q.sa + i * c.asstr) c.k
    pure (lineOf c.afmt c.alay c.gs c.kpad m.strict c.ascale es ss, 0)
  | some g => do
    let es ← readElems w g.ifmt (base + q.a + i * c.astr) c.k
    let vs := es.map (fun e => flushIn g.ifmt m.strict (ofElem g.ifmt e)) ++ List.replicate (c.kpad - c.k) zeroFV
    let (ws, f) := grindRow m.strict g.blk fs vs
    let (out, ss, f') := convRow c.afmt c.alay m.satm m.strict .near (ds8 c.ascale) 0 ws
    pure (lineOf c.afmt c.alay c.gs c.kpad m.strict c.ascale out (ss.map ds8), f ||| f')

/-- The real columns of the array at place `j` of the group (03 R66, R77). -/
def Mx.colsAt (c : Mx) (j : Nat) : Nat := min c.w (c.n - j * c.w)

/-- The real columns of one array, read from its core's share (03 R66). What padded columns, +0 weights, would give the drain discards (03
R77). `j` is the array's place in the group, `first` the place of its core's first array. -/
def readCols (c : Mx) (m : EngCmd) (q : Prob) (core j first : Nat) : Eng (List Line) := do
  let w ← look fun s => whoFeed s core m.ctx
  let base ← spShare w core false
  gatherM (rangeFrom 0 (c.colsAt j)) fun i => do
    let col := (j - first) * c.w + i
    let es ← readElems w c.bfmt (base + q.b + col * c.bstr) c.k
    let ss ← readScales w c.blay (base + q.sb + col * c.bsstr) c.k
    pure (lineOf c.bfmt c.blay c.gs c.kpad m.strict c.bscale es ss)

def stickyKey (core a i : Nat) : Nat := (core * 2 + a) * 32768 + i

/-- Set or clear a sticky bit (04 R92). -/
def setSticky (k : Nat) (v : Bool) (s : State) : State :=
  { s with eng := { s.eng with sticky := if v then setIns k s.eng.sticky else setDel k s.eng.sticky } }

/-- One row of one array's results lands in its bank: the array's real columns (03 R77, R81, R82). Answers its flags. -/
def runRow (c : Mx) (m : EngCmd) (w : Who) (at_ k0 : Nat) (cols : List Line) (row : Line) (i : Nat) : Eng Nat := do
  let e0 := i * c.w
  let old ← if c.acci = 1 then readWords w (at_ + 4 * e0) cols.length else pure []
  let stk ← look fun s => s.eng.sticky
  let res := ((rangeFrom 0 cols.length).zip cols).map fun (k, col) =>
    (k, dotElem c m.strict row col (if c.acci = 1 then listGet 0 old k else 0) (c.acci == 1 && stk.contains (k0 + e0 + k)))
  writeE w (at_ + 4 * e0) (wordBytes (res.map fun x => x.2.1))
  upd (each res fun (k, x) => setSticky (k0 + e0 + k) x.2.2)
  pure (orFlags (res.map fun x => x.2.2.1))

/-- The results of one array land in its bank, row by row; of padded rows and columns neither results nor flags (03 R77, R78, R81). -/
def runArray (c : Mx) (m : EngCmd) (q : Prob) (rows cols : List Line) (core a : Nat) : Eng Nat := do
  let w ← look fun s => whoDrain s core m.ctx
  let base ← accShare w core a true
  let at_ := base + q.accb * 1024
  let fs ← gatherM ((rangeFrom 0 rows.length).zip rows) fun (i, row) =>
    if cols.isEmpty then pure 0 else runRow c m w at_ (stickyKey core a ((at_ - accBase core a) / 4)) cols row i
  pure (orFlags fs)

/-- One problem: A from the issuing core's share, B from each core's, results into every array of the group. Where several of its addresses lie
outside the share, the first met is recorded: A rows (each its elements, then its scales), then B columns array by array, then results (log 48). -/
def runProb (c : Mx) (m : EngCmd) (q : Prob) : Eng Nat := do
  let w ← look fun s => whoFeed s c.core m.ctx
  let base ← spShare w c.core false
  let fs ← match c.grind with | some g => grFactors w c.core g c.k | none => pure []
  let rows ← gatherM (rangeFrom 0 q.m) (readRow c m w base q fs)
  let arrs := c.arrays
  let idx := (rangeFrom 0 arrs.length).zip arrs
  let cols ← gatherM idx fun (j, (n, _)) =>
    readCols c m q n j (if n = c.core then 0 else (arrs.filter fun (x, _) => x == c.core).length)
  let fl ← gatherM (idx.zip cols) fun ((_, (n, a)), cs) => runArray c m q (rows.map (·.1)) cs n a
  pure (orFlags fl ||| orFlags (rows.map (·.2)))

/-- Arith cycles a cell row takes to load (03 R70). -/
def loadRate (a : Nat) : Nat := if a = 0 then 4 else if a ≤ 2 then 2 else 1

/-- Arith cycles the load of one tile takes (03 R67). -/
def Mx.tileLoad (c : Mx) : Nat := 128 / 2 ^ c.shape * loadRate c.afmt

/-- Cycles the array waits between a tile of `mpad` rows and the next (03 R68, R69, R71). -/
def Mx.tileGap (c : Mx) (strict : Bool) (mpad : Nat) : Nat := c.tileLoad - mpad * rowRate c.afmt strict

/-- The counters of one problem's tiles in every array of the group (03 R90, R91): BUSY the cycles its rows take; WAIT_WGT the waits between
its tiles and `wait` before its first; the freezes of the group, which apply to all its arrays at once (03 R74) and whose number is free (log 8). -/
def countBusy (c : Mx) (strict : Bool) (mpad wait : Nat) (s : State) : State :=
  let tiles := c.kpad / c.dk
  let feed := freeN s
  let drn := Config.freeNat (s.free + 1)
  bumpFree (bumpFree (each c.arrays (fun (n, a) t =>
    let k := kCore n (0x20 * a)
    inc64 (k + 24) (wait + (tiles - 1) * c.tileGap strict mpad) (inc64 (k + 16) drn (inc64 (k + 8) feed
      (inc64 k (tiles * mpad * rowRate c.afmt strict) t)))) s))

/-- How long the first tile of a command waits for its weights: what its load did not overlap, at most the whole load (03 R71; log 8). -/
def firstWait (c : Mx) (s : State) : Nat := freeN s % (c.tileLoad + 1)

/-- MX_STATUS of the cores of a group shows the command (03 R90). -/
def showMx (c : Mx) (ctx : Nat) (s : State) : State :=
  each (if c.gang then [c.core, c.core + 1] else [c.core]) (fun n =>
    setN (kCore n 0x40) (c.shape * 2 ^ 13 + (if c.gang then 2 ^ 12 else 0) + c.arrs * 2 ^ 10 + ctx)) s

/-- The entries of an MXTAMP in table order (03 R84). `gap` is what the tile before leaves the next one to wait. -/
def runTable (c : Mx) (m : EngCmd) (w : Who) (base : Nat) : List Nat → Nat → Nat → Eng Nat
  | [], _, fl => pure fl
  | i :: r, gap, fl => do
    let e ← readE w (base + 16 * i) 16
    let q := entryProb e
    decodeE w [(0x03, entryReserved e), (0x0B, decide (shapeM c.shape < roundUp q.m 16)), (0x06, decide (131072 < regionEnd c.w q))]
    if q.m = 0 then runTable c m w base r gap fl
    else do
      let f ← runProb c m q
      upd (countBusy c m.strict (roundUp q.m 16) gap)
      runTable c m w base r (c.tileGap m.strict (roundUp q.m 16)) (fl ||| f)

/-- A matrix command (03 R80-R86). -/
def mxWork (tamp : Bool) (p : Pay) (m : EngCmd) : Eng Word := do
  let c := mxOf m p tamp
  let w ← look fun s => whoFeed s m.core m.ctx
  decodeE w (mxCodes c p)
  upd (showMx c m.ctx)
  let wait ← look (firstWait c)
  upd bumpFree
  let fl ← if tamp then do
      let base ← spShare w m.core false
      runTable c m w (base + pf p 2 31 17 * 64) (rangeFrom 0 (pf p 2 16 6)) wait 0
    else do
      let f ← runProb c m (mxProb p)
      upd (countBusy c m.strict (roundUp (mxProb p).m 16) wait)
      pure f
  pure (statusWord 0 fl)

def execMxmul (core : BitVec 9) (ctx : BitVec 10) (p : Pay) (s : State) : Out :=
  .next (runCmd core.toNat ctx.toNat 0x10 p (mxWork false p) s)
def execMxtamp (core : BitVec 9) (ctx : BitVec 10) (p : Pay) (s : State) : Out :=
  .next (runCmd core.toNat ctx.toNat 0x11 p (mxWork true p) s)

end Sys2Proof.Machine
end

