-- ==== Sys2Proof/Machine/Drain.lean ====
section
/-! DEFINITION. The drains and GRPASS (chapter 04). -/

namespace Sys2Proof.Machine

/-! Shared by the drain commands -/

/-- The accumulator entries of a row in one array: `n` columns of row `i` of the region at `accb`, with their sticky bits. -/
def readAcc (m : EngCmd) (w accb core a i n : Nat) : Eng (List (Word × Bool)) := do
  let who ← look fun s => whoDrain s core m.ctx
  let base ← accShare who core a false
  let at_ := base + accb * 1024 + i * w * 4
  let ws ← readWords who at_ n
  let stk ← look fun s => s.eng.sticky
  let k := stickyKey core a ((at_ - accBase core a) / 4)
  pure ((rangeFrom 0 n).zip ws |>.map fun (j, x) => (x, stk.contains (k + j)))

/-- Columns of each array: (core, array, first column, count), real columns only (03 R66). -/
def arrCols (w n : Nat) (arrs : List (Nat × Nat)) : List (Nat × Nat × Nat × Nat) :=
  ((rangeFrom 0 arrs.length).zip arrs).filterMap fun (j, (c, a)) =>
    if j * w < n then some (c, a, j * w, min w (n - j * w)) else none

/-- One row across arrays. -/
def readAccRow (m : EngCmd) (w accb i : Nat) (cols : List (Nat × Nat × Nat × Nat)) : Eng (List (Word × Bool)) :=
  (fun l => l.flatMap id) <$> gatherM cols fun (c, a, _, n) => readAcc m w accb c a i n

/-- The arrays an ARRS field names on a core. -/
def arrsOf (core arrs : Nat) : List (Nat × Nat) := ((rangeFrom 0 2).filter fun a => arrs.testBit a).map fun a => (core, a)

/-- Rescale entries of a context's slot on a core: first and count (04 R102, 11 R340). -/
def rsShare (s : State) (core ctx : Nat) : Nat × Nat :=
  match slotOf s core ctx with
  | some i => (getF s (kCore core (0x184 + 8 * i)) 11 0, getF s (kCore core (0x184 + 8 * i)) 28 16)
  | none => (0, 0)

/-- Flag of read INT32 entries (04 R97). -/
def satOf (int : Bool) (es : List (Word × Bool)) : Nat := if int && es.any (·.2) then flSAT else 0

/-! Requantisation -/

/-- y of 04 R101. -/
def requant (v : Int) (r : Rescale) : Int :=
  let t := v * r.mult.toInt
  if r.shift = 0 then t
  else
    let d : Int := 2 ^ r.shift
    let q := t / d
    let rem := t - q * d
    let half : Int := 2 ^ (r.shift - 1)
    if half < rem then q + 1
    else if rem < half then q
    else if r.rnd then (if 0 ≤ t then q + 1 else q)
    else if q % 2 = 0 then q else q + 1

def clampInt (lo hi z : Int) : Int × Nat := if hi < z then (hi, flCSAT) else if z < lo then (lo, flCSAT) else (z, 0)

/-- The rescaled value of an INT32 entry: encoding or FP32 pattern, with flags. -/
def requantOut (fmt : Nat) (y : Int) : Nat × Nat :=
  match fmt with
  | 8 => let (z, f) := clampInt (-128) 127 y; ((z % 256).toNat, f)
  | 9 => let (z, f) := clampInt (-8) 7 y; ((z % 16).toNat, f)
  | _ => ((fpOfDy true y 0).1.toNat, 0)

/-- Rescale entries for the columns of a row (04 R101): column n uses entry RSBASE + n of its own drain. -/
def rescalesFor (s : State) (ctx rsbase : Nat) (cols : List (Nat × Nat × Nat × Nat)) : List Rescale :=
  cols.flatMap fun (c, a, n0, cnt) =>
    (rangeFrom n0 cnt).map fun n =>
      (tabFind ((c * 2 + a) * 4096 + ((rsShare s c ctx).1 + rsbase + n) % 4096) s.eng.rescale).getD {}

/-! DRCVT -/

/-- A DRCVT as its payload gives it (04 R98). -/
structure Cvt where
  core : Nat
  arrs : Nat
  gang : Bool
  shape : Nat
  ofmt : Nat
  olay : Nat
  dest : Nat
  int  : Bool
  rq   : Bool
  sr   : Bool
  tamp : Bool
  amax : Bool
  scsrc : Bool
  m    : Nat
  n    : Nat
  accb : Nat
  rsbase : Nat
  gcount : Nat
  arg  : Word
  deriving DecidableEq, Repr

def cvtOf (m : EngCmd) (p : Pay) : Cvt :=
  { core := m.core, arrs := pf p 0 31 30, gang := pb p 0 29, shape := pf p 0 28 27, ofmt := pf p 0 26 23, olay := pf p 0 22 21
    dest := pf p 0 20 19, int := pb p 0 18, rq := pb p 0 17, sr := pb p 0 16, tamp := pb p 0 15, amax := pb p 0 14
    scsrc := pb p 0 13, m := pf p 0 8 0, n := pf p 1 31 20, accb := pf p 1 19 13, rsbase := pf p 5 31 20
    gcount := pf p 6 16 6, arg := p.w7 }

def Cvt.arrays (c : Cvt) : List (Nat × Nat) := arrsOf c.core c.arrs ++ (if c.gang then arrsOf (c.core + 1) c.arrs else [])
def Cvt.w (c : Cvt) : Nat := shapeW c.shape
def Cvt.cols (c : Cvt) : List (Nat × Nat × Nat × Nat) := arrCols c.w c.n c.arrays
/-- Columns of one output row: of one core with DEST 0 and GANG, else all (04 R99). -/
def Cvt.rowCols (c : Cvt) : Nat := if c.dest = 0 ∧ c.gang then min c.n (c.w * (arrsOf 0 c.arrs).length) else c.n

/-- The conditions of 04 R115 that a DRCVT can meet, 0x24 last. An address beyond the range of R98, for which R115 names no code, is 0x22,
and a scale stride of 0 is 0x29 (log 44). -/
def cvtCodes (s : State) (ctx : Nat) (c : Cvt) (p : Pay) : List (Nat × Bool) :=
  let groups := getF s (kCtx ctx 0x60) 23 19
  let out := !c.amax && decide (c.dest < 2)
  [(0x20, fmtBad c.ofmt c.olay || (c.dest == 2 && (!c.tamp || c.ofmt != 0 || c.olay != 0)) ||
      (c.dest == 3 && (c.ofmt != 3 || c.olay != 1 || c.n % 128 != 0 || decide (groups < fld c.arg 22 19 + c.n / 128)))),
   (0x21, (!c.int && c.rq) || (c.int && c.rq && c.ofmt != 8 && c.ofmt != 9 && c.ofmt != 0) || (c.int && !c.rq && c.ofmt != 0) ||
      (c.sr && (c.ofmt == 0 || c.int))),
   (0x22, c.arrs == 0 || c.shape == 3 || !pz p 0 0x1E00 || (c.tamp && c.m != 0) || !pz p 1 0x1FFF || !pz p 2 3 || !pz p 5 1 ||
      !pz p 6 63 || (decide (c.dest < 2) && !pz p 7 0xFFFFFFFF) || (c.dest == 3 && !pz p 7 15) || (c.gang && c.core % 2 == 1) ||
      (out && (addrBad (c.dest == 1) 64 (pf p 2 31 13) || addrBad (c.dest == 1) 16 (pf p 3 31 11))) ||
      ((c.amax || c.scsrc) && addrBad true 64 (pf p 5 19 1))),
   (0x23, (if c.tamp then c.gcount == 0 else c.m == 0) || c.n == 0 || decide (c.w * c.arrays.length < c.n)),
   (0x25, c.rq && c.arrays.any fun (n, _) => decide ((rsShare s n ctx).2 < c.rsbase + c.n)),
   (0x26, (c.scsrc && (c.olay != 3 || isLong c.ofmt)) || (c.amax && c.scsrc)),
   (0x29, out && (decide (pf p 2 12 2 * 64 < rowBytes c.ofmt c.rowCols) ||
      decide (pf p 3 10 0 * 16 < scaleBytes c.olay c.rowCols) || pf p 3 10 0 == 0)),
   (0x24, !c.tamp && decide (131072 < c.accb * 1024 + roundUp c.m 16 * c.w * 4))]

/-- Values of a row of entries on the way out: FP32 words, the requantised integers where RQ is 1. An integer becomes FP32 to nearest
even; for the amax word of R104, which gives no rounding, that is the model's choice (log 104). -/
def cvtWords (s : State) (ctx : Nat) (c : Cvt) (es : List (Word × Bool)) : List Word × List Int :=
  if c.int then
    (if c.rq then
      let ys := (es.zip (rescalesFor s ctx c.rsbase c.cols)).map fun ((x, _), r) => requant x.toInt r
      (ys.map fun y => (fpOfDy true y 0).1, ys)
    else (es.map fun (x, _) => (fpOfDy true x.toInt 0).1, []))
  else (es.map (·.1), [])

/-- Largest magnitude among the finite values of a row (04 R104). -/
def amaxRow (ws : List Word) : Nat := (ws.filter fun w => !isNan w && !isInf w).foldl (fun a w => max a (magBits w)) 0

/-- The rows a command covers: (group tag, ACCB, row in its region) in output order; with TAMP from the group table. -/
def tampRows (m : EngCmd) (c : Cvt) (gt : Nat) : List Nat → Eng (List (Nat × Nat × Nat))
  | [] => pure []
  | i :: r => do
    let w ← look fun s => whoDrain s c.core m.ctx
    let e ← readE w (gt + 16 * i) 16
    let q := entryProb e
    decodeE w [(0x24, decide (131072 < regionEnd c.w q))]
    let rest ← tampRows m c gt r
    pure ((rangeFrom 0 q.m).map (fun k => (leAt e 14 2, q.accb, k)) ++ rest)

def cvtRows (m : EngCmd) (c : Cvt) (p : Pay) : Eng (List (Nat × Nat × Nat)) := do
  if c.tamp then
    let w ← look fun s => whoDrain s c.core m.ctx
    let b ← spShare w c.core false
    tampRows m c (b + pf p 6 31 17 * 64) (rangeFrom 0 c.gcount)
  else pure ((rangeFrom 0 c.m).map fun k => (0, c.accb, k))

/-- Entries of one row and what they raise on being read. -/
def cvtEntries (m : EngCmd) (c : Cvt) (r : Nat × Nat × Nat) : Eng (List Word × List Int × Nat) := do
  let es ← readAccRow m c.w r.2.1 r.2.2 c.cols
  let (ws, ys) ← look fun s => cvtWords s m.ctx c es
  pure (ws, ys, satOf c.int es)

/-- AMAX: scan only, and the atomic update of the amax word (04 R104). -/
def cvtAmax (m : EngCmd) (c : Cvt) (p : Pay) (rows : List (Nat × Nat × Nat)) : Eng Nat := do
  let w ← look fun s => whoDrain s c.core m.ctx
  let (top, fl) ← foldE rows (0, 0) fun (a, f) r => do
    let (ws, _, g) ← cvtEntries m c r
    pure (max a (amaxRow ws), f ||| g |||
      (if m.strict && !c.int && ws.any isSnan then flNV ||| flSNAN else 0))
  let b ← cmShare w (clOf c.core) true
  rmwE w (b + pf p 5 19 1 * 64) 4 fun bs =>
    let old : Word := BitVec.ofNat 32 (leNat bs)
    if ordKey old < (top : Int) then leBytes 4 top else bs
  pure fl

/-- The DS8 a SCSRC command derives (04 R104); it is written to byte 4 of the amax word. -/
def cvtScale (m : EngCmd) (c : Cvt) (p : Pay) : Eng (Option Int) := do
  let w ← look fun s => whoDrain s c.core m.ctx
  let b ← cmShare w (clOf c.core) true
  let a := b + pf p 5 19 1 * 64
  let bs ← readE w a 4
  let x := blockScale c.ofmt [BitVec.ofNat 32 (leNat bs)]
  writeE w (a + 4) [BitVec.ofNat 8 (x + 127).toNat]
  pure (some x)

/-- One output row to scratchpad or cluster memory. Integers with an own rescale are written clamped (04 R100, R101, R103), whatever OSCALE is:
beside 02 R534 that is the model's choice (log 104). -/
def cvtOut (w : Who) (c : Cvt) (o : OutForm) (row i : Nat) (ws : List Word) (ys : List Int) : Eng Nat :=
  if c.int && c.rq && !c.scsrc && c.ofmt != 0 then do
    let l := ys.map (requantOut c.ofmt)
    writeE w (o.addr + row * o.stride) (packElems c.ofmt (l.map (·.1)))
    pure (orFlags (l.map (·.2)))
  else outRow w o row i ws

/-- DEST 0 and 1 (04 R99). -/
def cvtMem (m : EngCmd) (c : Cvt) (p : Pay) (tx : Option Int) (rows : List (Nat × Nat × Nat)) : Eng Nat := do
  let form : Nat → OutForm := fun b =>
    { fmt := c.ofmt, lay := c.olay, satm := m.satm, strict := m.strict, sr := roundingOf m c.sr (pf p 4 23 0), tx
      addr := b + pf p 2 31 13 * 64, stride := pf p 2 12 2 * 64, saddr := b + pf p 3 31 11 * 16, sstride := pf p 3 10 0 * 16 }
  let w ← look fun s => whoDrain s c.core m.ctx
  let fl ← gatherM ((rangeFrom 0 rows.length).zip rows) fun (k, r) => do
    let (ws, ys, f) ← cvtEntries m c r
    if c.dest = 1 then do
      let b ← cmShare w (clOf c.core) true
      let g ← cvtOut w c (form b) k (k * c.n) ws ys
      pure (f ||| g)
    else do
      let n := c.rowCols
      let b ← spShare w c.core true
      let g ← cvtOut w c (form b) k (k * c.n) (ws.take n) (ys.take n)
      if c.gang && decide (n < c.n) then do
        let w' ← look fun s => whoDrain s (c.core + 1) m.ctx
        let b' ← spShare w' (c.core + 1) true
        let h ← cvtOut w' c (form b') k (k * c.n + n) (ws.drop n) (ys.drop n)
        pure (f ||| g ||| h)
      else pure (f ||| g)
  pure (orFlags fl)

/-- DEST 2: the rows go to a combine engine (07 R204). -/
def cvtCombine (m : EngCmd) (c : Cvt) (rows : List (Nat × Nat × Nat)) : Eng Nat := do
  let fl ← gatherM rows fun r => do
    let cm ← look fun s => clMask s (ctxPid s m.ctx)
    guardE (bit cm (fld c.arg 31 27)) { reason := 0x55, cls := 2, unit := c.core }
    let (ws, _, f) ← cvtEntries m c r
    let row : CombineRow := { core := c.core, ctx := m.ctx, cseq := m.cseq, dst := fld c.arg 31 27, rd := fld c.arg 26 8 * 64
                              col := fld c.arg 7 0 * 64, grp := r.1, row := r.2.2, strict := m.strict, data := ws }
    upd fun s => { s with eng := { s.eng with cmbRows := s.eng.cmbRows ++ [row] } }
    pure (f ||| orFlags (ws.map fun w => if isNan w then convNanFlags m.strict w flNAN else 0))
  pure (orFlags fl)

/-- One group of 128 columns through the pour path's conversion (06 R172): element bytes, scale bytes, flags. -/
def pourConv (m : EngCmd) (isV : Bool) (sr : Rounding) (i : Nat) (ws : List Word) : List Byte × List Byte × Nat :=
  if isV then
    let x := blockScale 3 ws
    let (es, f) := convRun 3 m.satm m.strict sr (some x) i ws
    (packElems 3 es, List.replicate 4 (BitVec.ofNat 8 (x + 127).toNat), f)
  else
    let (es, ss, f) := convRow 3 1 m.satm m.strict sr none i ws
    (packElems 3 es, ss.map fun b => BitVec.ofNat 8 b, f)

/-- DEST 3: the rows go to the page engine (06 R170-R172). -/
def cvtPour (m : EngCmd) (c : Cvt) (p : Pay) (rows : List (Nat × Nat × Nat)) : Eng Nat := do
  let w ← look fun s => whoDrain s c.core m.ctx
  let b ← spShare w c.core false
  let fl ← gatherM ((rangeFrom 0 rows.length).zip rows) fun (k, r) => do
    let (ws, _, f) ← cvtEntries m c r
    let e ← readE w (b + fld c.arg 18 4 * 64 + 8 * k) 8
    let fs ← gatherM ((rangeFrom 0 (c.n / 128)).zip (chunks 128 ws.length ws)) fun (g, ch) => do
      let (es, ss, h) := pourConv m (bit c.arg 31) (roundingOf m c.sr (pf p 4 23 0)) (k * c.n + 128 * g) ch
      let row : PourRow := { core := c.core, ctx := m.ctx, cseq := m.cseq, slot := leAt e 0 2, layer := fld c.arg 30 23
                             group := fld c.arg 22 19 + g, isV := bit c.arg 31
                             pos := if leAt e 2 1 % 2 = 1 then some (leAt e 4 4) else none, elems := es, scales := ss }
      upd fun s => { s with eng := { s.eng with pourRows := s.eng.pourRows ++ [row] } }
      pure h
    pure (f ||| orFlags fs)
  pure (orFlags fl)

/-- DRCVT (04 R98-R104). -/
def cvtWork (p : Pay) (m : EngCmd) : Eng Word := do
  let c := cvtOf m p
  let w ← look fun s => whoDrain s m.core m.ctx
  let codes ← look fun s => cvtCodes s m.ctx c p
  decodeE w codes
  let rows ← cvtRows m c p
  if c.amax then (statusWord 0) <$> cvtAmax m c p rows
  else do
    let tx ← if c.scsrc then cvtScale m c p else pure (ds8 (pf p 4 31 24))
    let fl ← if c.dest = 2 then cvtCombine m c rows else if c.dest = 3 then cvtPour m c p rows else cvtMem m c p tx rows
    pure (statusWord rows.length fl)

def execDrcvt (core : BitVec 9) (ctx : BitVec 10) (p : Pay) (s : State) : Out :=
  .next (showCmb (runCmd core.toNat ctx.toNat 0x18 p (cvtWork p) s))

/-! DRRED -/

/-- Whether candidate `x` with index `i` beats `y` with index `j` (04 R109): the greater key, then the lower index. -/
def candBeats (k l : Int) (i j : Nat) : Bool := decide (l < k) || (k == l && decide (i < j))

/-- The key of a value in a maximum; a minimum compares negated keys. -/
def redKey (int mn : Bool) (w : Word) : Int :=
  let k := if int then w.toInt else totKey w
  if mn then -k else k

/-- Fold candidates (value, index) into the winner (04 R109). -/
def redBest (int mn strict : Bool) : List (Word × Nat) → Option (Word × Nat)
  | [] => none
  | (w, i) :: r =>
    match redBest int mn strict r with
    | none => some (w, i)
    | some (v, j) =>
      let nw := !int && isNan w
      let nv := !int && isNan v
      let pick := if nw && nv then decide (i < j)
        else if nw then strict
        else if nv then !strict
        else candBeats (redKey int mn w) (redKey int mn v) i j
      some (if pick then (w, i) else (v, j))

/-- The written winner and its flags. A signalling NaN that wins in a strict context keeps its payload unquieted: R109 does no arithmetic
(log 104). -/
def redOut (int strict : Bool) (all : List (Word × Nat)) (b : Option (Word × Nat)) : Word × Nat × Nat :=
  match b with
  | none => (0, 0, 0)
  | some (w, i) =>
    let sn := if strict && !int && all.any (fun x => isSnan x.1) then flNV ||| flSNAN else 0
    if !int && isNan w then ((if strict then w else qnan), i, flNAN ||| sn) else (w, i, sn)

/-- The conditions of 04 R115 that a DRRED can meet; an address beyond its range is 0x22 (log 44). -/
def redCodes (p : Pay) : List (Nat × Bool) :=
  let arrs := pf p 0 31 30
  let src := pb p 0 27
  let m := pf p 0 8 0
  let n := pf p 1 31 20
  let w := shapeW (pf p 0 25 24)
  [(0x22, arrs == 0 || decide (1 < pf p 0 29 28) || (!src && pf p 0 25 24 == 3) || !pz p 0 0xFFFE00 || !pz p 1 0x1FFF ||
      !pz p 2 0xFFF || !pz p 4 1 || !pz p 5 0xFFFFFFFF || !pz p 6 0xFFFFFFFF || !pz p 7 0xFFFFFFFF ||
      addrBad (pb p 2 12) 64 (pf p 2 31 13) || (src && addrBad (pb p 4 12) 64 (pf p 4 31 13))),
   (0x23, m == 0 || n == 0 || (!src && decide (w < n)) || (src && decide (256 < m))),
   (0x27, arrs == 3),
   (0x29, src && decide (pf p 4 11 1 * 64 < 8 * n)),
   (0x24, !src && decide (131072 < pf p 1 19 13 * 1024 + roundUp m 16 * w * 4))]

/-- DRRED (04 R108, R109). -/
def redWork (p : Pay) (m : EngCmd) : Eng Word := do
  let w ← look fun s => whoDrain s m.core m.ctx
  decodeE w (redCodes p)
  let int := pb p 0 26
  let mn := pf p 0 29 28 == 1
  let n := pf p 1 31 20
  let rows := pf p 0 8 0
  let a := if pf p 0 31 30 = 1 then 0 else 1
  let ob ← memBase w m.core (pb p 2 12) true
  let fl ← gatherM (rangeFrom 0 rows) fun i => do
    let (cs, f) ← if pb p 0 27 then do
        let b ← memBase w m.core (pb p 4 12) false
        let bs ← readE w (b + pf p 4 31 13 * 64 + i * pf p 4 11 1 * 64) (8 * n)
        pure ((rangeFrom 0 n).map (fun j => ((BitVec.ofNat 32 (leAt bs (8 * j) 4) : Word), leAt bs (8 * j + 4) 4)), 0)
      else do
        let es ← readAcc m (shapeW (pf p 0 25 24)) (pf p 1 19 13) m.core a i n
        pure (((rangeFrom 0 n).zip es).map (fun (j, (x, _)) => (x, (p.w3.toNat + j) % 2 ^ 32)), satOf int es)
    let (v, k, g) := redOut int m.strict cs (redBest int mn m.strict cs)
    writeE w (ob + pf p 2 31 13 * 64 + 8 * i) (leBytes 4 v.toNat ++ leBytes 4 k)
    pure (f ||| g)
  pure (statusWord rows (orFlags fl))

def execDrred (core : BitVec 9) (ctx : BitVec 10) (p : Pay) (s : State) : Out :=
  .next (runCmd core.toNat ctx.toNat 0x19 p (redWork p) s)

/-! DRSPLIT -/

/-- Absorb partials in ascending split index (04 R106): word, flags, saturation. -/
def splitAcc (int strict : Bool) : List Word → Word → Word × Nat × Bool
  | [], acc => (acc, 0, false)
  | x :: r, acc =>
    if int then
      let (z, s) := satAdd31 acc.toInt x.toInt
      let (w, f, t) := splitAcc int strict r (wordOfInt z)
      (w, f ||| (if s then flSAT else 0), s || t)
    else
      let (z, g) := fpAddV strict (ofFp32 acc) (ofFp32 x)
      let (w, f, t) := splitAcc int strict r z
      (w, f ||| g, t)

/-- The conditions of 04 R115 that a DRSPLIT can meet; a PADDR beyond its range is 0x22 (log 44). -/
def splitCodes (p : Pay) : List (Nat × Bool) :=
  let arrs := pf p 0 31 30
  let m := pf p 0 8 0
  let n := pf p 1 31 20
  let w := shapeW (pf p 0 29 28)
  [(0x22, arrs == 0 || pf p 0 29 28 == 3 || !pz p 0 0x1FFE00 || !pz p 1 0x1FFF || !pz p 2 1 || !pz p 3 0xFF || !pz p 4 0xFFFFFFFF ||
      !pz p 5 0xFFFFFFFF || !pz p 6 0xFFFFFFFF || !pz p 7 0xFFFFFFFF || addrBad (pb p 2 12) 64 (pf p 2 31 13)),
   (0x23, m == 0 || n == 0 || decide (w * (arrsOf 0 arrs).length < n)),
   (0x28, pf p 0 25 21 == 0 || decide (16 < pf p 0 25 21)),
   (0x29, decide (pf p 2 11 1 * 64 < 4 * n) || pf p 3 31 8 == 0),
   (0x24, decide (131072 < pf p 1 19 13 * 1024 + roundUp m 16 * w * 4))]

/-- One row of one array: combined and written back with its sticky bits. -/
def splitPart (p : Pay) (m : EngCmd) (i : Nat) (parts : List (List Word)) (col : Nat × Nat × Nat × Nat) : Eng Nat := do
  let int := pb p 0 27
  let src0 := pb p 0 26
  let (c, a, n0, n) := col
  let w := shapeW (pf p 0 29 28)
  let accb := pf p 1 19 13
  let old ← if src0 then pure (List.replicate n ((0 : Word), false)) else readAcc m w accb c a i n
  let res := ((rangeFrom 0 n).zip old).map fun (j, (x, s)) =>
    let (y, f, t) := splitAcc int m.strict (parts.map fun r => listGet 0 r (n0 + j)) x
    (y, f, int && (s || t))
  let who ← look fun s => whoDrain s c m.ctx
  let base ← accShare who c a true
  let at_ := base + accb * 1024 + i * w * 4
  writeE who at_ (wordBytes (res.map (·.1)))
  let k := stickyKey c a ((at_ - accBase c a) / 4)
  upd (each ((rangeFrom 0 n).zip res) fun (j, (_, _, b)) => setSticky (k + j) b)
  pure (orFlags (res.map fun x => x.2.1) ||| satOf int old)

/-- DRSPLIT (04 R105, R106). -/
def splitWork (p : Pay) (m : EngCmd) : Eng Word := do
  let w ← look fun s => whoDrain s m.core m.ctx
  decodeE w (splitCodes p)
  let n := pf p 1 31 20
  let rows := pf p 0 8 0
  let cols := arrCols (shapeW (pf p 0 29 28)) n (arrsOf m.core (pf p 0 31 30))
  let b ← memBase w m.core (pb p 2 12) false
  let fl ← gatherM (rangeFrom 0 rows) fun i => do
    let parts ← gatherM (rangeFrom 0 (pf p 0 25 21)) fun j =>
      readWords w (b + pf p 2 31 13 * 64 + j * pf p 3 31 8 * 64 + i * pf p 2 11 1 * 64) n
    let fs ← gatherM cols (splitPart p m i parts)
    pure (orFlags fs)
  pure (statusWord rows (orFlags fl))

def execDrsplit (core : BitVec 9) (ctx : BitVec 10) (p : Pay) (s : State) : Out :=
  .next (runCmd core.toNat ctx.toNat 0x1A p (splitWork p) s)

/-! DRRSLD -/

def rsldCodes (s : State) (m : EngCmd) (p : Pay) : List (Nat × Bool) :=
  [(0x22, pf p 0 31 30 == 0 || !pz p 0 31 || !pz p 1 0x1FFFF || !pz p 2 0xFFFFFFFF || !pz p 3 0xFFFFFFFF || !pz p 4 0xFFFFFFFF ||
      !pz p 5 0xFFFFFFFF || !pz p 6 0xFFFFFFFF || !pz p 7 0xFFFFFFFF),
   (0x23, pf p 0 17 5 == 0),
   (0x25, decide ((rsShare s m.core m.ctx).2 < pf p 0 29 18 + pf p 0 17 5))]

/-- A rescale entry from its 8 bytes (04 R102). -/
def rescaleOf (bs : List Byte) : Rescale :=
  { mult := BitVec.ofNat 32 (leAt bs 0 4), shift := leAt bs 4 1 % 64, rnd := (leAt bs 4 1).testBit 6 }

/-- Store a rescale entry. -/
def setRescale (k : Nat) (r : Rescale) (s : State) : State :=
  { s with eng := { s.eng with rescale := tabPut (fun _ x => x == {}) k r s.eng.rescale } }

/-- DRRSLD (04 R102). -/
def rsldWork (p : Pay) (m : EngCmd) : Eng Word := do
  let w ← look fun s => whoDrain s m.core m.ctx
  let codes ← look fun s => rsldCodes s m p
  decodeE w codes
  let n := pf p 0 17 5
  let b ← spShare w m.core false
  let bs ← readE w (b + pf p 1 31 17 * 64) (8 * n)
  let first ← look fun s => (rsShare s m.core m.ctx).1 + pf p 0 29 18
  upd (each (arrsOf m.core (pf p 0 31 30)) fun (c, a) => each (rangeFrom 0 n) fun i s =>
    setRescale ((c * 2 + a) * 4096 + (first + i) % 4096) (rescaleOf (bs.drop (8 * i))) s)
  pure (statusWord n 0)

def execDrrsld (core : BitVec 9) (ctx : BitVec 10) (p : Pay) (s : State) : Out :=
  .next (runCmd core.toNat ctx.toNat 0x1B p (rsldWork p) s)

/-! GRPASS -/

/-- The conditions of 04 R115 that a GRPASS can meet. A K of 0, for which R115 names no code, is 0x23, an address beyond its range 0x22, and a
scale stride of 0 is 0x29 (log 44). -/
def grCodes (g : GrSlot) (p : Pay) : List (Nat × Bool) :=
  let k := pf p 1 31 16
  let ofmt := pf p 0 28 25
  let olay := pf p 0 24 23
  [(0x20, fmtBad ofmt olay),
   (0x21, pb p 0 22 && ofmt == 0),
   (0x22, !pz p 0 0x1FE000 || !pz p 1 0xFFFF || !pz p 2 63 || !pz p 3 3 || !pz p 6 0xFFFFFFFF || !pz p 7 0xFFFFFFFF ||
      addrBad (pb p 0 21) 64 (pf p 3 31 13) || addrBad (pb p 0 21) 16 (pf p 4 31 11)),
   (0x23, pf p 0 12 0 == 0 || decide (4096 < pf p 0 12 0) || k == 0),
   (0x29, decide (pf p 2 16 6 * 64 < rowBytes g.ifmt k) || decide (pf p 3 12 2 * 64 < rowBytes ofmt k) ||
      decide (pf p 4 10 0 * 16 < scaleBytes olay k) || pf p 4 10 0 == 0),
   (0x2A, k % g.blk != 0 || decide (2 < g.ifmt))]

/-- GRPASS (04 R113). -/
def grWork (p : Pay) (m : EngCmd) : Eng Word := do
  let w ← look fun s => whoGrind s m.core m.ctx
  let g := grSlot m (pf p 0 31 29)
  decodeE w (grCodes g p)
  let k := pf p 1 31 16
  let rows := pf p 0 12 0
  let ib ← spShare w m.core false
  let fs ← grFactors w m.core g k
  let ob ← memBase w m.core (pb p 0 21) true
  let o : OutForm :=
    { fmt := pf p 0 28 25, lay := pf p 0 24 23, satm := m.satm, strict := m.strict, sr := roundingOf m (pb p 0 22) (pf p 5 23 0)
      tx := ds8 (pf p 5 31 24), addr := ob + pf p 3 31 13 * 64, stride := pf p 3 12 2 * 64, saddr := ob + pf p 4 31 11 * 16
      sstride := pf p 4 10 0 * 16 }
  let fl ← gatherM (rangeFrom 0 rows) fun i => do
    let es ← readElems w g.ifmt (ib + pf p 2 31 17 * 64 + i * pf p 2 16 6 * 64) k
    let (ws, f) := grindRow m.strict g.blk fs (es.map fun e => flushIn g.ifmt m.strict (ofElem g.ifmt e))
    let h ← outRow w o i (i * k) ws
    pure (f ||| h)
  pure (statusWord rows (orFlags fl))

def execGrpass (core : BitVec 9) (ctx : BitVec 10) (p : Pay) (s : State) : Out :=
  .next (runCmd core.toNat ctx.toNat 0x1C p (grWork p) s)

end Sys2Proof.Machine
end

