-- ==== Sys2Proof/Machine/SfuRef.lean ====
section
/-! DEFINITION. The true values of the special functions, which bound their native results (05 R127, R145): each is computed far beyond FP32's
precision as a signed mantissa and an exponent of two. `fx` numbers are multiples of 2^-320. -/

namespace Sys2Proof.Machine

/-- ln 2 in multiples of 2^-320. -/
def ln2Fx : Nat := 0xb17217f7d1cf79abc9e3b39803f2f6af40f343267298b62d8a0d175b8baafa2be7b876206debac98
/-- Half of pi in multiples of 2^-512. -/
def piHalf : Nat := 0x1921fb54442d18469898cc51701b839a252049c1114cf98e804177d4c76273644a29410f31c6809bbdf2a33679a748636605614dbe4be286e9fc26adadaa3848b

/-- The terms of the exponential series of `t` from `term`, the one before the `k`th. -/
def expSeries (t : Nat) : Nat → Nat → Nat → Nat
  | 0, _, _ => 0
  | f + 1, k, term => term + expSeries t f (k + 1) (term * t / 2 ^ 320 / k)

/-- e^t for 0 ≤ t < 1. -/
def expFx (t : Nat) : Nat := expSeries t 80 1 (2 ^ 320)

/-- The odd powers of `z` over their exponents, `pw` the `k`th power. -/
def atanhSeries (zz : Nat) : Nat → Nat → Nat → Nat
  | 0, _, _ => 0
  | f + 1, k, pw => pw / k + atanhSeries zz f (k + 2) (pw * zz / 2 ^ 320)

/-- ln (m * 2^e) for m > 0, in multiples of 2^-320. -/
def lnFx (m : Nat) (e : Int) : Int :=
  let l := m.log2
  let z := (m - 2 ^ l) * 2 ^ 320 / (m + 2 ^ l)
  ((l : Int) + e) * ln2Fx + 2 * atanhSeries (z * z / 2 ^ 320) 110 1 z

/-- The alternating series of the sine (from `k` = 2, the argument) and of the cosine (from `k` = 1, one); `xx` is the square of the argument. -/
def trigSeries (xx : Nat) : Nat → Nat → Nat → Int
  | 0, _, _ => 0
  | f + 1, k, term => term - trigSeries xx f (k + 2) (term * xx / 2 ^ 320 / (k * (k + 1)))

/-- e^t for any t in multiples of 2^-320: a mantissa and an exponent; beyond 2^-1000 and 2^1000 the exponent stays. -/
def expDy (t : Int) : Int × Int :=
  ((expFx (t % (ln2Fx : Int)).toNat : Int), max (-1000) (min 1000 (t / (ln2Fx : Int))) - 320)

/-- The sine of a quarter turn count and a rest in multiples of 2^-320. -/
def sinQuad (q : Int) (r : Nat) : Int :=
  let xx := r * r / 2 ^ 320
  let s := trigSeries xx 48 2 r
  let c := trigSeries xx 48 1 (2 ^ 320)
  match (q % 4).toNat with | 0 => s | 1 => c | 2 => -s | _ => -c

/-- The true value of function `fn` at (-1)^neg * m * 2^e, where it has one: mantissa and exponent (05 R127). -/
def sfuTrue (fn : Nat) (neg : Bool) (m : Nat) (e : Int) : Int × Int :=
  let x : Int := sgn neg m * 2 ^ (e + 320).toNat
  let root : Nat × Int :=
    let k : Nat := 680 + (if e % 2 = 0 then 0 else 1)
    let n := m * 2 ^ k
    (isqrtAux n (n.log2 / 2 + 1) 0, (e - k) / 2)
  match fn with
  | 0 => ((expFx ((x % (2 : Int) ^ 320).toNat * ln2Fx / 2 ^ 320) : Int), max (-1000) (min 1000 (x / (2 : Int) ^ 320)) - 320)
  | 1 => expDy x
  | 2 => (lnFx m e * 2 ^ 320 / (ln2Fx : Int), -320)
  | 3 => (lnFx m e, -320)
  | 4 => (sgn neg (2 ^ (320 + m.log2) / m), -320 - m.log2 - e)
  | 5 => ((2 ^ 720 / root.1 : Nat), -720 - root.2)
  | 6 => ((root.1 : Int), root.2)
  | 7 =>
    let (a, q) := expDy (-2 * (x.natAbs : Int))
    let a := a.toNat >>> (-320 - q).toNat
    (sgn neg ((2 ^ 320 - a) * 2 ^ 320 / (2 ^ 320 + a)), -320)
  | 8 =>
    let (a, q) := expDy (-(x.natAbs : Int))
    let b := a.toNat >>> (-320 - q).toNat
    if neg then (a * 2 ^ 320 / (2 ^ 320 + b), q) else ((2 ^ 640 / (2 ^ 320 + b) : Nat), -320)
  | _ =>
    let t : Int := sgn neg m * 2 ^ (e + 512).toNat
    (sinQuad (t / (piHalf : Int) + (if fn = 9 then 0 else 1)) ((t % (piHalf : Int)).toNat / 2 ^ 192), -320)

/-- Whether a finite pattern lies within 2 units in the last place of the correctly rounded result `r` from the true value (05 R127). -/
def within2 (y r : Word) (v : Int × Int) : Bool :=
  match ofFp32 y with
  | .fin n m e =>
    let (d, k) := dySum (sgn n m) e (-v.1) v.2
    !magGt d.natAbs k 2 (max 1 (fld r 30 23 : Int) - 150)
  | _ => false

/-- What 05 R145 says beside the bound: EXP(0) is 1, no EXP of a negative argument exceeds 1, and the RCP of a sum of 1 to 65,536 times
that sum does not round above 1 (log 9). -/
def settled (fn : Nat) (w y : Word) : Bool :=
  if fn = 1 ∧ magBits w = 0 then y == 0x3F800000
  else if fn = 1 ∧ w.getLsbD 31 then decide (y.toNat ≤ 0x3F800000)
  else if fn = 4 ∧ 0x3F800000 ≤ w.toNat ∧ w.toNat ≤ 0x47800000 then decide ((fpMul false w y).1.toNat ≤ 0x3F800000)
  else true

/-- The native result of a function at a finite argument: a free value within the bound of 05 R127 (log 9). -/
def sfuNear (fn : Nat) (w : Word) (strict : Bool) : Word :=
  match ofFp32 w with
  | .fin n m e =>
    let v := sfuTrue fn n m e
    let r := (fp32Round true (if v.1 = 0 then n else decide (v.1 < 0)) v.1.natAbs v.2).1
    let y := Config.sfuNative fn w strict
    if within2 y r v && settled fn w y then y else r
  | _ => w

end Sys2Proof.Machine
end

