-- ==== Sys2Proof/Machine/Sfu.lean ====
section
/-! DEFINITION. The special functions (05 R127-R136, R140). Native results are free within R127's bound and what R128 and R129 fix; the DX-7 algorithms
and the programmable tables are exact. -/

namespace Sys2Proof.Machine

def infW (neg : Bool) : Word := BitVec.ofNat 32 (withSign neg 31 0x7F800000)
def zeroW (neg : Bool) : Word := BitVec.ofNat 32 (withSign neg 31 0)
def oneW (neg : Bool) : Word := BitVec.ofNat 32 (withSign neg 31 0x3F800000)

/-- A true result beyond the range (05 R129). -/
def sfuOvf (neg satm : Bool) : Word × Nat :=
  if satm then (infW neg, flOF) else (BitVec.ofNat 32 (withSign neg 31 0x7F7FFFFF), flCSAT)

/-- A NaN the function produces. -/
def sfuInvalid : Word × Nat := (qnan, flNV ||| flNAN)

/-- A tiny true result (05 R128): flushed, or in a strict context the native result as a subnormal or zero. -/
def sfuTiny (flush neg : Bool) (native : Word) : Word × Nat :=
  if flush then (zeroW neg, flUF) else (BitVec.ofNat 32 (withSign neg 31 (min (magBits native) (2 ^ 23 - 1))), flUF)

/-- Whether a positive pattern's true exponential lies beyond the range: EXP2 at 128, EXP at the first FP32 above
ln(2^128 - 2^103). -/
def expOver (fn : Nat) (w : Word) : Bool := !w.getLsbD 31 && decide ((if fn = 0 then 0x43000000 else 0x42B17218) ≤ magBits w)
/-- Whether a negative pattern's true exponential is below 2^-126. -/
def expTiny (fn : Nat) (w : Word) : Bool := w.getLsbD 31 && decide ((if fn = 0 then 0x42FC0001 else 0x42AEAC50) ≤ magBits w)

/-- The rows of 05 R128 with R129, for an argument that is no NaN; `none` where no row applies. -/
def sfuRow (fn : Nat) (flush satm : Bool) (w native : Word) : Option (Word × Nat) :=
  let neg := w.getLsbD 31
  let inf := isInf w
  let zero := magBits w == 0
  match fn with
  | 0 | 1 =>
    if inf then some (if neg then 0 else infW false, 0)
    else if expOver fn w then some (sfuOvf false satm)
    else if expTiny fn w then some (sfuTiny flush false native)
    else none
  | 2 | 3 =>
    if zero then some (infW true, 0) else if neg then some sfuInvalid else if inf then some (infW false, 0) else none
  | 4 =>
    if zero then some (infW neg, 0)
    else if inf then some (zeroW neg, 0)
    else if 0x7E800000 < magBits w then some (sfuTiny flush neg native)
    else if magBits w ≤ 0x200000 then some (sfuOvf neg satm)
    else none
  | 5 =>
    if zero then some (infW neg, 0) else if neg then some sfuInvalid else if inf then some (0, 0) else none
  | 6 =>
    if zero then some (w, 0) else if neg then some sfuInvalid else if inf then some (w, 0) else none
  | 7 => if 0x41102CB4 ≤ magBits w then some (oneW neg, 0) else none
  | 8 =>
    if inf && neg then some (0, 0)
    else if !neg && decide (0x418AA123 ≤ magBits w) then some (oneW false, 0)
    else if expTiny 1 w then some (sfuTiny flush false native)
    else none
  | _ => if inf then some sfuInvalid else none

/-- A native result of an ordinary argument: a subnormal one is flushed in a fast context, and raises UF (02 R55; 05 R117). `nz` says
whether the true result is other than 0. -/
def sfuTail (strict nz : Bool) (w : Word) : Word × Nat :=
  if isNan w then (w, flNAN)
  else if magBits w = 0 then (w, if nz then flUF else 0)
  else if magBits w < 2 ^ 23 then (if strict then w else zeroW (w.getLsbD 31), if nz then flUF else 0)
  else (w, 0)

/-! DX-7 algorithms (05 R131-R134): fast rounding, no flags inside -/

def xMul (a b : Word) : Word := (fpMul false a b).1
def xAdd (a b : Word) : Word := (fpAdd false a b).1
def xSub (a b : Word) : Word := (fpSub false a b).1

/-- The final scaling y * 2^k, which is exact, with the flags of R129 and R130: a value below 2^-126 is flushed. -/
def xScale (satm neg : Bool) (y : Word) (k : Int) : Word × Nat :=
  match ofFp32 y with
  | .fin _ m e =>
    if m != 0 && magGt 1 (-126) m (e + k) then (zeroW neg, flUF)
    else
      let (w, f) := fp32Round false neg m (e + k)
      if f = flOF then sfuOvf neg satm else (w, f)
  | _ => (y, 0)

def rcpTable : List Nat :=
  [2016, 1956, 1900, 1846, 1796, 1748, 1702, 1659, 1618, 1579, 1542, 1507, 1473, 1440, 1409, 1380] ++
  [1351, 1324, 1298, 1273, 1248, 1225, 1202, 1181, 1160, 1140, 1120, 1101, 1083, 1066, 1049, 1032]

def rsqTable : List Nat :=
  [2017, 1958, 1905, 1855, 1809, 1767, 1727, 1690, 1655, 1622, 1591, 1562, 1535, 1508, 1483, 1460] ++
  [1426, 1385, 1347, 1312, 1279, 1249, 1221, 1195, 1170, 1147, 1125, 1105, 1085, 1067, 1049, 1032]

def expTable : List Nat :=
  [0, 1435, 2902, 4400, 5932, 7496, 9096, 10730, 12400, 14106, 15850, 17633, 19454, 21315, 23216, 25160] ++
  [27146, 29175, 31249, 33369, 35534, 37747, 40009, 42320, 44682, 47095, 49562, 52082, 54658, 57289, 59979, 62727]

/-- An exact dyadic as an FP32 pattern. -/
def dyW (m : Nat) (e : Int) : Word := (fp32Round false false m e).1

def xExpo (w : Word) : Int := (fld w 30 23 : Int) - 127

/-- RCP (05 R131). -/
def xRcp (satm : Bool) (w : Word) : Word × Nat :=
  let f := w.toNat % 2 ^ 23
  let m : Word := BitVec.ofNat 32 (0x3F800000 + f)
  let y0 := dyW (listGet 0 rcpTable (f / 2 ^ 18)) (-11)
  let it : Word → Word := fun y => xAdd y (xMul y (xSub 0x3F800000 (xMul m y)))
  xScale satm (w.getLsbD 31) (it (it y0)) (-(xExpo w))

/-- RSQRT (05 R132). -/
def xRsqrt (satm : Bool) (w : Word) : Word × Nat :=
  let f := w.toNat % 2 ^ 23
  let e := xExpo w
  let odd := e % 2 != 0
  let h : Word := BitVec.ofNat 32 ((if odd then 0x3F800000 else 0x3F000000) + f)
  let i := f / 2 ^ 19 + (if odd then 16 else 0)
  let k := if odd then (e - 1) / 2 else e / 2
  let y0 := dyW (listGet 0 rsqTable i) (-11)
  let it : Word → Word := fun y => xMul y (xSub 0x3FC00000 (xMul h (xMul y y)))
  xScale satm false (it (it y0)) (-k)

/-- EXP2 of a finite argument (05 R133). -/
def xExp2 (satm : Bool) (w : Word) : Word × Nat :=
  if expOver 0 w then sfuOvf false satm
  else if expTiny 0 w then (0, flUF)
  else match ofFp32 w with
    | .fin neg m e =>
      let s : Nat := (-e).toNat + 5
      let x : Int := sgn neg m * 2 ^ (e + s).toNat
      let n := x / 2 ^ s
      let f := (x - n * 2 ^ s).toNat
      let j := f / 2 ^ (s - 5)
      let r := f % 2 ^ (s - 5)
      let mulr : Word → Word := fun q => match ofFp32 q with
        | .fin _ qm qe => dyW (r * qm) (qe - s)
        | _ => q
      let q := mulr (xAdd (mulr 0x3E75FDF0) 0x3F317218)
      let t := dyW (65536 + listGet 0 expTable j) (-16)
      xScale satm false (xMul t (xAdd 0x3F800000 q)) n
    | _ => (w, 0)

/-- EXP (05 R134): a product beyond the range stands for an argument of EXP2 beyond its range. -/
def xExp (satm : Bool) (w : Word) : Word × Nat :=
  let z := xMul w 0x3FB8AA3B
  if isInf z then (if z.getLsbD 31 then (0, flUF) else sfuOvf false satm) else xExp2 satm z

def xSqrt (satm : Bool) (w : Word) : Word × Nat := fpMul false w (xRsqrt satm w).1

def xSigmoid (satm : Bool) (w : Word) : Word × Nat := xRcp satm (xAdd 0x3F800000 (xExp satm (fneg w)).1)

def xTanh (satm : Bool) (w : Word) : Word × Nat :=
  let t := (xExp satm (xMul 0xC0000000 (BitVec.ofNat 32 (magBits w)))).1
  let (r, f) := fpMul false (xSub 0x3F800000 t) (xRcp satm (xAdd 0x3F800000 t)).1
  (r ||| zeroW (w.getLsbD 31), f)

def xFn (fn : Nat) (satm : Bool) (w : Word) : Word × Nat :=
  match fn with
  | 0 => xExp2 satm w
  | 1 => xExp satm w
  | 4 => xRcp satm w
  | 5 => xRsqrt satm w
  | 6 => xSqrt satm w
  | 7 => xTanh satm w
  | _ => xSigmoid satm w

/-- Whether compatibility mode computes a function by its DX-7 algorithm (05 R127). -/
def hasDx7 (fn : Nat) : Bool := fn == 0 || fn == 1 || (decide (4 ≤ fn) && decide (fn ≤ 8))

/-- A function that is not programmable (05 R127-R134). -/
def sfuFixed (fn : Nat) (strict satm compat : Bool) (x : Word) : Word × Nat :=
  let dx7 := compat && hasDx7 fn
  match inFp32 (strict && !dx7) x with
  | .nan w => nanResult strict [w]
  | v =>
    let w := fp32Of' v
    let native := sfuNear fn w strict
    match sfuRow fn (!strict || dx7) satm w native with
    | some r => r
    | none =>
      if dx7 then
        xFn fn satm w
      else sfuTail strict (!(magBits w == 0 && (fn == 7 || fn == 9)) && !(w == 0x3F800000 && (fn == 2 || fn == 3))) native
where
  /-- The pattern of a value read from FP32. -/
  fp32Of' (v : FV) : Word := match v with
    | .nan w => w
    | .inf n => infW n
    | .fin n m e => (fp32Round true n m e).1

/-! Programmable slots (05 R135, R136, R140) -/

def tblWord (t : List Byte) (o : Nat) : Word := BitVec.ofNat 32 (leAt t o 4)

/-- The cubic of a segment at `u`. -/
def tblPoly (t : List Byte) (strict : Bool) (seg : Nat) (u : Word) : Word × Nat :=
  let c : Nat → Word := fun i => tblWord t (32 + 16 * seg + 4 * i)
  let (y, f0) := fpMul strict (c 3) u
  let (y, f1) := fpAdd strict y (c 2)
  let (y, f2) := fpMul strict y u
  let (y, f3) := fpAdd strict y (c 1)
  let (y, f4) := fpMul strict y u
  let (y, f5) := fpAdd strict y (c 0)
  (y, f0 ||| f1 ||| f2 ||| f3 ||| f4 ||| f5)

/-- The BELOW or ABOVE rule: its code, the value, the segment and `u` of code 1, and x. -/
def tblEdge (t : List Byte) (strict : Bool) (code : Nat) (v : Word) (seg : Nat) (u x : Word) : Word × Nat :=
  match code with
  | 0 => match inFp32 strict v with
    | .nan w => if strict then (w, flNAN) else (qnan, flNAN)
    | .fin n m _ => (if m = 0 then zeroW n else v, 0)
    | .inf _ => (v, 0)
  | 1 => tblPoly t strict seg u
  | 2 => (x, 0)
  | _ => sfuInvalid

/-- A table evaluated at x; an empty table gives NaN and NV (05 R136, R140). -/
def tblEval (t : Option (List Byte)) (strict : Bool) (x : Word) : Word × Nat :=
  match t with
  | none => sfuInvalid
  | some t =>
    match inFp32 strict x with
    | .nan w => nanResult strict [w]
    | v =>
      let x := match v with | .fin n m _ => if m = 0 then zeroW n else x | _ => x
      let (d, f) := fpSub strict x (tblWord t 0)
      let (d, g) := fpMul strict d (tblWord t 4)
      let fl := f ||| g
      let below := tblEdge t strict (leAt t 16 1) (tblWord t 8) 0 0 x
      let above := tblEdge t strict (leAt t 17 1) (tblWord t 12) 63 0x3F800000 x
      match ofFp32 d with
      | .nan _ => (d, fl ||| flNAN)
      | .inf n => let (r, h) := if n then below else above
                  (r, fl ||| h)
      | .fin n m e =>
        if n && m != 0 then (below.1, fl ||| below.2)
        else if magGt m e 63 0 && !magGt 64 0 m e then (above.1, fl ||| above.2)
        else
          let seg := if 0 ≤ e then m <<< e.toNat else m >>> (-e).toNat
          let (u, h) := fpSub strict d (dyW seg 0)
          let (y, k) := tblPoly t strict seg u
          (y, fl ||| h ||| k)

end Sys2Proof.Machine
end

