-- ==== Sys2Proof/Machine/Vector.lean ====
section
/-! DEFINITION. The vector unit: element-wise and row commands, special functions, soft maximum, normalisation (chapter 05). -/

namespace Sys2Proof.Machine

/-! Element operations -/

/-- A NaN that an output takes over unchanged (05 R121): canonical in a fast context; its bits in a strict one. -/
def passW (strict : Bool) (w : Word) : Word × Nat :=
  if isNan w then (if strict then (w, flNAN ||| (if isSnan w then flNV ||| flSNAN else 0)) else (qnan, flNAN)) else (w, 0)

/-- The larger or smaller of two values (05 R119). -/
def extW (mn strict : Bool) (a b : Word) : Word × Nat :=
  let sn := if strict && (isSnan a || isSnan b) then flNV ||| flSNAN else 0
  let q : Word → Word × Nat := fun w => (if strict then w ||| 0x400000 else qnan, flNAN ||| sn)
  if isNan a && isNan b then q a
  else if isNan a then (if strict then q a else (b, 0))
  else if isNan b then (if strict then q b else (a, 0))
  else if (if mn then decide (totKey b < totKey a) else decide (totKey a < totKey b)) then (b, 0) else (a, 0)

/-- a > b (05 R121); a NaN operand gives +0. -/
def cgtW (strict : Bool) (a b : Word) : Word × Nat :=
  (if !isNan a && !isNan b && decide (ordKey b < ordKey a) then 0x3F800000 else 0,
   if strict && (isSnan a || isSnan b) then flNV ||| flSNAN else 0)

/-- One element of a VEW (05 R121): `n` column, `m` row, `sc` the scalar word. A NaN in the B of MASKB, which is no zero and reaches no output,
raises nothing, not even a signalling one in a strict context (log 104). -/
def vewElem (op : Nat) (strict : Bool) (sc : Word) (m n : Nat) (a b : Word) : Word × Nat :=
  match op with
  | 0x01 => fpAdd strict a b
  | 0x02 => fpSub strict a b
  | 0x03 => fpMul strict a b
  | 0x04 => extW false strict a b
  | 0x05 => extW true strict a b
  | 0x06 => (a &&& 0x7FFFFFFF, 0)
  | 0x07 => (fneg a, 0)
  | 0x08 =>
    let (t, f) := fpMul strict a sc
    let (r, g) := fpAdd strict t b
    (r, f ||| g)
  | 0x09 => cgtW strict a b
  | 0x0A => if (n : Int) ≤ (m : Int) + sc.toInt then passW strict a else (infW true, 0)
  | 0x0B => if magBits b = 0 then (infW true, 0) else passW strict a
  | _ => passW strict a

/-- Whether an operation uses B (05 R121). -/
def usesB (op : Nat) : Bool := (decide (1 ≤ op) && decide (op ≤ 5)) || op == 8 || op == 9 || op == 11

/-- A scalar of a payload as an input (05 R116). -/
def scalarW (strict : Bool) (w : Word) : Word := match inFp32 strict w with | .fin n m _ => if m = 0 then zeroW n else w | _ => w

/-- An input row converted to FP32 (05 R116). -/
def readVec (w : Who) (fmt a n : Nat) (strict : Bool) : Eng (List Word) :=
  (fun es => es.map fun e => fp32Of (flushIn fmt strict (ofElem fmt e))) <$> readElems w fmt a n

/-! Row reductions (05 R118, R119) -/

/-- Fold elements into 128 lanes, 128 at a time. -/
def lanesFold (strict : Bool) : List (List Word) → List Word → List Word × Nat
  | [], p => (p, 0)
  | c :: r, p =>
    let (q, f) := zipFl (fpAdd strict) p c
    let (t, g) := lanesFold strict r (q ++ p.drop q.length)
    (t, f ||| g)

/-- Add neighbours. -/
def pairAdd (strict : Bool) : List Word → List Word × Nat
  | a :: b :: r =>
    let (x, f) := fpAdd strict a b
    let (t, g) := pairAdd strict r
    (x :: t, f ||| g)
  | l => (l, 0)

def treeAdd (strict : Bool) : Nat → List Word → List Word × Nat
  | 0, p => (p, 0)
  | n + 1, p =>
    let (q, f) := pairAdd strict p
    let (t, g) := treeAdd strict n q
    (t, f ||| g)

/-- The row sum of R118. -/
def rowSum (strict : Bool) (xs : List Word) : Word × Nat :=
  let (p, f) := lanesFold strict (chunks 128 xs.length xs) (List.replicate 128 0)
  let (t, g) := treeAdd strict 7 p
  (listGet 0 t 0, f ||| g)

/-- The row maximum or minimum: its value does not depend on the order (R119); the identity of R118 is among the candidates
(log 21). -/
def rowExt (mn strict : Bool) (xs : List Word) : Word × Nat :=
  let r := xs.foldl (fun (a : Word × Nat) x =>
    let (y, f) := extW mn strict a.1 x
    (y, a.2 ||| f)) (infW (!mn), 0)
  (r.1, if isNan r.1 then r.2 else r.2 &&& (flNV ||| flSNAN))

/-- A unary function over a row. -/
def mapFl (f : Word → Word × Nat) (xs : List Word) : List Word × Nat :=
  let r := xs.map f
  (r.map (·.1), orFlags (r.map (·.2)))

def rowSumSq (strict : Bool) (xs : List Word) : Word × Nat :=
  let (q, f) := mapFl (fun x => fpMul strict x x) xs
  let (s, g) := rowSum strict q
  (s, f ||| g)

/-- The reductions of VROW (05 R123). -/
def rowReduce (rop : Nat) (strict : Bool) (xs : List Word) : Word × Nat :=
  match rop with
  | 0 => rowExt false strict xs
  | 1 => rowExt true strict xs
  | 2 => rowSum strict xs
  | 3 => rowSumSq strict xs
  | _ => (BitVec.ofNat 32 ((xs.filter fun w => !isNan w && !isInf w).foldl (fun a w => max a (magBits w)) 0),
          if strict && xs.any isSnan then flNV ||| flSNAN else 0)

/-! Counters and status (05 R152, R153) -/

def vecs (n : Nat) : Nat := ceilDiv n 128
/-- S(N) of 05 R126. -/
def sfuPass (n : Nat) : Nat := 8 * (n / 128) + ceilDiv (n % 128) 16

def countVec (core busy sfu wait : Nat) (s : State) : State :=
  inc64 (kCore core 0x90) wait (inc64 (kCore core 0x88) sfu (inc64 (kCore core 0x80) busy s))

/-- VX_STATUS shows the command. -/
def showVx (core ctx cmd : Nat) : State → State := setN (kCore core 0xA0) (cmd * 2 ^ 11 + 2 ^ 10 + ctx)

/-! Decode checks shared by the payloads -/

def vM (p : Pay) : Nat := pf p 1 31 19
def vN (p : Pay) : Nat := pf p 1 18 3
def vAddr (p : Pay) : Nat := pf p 2 31 17 * 64
def vStride (p : Pay) : Nat := pf p 2 16 6 * 64

def mnBad (p : Pay) : Bool := vM p == 0 || decide (4096 < vM p) || vN p == 0

/-- Whether an output stride or scale stride is too small; a scale stride of 0 is (log 44). -/
def outShort (p : Pay) (fmt lay : Nat) : Bool :=
  decide (pf p 4 12 2 * 64 < rowBytes fmt (vN p)) || decide (pf p 5 10 0 * 16 < scaleBytes lay (vN p)) || pf p 5 10 0 == 0

/-- Whether the output address, or with `sc` the scale address, lies beyond its range (05 R120), for which R154 names no code (log 44). -/
def outFar (p : Pay) (cluster sc : Bool) : Bool := addrBad cluster 64 (pf p 4 31 13) || (sc && addrBad cluster 16 (pf p 5 31 11))

/-- The form of the output rows of words 4, 5 and 7. -/
def vOut (p : Pay) (m : EngCmd) (base fmt lay : Nat) (sr : Bool) : OutForm :=
  { fmt, lay, satm := m.satm, strict := m.strict, sr := roundingOf m sr (pf p 7 23 0), tx := ds8 (pf p 7 31 24)
    addr := base + pf p 4 31 13 * 64, stride := pf p 4 12 2 * 64, saddr := base + pf p 5 31 11 * 16, sstride := pf p 5 10 0 * 16 }

/-- Rows of A one after another, each worked on and its flags collected. Each row that the unit takes in counts `busy`, `sfu` and `wait` cycles
(05 R152). -/
def vRows (m : EngCmd) (p : Pay) (fmt busy sfu wait : Nat) (f : Nat → List Word → Eng Nat) : Eng Word := do
  let w ← look fun s => whoVec s m.core m.ctx
  let b ← spShare w m.core false
  let fl ← gatherM (rangeFrom 0 (vM p)) fun i => do
    let xs ← readVec w fmt (b + vAddr p + i * vStride p) (vN p) m.strict
    upd (countVec m.core busy sfu wait)
    f i xs
  pure (statusWord (vM p) (orFlags fl))

/-! VEW -/

def vewCodes (p : Pay) : List (Nat × Bool) :=
  let op := pf p 0 31 26
  let bm := pf p 0 10 9
  let memB := usesB op && bm != 1
  [(0x30, decide (2 < pf p 0 25 22) || (memB && decide (2 < pf p 0 21 18)) || fmtBad (pf p 0 17 14) (pf p 0 13 12)),
   (0x31, decide (0xB < op) || !pz p 0 0xFF || !pz p 1 7 || !pz p 2 63 || !pz p 3 63 || !pz p 4 3 || outFar p (pb p 0 8) true),
   (0x32, mnBad p),
   (0x33, pb p 0 11 && pf p 0 17 14 == 0),
   (0x34, decide (vStride p < rowBytes (pf p 0 25 22) (vN p)) || outShort p (pf p 0 17 14) (pf p 0 13 12) ||
      (memB && bm == 0 && decide (pf p 3 16 6 * 64 < rowBytes (pf p 0 21 18) (vN p)))),
   (0x35, op == 8 && bm == 1)]

/-- The second operand of row `i` (05 R122). -/
def vewB (p : Pay) (m : EngCmd) (w : Who) (b : Nat) (fixed : List Word) (i : Nat) : Eng (List Word) :=
  let n := vN p
  if !usesB (pf p 0 31 26) then pure (List.replicate n 0)
  else match pf p 0 10 9 with
    | 0 => readVec w (pf p 0 21 18) (b + pf p 3 31 17 * 64 + i * (pf p 3 16 6 * 64)) n m.strict
    | 1 => pure (List.replicate n (scalarW m.strict p.w6))
    | 2 => pure fixed
    | _ => pure (List.replicate n (listGet 0 fixed i))

/-- The elements of one row, columns from `n`. -/
def vewRow (op : Nat) (strict : Bool) (sc : Word) (m : Nat) : Nat → List Word → List Word → List Word × Nat
  | n, a :: r, b :: t =>
    let (x, f) := vewElem op strict sc m n a b
    let (xs, g) := vewRow op strict sc m (n + 1) r t
    (x :: xs, f ||| g)
  | _, _, _ => ([], 0)

/-- VEW (05 R120-R122). ABS and NEG raise no flag of their own, even for a NaN. -/
def vewWork (p : Pay) (m : EngCmd) : Eng Word := do
  let w ← look fun s => whoVec s m.core m.ctx
  decodeE w (vewCodes p)
  upd (showVx m.core m.ctx 0)
  let b ← spShare w m.core false
  let op := pf p 0 31 26
  let bm := pf p 0 10 9
  let fixed ← if usesB op && decide (2 ≤ bm) then
      readVec w (pf p 0 21 18) (b + pf p 3 31 17 * 64) (if bm = 2 then vN p else vM p) m.strict
    else pure []
  let ob ← memBase w m.core (pb p 0 8) true
  let o := vOut p m ob (pf p 0 17 14) (pf p 0 13 12) (pb p 0 11)
  let sc := if op = 8 then scalarW m.strict p.w6 else p.w6
  vRows m p (pf p 0 25 22) (vecs (vN p)) 0 0 fun i xs => do
    let bs ← vewB p m w b fixed i
    let (ys, f) := vewRow op m.strict sc i 0 xs bs
    let g ← outRow w o i (i * vN p) ys
    pure (f ||| (if (op = 6 ∨ op = 7) ∧ o.fmt = 0 then 0 else g))

def execVew (core : BitVec 9) (ctx : BitVec 10) (p : Pay) (s : State) : Out :=
  .next (runCmd core.toNat ctx.toNat 0x20 p (vewWork p) s)

/-! VROW -/

def vrowCodes (p : Pay) : List (Nat × Bool) :=
  [(0x30, decide (2 < pf p 0 28 25)),
   (0x31, decide (4 < pf p 0 31 29) || !pz p 0 0xFFFFFF || !pz p 1 7 || !pz p 2 63 || !pz p 3 0xFFFFFFFF || !pz p 4 0x1FFF ||
      !pz p 5 0xFFFFFFFF || !pz p 6 0xFFFFFFFF || !pz p 7 0xFFFFFFFF || outFar p (pb p 0 24) false),
   (0x32, mnBad p),
   (0x34, decide (vStride p < rowBytes (pf p 0 28 25) (vN p)))]

/-- VROW (05 R123). -/
def vrowWork (p : Pay) (m : EngCmd) : Eng Word := do
  let w ← look fun s => whoVec s m.core m.ctx
  decodeE w (vrowCodes p)
  upd (showVx m.core m.ctx 1)
  let ob ← memBase w m.core (pb p 0 24) true
  vRows m p (pf p 0 28 25) (vecs (vN p)) 0 0 fun i xs => do
    let (v, f) := rowReduce (pf p 0 31 29) m.strict xs
    writeE w (ob + pf p 4 31 13 * 64 + 4 * i) (leBytes 4 v.toNat)
    pure f

def execVrow (core : BitVec 9) (ctx : BitVec 10) (p : Pay) (s : State) : Out :=
  .next (runCmd core.toNat ctx.toNat 0x21 p (vrowWork p) s)

/-! VSF -/

def vsfCodes (p : Pay) : List (Nat × Bool) :=
  let fn := pf p 0 31 27
  [(0x30, decide (2 < pf p 0 26 23) || fmtBad (pf p 0 22 19) (pf p 0 18 17)),
   (0x31, fn == 0xB || decide (0xF < fn) || !pz p 0 0x3FFF || !pz p 1 7 || !pz p 2 63 || !pz p 3 0xFFFFFFFF || !pz p 4 3 ||
      outFar p (pb p 0 15) true),
   (0x32, mnBad p),
   (0x33, pb p 0 16 && pf p 0 22 19 == 0),
   (0x34, decide (vStride p < rowBytes (pf p 0 26 23) (vN p)) || outShort p (pf p 0 22 19) (pf p 0 18 17))]

def bankKey (core slot prog bank : Nat) : Nat := ((core * 8 + slot) * 4 + prog) * 2 + bank

/-- The table a command reads in a programmable slot: the bank active when it was issued; `none` for an empty bank (05 R139, R140). -/
def readTable (m : EngCmd) (prog : Nat) : Eng (Option (List Byte)) := fun s =>
  match slotOf s m.core m.ctx with
  | none => .ok none s
  | some i =>
    let bank := if m.banks.testBit prog then 1 else 0
    if s.eng.banks.contains (bankKey m.core i prog bank) then
      let ks := rangeFrom (tblBase m.core i prog bank) 1056
      match errAt s false ks with
      | some x => .error { reason := x.2.1, cls := 3, unit := m.core } (errNoted (ctxPid s m.ctx) x s)
      | none => .ok (some (ks.map (memByte 0 s))) (mend (ctxPid s m.ctx) false ks s)
    else .ok none s

/-- The function of a command on one argument. -/
def sfuFn (m : EngCmd) (fn : Nat) (t : Option (List Byte)) (x : Word) : Word × Nat :=
  if 0xC ≤ fn then tblEval t m.strict x else sfuFixed fn m.strict m.satm m.compat x

/-- PRE: the argument is round(a * SCALAR) (05 R141, R144). -/
def preRow (p : Pay) (m : EngCmd) (pre : Bool) (xs : List Word) : List Word × Nat :=
  if pre then mapFl (fun x => fpMul m.strict x (scalarW m.strict p.w6)) xs else (xs, 0)

/-- VSF (05 R141). -/
def vsfWork (p : Pay) (m : EngCmd) : Eng Word := do
  let w ← look fun s => whoVec s m.core m.ctx
  decodeE w (vsfCodes p)
  let n := vN p
  let fn := pf p 0 31 27
  upd (showVx m.core m.ctx 2)
  let t ← if 0xC ≤ fn then readTable m (fn - 0xC) else pure none
  let ob ← memBase w m.core (pb p 0 15) true
  let o := vOut p m ob (pf p 0 22 19) (pf p 0 18 17) (pb p 0 16)
  vRows m p (pf p 0 26 23) (vecs n) (sfuPass n) (sfuPass n - vecs n) fun i xs => do
    let (xs, f) := preRow p m (pb p 0 14) xs
    let (ys, g) := mapFl (sfuFn m fn t) xs
    let h ← outRow w o i (i * n) ys
    pure (f ||| g ||| h)

def execVsf (core : BitVec 9) (ctx : BitVec 10) (p : Pay) (s : State) : Out :=
  .next (runCmd core.toNat ctx.toNat 0x22 p (vsfWork p) s)

/-! VTLD -/

def vtldCodes (p : Pay) : List (Nat × Bool) :=
  [(0x31, !pz p 0 0x3FFFFFFF || !pz p 1 0x1FFFF || !pz p 2 0xFFFFFFFF || !pz p 3 0xFFFFFFFF || !pz p 4 0xFFFFFFFF ||
      !pz p 5 0xFFFFFFFF || !pz p 6 0xFFFFFFFF || !pz p 7 0xFFFFFFFF)]

/-- Whether a VSF of the context on the core, issued before and not completed, sampled a bank (05 R137). -/
def bankInUse (s : State) (m : EngCmd) (prog bank : Nat) : Bool :=
  (s.eng.cmds.takeWhile fun x => !(x.core == m.core && x.ctx == m.ctx && x.cseq == m.cseq)).any fun x =>
    x.core == m.core && x.ctx == m.ctx && envOpc x.env == 0x22 &&
      (match x.pay with | some q => pf q 0 31 27 == 0xC + prog | none => false) && x.banks.testBit prog == (bank == 1)

/-- The bank of a slot that is not active for the context now (05 R137). -/
def shadowBank (s : State) (ctx prog : Nat) : Nat := if bit (getR s (kCtx ctx 0x50)) (4 + prog) then 0 else 1

/-- A VTLD waits while its bank is in use; TBL_WAIT counts by a free amount (log 8). -/
def vtldHold (p : Pay) (m : EngCmd) (s : State) : Option State :=
  let prog := pf p 0 31 30
  if bankInUse s m prog (shadowBank s m.ctx prog) then some (bumpFree (inc64 (kCore m.core 0x98) (freeN s) s)) else none

/-- A table image lands in a bank of the table store (05 R137; 14 R421, R423). -/
def writeTable (m : EngCmd) (i prog bank : Nat) (img : List Byte) : Eng Unit := fun s =>
  let ks := rangeFrom (tblBase m.core i prog bank) 1056
  match errAt s true ks with
  | some x => .error { reason := x.2.1, cls := 3, unit := m.core } (errNoted (ctxPid s m.ctx) x s)
  | none =>
    let s := errClear ks (memPuts ks img s)
    .ok () (showShadow m.ctx prog { s with eng := { s.eng with
      banks := setIns (bankKey m.core i prog bank) s.eng.banks
      shadow := setDel ((m.core * 1024 + m.ctx) * 4 + prog) s.eng.shadow } })

/-- VTLD (05 R137, R142): the image lands in the shadow bank, which is valid again once the command completes. -/
def vtldWork (p : Pay) (m : EngCmd) : Eng Word := do
  let w ← look fun s => whoVec s m.core m.ctx
  decodeE w (vtldCodes p)
  upd (showVx m.core m.ctx 3)
  let prog := pf p 0 31 30
  let b ← spShare w m.core false
  let img ← readE w (b + pf p 1 31 17 * 64) 1056
  let slot ← look fun s => slotOf s m.core m.ctx
  let bank ← look fun s => shadowBank s m.ctx prog
  match slot with
  | none => pure ()
  | some i => writeTable m i prog bank img
  pure (statusWord 0 0)

def execVtld (core : BitVec 9) (ctx : BitVec 10) (p : Pay) (s : State) : Out :=
  .next (runHeld core.toNat ctx.toNat 0x23 p (vtldHold p) (vtldWork p) s)

/-! VSMAX -/

/-- Whether two sets of `m` rows share a byte: base, stride and length of each. -/
def rowsOverlap (m a sa la b sb lb : Nat) : Bool :=
  (rangeFrom 0 m).any fun i =>
    let x := a + i * sa
    let j := if x < b + lb then 0 else if sb = 0 then m else (x - b - lb) / sb + 1
    decide (j < m) && decide (b + j * sb < x + la)

def vsmaxCodes (p : Pay) : List (Nat × Bool) :=
  let af := pf p 0 27 24
  let of_ := pf p 0 23 20
  let lay := pf p 0 19 18
  let n := vN p
  let wa := pf p 3 31 17 * 64
  let ws := pf p 3 16 6 * 64
  [(0x30, decide (2 < af) || fmtBad of_ lay),
   (0x31, !pz p 0 0xF0007FFF || !pz p 1 7 || !pz p 2 63 || !pz p 3 63 || !pz p 4 3 || outFar p (pb p 0 16) true),
   (0x32, mnBad p),
   (0x33, pb p 0 17 && of_ == 0),
   (0x34, decide (vStride p < rowBytes af n) || decide (ws < 4 * n) || outShort p of_ lay),
   (0x36, (af != 0 && rowsOverlap (vM p) wa ws (4 * n) (vAddr p) (vStride p) (rowBytes af n)) ||
      (!pb p 0 16 && (rowsOverlap (vM p) wa ws (4 * n) (pf p 4 31 13 * 64) (pf p 4 12 2 * 64) (rowBytes of_ n) ||
        (blockOf lay != 0 && rowsOverlap (vM p) wa ws (4 * n) (pf p 5 31 11 * 16) (pf p 5 10 0 * 16) (scaleBytes lay n)))))]

/-- One row of the soft maximum (05 R144, R145): the work row when pass 2 ran, the output row, flags. -/
def smaxRow (m : EngCmd) (xs : List Word) : Option (List Word) × List Word × Nat :=
  let n := xs.length
  let (mx, f) := rowExt false m.strict xs
  if xs.any isNan then
    (none, List.replicate n (if m.strict then mx else qnan), f ||| flNAN)
  else if mx = infW true then (none, List.replicate n 0, 0)
  else
    let (ds, f1) := mapFl (fun x => fpSub m.strict x mx) xs
    let (ws, f2) := mapFl (sfuFn m 1 none) ds
    let (sm, f3) := rowSum m.strict ws
    let (q, f4) := sfuFn m 4 none sm
    let (ys, f5) := mapFl (fun x => fpMul m.strict x q) ws
    (some ws, ys, f ||| f1 ||| f2 ||| f3 ||| f4 ||| f5)

/-- VSMAX (05 R143-R145). -/
def vsmaxWork (p : Pay) (m : EngCmd) : Eng Word := do
  let w ← look fun s => whoVec s m.core m.ctx
  decodeE w (vsmaxCodes p)
  upd (showVx m.core m.ctx 4)
  let n := vN p
  let ob ← memBase w m.core (pb p 0 16) true
  let o := vOut p m ob (pf p 0 23 20) (pf p 0 19 18) (pb p 0 17)
  let wb ← spShare w m.core true
  vRows m p (pf p 0 27 24) (vecs n) 0 0 fun i xs => do
    let (xs, f) := preRow p m (pb p 0 15) xs
    let (ws, ys, g) := smaxRow m xs
    match ws with
    | some l => do
      upd (countVec m.core (2 * vecs n) (sfuPass n + 1) (sfuPass n - vecs n))
      writeE w (wb + pf p 3 31 17 * 64 + i * (pf p 3 16 6 * 64)) (wordBytes l)
    | none => pure ()
    let h ← outRow w o i (i * n) ys
    pure (f ||| g ||| h)

def execVsmax (core : BitVec 9) (ctx : BitVec 10) (p : Pay) (s : State) : Out :=
  .next (runCmd core.toNat ctx.toNat 0x24 p (vsmaxWork p) s)

/-! VNORM -/

def vnormCodes (p : Pay) : List (Nat × Bool) :=
  let of_ := pf p 0 25 22
  let lay := pf p 0 21 20
  [(0x30, decide (2 < pf p 0 29 26) || fmtBad of_ lay),
   (0x31, decide (1 < pf p 0 31 30) || !pz p 0 0xFFFF || !pz p 1 7 || !pz p 2 63 || !pz p 3 3 || !pz p 4 3 || outFar p (pb p 0 18) true),
   (0x32, mnBad p),
   (0x33, pb p 0 19 && of_ == 0),
   (0x34, decide (vStride p < rowBytes (pf p 0 29 26) (vN p)) || outShort p of_ lay)]

/-- One row of the normalisation (05 R148). -/
def normRow (m : EngCmd) (rms : Bool) (eps : Word) (gs bs : List Word) (xs : List Word) : List Word × Nat :=
  let st := m.strict
  let n := dyW xs.length 0
  let p := listGet 0 xs 0
  let (mu, f1) : Word × Nat := if rms then (0, 0) else
    let (dv, a) := mapFl (fun x => fpSub st x p) xs
    let (s, b) := rowSum st dv
    let (t, c) := fpDiv st s n
    let (r, d) := fpAdd st p t
    (r, a ||| b ||| c ||| d)
  let (ds, f2) := mapFl (fun x => fpSub st x mu) xs
  let (v, f3) := rowSumSq st ds
  let (var, f4) := fpDiv st v n
  let (t, f5) := fpAdd st var eps
  let (q, f6) := sfuFn m 5 none t
  let (ys, f7) := mapFl (fun d => fpMul st d q) ds
  let (ys, f8) := if gs.isEmpty then (ys, 0) else zipFl (fpMul st) ys gs
  let (ys, f9) := if bs.isEmpty then (ys, 0) else zipFl (fpAdd st) ys bs
  (ys, f1 ||| f2 ||| f3 ||| f4 ||| f5 ||| f6 ||| f7 ||| f8 ||| f9)

/-- VNORM (05 R147, R148). A root-mean-square row counts the three passes of R150's time though its pass 1 does nothing (log 104). -/
def vnormWork (p : Pay) (m : EngCmd) : Eng Word := do
  let w ← look fun s => whoVec s m.core m.ctx
  decodeE w (vnormCodes p)
  let n := vN p
  upd (showVx m.core m.ctx 5)
  let b ← spShare w m.core false
  let gs ← if pb p 0 17 then readVec w 0 (b + pf p 3 31 17 * 64) n m.strict else pure []
  let bs ← if pb p 0 16 then readVec w 0 (b + pf p 3 16 2 * 64) n m.strict else pure []
  let ob ← memBase w m.core (pb p 0 18) true
  let o := vOut p m ob (pf p 0 25 22) (pf p 0 21 20) (pb p 0 19)
  vRows m p (pf p 0 29 26) (3 * vecs n) 1 0 fun i xs => do
    let (ys, f) := normRow m (pf p 0 31 30 == 1) (scalarW m.strict p.w6) gs bs xs
    let h ← outRow w o i (i * n) ys
    pure (f ||| h)

def execVnorm (core : BitVec 9) (ctx : BitVec 10) (p : Pay) (s : State) : Out :=
  .next (runCmd core.toNat ctx.toNat 0x25 p (vnormWork p) s)

end Sys2Proof.Machine
end

