-- ==== Sys2Proof/Machine/Page.lean ====
section
/-! DEFINITION. The page engine: streams, pages, free lists, the pour path, seals, gathers and scans (chapter 06). -/

namespace Sys2Proof.Machine

/-! Registers and tables (06 R162-R165) -/

def kvLayers (s : State) (c : Nat) : Nat := getF s (kCtx c 0x60) 31 24
def kvGroups (s : State) (c : Nat) : Nat := getF s (kCtx c 0x60) 23 19
def kvHome (s : State) (c : Nat) : Nat := getF s (kCtx c 0x60) 18 14
def kvNseq (s : State) (c : Nat) : Nat := getF s (kCtx c 0x64) 15 0
/-- A base of the context's KV registers. -/
def kvBase (s : State) (c o : Nat) : Nat := getF s (kCtx c o) 31 6 * 64 + getF s (kCtx c (o + 4)) 15 0 * 2 ^ 32
def kvNfrm (s : State) (c : Nat) : Nat := (getR s (kCtx c 0x80)).toNat
def kvFlcap (s : State) (c : Nat) : Nat := (getR s (kCtx c 0x84)).toNat
def kvFlcnt (s : State) (c : Nat) : Nat := (getR s (kCtx c 0x88)).toNat
/-- Streams of a context. -/
def kvStreams (s : State) (c : Nat) : Nat := kvNseq s c * kvLayers s c * kvGroups s c
/-- Address of a stream's entry (06 R163). -/
def streamAddr (s : State) (c st : Nat) : Nat := kvBase s c 0x68 + 32 * st
/-- Address of a frame (06 R160). -/
def frameAddr (s : State) (c f : Nat) : Nat := kvBase s c 0x70 + f * 16896

/-- FRAME of a page that has none. -/
def noFrame : Nat := 0xFFFFFFFF

/-- A stream table entry (06 R163). -/
structure StreamEnt where
  plbase  : Nat
  smbase  : Nat
  klen    : Nat
  vlen    : Nat
  maxpg   : Nat
  eng     : Nat
  smstack : Nat
  deriving DecidableEq, Repr

/-- Read a table base of an entry: bits [47:6]. -/
def baseAt (b : List Byte) (o : Nat) : Nat := leAt b o 8 % 2 ^ 48 / 64 * 64

def streamOf (b : List Byte) : StreamEnt :=
  { plbase := baseAt b 0, smbase := baseAt b 8, klen := leAt b 16 4, vlen := leAt b 20 4, maxpg := leAt b 24 4
    eng := leAt b 28 1 % 32, smstack := leAt b 29 1 % 16 }

def streamBytes (e : StreamEnt) : List Byte :=
  leBytes 8 e.plbase ++ leBytes 8 e.smbase ++ leBytes 4 e.klen ++ leBytes 4 e.vlen ++ leBytes 4 e.maxpg ++ leBytes 1 e.eng ++
    leBytes 1 e.smstack ++ [0, 0]

/-- A page list entry (06 R164). -/
structure PageEnt where
  frame  : Nat
  isSealed : Bool
  vfill  : Nat
  kfill  : Nat
  kmap   : Nat
  vmap   : Nat
  deriving DecidableEq, Repr

def emptyPage : PageEnt := { frame := noFrame, isSealed := false, vfill := 0, kfill := 0, kmap := 0, vmap := 0 }

def pageOf (b : List Byte) : PageEnt :=
  let st := leAt b 4 4
  { frame := leAt b 0 4, isSealed := st.testBit 31, vfill := st / 256 % 128, kfill := st % 128, kmap := leAt b 8 8, vmap := leAt b 16 8 }

def pageBytes (e : PageEnt) : List Byte :=
  leBytes 4 e.frame ++ leBytes 4 ((if e.isSealed then 2 ^ 31 else 0) + e.vfill * 256 + e.kfill) ++ leBytes 8 e.kmap ++
    leBytes 8 e.vmap ++ leBytes 8 0

def readStream (w : Who) (st : Nat) : Eng StreamEnt := do
  let a ← look fun s => streamAddr s w.ctx st
  streamOf <$> readE w a 32

def readPage (w : Who) (e : StreamEnt) (p : Nat) : Eng PageEnt := pageOf <$> readE w (e.plbase + 32 * p) 32
def writePage (w : Who) (e : StreamEnt) (p : Nat) (x : PageEnt) : Eng Unit := writeE w (e.plbase + 32 * p) (pageBytes x)

/-- VALID of a summary entry is cleared (06 R165). -/
def clearValid (w : Who) (e : StreamEnt) (p : Nat) : Eng Unit := writeE w (e.smbase + 144 * p + 140) (leBytes 4 0)

/-! The free list (06 R168, R169, R178) -/

/-- Push a frame number, by the page engine of HOMECL. -/
def pushFrame (w : Who) (f : Nat) : Eng Unit := do
  let home ← look fun s => whoPage s (kvHome s w.ctx) w.ctx
  let n ← look fun s => kvFlcnt s w.ctx
  let cap ← look fun s => kvFlcap s w.ctx
  guardE (decide (n < cap)) (w.flt 0x4C 0)
  let b ← look fun s => kvBase s w.ctx 0x78
  writeE home (b + 4 * n) (leBytes 4 f)
  upd (setN (kCtx w.ctx 0x88) (n + 1))

/-- Take the frame most recently pushed. -/
def popFrame (w : Who) : Eng Nat := do
  let home ← look fun s => whoPage s (kvHome s w.ctx) w.ctx
  let n ← look fun s => kvFlcnt s w.ctx
  guardE (n != 0) (w.flt 0x4B 0)
  let b ← look fun s => kvBase s w.ctx 0x78
  let bs ← readE home (b + 4 * (n - 1)) 4
  upd (setN (kCtx w.ctx 0x88) (n - 1))
  pure (leNat bs)

/-! The pour path (06 R170-R173) -/

/-- The stream of a pour row (06 R162, R171). -/
def PourRow.stream (s : State) (r : PourRow) : Nat := (r.slot * kvLayers s r.ctx + r.layer) * kvGroups s r.ctx + r.group

/-- Whether a row names a stream of its context (06 R173). -/
def PourRow.inRange (s : State) (r : PourRow) : Bool := decide (r.slot < kvNseq s r.ctx) && decide (r.layer < kvLayers s r.ctx)

/-- The cluster whose page engine takes a row: the ENG of its stream; the drain's own cluster when the row names no stream, or ENG
is outside the partition. -/
def PourRow.engine (s : State) (r : PourRow) : Nat :=
  let p := ctxPid s r.ctx
  let g := leNat (rawRead s p (streamAddr s r.ctx (r.stream s) + 28) 1) % 32
  if r.inRange s && bit (clMask s p) g then g else clOf r.core

/-- Bytes at scattered addresses written as one access: refused whole, units counted once. -/
def scatterE (w : Who) (abs : List (Nat × Byte)) : Eng Unit := fun s =>
  match abs.findSome? fun (a, _) => refusal s w false true false a 1 with
  | some f => .error f s
  | none =>
    let ks := abs.flatMap fun (a, _) => keysOf s w.pid a 1
    match errAt s true ks with
    | some x => .error (w.flt x.2.1 ((abs.head?.map (·.1)).getD 0)) (errNoted w.pid x s)
    | none =>
      let s := countUnits w true ks (errClear ks (memPuts ks (abs.map (·.2)) (mend w.pid true ks s)))
      .ok () (match w.crema with
        | some m => abs.foldl (fun t (a, b) => cremaObserve m w.ctx w.lc a [b] t) s
        | none => s)

/-- Write one slot's elements and scales of a kind into a frame (06 R160, R161, R172). -/
def writeSlot (w : Who) (fr j : Nat) (r : PourRow) : Eng Unit :=
  if r.isV then do
    scatterE w (((rangeFrom 0 128).map fun d => fr + 8192 + 64 * d + j).zip r.elems)
    writeE w (fr + 16640 + 4 * j) r.scales
  else do
    writeE w (fr + 128 * j) r.elems
    writeE w (fr + 16384 + 4 * j) r.scales

/-- A page entry with slot `j` of a kind written. -/
def markSlot (x : PageEnt) (isV : Bool) (j : Nat) : PageEnt :=
  if isV then (if x.vmap.testBit j then x else { x with vmap := x.vmap ||| 2 ^ j, vfill := x.vfill + 1 })
  else (if x.kmap.testBit j then x else { x with kmap := x.kmap ||| 2 ^ j, kfill := x.kfill + 1 })

def pageFull (x : PageEnt) : Bool := x.kfill == 64 && x.vfill == 64

/-- One row lands (06 R169, R171-R173). -/
def pourOne (cl : Nat) (r : PourRow) : Eng Unit := do
  let w ← look fun s => whoPage s cl r.ctx
  let ok ← look fun s => r.inRange s
  guardE ok (w.flt 0x48 0)
  let st ← look fun s => r.stream s
  let e ← readStream w st
  let pos := r.pos.getD (if r.isV then e.vlen else e.klen)
  guardE (decide (pos < e.maxpg * 64)) (w.flt 0x49 0)
  let pg := pos / 64
  let x ← readPage w e pg
  guardE (!x.isSealed) (w.flt 0x4A 0)
  let x ← if x.frame = noFrame then do
      let f ← popFrame w
      let y := { x with frame := f }
      writePage w e pg y
      pure y
    else pure x
  let fr ← look fun s => frameAddr s r.ctx x.frame
  writeSlot w fr (pos % 64) r
  let y := markSlot x r.isV (pos % 64)
  writePage w e pg y
  let a ← look fun s => streamAddr s r.ctx st
  if r.isV then writeE w (a + 20) (leBytes 4 (max e.vlen (pos + 1))) else writeE w (a + 16) (leBytes 4 (max e.klen (pos + 1)))
  upd (inc64 (kCl cl 0x40) 1)
  if pageFull y && !pageFull x then
    upd fun s => { s with eng := { s.eng with full := s.eng.full ++ [{ cl := cl, ctx := r.ctx, stream := st, page := pg }] } }
  else pure ()

/-- The first element of a list with a property, and the list without it. -/
def takeFirst {α : Type} (f : α → Bool) : List α → Option (α × List α)
  | [] => none
  | x :: r => if f x then some (x, r) else match takeFirst f r with | some (y, t) => some (y, x :: t) | none => none

/-- POUR_ROW: the page engine of a cluster writes the next row that came to it. After a fault its DRCVT writes no more. -/
def doPour (cl : Nat) (s : State) : State :=
  match takeFirst (fun r => r.engine s == cl) s.eng.pourRows with
  | none => s
  | some (r, rest) =>
    match pourOne cl r { s with eng := { s.eng with pourRows := rest } } with
    | .ok _ t => t
    | .error f t =>
      faultCtx r.ctx 0 f 0x18 r.cseq { t with eng := { t.eng with
        pourRows := t.eng.pourRows.filter fun q => !(q.core == r.core && q.ctx == r.ctx && q.cseq == r.cseq) } }

def execPourRow (cl : BitVec 5) (s : State) : Out := .next (doPour cl.toNat s)

/-! Seals (06 R174, R175) -/

/-- Square root of an FP32 value that is not negative, correctly rounded, fast rules. -/
def sqrtW (w : Word) : Word :=
  match inFp32 false w with
  | .fin _ m e => if m = 0 then 0 else let (r, q) := sqrtMag m e; (fp32Round false false r q).1
  | .inf _ => infW false
  | .nan _ => qnan

/-- DF8a elements under their DS8 scales, as FP32. -/
def df8Words (es : List Byte) (scales : List (Option Int)) : List Word :=
  ((rangeFrom 0 es.length).zip es).map fun (d, b) => fp32Of (scaledElem 3 (listGet none scales (d / 32)) b.toNat)

/-- The 64 keys of a frame's key plane and key scales. -/
def frameKeys (keys scales : List Byte) : List (List Word) :=
  (rangeFrom 0 64).map fun j =>
    df8Words ((keys.drop (128 * j)).take 128) (((scales.drop (4 * j)).take 4).map fun b => ds8 b.toNat)

/-- Sum of columns, row after row. -/
def colSums : List (List Word) → List Word → List Word
  | [], s => s
  | k :: r, s => colSums r ((zipFl (fpAdd false) s k).1)

/-- The summary of a page's keys: MEANK, MEANKS, NMAX (06 R174). -/
def summaryOf (keys : List (List Word)) : List Byte :=
  let mu := (colSums keys (List.replicate 128 0)).map fun x => (fpMul false x 0x3C800000).1
  let nmax := keys.foldl (fun n k => (extW false false n (rowSumSq false k).1).1) 0
  let (es, ss, _) := convRow 3 1 false false .near none 0 mu
  packElems 3 es ++ ss.map (fun b => BitVec.ofNat 8 b) ++ leBytes 4 (sqrtW nmax).toNat

/-- Seal a page: the summary entry with VALID last, then SEALED. A page that is no longer full, or sealed already, is left. -/
def sealOne (q : FullPage) : Eng Unit := do
  let w ← look fun s => whoPage s q.cl q.ctx
  let e ← readStream w q.stream
  if e.maxpg ≤ q.page then pure ()
  else do
    let x ← readPage w e q.page
    if x.isSealed || !pageFull x || x.frame == noFrame then pure ()
    else do
      let fr ← look fun s => frameAddr s q.ctx x.frame
      let keys ← readE w fr 8192
      let scales ← readE w (fr + 16384) 256
      writeE w (e.smbase + 144 * q.page) (summaryOf (frameKeys keys scales) ++ leBytes 4 q.page)
      writeE w (e.smbase + 144 * q.page + 140) (leBytes 4 0x80000000)
      writePage w e q.page { x with isSealed := true }
      upd (inc64 (kCl q.cl 0x48) 1)

/-- How a seal ends: done, or with the context's fault. -/
def sealEnd (ctx : Nat) (r : EStateM.Result Flt State Unit) : State :=
  match r with
  | .ok _ t => t
  | .error f t => faultCtx ctx 0 f 0 0 t

/-- PAGE_SEAL: the page engine of a cluster seals the first page that is full. -/
def doSeal (cl : Nat) (s : State) : State :=
  match takeFirst (fun q => q.cl == cl) s.eng.full with
  | none => s
  | some (q, rest) => sealEnd q.ctx (sealOne q { s with eng := { s.eng with full := rest } })

def execPageSeal (cl : BitVec 5) (s : State) : Out := .next (doSeal cl.toNat s)

/-! Commands (06 R176-R187) -/

/-- PG_STATUS shows the command. -/
def showPg (cl ctx cmd : Nat) : State → State := setN (kCl cl 0x60) (cmd * 2 ^ 11 + 2 ^ 10 + ctx)

/-- Whether words of a payload from `i` to 7 are 0. -/
def wordsZero (p : Pay) (i : Nat) : Bool := (rangeFrom i (8 - i)).all fun k => pz p k 0xFFFFFFFF

/-- Decode checks that need no table: 0x40, 0x41, then the stream's ENG (0x42), then the others in order. -/
def pgDecode (w : Who) (cl : Nat) (res : Bool) (st : Nat) (late : StreamEnt → List (Nat × Bool)) : Eng StreamEnt := do
  let n ← look fun s => kvStreams s w.ctx
  decodeE w [(0x40, res), (0x41, decide (n ≤ st))]
  let e ← readStream w st
  decodeE w ((0x42, e.eng != cl) :: late e)
  pure e

/-- Whether a command of one of the opcodes that the context issued earlier in this cluster has not done its work. -/
def earlierOpen (opcs : List Nat) (m : EngCmd) (s : State) : Bool :=
  (s.eng.cmds.takeWhile fun x => !(x.core == m.core && x.ctx == m.ctx && x.cseq == m.cseq)).any fun x =>
    x.ctx == m.ctx && clOf x.core == clOf m.core && opcs.contains (envOpc x.env) && x.pay.isNone

/-- A command on a stream waits for the pour rows of the stream that came before it, and for the context's earlier commands of `opcs` at this
engine (06 R176; log 49). -/
def streamHold (opcs : List Nat) (p : Pay) (m : EngCmd) (s : State) : Option State :=
  if earlierOpen opcs m s || s.eng.pourRows.any (fun r => r.ctx == m.ctx && r.stream s == p.w0.toNat) then some s else none

/-- Return a page's frame and clear its entry and summary (06 R177, R181). Answers the frames returned. -/
def releasePage (w : Who) (e : StreamEnt) (p : Nat) : Eng Unit := do
  let x ← readPage w e p
  if x.frame = noFrame then pure () else pushFrame w x.frame
  writePage w e p emptyPage
  clearValid w e p

/-- PGINIT (06 R177): returns frames, then sets the stream up from its image. -/
def pginitWork (p : Pay) (m : EngCmd) : Eng Word := do
  let cl := clOf m.core
  let w ← look fun s => whoPage s cl m.ctx
  let st := p.w0.toNat
  let n ← look fun s => kvStreams s m.ctx
  decodeE w [(0x40, !pz p 1 0x1FFFF || !wordsZero p 2), (0x41, decide (n ≤ st))]
  let old ← readStream w st
  let b ← spShare w m.core false
  let im ← readE w (b + pf p 1 31 17 * 64) 32
  let e := streamOf im
  let cm ← look fun s => clMask s w.pid
  let ns ← look stackCount
  decodeE w [(0x42, if old.maxpg = 0 then bit cm e.eng && e.eng != cl else old.eng != cl),
    (0x45, decide (32768 < e.maxpg) || !bit cm e.eng || decide (ns ≤ e.smstack))]
  upd (showPg cl m.ctx 0)
  let ret ← foldE (rangeFrom 0 old.maxpg) 0 fun k i => do
    let x ← readPage w old i
    if x.frame = noFrame then pure k
    else do
      pushFrame w x.frame
      writePage w old i emptyPage
      pure (k + 1)
  let a ← look fun s => streamAddr s m.ctx st
  writeE w a (streamBytes { e with klen := 0, vlen := 0 })
  eachM (rangeFrom 0 e.maxpg) fun i => do
    writePage w e i emptyPage
    clearValid w e i
  pure (statusWord (e.maxpg + ret) 0)

def execPginit (core : BitVec 9) (ctx : BitVec 10) (p : Pay) (s : State) : Out :=
  .next (runHeld core.toNat ctx.toNat 0x38 p (streamHold [0x3A, 0x3C] p) (pginitWork p) s)

/-- PGPUSH (06 R178). -/
def pgpushWork (p : Pay) (m : EngCmd) : Eng Word := do
  let cl := clOf m.core
  let w ← look fun s => whoPage s cl m.ctx
  let home ← look fun s => kvHome s m.ctx
  let ns ← look fun s => kvNseq s m.ctx
  let n := pf p 0 31 20
  decodeE w [(0x40, !pz p 0 0xFFFFF || !pz p 1 0x1FFFF || !wordsZero p 2), (0x41, ns == 0), (0x42, home != cl), (0x43, n == 0)]
  upd (showPg cl m.ctx 1)
  let b ← spShare w m.core false
  let bs ← readE w (b + pf p 1 31 17 * 64) (4 * n)
  eachM (rangeFrom 0 n) fun i => do
    let f := leAt bs (4 * i) 4
    let nf ← look fun s => kvNfrm s m.ctx
    guardE (decide (f < nf)) (w.flt 0x4C 0)
    pushFrame w f
  pure (statusWord n 0)

def execPgpush (core : BitVec 9) (ctx : BitVec 10) (p : Pay) (s : State) : Out :=
  .next (runCmd core.toNat ctx.toNat 0x39 p (pgpushWork p) s)

/-- One page as a gather reads it: for each slot, whether it is present; and the frame's bytes, none for a page with no frame. -/
def readGathered (w : Who) (e : StreamEnt) (pg : Nat) : Eng (Nat × List Byte) := do
  let x ← readPage w e pg
  if x.frame = noFrame then pure (0, [])
  else do
    let fr ← look fun s => frameAddr s w.ctx x.frame
    let bs ← readE w fr 16896
    pure (x.kmap &&& x.vmap, bs)

/-- FP32 2^(b - 127) of a value scale byte (06 R180). -/
def vscaleWord (b : Nat) : Word := if b = 255 then qnan else if b = 0 then 0x00400000 else BitVec.ofNat 32 (b * 2 ^ 23)

/-- Where a gather puts its planes (06 R179, R180). -/
structure Gather where
  parts : Nat
  count : Nat
  k  : Nat
  ks : Nat
  v  : Nat
  r  : Nat
  deriving DecidableEq, Repr

/-- Write the `i`-th page of a gather. -/
def gatherPage (w : Who) (g : Gather) (i present : Nat) (fr : List Byte) : Eng Unit := do
  let js := rangeFrom 0 64
  let slot (j o n : Nat) (absent : List Byte) : List Byte := if present.testBit j then (fr.drop o).take n else absent
  if g.parts.testBit 0 then writeE w (g.k + 8192 * i) (js.flatMap fun j => slot j (128 * j) 128 (List.replicate 128 0)) else pure ()
  if g.parts.testBit 1 then
    writeE w (g.ks + 1024 * i) (js.flatMap fun j => slot j (16384 + 4 * j) 4 [0x7F, 0x7F, 0x7F, 0x7F] ++ List.replicate 12 0)
  else pure ()
  if g.parts.testBit 2 then
    eachM (rangeFrom 0 128) (fun d => writeE w (g.v + d * g.count * 64 + 64 * i) (js.flatMap fun j => slot j (8192 + 64 * d + j) 1 [0]))
  else pure ()
  if g.parts.testBit 3 then
    writeE w (g.r + 256 * i) (wordBytes (js.map fun j => vscaleWord (leNat (slot j (16640 + 4 * j) 1 [0x7F]))))
  else pure ()
  if g.parts.testBit 4 then
    writeE w (g.r + 256 * g.count + 256 * i) (wordBytes (js.map fun j => if present.testBit j then 0x3F800000 else 0))
  else pure ()

/-- PGGATH (06 R179, R180). -/
def pggathWork (p : Pay) (m : EngCmd) : Eng Word := do
  let cl := clOf m.core
  let w ← look fun s => whoPage s cl m.ctx
  let count := pf p 1 31 22
  let first := p.w2.toNat
  let lsrc := pb p 1 21
  let mem := pb p 1 16
  let bad := !pz p 1 0x7FF || !pz p 3 0x1FFF || !pz p 4 0x1FFF || !pz p 5 0x7FF || !pz p 6 0x1FFF || !pz p 7 0x1FFF ||
    pf p 1 15 11 == 0 || addrBad true 64 (pf p 3 31 13) || addrBad mem 64 (pf p 4 31 13) ||
    addrBad mem 16 (pf p 5 31 11) || addrBad mem 64 (pf p 6 31 13) || addrBad mem 64 (pf p 7 31 13)
  let e ← pgDecode w cl bad p.w0.toNat fun e => [(0x43, count == 0), (0x44, !lsrc && decide (e.maxpg < first + count))]
  upd (showPg cl m.ctx 2)
  let pages ← if lsrc then do
      let lb ← cmShare w cl false
      let bs ← readE w (lb + pf p 3 31 13 * 64 + 4 * first) (4 * count)
      pure ((rangeFrom 0 count).map fun i => leAt bs (4 * i) 4)
    else pure (rangeFrom first count)
  let b ← if mem then cmShare w cl true else spShare w (16 * cl + pf p 1 20 17) true
  let g : Gather := { parts := pf p 1 15 11, count, k := b + pf p 4 31 13 * 64, ks := b + pf p 5 31 11 * 16
                      v := b + pf p 6 31 13 * 64, r := b + pf p 7 31 13 * 64 }
  eachM ((rangeFrom 0 count).zip pages) fun (i, pg) => do
    guardE (decide (pg < e.maxpg)) (w.flt 0x4D 0)
    let (present, fr) ← readGathered w e pg
    upd (inc64 (kCl cl 0x50) fr.length)
    gatherPage w g i present fr
  pure (statusWord count 0)

def execPggath (core : BitVec 9) (ctx : BitVec 10) (p : Pay) (s : State) : Out :=
  .next (runHeld core.toNat ctx.toNat 0x3A p (streamHold [] p) (pggathWork p) s)

/-- PGRELS (06 R181). -/
def pgrelsWork (p : Pay) (m : EngCmd) : Eng Word := do
  let cl := clOf m.core
  let w ← look fun s => whoPage s cl m.ctx
  let first := p.w1.toNat
  let e ← pgDecode w cl (!pz p 3 0x7FFFFFFF || !wordsZero p 4) p.w0.toNat fun e => [(0x44, decide (e.maxpg < first + p.w2.toNat))]
  upd (showPg cl m.ctx 3)
  let n := if p.w2 = 0 then e.maxpg - first else p.w2.toNat
  eachM (rangeFrom first n) (releasePage w e)
  if pb p 3 31 then do
    let a ← look fun s => streamAddr s m.ctx p.w0.toNat
    writeE w (a + 16) (leBytes 8 0)
  else pure ()
  pure (statusWord n 0)

def execPgrels (core : BitVec 9) (ctx : BitVec 10) (p : Pay) (s : State) : Out :=
  .next (runHeld core.toNat ctx.toNat 0x3B p (streamHold [0x3A, 0x3C] p) (pgrelsWork p) s)

/-! KVSCAN (06 R182-R186) -/

/-- The score of a candidate (06 R183): queries with their norms, BETA, its mean key and NMAX. -/
def scanScore (qs : List (List Word × Word)) (beta : Word) (meank : List Word) (nmax : Word) : Word :=
  let c := qs.map fun (q, nq) =>
    (fpAdd false (rowSum false (zipFl (fpMul false) q meank).1).1 (fpMul false (fpMul false beta nq).1 nmax).1).1
  match c with
  | [] => 0
  | x :: r => r.foldl (fun a y => (extW false false a y).1) x

/-- Whether score `a` of page `i` ranks above score `b` of page `j` (06 R184). -/
def scanAbove (a : Word) (i : Nat) (b : Word) (j : Nat) : Bool :=
  if isNan a then isNan b && decide (i < j)
  else if isNan b then true
  else decide (ordKey b < ordKey a) || (ordKey a == ordKey b && decide (i < j))

/-- Insert a candidate by rank. -/
def scanIns (x : Word × Nat) : List (Word × Nat) → List (Word × Nat)
  | [] => [x]
  | y :: r => if scanAbove x.1 x.2 y.1 y.2 then x :: y :: r else y :: scanIns x r

/-- The candidates in rank order. -/
def scanRank (l : List (Word × Nat)) : List (Word × Nat) := l.foldl (fun a x => scanIns x a) []

/-- KVSCAN (06 R182-R186): the scan engine works at the B-die of the summary stack, beside the stack's C-die (01 R22). -/
def kvscanWork (p : Pay) (m : EngCmd) : Eng Word := do
  let cl := clOf m.core
  let w0 ← look fun s => whoPage s cl m.ctx
  let sN := pf p 1 31 22
  let wN := pf p 1 21 15
  let qc := pf p 1 14 10
  let bad := !pz p 1 0x3FF || !pz p 2 0x1FFF || !pz p 3 0x1FFF || !wordsZero p 5 || addrBad true 64 (pf p 2 31 13) ||
    addrBad true 64 (pf p 3 31 13)
  let e ← pgDecode w0 cl bad p.w0.toNat fun _ =>
    [(0x43, decide (512 < sN) || decide (64 < wN) || qc == 0 || decide (16 < qc) || sN + wN == 0)]
  upd (showPg cl m.ctx 4)
  let home ← look fun s => stackDie s e.smstack
  let w := { w0 with cls := 9, unit := e.smstack, die := some home }
  let qb ← cmShare w cl false
  let qs ← gatherM (rangeFrom 0 qc) fun i => do
    let q ← readWords w (qb + pf p 2 31 13 * 64 + 512 * i) 128
    pure (q, sqrtW (rowSumSq false q).1)
  let l := ceilDiv e.klen 64
  let win := l - wN
  let cands ← gatherM (rangeFrom 0 win) fun i => do
    let b ← readE w (e.smbase + 144 * i) 144
    upd (inc64 (kCl cl 0x58) 1)
    pure (if leAt b 140 4 / 2 ^ 31 = 1 then
        [(scanScore qs p.w4 (df8Words (b.take 128) (((b.drop 128).take 4).map fun x => ds8 x.toNat)) (BitVec.ofNat 32 (leAt b 132 4)), i)]
      else ([] : List (Word × Nat)))
  let chosen := (scanRank cands.flatten).take sN
  let pages := chosen.foldl (fun a (_, i) => setIns i a) (rangeFrom win (l - win))
  let ob ← cmShare w cl true
  writeE w (ob + pf p 3 31 13 * 64) (pages.flatMap (leBytes 4))
  pure (statusWord pages.length (if chosen.any fun (x, _) => isNan x then flNAN else 0))

def execKvscan (core : BitVec 9) (ctx : BitVec 10) (p : Pay) (s : State) : Out :=
  .next (runHeld core.toNat ctx.toNat 0x3C p (streamHold [0x38, 0x3B] p) (kvscanWork p) s)

end Sys2Proof.Machine
end

