-- ==== Sys2Proof/Machine/Gate.lean ====
section
/-! DEFINITION. The gate and combine engines: routing, dispatch, weighted combine (chapter 07). -/

namespace Sys2Proof.Machine

/-! The layer table (07 R190, R192) -/

/-- Address of a context's layer table entry. -/
def layerAddr (s : State) (c l : Nat) : Nat := getF s (kCtx c 0x90) 31 4 * 16 + getF s (kCtx c 0x94) 15 0 * 2 ^ 32 + 16 * l

/-- A layer table entry of legal values. -/
structure LayerEnt where
  tau    : Word
  cap    : Nat
  maxk   : Nat
  wmode  : Bool
  renorm : Bool
  nexp   : Nat
  deriving DecidableEq, Repr

def layerOf (b : List Byte) : LayerEnt :=
  { tau := BitVec.ofNat 32 (leAt b 0 4), cap := leAt b 4 2 % 512, maxk := leAt b 6 1 % 32, wmode := (leAt b 7 1).testBit 0
    renorm := (leAt b 7 1).testBit 1, nexp := leAt b 8 2 % 512 }

/-- Whether an entry is illegal (07 R190, R195, R210). -/
def layerBad (b : List Byte) : Bool :=
  let e := layerOf b
  decide (512 ≤ leAt b 4 2) || e.cap == 0 || decide (256 < e.cap) || decide (32 ≤ leAt b 6 1) || e.maxk == 0 || decide (16 < e.maxk) ||
    decide (4 ≤ leAt b 7 1) || (e.renorm && !e.wmode) || decide (512 ≤ leAt b 8 2) || e.nexp == 0 || decide (256 < e.nexp) ||
    leAt b 10 6 != 0

/-! Routing (07 R193-R195) -/

/-- A choice of a token: expert, score, its row in the expert's group, none for a dropped choice. -/
structure Choice where
  expert : Nat
  score  : Word
  row    : Option Nat
  deriving DecidableEq, Repr

/-- A routed token: its choices and the flags FORCED, TRUNC, NANSC. -/
structure Routed where
  choices : List Choice
  forced  : Bool
  trunc   : Bool
  nansc   : Bool
  deriving DecidableEq, Repr

/-- The selection of R193 from one score row: (score, expert) in ranked order. -/
def selectRow (e : LayerEnt) (scores : List Word) : List (Word × Nat) × Bool × Bool :=
  let ranked := scanRank (scores.zip (rangeFrom 0 scores.length))
  let pass := ranked.filter fun (w, _) => !isNan w && !isNan e.tau && decide (ordKey e.tau ≤ ordKey w)
  if pass.isEmpty then (ranked.take 1, true, false) else (pass.take e.maxk, false, decide (e.maxk < pass.length))

/-- The choices of a token against the counts, in ranked order (07 R194). -/
def placeChoices (cap : Nat) : List (Word × Nat) → List Nat → List Choice × List Nat
  | [], cs => ([], cs)
  | (w, x) :: r, cs =>
    let n := listGet 0 cs x
    if n = cap then
      let (t, cs) := placeChoices cap r cs
      ({ expert := x, score := w, row := none } :: t, cs)
    else
      let (t, cs) := placeChoices cap r (listSet x (n + 1) cs)
      ({ expert := x, score := w, row := some n } :: t, cs)

def routeRow (e : LayerEnt) (scores : List Word) (cs : List Nat) : Routed × List Nat :=
  let (sel, forced, trunc) := selectRow e scores
  let (ch, cs) := placeChoices e.cap sel cs
  ({ choices := ch, forced, trunc, nansc := scores.any isNan }, cs)

/-- The weights of a token's choices (07 R195) and what the arithmetic raises. -/
def weights (e : LayerEnt) (strict : Bool) (ch : List Choice) : List Word × Nat :=
  if !e.wmode then mapFl (passW strict) (ch.map (·.score))
  else
    let sumOf : List Choice → Word × Nat := fun l => l.foldl (fun (a : Word × Nat) c =>
      let (x, f) := fpAdd strict a.1 c.score
      (x, a.2 ||| f)) (0, 0)
    let (all, f) := sumOf ch
    let (kept, g) := if e.renorm then sumOf (ch.filter fun c => c.row.isSome) else (all, 0)
    let one : Choice → Word × Nat := fun c =>
      let s := if c.row.isSome then kept else all
      if magBits s = 0 then (0, 0) else fpDiv strict c.score s
    let r := ch.map one
    (r.map (·.1), f ||| g ||| orFlags (r.map (·.2)))

/-- Bits of a list of flags, the first at bit 0. -/
def bitsOf (l : List Bool) : Nat := l.foldr (fun b a => 2 * a + (if b then 1 else 0)) 0

/-- The token record (07 R196). -/
def tokenRecord (r : Routed) (ws : List Word) : List Byte :=
  let n := r.choices.length
  let drops := r.choices.map fun c => c.row.isNone
  let nd := (drops.filter fun d => !d).length
  let ent : Choice × Word → List Byte := fun (c, w) =>
    leBytes 4 w.toNat ++ leBytes 2 (match c.row with | some g => g | none => 2 ^ 15) ++ leBytes 1 c.expert ++ [0]
  leBytes 1 n ++ leBytes 1 nd ++ leBytes 2 (bitsOf drops) ++ leBytes 1 (bitsOf [nd == 0, r.forced, r.trunc, r.nansc]) ++
    List.replicate 11 0 ++ padTo 128 ((r.choices.zip ws).flatMap ent)

/-! GTROUTE (07 R199-R203) -/

def gtCodes (s : State) (c : Nat) (p : Pay) : List (Nat × Bool) :=
  let disp := pb p 0 10
  let m := pf p 0 31 19
  let nlt := getF s (kCtx c 0x98) 8 0
  let far : Nat → Bool := fun i => addrBad true 64 (pf p i 31 13)
  [(0x50, !pz p 0 0x3FF || !pz p 1 3 || !pz p 2 0x1FFF || pf p 1 12 2 == 0 || far 1 || far 2 || far 3 || far 4 ||
      (disp && (pf p 4 12 0 == 0 || decide (8191 < pf p 3 12 0) || !pz p 5 0x1FFF || !pz p 6 3 || pf p 6 12 2 == 0 || far 5 || far 6 ||
        addrBad true 16 (pf p 7 31 11)))),
   (0x51, m == 0 || decide (4096 < m) || decide (nlt ≤ pf p 0 18 11))]

/-- What the routing phase carries: counts per expert, the groups as (expert, token) in order, dispatched and dropped choices, flags. -/
structure RoutePh where
  counts : List Nat
  groups : List (Nat × Nat)
  disp   : Nat
  drops  : Nat
  flags  : Nat
  deriving DecidableEq, Repr

/-- One token row: its record, its list entries, its counts (07 R193-R197). -/
def routeToken (p : Pay) (m : EngCmd) (w : Who) (b : Nat) (e : LayerEnt) (q : RoutePh) (t : Nat) : Eng RoutePh := do
  let cl := clOf m.core
  let scores ← readWords w (b + pf p 1 31 13 * 64 + t * pf p 1 12 2 * 64) e.nexp
  let (r, cs) := routeRow e scores q.counts
  let (ws, f) := weights e m.strict r.choices
  writeE w (b + pf p 2 31 13 * 64 + 144 * t) (tokenRecord r ws)
  eachM ((rangeFrom 0 r.choices.length).zip r.choices) (fun (j, c) => match c.row with
    | some g => writeE w (b + pf p 3 31 13 * 64 + 512 * c.expert + 2 * g) (leBytes 2 (j * 4096 + t))
    | none => pure ())
  let nd := (r.choices.filter fun c => c.row.isSome).length
  let drops := r.choices.length - nd
  upd fun s => inc32 (kCtx m.ctx 0x9C) drops
    (inc64 (kCl cl 0x90) drops (inc64 (kCl cl 0x88) r.choices.length (inc64 (kCl cl 0x80) 1 s)))
  pure { counts := cs, groups := q.groups ++ (r.choices.filter fun c => c.row.isSome).map (fun c => (c.expert, t))
         disp := q.disp + nd, drops := q.drops + drops, flags := q.flags ||| f ||| (if r.nansc then flNAN else 0) }

/-- One target of an expert: rows copied, then its count (07 R198, R199). -/
def fillTarget (p : Pay) (m : EngCmd) (w : Who) (b : Nat) (toks : List Nat) (d : List Byte) : Eng Unit := do
  let t0 : Word := BitVec.ofNat 32 (leAt d 0 4)
  let t1 : Word := BitVec.ofNat 32 (leAt d 4 4)
  if !bit t1 22 then pure ()
  else do
    let core := fld t1 31 23
    let cm ← look fun s => clMask s (ctxPid s m.ctx)
    guardE (bit cm (clOf core) && decide (fld t0 16 6 ≤ 2046)) (w.flt 0x53 0)
    let tb ← spShare w core true
    let ea := tb + fld t0 31 17 * 64 + 16 * fld t0 16 6
    let ent ← readE w ea 16
    let q := entryProb ent
    eachM ((rangeFrom 0 toks.length).zip toks) (fun (r, t) => do
      let row ← readE w (b + pf p 6 31 13 * 64 + t * pf p 6 12 2 * 64) (pf p 4 12 0 * 64)
      writeE w (tb + q.a + r * fld t1 21 11 * 64) row
      if pf p 3 12 0 = 0 then pure ()
      else do
        let sc ← readE w (b + pf p 7 31 11 * 16 + t * pf p 7 10 0 * 16) (pf p 3 12 0 * 16)
        writeE w (tb + q.sa + r * fld t1 10 0 * 16) sc)
    writeE w ea (leBytes 4 (putFld (BitVec.ofNat 32 (leAt ent 0 4)) 16 8 toks.length).toNat)

/-- The status word of a GTROUTE (07 R194, R203): dispatched choices in ROWS, and each drop adds 1 in [15:8], saturating (log 53). -/
def routeStatus (q : RoutePh) : Word := statusWord q.disp q.flags ||| BitVec.ofNat 32 (min q.drops 255 * 256)

/-- GTROUTE. -/
def gtWork (p : Pay) (m : EngCmd) : Eng Word := do
  let cl := clOf m.core
  let w ← look fun s => whoGate s cl m.ctx
  let codes ← look fun s => gtCodes s m.ctx p
  decodeE w codes
  let la ← look fun s => layerAddr s m.ctx (pf p 0 18 11)
  let lb ← readE w la 16
  decodeE w [(0x52, layerBad lb)]
  let e := layerOf lb
  upd (setF (kCl cl 0xA0) 10 0 (1024 + m.ctx))
  let b ← cmShare w cl true
  let q ← foldE (rangeFrom 0 (pf p 0 31 19)) ({ counts := List.replicate e.nexp 0, groups := [], disp := 0, drops := 0, flags := 0 } : RoutePh)
    (routeToken p m w b e)
  writeE w (b + pf p 4 31 13 * 64) (q.counts.flatMap (leBytes 2))
  if pb p 0 10 then
    eachM (rangeFrom 0 e.nexp) (fun x => do
      let d ← readE w (b + pf p 5 31 13 * 64 + 32 * x) 32
      let toks := (q.groups.filter fun (y, _) => y == x).map (·.2)
      eachM (chunks 8 32 d) (fillTarget p m w b toks))
  else pure ()
  pure (routeStatus q)

def execGtroute (core : BitVec 9) (ctx : BitVec 10) (p : Pay) (s : State) : Out :=
  .next (runCmd core.toNat ctx.toNat 0x30 p (gtWork p) s)

/-! The combine engine (07 R204-R209) -/

/-- A route descriptor (07 R204). -/
structure RouteDesc where
  m     : Nat
  reccl : Nat
  exact : Bool
  nexp  : Nat
  rec_  : Nat
  lst   : Nat
  cnt   : Nat
  taddr : Nat
  tstr  : Nat
  waddr : Nat
  wstr  : Nat
  xsh   : Int
  deriving DecidableEq, Repr

def descOf (b : List Byte) : RouteDesc :=
  let w : Nat → Word := fun i => BitVec.ofNat 32 (leAt b (4 * i) 4)
  { m := fld (w 0) 31 19, reccl := fld (w 0) 18 14, exact := bit (w 0) 13, nexp := fld (w 0) 12 4, rec_ := fld (w 1) 31 13 * 64
    lst := fld (w 2) 31 13 * 64, cnt := fld (w 3) 31 13 * 64, taddr := fld (w 4) 31 13 * 64, tstr := fld (w 4) 12 2 * 64
    waddr := fld (w 5) 31 13 * 64, wstr := fld (w 5) 12 2 * 64, xsh := signed 8 (fld (w 6) 31 24) }

/-- The NaN marker of an exact working element. -/
def nanMark : Nat := 2 ^ 63

/-- One contribution into a working element (07 R207): the element after, and flags. -/
def exactAdd (xsh : Int) (v : Word) (old : Nat) : Nat × Nat :=
  let lim : Int := 2 ^ 31 - 1
  let add : Int → Nat := fun q => if old = nanMark then old else ((old : Int) + q).toNat % 2 ^ 64 + (if (old : Int) + q < 0 then
    (2 ^ 64 - ((-((old : Int) + q)).toNat % 2 ^ 64)) % 2 ^ 64 else 0)
  match ofFp32 v with
  | .nan _ => (nanMark, 0)
  | .inf n => (add (if n then -lim else lim), flCSAT)
  | .fin n m e =>
    let q := rneInt n m (e - xsh)
    if q.natAbs > 2 ^ 31 - 1 then (add (if n then -lim else lim), flCSAT)
    else (add q, if q = 0 ∧ m ≠ 0 then flUF else 0)

/-- Elements of `n` bytes of a byte list. -/
def elemsOf (n : Nat) (bs : List Byte) : List Nat := (rangeFrom 0 (bs.length / n)).map fun i => leAt bs (n * i) n

/-- One arriving row is looked up, weighted and added (07 R205). Answers its flags. -/
def combineOne (cl : Nat) (r : CombineRow) (d : RouteDesc) : Eng Nat := do
  let w ← look fun s => whoComb s cl r.ctx
  guardE (decide (r.grp < d.nexp)) (w.flt 0x54 0)
  let rb ← cmShare w d.reccl false
  let cb ← readE w (rb + d.cnt + 2 * r.grp) 2
  guardE (decide (r.row < leNat cb)) (w.flt 0x54 0)
  let lb ← readE w (rb + d.lst + 512 * r.grp + 2 * r.row) 2
  let t := leNat lb % 4096
  let wb ← readE w (rb + d.rec_ + 144 * t + 16 + 8 * (leNat lb / 4096)) 4
  let (vs, f) := mapFl (fpMul r.strict (BitVec.ofNat 32 (leNat wb))) r.data
  let b ← cmShare w cl true
  let size := if d.exact then 8 else 4
  let a := if d.exact then b + d.waddr + t * d.wstr + 8 * r.col else b + d.taddr + t * d.tstr + 4 * r.col
  checkE w true true a (size * vs.length)
  let old ← readE w a (size * vs.length)
  upd (inc64 (kCl cl 0x98) vs.length)
  if d.exact then do
    let z := List.zipWith (exactAdd d.xsh) vs (elemsOf 8 old)
    writeE w a (z.flatMap fun (x, _) => leBytes 8 x)
    pure (f ||| orFlags (z.map (·.2)))
  else do
    let (z, g) := zipFl (fpAdd r.strict) ((elemsOf 4 old).map (BitVec.ofNat 32)) vs
    writeE w a (wordBytes z)
    pure (f ||| g)

/-- Two rows of one DRCVT. -/
def CombineRow.same (r q : CombineRow) : Bool := r.core == q.core && r.ctx == q.ctx && r.cseq == q.cseq

/-- The route descriptor of a row: as read with the first row of its DRCVT, else read now. -/
def rowDesc (cl : Nat) (r : CombineRow) : Eng (List Byte) :=
  if r.desc.isEmpty then do
    let w ← look fun s => whoComb s cl r.ctx
    let b ← cmShare w cl false
    readE w (b + r.rd) 32
  else pure r.desc

/-- Take a row, keep its descriptor for the others of its DRCVT, add it. -/
def combineWork (cl : Nat) (r : CombineRow) : Eng Nat := do
  let b ← rowDesc cl r
  upd fun s => { s with eng := { s.eng with cmbRows := s.eng.cmbRows.map fun q => if r.same q then { q with desc := b } else q } }
  combineOne cl r (descOf b)

/-- COMBINE_ROW: the combine engine of a cluster takes the next row that came to it. Flags enter the DRCVT's status. -/
def doCombine (cl : Nat) (s : State) : State :=
  match takeFirst (fun r => r.dst == cl) s.eng.cmbRows with
  | none => s
  | some (r, rest) =>
    match combineWork cl r { s with eng := { s.eng with cmbRows := rest } } with
    | .ok f t =>
      showCmb { t with eng := { t.eng with cmds := t.eng.cmds.map fun x =>
        if x.core == r.core && x.ctx == r.ctx && x.cseq == r.cseq then { x with status := x.status ||| BitVec.ofNat 32 (f % 256) } else x } }
    | .error f t =>
      showCmb (faultCtx r.ctx 0 f 0x18 r.cseq { t with eng := { t.eng with cmbRows := t.eng.cmbRows.filter fun q => !r.same q } })

def execCombineRow (cl : BitVec 5) (s : State) : Out := .next (doCombine cl.toNat s)

/-! CMBFIN (07 R208) -/

/-- A result that overflows under a context's SATM (05 R129). -/
def satmOvf (satm : Bool) (r : Word × Nat) : Word × Nat :=
  if !satm && decide (r.2 &&& flOF ≠ 0) then ((sfuOvf (bit r.1 31) false).1, (r.2 &&& 0xFD) ||| flCSAT) else r

/-- The token element after a finish. -/
def finishElem (strict satm : Bool) (xsh : Int) (t : Word) (k : Nat) : Word × Nat :=
  if k = nanMark then (qnan, flNAN)
  else
    let (v, f) := satmOvf satm (fpOfDy strict (signed 64 k) xsh)
    let (x, g) := satmOvf satm (fpAdd strict t v)
    (x, f ||| g)

/-- The columns of one token: working elements read and zeroed, then the token row. -/
def finishRow (m : EngCmd) (w : Who) (b : Nat) (d : RouteDesc) (clearOnly : Bool) (c0 n t : Nat) : Eng Nat := do
  let wa := b + d.waddr + t * d.wstr + 8 * c0
  checkE w true true wa (8 * n)
  let work ← readE w wa (8 * n)
  writeE w wa (List.replicate (8 * n) 0)
  if clearOnly then pure 0
  else do
    let ta := b + d.taddr + t * d.tstr + 4 * c0
    let old ← readWords w ta n
    let z := List.zipWith (finishElem m.strict m.satm d.xsh) old (elemsOf 8 work)
    writeE w ta (wordBytes (z.map (·.1)))
    pure (orFlags (z.map (·.2)))

/-- CMBFIN. What its status word counts in ROWS the spec does not say: a free value (log 8). -/
def cmbfinWork (p : Pay) (m : EngCmd) : Eng Word := do
  let cl := clOf m.core
  let w ← look fun s => whoComb s cl m.ctx
  decodeE w [(0x50, decide (1 < pf p 0 12 11) || !pz p 0 0x7FF || !pz p 1 0xFFFF || pf p 1 23 16 == 0 || !wordsZero p 2 ||
    addrBad true 64 (pf p 0 31 13))]
  let b ← cmShare w cl true
  let db ← readE w (b + pf p 0 31 13 * 64) 32
  let d := descOf db
  let fl ← gatherM (rangeFrom 0 d.m) (finishRow m w b d (pf p 0 12 11 == 1) (64 * pf p 1 31 24) (64 * pf p 1 23 16))
  let rows ← look freeN
  upd bumpFree
  pure (BitVec.ofNat 32 (rows % 65536 * 65536 + orFlags fl % 256))

def execCmbfin (core : BitVec 9) (ctx : BitVec 10) (p : Pay) (s : State) : Out :=
  .next (showCmb (runCmd core.toNat ctx.toNat 0x34 p (cmbfinWork p) s))

end Sys2Proof.Machine
end

