-- ==== Sys2Proof/Machine/Mailbox.lean ====
section
/-! DEFINITION. The mailbox framing shared by every request (18 R531-R533). -/

namespace Sys2Proof.Machine

/-- A reply: the body area, RLEN, STATUS and CODE, BUSY clear, DONE set, vector 0 of the function (18 R532). A request whose channel was
reset has function 64: its reply is discarded (R533). -/
def mbReply (fn code status : Nat) (reply : List Byte) (s : State) : State :=
  if 32 < fn then s
  else
    let s := { s with sec := { s.sec with bodies := tabPut (fun _ b => b == []) fn reply s.sec.bodies } }
    let s := setN (kMb fn 0xC) reply.length s
    vec0 fn (setN (kMb fn 8) (2 ^ 30 + status * 256 + code % 256) s)

/-- The GO of a request: CODE and LEN as written, BUSY set (18 R532). -/
def mbGo (fn code len : Nat) (s : State) : State :=
  setF (kMb fn 8) 31 31 1 (setN (kMb fn 4) (code * 2 ^ 24 + len) s)

/-- Whether a GO on a channel is discarded because a request is with the RTP (18 R533). -/
def mbBusy (s : State) (fn : Nat) : Bool := bit (getR s (kMb fn 8)) 31

/-- The access-error counter of a function (18 R521, R524). -/
def accErrK (fn : Nat) : Nat := if fn = 0 then 0x10 else kVf fn 0x3010
def accErr (fn : Nat) (s : State) : State := inc32 (accErrK fn) 1 s

/-- A request stays with the RTP: its code, and 256 times the partition it is about. -/
def mbPend (fn code : Nat) (s : State) : State :=
  { s with sec := { s.sec with mailBusy := s.sec.mailBusy ++ [(fn, code)] } }

/-- Whether the boot ROM is in recovery (12 R369). -/
def inRecovery (s : State) : Bool := bit (getR s 0x400) 30

/-- Take a mailbox request: discarded and counted while BUSY. While the RTP restarts it stays, and gets 0xC7 afterwards (18 R533). -/
def takeRequest (fn code : Nat) (body : List Byte) (f : State → State) (s : State) : State :=
  if mbBusy s fn then accErr fn s
  else
    let s := mbGo fn code body.length s
    if s.sec.ready || inRecovery s then f s else mbPend fn code s

/-- Run a mailbox request: `f` makes its effect and answers status and reply. -/
def request (fn code : Nat) (body : List Byte) (f : State → State × Nat × List Byte) (s : State) : State :=
  takeRequest fn code body (fun s => let (s, st, reply) := f s; mbReply fn code st reply s) s

/-- The mailbox registers of a function return to reset; a request still with the RTP loses its reply (18 R533). -/
def mbReset (fn : Nat) (s : State) : State :=
  let s := { s with sec := { s.sec with
      mailBusy := s.sec.mailBusy.map fun (f, c) => (if f = fn then 64 else f, c)
      bodies := tabDrop fn s.sec.bodies } }
  rstRs [kMb fn 0, kMb fn 4, kMb fn 8, kMb fn 0xC] s

end Sys2Proof.Machine
end

