-- ==== Sys2Proof/Machine/Fabric.lean ====
section
/-! DEFINITION. Span ports and flits (09 R243-R252, R282), and requests from peers (09 R253-R255, R262, R264). -/

namespace Sys2Proof.Machine

def portNo (p : PortId) : Nat := 16 * p.x.toNat + p.p.toNat

/-! Registers of a partition's Span block (09 R259, R261, R284) -/

def kWin (p n o : Nat) : Nat := kPart p (0x1800 + 32 * n + o)
def kPeer (p n o : Nat) : Nat := kPart p (0x1400 + 8 * n + o)

/-- Whether window `n` is valid and names a port. -/
def winOnPort (s : State) (p n P : Nat) : Bool := bit (getR s (kWin p n 0)) 31 && getF s (kWin p n 0) 24 20 == P

/-! Initiated requests: sending and waiting (09 R265, R268, R269) -/

/-- The unit an access comes from (09 R265): the DMA of a core, or its control core. -/
def SpanWait.unit (w : SpanWait) : Nat := 2 * w.tag.core + (if w.tag.cseq = 65536 then 1 else 0)

/-- The lowest free tag of an X-die. -/
def freeTag (s : State) (x : Nat) : Option Nat := (rangeFrom (x * 32768) 32768).find? fun n => !(s.span.tags.any fun t => t.tag == n)

/-- Send an access that has a tag (09 R253, R268): its data bytes are counted and charged (R284; 11 R351). -/
def transmit (w : SpanWait) (n : Nat) (s : State) : State :=
  let k := { w.pkt with tag := BitVec.ofNat 16 n, sepoch := BitVec.ofNat 16 (epochOf s w.pid) }
  let s := { s with span := { s.span with tags := s.span.tags ++ [{ w.tag with tag := n }] } }
  let s := inc64 (kPart w.pid 0x2000) k.data.length s
  let s := charge w.tag.ctx 12 w.port k.data.length s
  let s := modLink w.port (fun l => { l with unit := w.unit }) s
  sendPkt w.port 0 k (crossDies (w.tag.core / 128) (4 + w.port / 16) k.data.length s)

/-- The tag an access may take now: its port has room for its packet and a tag is free (09 R252, R268, R269). -/
def tagFor (s : State) (w : SpanWait) : Option Nat :=
  if roomFor s w.port 0 (2 + ceilDiv w.pkt.data.length 16) then freeTag s (w.port / 16) else none

/-- Send the access of a port whose turn it is, if it may go: the requesting units take turns, each one's accesses in the order it issued
them (09 R265; 11 R349). -/
def sendNext (P : Nat) (s : State) : Option State :=
  match leastBy (fun w => turnAfter 2048 (linkOf s P).unit w.unit) (s.span.waits.filter fun w => w.port == P) with
  | none => none
  | some w => (tagFor s w).map fun n => transmit w n { s with span := { s.span with waits := s.span.waits.erase w } }

def sendWaits (P : Nat) : Nat → State → State
  | 0, s => s
  | n + 1, s => match sendNext P s with
    | none => s
    | some t => sendWaits P n t

/-- Send what waits and may now go. -/
def flushWaits (s : State) : State := each (rangeFrom 0 32) (fun P t => sendWaits P t.span.waits.length t) s

/-- Send an access, or let it wait for its port, for room, for a tag, or behind accesses that wait for the same port. -/
def launch (w : SpanWait) (s : State) : State :=
  match (if s.span.waits.any fun x => x.port == w.port then none else tagFor s w) with
  | some n => transmit w n s
  | none => { s with span := { s.span with waits := s.span.waits ++ [w] } }

/-- Opcode of the command a request belongs to; 0 for a control core's own. -/
def tagOpc (s : State) (t : Tag) : Nat :=
  match s.eng.cmds.find? fun m => m.core == t.core && m.ctx == t.ctx && m.cseq == t.cseq with
  | some m => envOpc m.env
  | none => 0

/-- The fault of a request. The remote module is given for reasons 0x70 to 0x77 (14 R426). -/
def tagFlt (t : Tag) (reason : Nat) : Flt :=
  { reason, addr := t.addr, modnum := if reason ≤ 0x77 then t.mod else 0, cls := if t.cseq = 65536 then 0 else 5, unit := t.core }

/-- Refuse waiting accesses that satisfy a test: each faults its context. -/
def refuseWaits (f : SpanWait → Bool) (reason : Nat) (s : State) : State :=
  let gone := s.span.waits.filter f
  let s := { s with span := { s.span with waits := s.span.waits.filter fun w => !f w } }
  each gone (fun w t => faultCtx w.tag.ctx 0 (tagFlt w.tag reason) (tagOpc t w.tag) (w.tag.cseq % 65536) t) s

def winStale (s : State) (p n : Nat) : Bool := bit (getR s (kWin p n 0)) 30

/-- Mark a window stale: accesses not yet sent through it are refused (09 R258, R281). -/
def setStale (p n : Nat) (s : State) : State :=
  refuseWaits (fun w => w.pid == p && w.win == n) 0x72 (orR (kWin p n 0) (2 ^ 30) s)

/-! Ports (09 R246, R250, R285) -/

/-- Send one flit as it is. -/
def putFlit (P : Nat) (f : Flit) (s : State) : State := { s with span := { s.span with out := s.span.out ++ [.flit P f] } }

def zeroSlots : List Byte := List.replicate 240 0

/-- A flit of only a header. -/
def bareFlit (hdr : DWord) : Flit := { hdr := hdr, slots := zeroSlots, crc := flitCrc hdr zeroSlots }

/-- Send an IDLE flit: its header carries the acknowledgement or NAK and returned credits. -/
def sendIdle (P : Nat) (s : State) : State :=
  let f := mkFlit (linkOf s P) 1 0 0 zeroSlots
  putFlit P f (modLink P creditsSent s)

/-- A port that was up goes down (09 R250, R284): its replay buffer and what it received are lost, windows on it are reported, the fabric manager
is told on another port. -/
def goDown (P st : Nat) (s : State) : State :=
  if portUp s P then
    let s := setPortSt P st (inc32 (kP P 12) 1 (modLink P relink s))
    let s := each (rangeFrom 0 32) (fun p t =>
      if (rangeFrom 0 64).any fun n => winOnPort t p n P then orR (kPart p 0x1004) 1 t else t) s
    noticePort P s
  else setPortSt P st s

/-- A write of SPX_PORTCFG (09 R246, R285; 16 R493): discarded for a port the assembly lacks, discarded and counted before full service
and for a reserved RATE. Setting EN trains the port at the RATE written; clearing it ends a degraded width. -/
def writePortCfg (fn P : Nat) (v : Word) (s : State) : State :=
  if portsN s ≤ P then s
  else if svc s ≠ 3 ∨ 1 < fld v 1 0 then accErr fn s
  else
    let was := bit (getR s (kP P 0)) 31
    let s := setR (kP P 0) (v &&& 0x80000003) s
    if bit v 31 && !was then setPortSt P 1 s
    else if !bit v 31 && was then modLink P (fun l => { l with half := false }) (goDown P 0 s)
    else s

def execPortEnable (port : PortId) (val : Word) (s : State) : Out := .next (writePortCfg 0 (portNo port) (val ||| 0x80000000) s)
def execPortDisable (port : PortId) (val : Word) (s : State) : Out := .next (writePortCfg 0 (portNo port) (val &&& 0x7FFFFFFF) s)

/-- Training ends (09 R246, R252, R278, R285): up on four lanes, up on two, or down; a degraded port keeps its width until EN is cleared. It runs at the
RATE in force. Each receiver then grants 64 flits of credit per VC. -/
def doTrained (P : Nat) (low high : Bool) (s : State) : State :=
  if P < portsN s ∧ bit (getR s (kP P 0)) 31 ∧ (portSt s P = 1 ∨ portSt s P = 4) then
    let half := (linkOf s P).half || !(low && high)
    let s := setPortSt P (if low || high then (if half then 3 else 2) else 4) s
    if portUp s P then
      let s := modLink P (fun l => { relink l with half := half, rate := getF s (kP P 0) 1 0 }) s
      let s := each (rangeFrom 0 4) (fun v => putFlit P (bareFlit (linkHdr 0 64 v 0 4095 4 0))) s
      let s := announce P s
      let s := if assigned s then s else { s with span := { s.span with annPort := true } }
      flushWaits (noticePort P s)
    else noticePort P s
  else s

def execPortTrained (port : PortId) (low high : Bool) (s : State) : Out := .next (doTrained (portNo port) low high s)

/-- LINK_DOWN: the port loses its link and retrains at once (09 R250). -/
def doLinkDown (P : Nat) (s : State) : State := if portUp s P then goDown P 4 s else s

def execLinkDown (port : PortId) (s : State) : Out := .next (doLinkDown (portNo port) s)

/-! Flits (09 R248, R249, R252, R282) -/

/-- Whether sequence `a` is `b` or before it. -/
def seqLe (a b : Nat) : Bool := decide ((b + 4096 - a) % 4096 < 2048)

def flitSeq (f : Flit) : Nat := fld f.hdr 11 0

/-- Take an acknowledgement of everything before sequence `n`. -/
def ackBefore (P n : Nat) (s : State) : State :=
  modLink P (fun l => { l with unacked := l.unacked.filter fun f => seqLe n (flitSeq f) }) s

/-- A NAK names the sequence expected next: everything before it has arrived, the rest is replayed in order. The eighth replay of
one sequence takes the link down (09 R249, R250). -/
def doNak (P n : Nat) (s : State) : State :=
  if !portUp s P then s
  else
    let s := ackBefore P n s
    let l := linkOf s P
    if l.unacked.isEmpty then s
    else
      let c := if l.repSeq = n ∧ l.replays ≠ 0 then l.replays + 1 else 1
      let s := inc32 (kP P 8) 1 (modLink P (fun l => { l with replays := c, repSeq := n }) s)
      if 8 ≤ c then goDown P 4 s
      else each l.unacked (fun f t =>
        putFlit P (mkFlit (linkOf t P) 0 (flitSeq f) 0 f.slots) (modLink P creditsSent t)) s

def execNakReplay (port : PortId) (seq : BitVec 12) (s : State) : Out := .next (doNak (portNo port) seq.toNat s)

/-- A port sends what may now go: packets queued, then accesses that wait for it. -/
def pumpPort (P : Nat) (s : State) : State :=
  let s := pumpAll P s
  sendWaits P s.span.waits.length s

/-- Credits returned for a VC. -/
def addCredits (P vc n : Nat) (s : State) : State :=
  pumpPort P (modLink P (fun l => { l with credits := listSet vc (listGet 0 l.credits vc + n) l.credits }) s)

/-- An INIT flit grants credits (09 R252). -/
def doInit (P vc n : Nat) (s : State) : State := if portUp s P then addCredits P vc n s else s

def execInit (port : PortId) (vc : BitVec 2) (credits : BitVec 12) (s : State) : Out :=
  .next (doInit (portNo port) vc.toNat credits.toNat s)

/-- A MARKER is answered with an ECHO that names the last DATA flit sent (09 R282). -/
def doMarker (P id : Nat) (s : State) : State :=
  if portUp s P then putFlit P (bareFlit (linkHdr id 0 0 0 (((linkOf s P).txSeq + 4095) % 4096) 3 0)) s else s

def execMarker (port : PortId) (id : Byte) (s : State) : Out := .next (doMarker (portNo port) id.toNat s)

/-- An ECHO bounds the inbound capture of a hang snapshot (09 R282). -/
def doEcho (P id a : Nat) (s : State) : State :=
  let l := linkOf s P
  if l.capId = some id ∧ l.capEnd = none ∧ !l.capDone then
    modLink P (fun l => { l with capEnd := some a, capIn := l.capIn.filter fun h => seqLe (fld h 11 0) a }) s
  else s

def execEcho (port : PortId) (id : Byte) (ackseq : BitVec 12) (s : State) : Out :=
  .next (doEcho (portNo port) id.toNat ackseq.toNat s)

/-- No ECHO within 2 ms: the capture is incomplete. -/
def doEchoTimeout (P : Nat) (s : State) : State :=
  let l := linkOf s P
  if l.capId.isSome && l.capEnd.isNone then modLink P (fun l => { l with capDone := true }) s else s

def execEchoTimeout (port : PortId) (s : State) : Out := .next (doEchoTimeout (portNo port) s)

/-- Data slots of the packet whose header begins a byte list (09 R253, R254); a reduction packet has a sub-header (13 R414). -/
def dataSlots (b : List Byte) : Nat :=
  let opc := leAt b 3 1
  if opc = 1 ∨ opc = 9 ∨ (opc = 8 ∧ leAt b 23 1 ≠ 0) then 0
  else ceilDiv (leAt b 0 4 / 2 ^ 12 % 512) 16 + (if opc / 16 = 1 then 1 else 0)

/-- What is left of received slots after every whole packet: the beginning of one that continues. Slots that begin no packet are filler. -/
def leftover : Nat → List Byte → List Byte
  | 0, b => b
  | n + 1, b =>
    if b.isEmpty then b
    else if leAt b 3 1 = 0 then leftover n (b.drop 16)
    else if b.length < 16 * (2 + dataSlots b) then b
    else leftover n (b.drop (16 * (2 + dataSlots b)))

/-- The VC whose credit a flit has used (09 R252): of the packet that it continues or that starts in it; leading slots that begin no packet are
filler. -/
def slotsVc : Nat → List Byte → Nat
  | 0, _ => 0
  | n + 1, b => if leAt b 3 1 = 0 then slotsVc n (b.drop 16) else leAt b 2 1 / 64

/-- A DATA flit arrives (09 R249): accepted in sequence, its buffer space freed again; a duplicate is discarded; any other is
discarded and NAKed. -/
def takeData (P : Nat) (f : Flit) (s : State) : State :=
  let l := linkOf s P
  let q := flitSeq f
  let s :=
    if q = l.rxSeq then
      let b := l.rxSlots ++ f.slots
      let vc := slotsVc 15 b
      let cap := l.capId.isSome && !l.capDone && (match l.capEnd with | none => true | some a => seqLe q a)
      modLink P (fun l => { l with rxSeq := (q + 1) % 4096, naking := false, rxSlots := leftover 64 b
                                   freed := listSet vc (listGet 0 l.freed vc + 1) l.freed
                                   capIn := if cap then l.capIn ++ [f.hdr] else l.capIn }) s
    else if seqLe q l.rxSeq then s
    else modLink P (fun l => { l with naking := true }) s
  sendIdle P s

/-- FLIT_RECEIVE: the flit's CRC, its acknowledgement or NAK, its credits, then what its type says. Headers that repeat the NAK of one loss start one
replay. Packets that a flit completes reach the device by their own commands (log 13). -/
def doFlit (P : Nat) (f : Flit) (s : State) : State :=
  if !portUp s P then s
  else if f.slots.length ≠ 240 ∨ f.crc ≠ flitCrc f.hdr f.slots then sendIdle P (modLink P (fun l => { l with naking := true }) s)
  else
    let ft := fld f.hdr 19 16
    let ack := fld f.hdr 31 20
    if ft = 4 then doInit P (fld f.hdr 35 34) (fld f.hdr 47 36) s
    else if ft = 3 then doEcho P (fld f.hdr 63 56) ack s
    else if 4 < ft then s
    else
      let s := if bit f.hdr 33 then
          (if (linkOf s P).replays ≠ 0 ∧ (linkOf s P).repSeq = ack then ackBefore P ack s else doNak P ack s)
        else modLink P (fun l => { l with replays := 0 }) (ackBefore P ((ack + 1) % 4096) s)
      if !portUp s P then s
      else
        let s := addCredits P (fld f.hdr 35 34) (fld f.hdr 47 36) s
        if ft = 0 then takeData P f s
        else if ft = 2 then doMarker P (fld f.hdr 63 56) s
        else s

def execFlitReceive (port : PortId) (f : Flit) (s : State) : Out := .next (doFlit (portNo port) f s)

/-! Requests from peers (09 R262, R264) -/

/-- Checks 1 to 4 of a request: the status of the first that fails. While a partition is being reset a request of its old epoch is stale (14 R438). -/
def acceptErr (s : State) (k : Pkt) (hasData : Bool) : Option Nat :=
  let p := k.dpid.toNat
  if !assigned s || k.dmod.toNat != modNum s || (partState s p != 2 && partState s p != 3) then some 6
  else if k.tepoch.toNat ≠ epochOf s p then some 2
  else if partState s p = 3 then some 6
  else if !((rangeFrom 0 64).any fun n =>
      let c := getR s (kPeer p n 0)
      bit c 31 && fld c 15 0 == k.smod.toNat && fld c 20 16 == k.spid.toNat && getF s (kPeer p n 4) 15 0 == k.sepoch.toNat) then some 1
  else if hasData && crc32c k.data != k.dcrc.toNat then some 5
  else none

/-- The response to a request, sent back on the port it came by (09 R253, R264). -/
def respond (P : Nat) (k : Pkt) (opc st flags : Nat) (d : List Byte) (s : State) : State :=
  sendPkt P 1 { k with opc := BitVec.ofNat 8 opc, dmod := k.smod, smod := k.dmod, dpid := k.spid, spid := k.dpid
                       status := BitVec.ofNat 8 st, flags := BitVec.ofNat 8 flags
                       dcrc := if d.isEmpty then 0 else BitVec.ofNat 32 (crc32c d), data := d } s

/-- A refused request is counted and answered (09 R262). -/
def refuse (P : Nat) (k : Pkt) (opc st : Nat) (s : State) : State :=
  respond P k opc st 0 [] (if st = 6 then inc32 0x100C 1 s else inc32 (kPart k.dpid.toNat 0x2010) 1 s)

/-- The sum of two elements in two's complement of a width, saturating (09 R264). -/
def satAdd (w x y : Nat) : Nat × Nat :=
  let lim : Int := 2 ^ (w - 1) - 1
  let z := signed w x + signed w y
  let c := if lim < z then lim else if z < -lim then -lim else z
  ((BitVec.ofInt w c).toNat, if c = z then 0 else flSAT)

/-- Element additions of data into memory bytes: FADD, IADD32, IADD64. -/
def addBytes (opc : Nat) (strict : Bool) (old d : List Byte) : List Byte × Nat :=
  if opc = 3 then
    let (z, f) := zipFl (fpAdd strict) ((elemsOf 4 old).map (BitVec.ofNat 32)) ((elemsOf 4 d).map (BitVec.ofNat 32))
    (wordBytes z, f)
  else
    let n := if opc = 4 then 4 else 8
    let z := List.zipWith (satAdd (8 * n)) (elemsOf n old) (elemsOf n d)
    (z.flatMap fun (x, _) => leBytes n x, orFlags (z.map (·.2)))

/-- A request is checked, performed and answered: RD 1, WR 2, FADD 3, IADD32 4, IADD64 5. Where the memory does not deliver, STATUS is 0x04, or 0x05
for a CRC-32C mismatch (14 R424). -/
def serve (P opc : Nat) (k : Pkt) (s : State) : State :=
  let ropc := if opc = 1 then 8 else 9
  if !portUp s P then s
  else match acceptErr s k (opc != 1) with
  | some st => refuse P k ropc st s
  | none =>
    let p := k.dpid.toNat
    let w := whoSpan p P
    let a := k.addr.toNat
    let n := k.nbytes.toNat
    if (refusal s w (opc != 2) (opc != 1) false a n).isSome then refuse P k ropc 3 s
    else
      let ks := keysOf s p a n
      match errAt s (opc == 2) ks with
      | some x => refuse P k ropc (if x.2.1 = 0xE6 then 5 else 4) (errNoted p x s)
      | none =>
        let s := inc64 (kPart p 0x2008) n s
        let old := ks.map (memByte (partOf s p).mek s)
        if opc = 1 then respond P k 8 0 0 old (inc64 (kPart p 0x2000) n (tookBytes w ks s))
        else if opc = 2 then respond P k 9 0 0 [] (landBytes w a (k.data.take n) s)
        else
          let (d, f) := addBytes opc k.strict old (k.data.take n)
          respond P k 9 0 f [] (landBytes w a d (mend p false ks s))

def execRd (port : PortId) (k : Pkt) (s : State) : Out := .next (serve (portNo port) 1 k s)
def execWr (port : PortId) (k : Pkt) (s : State) : Out := .next (serve (portNo port) 2 k s)
def execFadd (port : PortId) (k : Pkt) (s : State) : Out := .next (serve (portNo port) 3 k s)
def execIadd32 (port : PortId) (k : Pkt) (s : State) : Out := .next (serve (portNo port) 4 k s)
def execIadd64 (port : PortId) (k : Pkt) (s : State) : Out := .next (serve (portNo port) 5 k s)

/-- Opcodes that name a packet (09 R254). -/
def knownOpc (o : Nat) : Bool := (decide (1 ≤ o) && decide (o ≤ 5)) || o == 8 || o == 9 || (decide (0x10 ≤ o) && decide (o < 0x30))

/-- Opcodes of messages the device takes from the fabric manager (09 R278, 12 R388). -/
def managerOpc (o : Nat) : Bool := [0x21, 0x25, 0x27, 0x29, 0x2A].contains o

/-- A packet with a reserved opcode is discarded and counted in SPX_BADPKT (09 R254), one with another code of the management range in
SPX_MGMTDROP (09 R278). -/
def doBadPacket (P opc : Nat) (s : State) : State :=
  if !portUp s P then s
  else if !knownOpc opc then inc32 0x100C 1 s
  else if 0x20 ≤ opc ∧ !managerOpc opc then inc32 0x1010 1 s
  else s

def execSpanBadPacket (port : PortId) (opc : Byte) (s : State) : Out := .next (doBadPacket (portNo port) opc.toNat s)

end Sys2Proof.Machine
end

