-- ==== Sys2Proof/Machine/Dma.lean ====
section
/-! DEFINITION. The core DMA: DMCOPY and weight references (10 R319, R320), Span commands and their responses (09 R256-R258, R263,
R268-R276), control core accesses over Span (09 R274). -/

namespace Sys2Proof.Machine

/-! Global addresses and windows (09 R256-R258) -/

/-- Module field and local bits of a global address. -/
def gaMod (ga : Nat) : Nat := ga / 2 ^ 48 % 65536
def gaLocal (ga : Nat) : Nat := ga % 2 ^ 48

/-- A fault of a Span access before any packet is sent. -/
def spanFlt (w : Who) (reason ga : Nat) : Flt :=
  { reason, addr := gaLocal ga, modnum := if reason ≤ 0x77 then gaMod ga else 0, cls := w.cls, unit := w.unit }

def winBase (s : State) (p n : Nat) : Nat := getF s (kWin p n 8) 31 6 + getF s (kWin p n 16) 15 0 * 2 ^ 26
def winLim (s : State) (p n : Nat) : Nat := getF s (kWin p n 12) 31 6 + getF s (kWin p n 16) 31 16 * 2 ^ 26

/-- The lowest window that matches an address. -/
def findWin (s : State) (p ga : Nat) : Option Nat := (rangeFrom 0 64).find? fun n =>
  bit (getR s (kWin p n 0)) 31 && getF s (kWin p n 4) 15 0 == gaMod ga &&
    decide (winBase s p n ≤ gaLocal ga / 64) && decide (gaLocal ga / 64 ≤ winLim s p n)

/-- The window that carries an access of `len` bytes needing permission bit `perm` (29 read, 28 write, 27 add), or why there is none. -/
def windowOf (s : State) (w : Who) (perm ga len : Nat) : Except Flt Nat :=
  if !assigned s then .error (spanFlt w 0x78 ga)
  else match findWin s w.pid ga with
  | none => .error (spanFlt w 0x70 ga)
  | some n =>
    if winStale s w.pid n then .error (spanFlt w 0x72 ga)
    else if winLim s w.pid n < (gaLocal ga + len - 1) / 64 then .error (spanFlt w 0x70 ga)
    else if !bit (getR s (kWin w.pid n 0)) perm then .error (spanFlt w 0x71 ga)
    else .ok n

def windowE (w : Who) (perm ga len : Nat) : Eng Nat := fun s =>
  match windowOf s w perm ga len with
  | .ok n => .ok n s
  | .error f => .error f s

/-- The request of one access through a window (09 R253). -/
def mkReq (s : State) (w : Who) (core cseq win opc ga n : Nat) (strict : Bool) (use : TagUse) (d : List Byte) : SpanWait :=
  let c := getR s (kWin w.pid win 0)
  let vmod := getR s (kWin w.pid win 4)
  { pid := w.pid, win := win, port := fld c 24 20
    tag := { tag := 0, pid := w.pid, ctx := w.ctx, core := core, cseq := cseq, win := win, mod := gaMod ga, addr := gaLocal ga, port := fld c 24 20, use := use }
    pkt := { opc := BitVec.ofNat 8 opc, strict := strict, nbytes := BitVec.ofNat 9 n, dmod := BitVec.ofNat 16 (fld vmod 15 0)
             smod := BitVec.ofNat 16 (modNum s), dpid := BitVec.ofNat 5 (fld c 19 15), spid := BitVec.ofNat 5 w.pid
             sctx := BitVec.ofNat 10 w.ctx, tepoch := BitVec.ofNat 16 (fld vmod 31 16), sepoch := BitVec.ofNat 16 (epochOf s w.pid)
             addr := BitVec.ofNat 48 (gaLocal ga), status := 0, flags := 0, tag := 0
             dcrc := if d.isEmpty then 0 else BitVec.ofNat 32 (crc32c d), data := d } }

/-- A transfer split at 256 B boundaries of the remote address: offset and length of each request, ascending (09 R270). -/
def pieces (ga len : Nat) : List (Nat × Nat) :=
  let k := ga % 256
  (rangeFrom 0 (ceilDiv (k + len) 256)).map fun i =>
    let lo := max k (256 * i)
    let hi := min (k + len) (256 * i + 256)
    (lo - k, hi - lo)

/-! Core DMA commands -/

/-- SHA3-256 check of a copy: RESULT of its status word (09 R272, R276). -/
def digestResult (w : Who) (cl digaddr : Nat) (bs : List Byte) : Eng Nat := do
  let b ← cmShare w cl false
  let d ← readE w (b + digaddr * 64) 32
  pure (if sha3 bs = d then 0 else 1)

/-- Two payload words as a 64-bit number. -/
def pw64 (p : Pay) (i : Nat) : Nat := (pw p i).toNat + 2 ^ 32 * (pw p (i + 1)).toNat

/-- Whether LEN and DIGADDR of words 5 to 7 are illegal (09 R270). -/
def lenBad (p : Pay) : Bool :=
  let n := p.w5.toNat + 2 ^ 32 * pf p 6 7 0
  !pz p 6 0xFFFFFF00 || n % 64 != 0 || n == 0 || !pz p 7 0x1FFF || addrBad true 64 (pf p 7 31 13)

def copyLen (p : Pay) : Nat := p.w5.toNat + 2 ^ 32 * pf p 6 7 0

/-- Address a weight reference resolves to (10 R320). -/
def weightRef (w : Who) (idx off len : Nat) : Eng Nat := fun s =>
  match tabFind (w.pid * 4096 + idx) s.jobs.wptr with
  | some (a, n) => if off + len ≤ n then .ok (a + off) s else .error (w.flt 0x60 (a + off)) s
  | none => .error (w.flt 0x60 0) s

/-- DMCOPY (10 R319): block by block of 256 B in ascending order (log 104), so that what was copied before a failure stands (14 R424). -/
def dmWork (p : Pay) (m : EngCmd) : Eng Word := do
  let w ← look fun s => whoDma s m.core m.ctx
  let ref := pb p 0 31
  let src := if ref then p.w1.toNat + 2 ^ 32 * pf p 2 15 0 else pw64 p 1
  let dst := pw64 p 3
  decodeE w [(0x87, !pz p 0 0x3FFFFFFF || (ref && !pz p 2 0xF0000) || src % 64 != 0 || dst % 64 != 0 || lenBad p)]
  let n := copyLen p
  let a ← if ref then weightRef w (pf p 2 31 20) src n else pure src
  let bs ← gatherM (pieces a n) fun (o, k) => do
    let d ← readE w (a + o) k
    writeE w (dst + o) d
    pure d
  let r ← if pb p 0 30 then digestResult w (clOf m.core) (pf p 7 31 13) bs.flatten else pure 0
  pure (BitVec.ofNat 32 (r * 2 ^ 24))

def execDmcopy (core : BitVec 9) (ctx : BitVec 10) (p : Pay) (s : State) : Out :=
  .next (runCmd core.toNat ctx.toNat 0x40 p (dmWork p) s)

/-- Send one request of a command. -/
def sendE (w : Who) (m : EngCmd) (win opc ga n : Nat) (use : TagUse) (d : List Byte) : Eng Unit :=
  upd fun s => launch (mkReq s w m.core m.cseq win opc ga n (opc == 3 && m.strict) use d) s

/-- SPCOPY (09 R270): a pull reads remote bytes, a push writes them. -/
def spcopyWork (p : Pay) (m : EngCmd) : Eng Word := do
  let w ← look fun s => whoDma s m.core m.ctx
  let own ← look modNum
  let src := pw64 p 1
  let dst := pw64 p 3
  let push := pb p 0 30
  let dig := pb p 0 29
  let rem_ := if push then dst else src
  let loc := if push then src else dst
  let n := copyLen p
  decodeE w [(0x79, pb p 0 31 || (dig && push) || !pz p 0 0x1FFFFFFF || src % 64 != 0 || dst % 64 != 0 || lenBad p),
    (0x7A, gaMod rem_ == own || gaMod loc != own)]
  let win ← windowE w (if push then 28 else 29) rem_ n
  if dig then do
    let b ← cmShare w (clOf m.core) false
    checkE w true false (b + pf p 7 31 13 * 64) 32
  else pure ()
  eachM (pieces rem_ n) (fun (o, k) => do
    if push then do
      let d ← readE w (gaLocal loc + o) k
      sendE w m win 2 (rem_ + o) k .push d
    else do
      checkE w false true (gaLocal loc + o) k
      sendE w m win 1 (rem_ + o) k (.pull (gaLocal loc + o)) [])
  pure 0

/-- The port of the window that carries the remote end of a SPCOPY, if one does. -/
def copyPort (s : State) (p : Pay) (m : EngCmd) : Option Nat :=
  let push := pb p 0 30
  match windowOf s (whoDma s m.core m.ctx) (if push then 28 else 29) (if push then pw64 p 3 else pw64 p 1) (copyLen p) with
  | .ok n => some (getF s (kWin (ctxPid s m.ctx) n 0) 24 20)
  | .error _ => none

/-- A SPCOPY with DIG waits while another has requests on its port (09 R275). -/
def digestHold (p : Pay) (m : EngCmd) (s : State) : Option State :=
  let others : Nat → Bool := fun P => s.eng.cmds.any fun x =>
    envOpc x.env == 0x48 && (match x.pay with | some q => pb q 0 29 | none => false) &&
      (s.span.tags.any (fun t => t.port == P && t.use != .retired && t.core == x.core && t.ctx == x.ctx && t.cseq == x.cseq) ||
        s.span.waits.any (fun w => w.port == P && w.tag.core == x.core && w.tag.ctx == x.ctx && w.tag.cseq == x.cseq))
  match (if pb p 0 29 then copyPort s p m else none) with
  | some P => if others P then some s else none
  | none => none

def execSpcopy (core : BitVec 9) (ctx : BitVec 10) (p : Pay) (s : State) : Out :=
  .next (runHeld core.toNat ctx.toNat 0x48 p (digestHold p) (spcopyWork p) s)

/-- SPATOM (09 R271). -/
def spatomWork (p : Pay) (m : EngCmd) : Eng Word := do
  let w ← look fun s => whoDma s m.core m.ctx
  let own ← look modNum
  let src := pw64 p 1
  let dst := pw64 p 3
  let op := pf p 0 31 30
  let size := if op = 2 then 8 else 4
  let n := p.w5.toNat
  decodeE w [(0x79, op == 3 || !pz p 0 0x3FFFFFFF || !wordsZero p 6 || n == 0 || n % 64 != 0 || src % size != 0 || dst % size != 0 ||
    gaMod src != own || gaMod dst == own)]
  let win ← windowE w 27 dst n
  eachM (pieces dst n) (fun (o, k) => do
    let d ← readE w (gaLocal src + o) k
    sendE w m win (3 + op) (dst + o) k .push d)
  pure 0

def execSpatom (core : BitVec 9) (ctx : BitVec 10) (p : Pay) (s : State) : Out :=
  .next (runCmd core.toNat ctx.toNat 0x49 p (spatomWork p) s)

/-- SPFENCE waits while an earlier SPCOPY or SPATOM of its context on its core has not completed (09 R273). -/
def fenceHold (m : EngCmd) (s : State) : Option State :=
  if (s.eng.cmds.takeWhile fun x => !(x.core == m.core && x.ctx == m.ctx && x.cseq == m.cseq)).any fun x =>
      x.core == m.core && x.ctx == m.ctx && (envOpc x.env == 0x48 || envOpc x.env == 0x49)
  then some s else none

def fenceWork (p : Pay) (m : EngCmd) : Eng Word := do
  let w ← look fun s => whoDma s m.core m.ctx
  decodeE w [(0x79, !wordsZero p 0)]
  pure 0

def execSpfence (core : BitVec 9) (ctx : BitVec 10) (p : Pay) (s : State) : Out :=
  .next (runHeld core.toNat ctx.toNat 0x4A p fenceHold (fenceWork p) s)

/-! Control core accesses (09 R274) -/

/-- What a control core's load gave. -/
def setLoad (core ctx : Nat) (v : DWord) (s : State) : State :=
  { s with eng := { s.eng with loads := tabPut (fun _ _ => false) (core * 1024 + ctx) v s.eng.loads } }

/-- A control core access of `n` bytes with opcode `opc` (1 load, 2 store, 3 to 5 add): a request to another module, or the access itself
where the address is the module's own (09 R256). -/
def ccAccess (core ctx opc ga n : Nat) (d : List Byte) : Eng Unit := do
  let w ← look fun s => whoCtl s core ctx
  let own ← look modNum
  let strict ← look fun s => bit (getR s (kCtx ctx 0x40)) 0
  if gaMod ga = own then
    if opc = 1 then do
      let b ← readE w (gaLocal ga) n
      upd (setLoad core ctx (BitVec.ofNat 64 (leNat b)))
    else if opc = 2 then writeE w (gaLocal ga) d
    else do
      checkE w true true (gaLocal ga) n
      let old ← readE w (gaLocal ga) n
      let (x, f) := addBytes opc strict old d
      writeE w (gaLocal ga) x
      upd (stickFlags ctx (BitVec.ofNat 32 f))
  else do
    let win ← windowE w (if opc = 1 then 29 else if opc = 2 then 28 else 27) ga n
    upd fun s => launch (mkReq s w core 65536 win opc ga n (opc == 3 && strict) (if opc = 1 then .load else .push) d) s

def doCcAccess (core ctx opc ga n : Nat) (d : List Byte) (s : State) : State :=
  if !mayIssue s core ctx then s
  else if ga % n ≠ 0 then doCcExc core ctx .misaligned (gaLocal ga) s
  else match ccAccess core ctx opc ga n d s with
  | .ok _ t => t
  | .error f t => faultCtx ctx 0 f 0 0 t

def execCcRemoteLoad (core : BitVec 9) (ctx : BitVec 10) (gaddr : DWord) (log2n : BitVec 2) (s : State) : Out :=
  .next (doCcAccess core.toNat ctx.toNat 1 gaddr.toNat (2 ^ log2n.toNat) [] s)

def execCcRemoteStore (core : BitVec 9) (ctx : BitVec 10) (gaddr : DWord) (log2n : BitVec 2) (val : DWord) (s : State) : Out :=
  .next (doCcAccess core.toNat ctx.toNat 2 gaddr.toNat (2 ^ log2n.toNat) (leBytes (2 ^ log2n.toNat) val.toNat) s)

def addOpc (op : AddOp) : Nat := match op with | .fadd => 3 | .iadd32 => 4 | .iadd64 => 5

def execCcRemoteAdd (core : BitVec 9) (ctx : BitVec 10) (op : AddOp) (gaddr : DWord) (val : DWord) (s : State) : Out :=
  let n := if addOpc op = 5 then 8 else 4
  .next (doCcAccess core.toNat ctx.toNat (addOpc op) gaddr.toNat n (leBytes n val.toNat) s)

/-! Responses (09 R263) -/

/-- The reason code of a response status (09 R283). -/
def statusReason (st : Nat) : Option Nat :=
  match st with
  | 1 => some 0x73 | 2 => some 0x73 | 3 => some 0x74 | 4 => some 0x77 | 5 => some 0x76 | 6 => some 0x78
  | _ => none

/-- A fault of a request that has been sent. -/
def tagFault (t : Tag) (reason : Nat) (s : State) : State :=
  faultCtx t.ctx 0 (tagFlt t reason) (tagOpc s t) (t.cseq % 65536) s

def dropTag (n : Nat) (s : State) : State := { s with span := { s.span with tags := s.span.tags.filter fun t => t.tag != n } }

/-- The command of a tag. -/
def tagCmd (t : Tag) (m : EngCmd) : Bool := m.core == t.core && m.ctx == t.ctx && m.cseq == t.cseq

def mapCmds (f : EngCmd → EngCmd) (s : State) : State := { s with eng := { s.eng with cmds := s.eng.cmds.map f } }

/-- Bytes of a digest copy in ascending order. -/
def gotBytes (l : List (Nat × List Byte)) : List Byte :=
  (l.foldl (fun (t : List (Nat × List Byte)) (x : Nat × List Byte) => tabIns x.1 x.2 t) []).flatMap (·.2)

/-- When the last response of a digest copy is in, its RESULT is set (09 R275, R276). -/
def checkDigest (t : Tag) (s : State) : State :=
  match s.eng.cmds.find? (tagCmd t) with
  | none => s
  | some m =>
    match m.pay with
    | some p =>
      if envOpc m.env = 0x48 ∧ pb p 0 29 ∧ landed s m then
        match digestResult (whoDma s m.core m.ctx) (clOf m.core) (pf p 7 31 13) (gotBytes m.got) s with
        | .ok r s => mapCmds (fun x => if tagCmd t x then { x with status := x.status ||| BitVec.ofNat 32 (r * 2 ^ 24) } else x) s
        | .error f s => faultCtx t.ctx 0 f 0x48 (t.cseq % 65536) s
      else s
    | none => s

/-- Data of an OK response goes where its request wanted it. -/
def deliver (P : Nat) (t : Tag) (d : List Byte) (s : State) : State :=
  match t.use with
  | .pull dst =>
    let s := crossDies (4 + P / 16) (t.core / 128) d.length (charge t.ctx 12 (P + 32) d.length s)
    match writeE (whoDma s t.core t.ctx) dst d s with
    | .error f s => faultCtx t.ctx 0 f (tagOpc s t) (t.cseq % 65536) s
    | .ok _ s => checkDigest t (mapCmds (fun x => if tagCmd t x then { x with got := x.got ++ [(t.addr, d)] } else x) s)
  | .load => setLoad t.core t.ctx (BitVec.ofNat 64 (leNat d)) (crossDies (4 + P / 16) (t.core / 128) d.length (charge t.ctx 12 (P + 32) d.length s))
  | _ => s

/-- A response arrives (09 R263). -/
def doResponse (P : Nat) (isRead : Bool) (k : Pkt) (s : State) : State :=
  if !portUp s P then s
  else match s.span.tags.find? fun t => t.tag == k.tag.toNat with
  | none => s
  | some t =>
    if k.sepoch.toNat ≠ epochOf s t.pid ∨ t.use = .retired then inc32 (kPart t.pid 0x2014) 1 s
    else
      let st := k.status.toNat
      if st = 0 then
        if isRead && crc32c k.data != k.dcrc.toNat then tagFault t 0x76 (flushWaits (dropTag t.tag s))
        else
          let s := stickFlags t.ctx (BitVec.ofNat 32 k.flags.toNat) (flushWaits (dropTag t.tag s))
          let s := mapCmds (fun x => if tagCmd t x then { x with status := x.status ||| BitVec.ofNat 32 k.flags.toNat } else x) s
          if isRead then deliver P t k.data s else s
      else match statusReason st with
      | none => s
      | some r =>
        let s := tagFault t r (flushWaits (dropTag t.tag s))
        if st = 2 ∨ st = 6 then setStale t.pid t.win (orR (kPart t.pid 0x1004) 2 s) else s

def execRdrsp (port : PortId) (k : Pkt) (s : State) : Out := .next (doResponse (portNo port) true k s)
def execAck (port : PortId) (k : Pkt) (s : State) : Out := .next (doResponse (portNo port) false k s)

/-- A request has had no response within SPX_TMO: retired, its tag held, its context faulted (09 R268). -/
def doReqTimeout (n : Nat) (s : State) : State :=
  match s.span.tags.find? fun t => t.tag == n && t.use != .retired with
  | none => s
  | some t =>
    tagFault t 0x75 { s with span := { s.span with tags := s.span.tags.map fun x => if x.tag = n then { x with use := .retired } else x } }

def execSpanReqTimeout (tag : BitVec 16) (s : State) : Out := .next (doReqTimeout tag.toNat s)

/-- The hold of a retired tag ends. -/
def doTagRelease (n : Nat) (s : State) : State :=
  if s.span.tags.any fun t => t.tag == n && t.use == .retired then flushWaits (dropTag n s) else s

def execSpanTagRelease (tag : BitVec 16) (s : State) : Out := .next (doTagRelease tag.toNat s)

/-- A window's port has stayed down beyond SPX_TMO: what waits for it is refused (09 R269). -/
def doWindowTimeout (p n : Nat) (s : State) : State :=
  refuseWaits (fun w => w.pid == p && w.win == n && !portUp s w.port) 0x75 s

def execWindowPortTimeout (pid : BitVec 5) (win : BitVec 6) (s : State) : Out := .next (doWindowTimeout pid.toNat win.toNat s)

end Sys2Proof.Machine
end

