-- ==== Sys2Proof/Machine/Watch.lean ====
section
/-! DEFINITION. The progress watchdogs of the always-on domain (14 R429-R431): what each counts in an AO tick, and when it may fire. -/

namespace Sys2Proof.Machine

/-- The cluster of a unit of classes 0 to 8. -/
def unitCl (cls unit : Nat) : Option Nat := if cls ≤ 5 then some (unit / 16) else if cls ≤ 8 then some unit else none

/-- Whether a cluster of a unit is waking: its watchdogs do not count (16 R483). -/
def isWaking (s : State) (cls unit : Nat) : Bool := match unitCl cls unit with | some c => s.pwr.waking.contains c | none => false

/-- The head of a context's queue at a unit. -/
def headCmd (s : State) (cls unit c : Nat) : Option EngCmd :=
  s.eng.cmds.find? fun m => m.ctx == c && m.queue / 4096 == cls && cmdUnit s m == unit

/-! Names of the watched queues -/

def engKey (cls unit c : Nat) : Nat := (cls * 4096 + unit) * 1024 + c
def ctlKey (core c : Nat) : Nat := 2 ^ 26 + core * 1024 + c
def memQKey (unit c : Nat) : Nat := 2 ^ 27 + unit * 1024 + c
def compKey (c : Nat) : Nat := 2 ^ 28 + c
def spanKey (P v : Nat) : Nat := 2 ^ 28 + 4096 + 4 * P + v
def grpKey (g : Nat) : Nat := 2 ^ 28 + 8192 + g

/-! Progress -/

/-- What changes when the head of an engine queue starts, does its work or completes. -/
def headSig (m : EngCmd) : Nat := ((m.core * 2 ^ 16 + m.cseq) * 2 + (if m.running then 1 else 0)) * 2 + (if m.pay.isSome then 1 else 0)
/-- What changes when a completion entry is written: the ring's tail. -/
def compSig (s : State) (c : Nat) : Nat := (getR s (kCtx c 0x1C)).toNat
/-- What changes when a flit of a VC is sent. -/
def spanSig (s : State) (P v : Nat) : Nat := listGet 0 (linkOf s P).sent v

/-- The queues whose progress the model sees and that are not empty, with what changes when they progress and whether their watchdogs count
now: those of a halted context and of a cluster that wakes do not (15 R446, 16 R483). -/
def watched (s : State) : List (Nat × Nat × Bool) :=
  (s.eng.cmds.filter fun m => headCmd s (m.queue / 4096) (cmdUnit s m) m.ctx == some m).map (fun m =>
    (engKey (m.queue / 4096) (cmdUnit s m) m.ctx, headSig m, brkState s m.ctx != 2 && !isWaking s (m.queue / 4096) (cmdUnit s m))) ++
  (s.jobs.rings.filter fun x => x.2.resv != 0).map (fun x => (compKey x.1, compSig s x.1, true)) ++
  s.span.links.flatMap fun x => ((rangeFrom 0 4).filter fun v => (takeVc v x.2.txq).isSome).map fun v => (spanKey x.1 v, spanSig s x.1 v, true)

/-- One AO tick of the watchdogs: a queue that has not progressed since the last counts one more; one that has starts from 0. A queue whose progress
the model does not see falls silent when it fires, until a free value says that it has progressed; an HBM group progresses in every tick (08 R225). -/
def tickWatch (s : State) : State :=
  let old := s.dbg.wdg
  let wdg := (watched s).map fun (k, g, on) =>
    match tabFind k old with
    | some (h, n) => if h = g then (k, g, if on then n.map (· + 1) else n) else (k, g, some 0)
    | none => (k, g, some 0)
  let s := { s with dbg := { s.dbg with wdg := wdg } }
  if s.dbg.quiet.isEmpty then s
  else bumpFree { s with dbg := { s.dbg with quiet := s.dbg.quiet.filter fun k => decide (k < grpKey 0) && Config.freeNat (s.free + k) % 2 == 0 } }

/-- The timeout of a partition's queues (14 R442). -/
def wdgTmo (s : State) (p : Nat) : Nat := getF s (kPart p 0x104) 27 0

/-- Whether a watchdog has counted to its timeout and is not silent. -/
def wdgDue (s : State) (p k g : Nat) : Bool :=
  match tabFind k s.dbg.wdg with
  | some (h, some n) => h == g && decide (wdgTmo s p ≤ n)
  | _ => false

/-- A watchdog that has fired is silent until its queue progresses (14 R430). -/
def wdgSilent (k g : Nat) (s : State) : State :=
  { s with dbg := { s.dbg with wdg := tabPut (fun _ _ => false) k (g, none) s.dbg.wdg } }
def beQuiet (k : Nat) (s : State) : State := { s with dbg := { s.dbg with quiet := setIns k s.dbg.quiet } }

/-- The partition and the context of the packet at the head of a port's VC: no context for a response or a management message; nothing to read
once the packet has begun to leave. -/
def headOwner (s : State) (P v : Nat) : Option (Nat × Option Nat) :=
  let l := linkOf s P
  if l.mid && (match l.txq with | (u, _) :: _ => u == v | [] => false) then none
  else match takeVc v l.txq with
    | some (f :: _, _) =>
      let w : Word := BitVec.ofNat 32 (leAt f.slots 8 4)
      some (fld w 26 22, if v = 0 ∨ v = 2 then some (fld w 21 12) else none)
    | _ => none

end Sys2Proof.Machine
end

