-- ==== Sys2Proof/Machine/Power.lean ====
section
/-! DEFINITION. Supplies, rails, pins, clusters' power domains, throttling, SMBus and the TAP (chapters 16 and 17), and the
boot of the root-of-trust processor (12 R364-R371). -/

namespace Sys2Proof.Machine

def modPwr (f : Power → Power) (s : State) : State := { s with pwr := f s.pwr }
def modSec (f : Sec → Sec) (s : State) : State := { s with sec := f s.sec }
def setSvc (v : Nat) (s : State) : State := setF 0x100 31 29 v s
def setCause (v : Nat) (s : State) : State := setF 0x100 15 8 v s
def pwrEvt (b : Nat) (s : State) : State := orR 0x104 (2 ^ b) s

/-- Registers that a loss of the VIN rails leaves: PWR_STATE and PWR_EVT, the security block, module number and generation,
epochs and key counts (16 R476, R500; 12 R398; log 15). -/
def keptOnVinLoss (k : Nat) : Bool :=
  k == 0x100 || k == 0x104 || (decide (0x400 ≤ k) && decide (k < 0x414)) || k == 0x1000 || k == 0x1004 ||
    (decide (0x100000 ≤ k) && decide (k < 0x180000) && (k % 0x4000 == 0x1000 || k % 0x4000 == 0x88))

/-- Registers that PERST# leaves: those and the rest of the power block (17 R514). -/
def keptOnPerst (k : Nat) : Bool := keptOnVinLoss k || (decide (0x100 ≤ k) && decide (k < 0x130))

/-- Keep only registers that satisfy a test; the others return to reset. -/
def keepRegs (p : Nat → Bool) (s : State) : State := { s with regs := s.regs.filter fun (k, _) => p k }

/-- The VIN domains lose their supply or are reset (16 R476): memories, engines, rings, partitions and links are gone;
the RTP, epochs and pending notices stay. -/
def vinLost (s : State) : State :=
  let s := keepRegs keptOnVinLoss s
  let s := { s with
    latch := [], mem := [], eng := {}, jobs := {}, parts := [], red := [], hbm := {}
    span := { s.span with links := [], tags := [], waits := [] }
    sec := { s.sec with mailBusy := [], bodies := [] }
    dbg := { s.dbg with dumps := [], fired := [], halting := [], steps := [], wdg := [], quiet := [], pcs := [] }
    pwr := { s.pwr with rails := 0, raising := false, pwrgd := false, pfReady := false, ratio := 256, rate := 6, width := 16
                        dripOk := false, fullOk := false, fill := [], early := [], waking := [] } }
  setN 0x110 (peakW s) (set64 0x408 0 s)

/-- An emergency power-down with a cause (16 R476). With the rails down nothing happens. -/
def emergency (cause : Nat) (s : State) : State :=
  if s.pwr.rails = 0 ∧ !s.pwr.raising then s
  else modPwr (fun p => { p with faultLow := true }) (pwrEvt 3 (setCause cause (setSvc 4 (vinLost s))))

/-- Start bringing the VIN rails up when everything 16 R474 asks for holds. -/
def tryBringUp (s : State) : State :=
  let p := s.pwr
  if p.vaux && (s.sec.ready || bit (getR s 0x400) 30) && p.modEn && p.vinOk && !p.needLow && p.rails == 0 && !p.raising then
    let s := modPwr (fun p => { p with raising := true, faultLow := false }) s
    if bit (getR s 0x400) 30 then s else setSvc 1 s
  else s

/-- VAUX_UP (15 R467, 17 R511, 09 R260): the always-on domain starts, DTIME starts at 0, the address straps are sampled, the
RTP draws the starting epochs. -/
def doVauxUp (straps : Nat) (s : State) : State :=
  let s := { s with time := {} }
  let s := modPwr (fun p => { p with vaux := true, straps := straps, lowAt := if p.modEn then none else some 0 }) s
  let s := setF 0x400 7 0 s.sec.svnMin s
  each (rangeFrom 0 32) (fun p t =>
    bumpFree (setN (kPart p 0x1000) ((Config.random t.free).toNat % 65536) t)) s

def execVauxUp (straps : BitVec 2) (s : State) : Out := .next (doVauxUp straps.toNat s)

/-- Flash as it stands (12 R368). -/
def flashByte (s : State) (a : Nat) : Byte := (tabFind a s.sec.flash).getD (Config.flashInit a)
def flashBytes (s : State) (a n : Nat) : List Byte := (rangeFrom a n).map (flashByte s)
/-- First byte of a firmware slot: A or B. -/
def fwBase (b : Bool) : Nat := if b then 0x02000000 else 0
def fwSvn (s : State) (b : Bool) : Nat := leNat (flashBytes s (fwBase b + 4) 2)
def fwDigest (s : State) (b : Bool) : List Byte := flashBytes s (fwBase b + 12) 32
def svnMin (s : State) : Nat := s.sec.svnMin

/-- Whether an image is valid (12 R369). -/
def fwValid (s : State) (b : Bool) : Bool :=
  let o := fwBase b
  let hdr := flashBytes s o 44
  let len := leNat (flashBytes s (o + 8) 4)
  leNat (flashBytes s o 4) == 0x57463944 &&
  Config.sigOk 0 0 hdr (flashBytes s (o + 44) 64) && Config.sigOk 1 0 hdr (flashBytes s (o + 108) 3309) &&
  decide (len ≤ 33550336) && fwDigest s b == sha3 (flashBytes s (o + 4096) len) &&
  decide (svnMin s ≤ fwSvn s b)

/-- The boot ROM's choice (12 R369): an image, or a recovery code. -/
def bootChoice (s : State) : Except Nat Bool :=
  let va := fwValid s false
  let vb := fwValid s true
  let sa := fwSvn s false
  let sb := fwSvn s true
  if va && vb then
    if sa < sb then .ok true
    else if sb < sa then .ok false
    else if fwDigest s false = fwDigest s true then .ok false
    else .error 2
  else if va then .ok false
  else if vb then .ok true
  else .error 1

/-- The running image is `b`: its SVN and digest are shown, the RTP is ready. -/
def runImage (b : Bool) (s : State) : State :=
  let d := fwDigest s b
  let v := fwSvn s b
  let s := modSec (fun x => { x with ready := true, hasImage := true, runDigest := d, misses := 0 }) s
  setF 0x400 30 30 0 (setF 0x400 29 29 (if b then 1 else 0) (setF 0x400 15 8 v (setF 0x404 7 0 0 s)))

/-- The boot ROM enters recovery (12 R369). -/
def enterRecovery (code : Nat) (s : State) : State :=
  let s := modSec (fun x => { x with ready := false, hasImage := false, misses := 0 }) s
  let s := setF 0x400 30 30 1 (setF 0x404 7 0 code s)
  if svc s = 0 then setSvc 5 s else s

/-- Requests that an RTP restart cut off complete with 0xC7 once it runs again (12 R364, 18 R533). -/
def replyC7 (s : State) : State :=
  let l := s.sec.mailBusy
  let s := { s with parts := s.parts.map fun (p, x) => (p, { x with destroyWaits := false }) }
  each l (fun (f, c) => mbReply f c 0xC7 []) (modSec (fun x => { x with mailBusy := [] }) s)

/-- The boot ROM runs (12 R369): with fuses it cannot read it enters recovery with code 0x03 (12 R399). Whether it can is a free value (log 8). -/
def doBoot (s : State) : State :=
  if s.pwr.vaux then
    let s := if Config.fusesRead s.free then
        (match bootChoice s with
         | .ok b => runImage b s
         | .error c => enterRecovery c s)
      else enterRecovery 3 s
    tryBringUp (replyC7 (bumpFree s))
  else s

def execBootImageSelect (s : State) : Out := .next (doBoot s)

/-- Loss of VAUX (16 R476): all state is lost; flash, fuses and the record of what has left the module stay. -/
def doVauxLost (s : State) : State :=
  { State.reset with
    assy := s.assy
    regs := [(0x110, BitVec.ofNat 32 (peakW s))]
    sec := { flash := s.sec.flash, svnMin := s.sec.svnMin, dbgFuse := s.sec.dbgFuse, pref := s.sec.pref,
             mekSerial := s.sec.mekSerial }
    pwr := { modEn := s.pwr.modEn, vinOk := s.pwr.vinOk, leak := s.pwr.leak, perst := s.pwr.perst }
    span := { out := s.span.out }
    host := s.host, free := s.free, pending := s.pending }

def execVauxLost (s : State) : Out := .next (doVauxLost s)

/-- MOD_EN rises (16 R474, R475): after a rail failure it counts only when it was low for 10 ms. -/
def doModEnRise (s : State) : State :=
  let long := match s.pwr.lowAt with | some t => decide (10000000 ≤ now s - t) | none => false
  tryBringUp (modPwr (fun p => { p with modEn := true, lowAt := none, needLow := p.needLow && !long }) s)

def execModEnRise (s : State) : Out := .next (doModEnRise s)

/-- VIN reaches 38 V (16 R474): a module that waits starts; one held on a fault does not. -/
def doVinEnters (s : State) : State :=
  let s := modPwr (fun p => { p with vinOk := true }) s
  if svc s = 4 then s else tryBringUp s

def execVinEntersRange (s : State) : Out := .next (doVinEnters s)

/-- A rail family is good (16 R475): the next starts; after the third PWRGD rises. With the core family up the drip clusters
run their self-test, except in recovery (R495). -/
def doRailGood (s : State) : State :=
  if s.pwr.raising then
    let n := s.pwr.rails + 1
    let s := modPwr (fun p => { p with rails := n, raising := decide (n < 3), pwrgd := decide (3 ≤ n) }) s
    if n = 2 ∧ svc s ≠ 5 then each [0, 8, 16, 24] (fun c => setClst c 0) s else s
  else s

def execRailFamilyGood (s : State) : Out := .next (doRailGood s)

/-- A family misses its 5 ms (16 R475): the families go down, cause 0xF2, FAULT_N low, and MOD_EN must go low first. -/
def doRailTimeout (s : State) : State :=
  if s.pwr.raising then
    modPwr (fun p => { p with faultLow := true, needLow := true }) (setCause 0xF2 (setSvc 4 (vinLost s)))
  else s

def execRailFamilyTimeout (s : State) : Out := .next (doRailTimeout s)

/-- The sealed partitions. -/
def sealedPids (s : State) : List Nat := (rangeFrom 0 32).filter fun p => partState s p == 2

/-- PART_DOWN for every sealed partition. -/
def allDown (cause : Nat) (s : State) : State := each (sealedPids s) (fun p t => noticeDown p (epochOf t p) cause t) s

/-- MOD_EN falls (16 R477): in service, PART_DOWN goes out and the rails go down, cause 0xF7; no completion is written. -/
def doModEnFall (s : State) : State :=
  let s := modPwr (fun p => { p with modEn := false, lowAt := some (now s) }) s
  if s.pwr.rails = 0 ∧ !s.pwr.raising then s
  else
    let s := if svc s = 2 ∨ svc s = 3 then allDown 0xF7 s else s
    let s := vinLost s
    setCause 0xF7 (if svc s = 5 then s else setSvc 0 s)

def execModEnFall (s : State) : Out := .next (doModEnFall s)

def execVinUndervoltage (s : State) : Out := .next (emergency 0xF0 (modPwr (fun p => { p with vinOk := false }) s))
def execVinOvervoltage (s : State) : Out := .next (emergency 0xF1 s)

/-- Whether the die of a sensor is present (17 R516). -/
def sensorHere (s : State) (n : Nat) : Bool :=
  if n = 34 ∨ n = 35 then xdies s == 2 else if 36 ≤ n ∧ n < 48 then decide (n - 36 < stackCount s) else decide (n < 54)

/-- Throttle limit of a sensor in °C (17 R516). -/
def throttleLimit (n : Nat) : Option Int :=
  if n < 36 then some 95 else if n < 48 then some 90 else if n < 52 then some 115 else none

/-- A sensor exceeds its critical limit (17 R516); the coolant sensors have none. -/
def doTempCritical (n : Nat) (s : State) : State :=
  if n < 52 ∧ sensorHere s n then emergency 0xF3 s else s

def execDieTempCritical (sensor : BitVec 6) (s : State) : Out := .next (doTempCritical sensor.toNat s)

/-- Apply a clock ratio to every cluster (16 R487, R488, R491): THROT and vector 0 of the PF when throttling begins. -/
def setRatio (v : Nat) (s : State) : State :=
  let began := s.pwr.ratio = 256 ∧ v < 256
  let s := modPwr (fun p => { p with ratio := v }) s
  let s := setF 0x868 15 0 v s
  let s := each (rangeFrom 0 32) (fun p => setF (kPart p 0x208) 15 0 v) s
  if began then vec0 0 (pwrEvt 0 s) else s

/-- Bit of PWR_THSRC of a fast source (16 R500). -/
def fastBit (src : FastSrc) : Nat := match src with | .vin => 0 | .iin => 1 | .ext => 4

/-- A fast source becomes active (16 R488): RATIO at most 0x0080. -/
def doFastSource (src : FastSrc) (s : State) : State :=
  setRatio (min s.pwr.ratio 0x80) (orR 0x11C (2 ^ fastBit src) s)

def execThrottleFastSource (src : FastSrc) (s : State) : Out := .next (doFastSource src s)
def execFastSourceEnd (src : FastSrc) (s : State) : Out := .next (andnR 0x11C (2 ^ fastBit src) s)

/-- The 1 ms sample of the inputs (16 R488, R500). -/
def doPcapSample (vin iin pin : Nat) (s : State) : State :=
  let s := setN 0x108 (iin * 65536 + vin) (setN 0x10C pin s)
  let s := modPwr (fun p => { p with vinOk := decide (3800 ≤ vin) }) s
  if getF s 0x110 15 0 < pin then orR 0x11C 4 s else andnR 0x11C 4 s

def execPcapSample (vin iin pin : BitVec 16) (s : State) : Out := .next (doPcapSample vin.toNat iin.toNat pin.toNat s)

/-- A sensor's reading in units of 0.125 °C, if valid. -/
def sensorTemp (s : State) (n : Nat) : Option Int :=
  let v := getR s (0x200 + 4 * n)
  if bit v 31 then some (signed 16 v.toNat) else none

/-- Whether every sensor is at least 3 °C below its throttle limit (16 R489). -/
def coolEnough (s : State) : Bool :=
  (rangeFrom 0 54).all fun n => match throttleLimit n, sensorTemp s n with
    | some l, some t => decide (t ≤ (l - 3) * 8)
    | _, _ => true

/-- The 1 ms step of RATIO (16 R488, R489): down while a slow source is active, up when nothing holds it. -/
def doRatioStep (s : State) : State :=
  let src := getF s 0x11C 4 0
  if bit (getR s 0x11C) 2 || bit (getR s 0x11C) 3 then setRatio (max 0x40 (s.pwr.ratio - 8)) s
  else if src = 0 ∧ getF s 0x10C 15 0 * 100 ≤ getF s 0x110 15 0 * 97 ∧ coolEnough s then
    setRatio (min 256 (s.pwr.ratio + 8)) s
  else s

def execRatioStep (s : State) : Out := .next (doRatioStep s)

/-- RATIO has stood at its floor for 100 ms with PCAP or TEMP active (16 R490). -/
def doFloorTimeout (s : State) : State :=
  if s.pwr.ratio = 0x40 ∧ (bit (getR s 0x11C) 2 || bit (getR s 0x11C) 3) then emergency 0xF4 s else s

def execThrottleFloorTimeout (s : State) : Out := .next (doFloorTimeout s)

/-- One thermal register from a reading; 0x8000 is no reading (17 R517). -/
def sensorReg (here : Bool) (n : Nat) (t : BitVec 16) : Word :=
  if !here || t == 0x8000 then 0x8000
  else
    let hot := match throttleLimit n with | some l => decide (l * 8 < t.toInt) | none => false
    BitVec.ofNat 32 (2 ^ 31 + (if hot then 2 ^ 30 else 0) + t.toNat)

/-- The 1 ms update of the thermal block; TEMP is active while a sensor is above its limit (16 R488, 17 R516, R517). -/
def doSensorUpdate (ts : List (BitVec 16)) (s : State) : State :=
  let s := each (rangeFrom 0 54) (fun n t => setR (0x200 + 4 * n) (sensorReg (sensorHere t n) n (listGet 0x8000 ts n)) t) s
  if (rangeFrom 0 54).any fun n => bit (getR s (0x200 + 4 * n)) 30 then orR 0x11C 8 s else andnR 0x11C 8 s

def execSensorUpdate (temps : List (BitVec 16)) (s : State) : Out := .next (doSensorUpdate temps s)

def execLeakDetect (s : State) : Out := .next (modPwr (fun p => { p with leak := true }) s)
def execLeakClear (s : State) : Out := .next (modPwr (fun p => { p with leak := false }) s)

/-- Whether SMB_ALERT# is driven low (17 R511). -/
def smbAlertLow (s : State) : Bool := getF s 0x104 3 0 != 0 || s.pwr.leak

/-- The states of the module that 17 R513 tells apart. -/
inductive ModState where
  | unpowered | standby | inReset | running
  deriving DecidableEq, Repr

/-- The state of the module. -/
def modState (s : State) : ModState :=
  if !s.pwr.vaux then .unpowered else if !s.pwr.pwrgd then .standby else if s.pwr.perst then .inReset else .running

/-- What an output contact does (17 R513): high impedance, driven or pulled low, driven high, a transmitter in electrical idle or sending, a receiver
terminated, or in use. -/
inductive Contact where
  | off | low | high | idle | sends | terminated | active
  deriving DecidableEq, Repr

/-- The PCIe transmitters and receivers (17 R513): per PCIe once running, terminated from detection onward. -/
def pcieTx (s : State) : Contact :=
  match modState s with
  | .unpowered | .standby => .off
  | .inReset => .idle
  | .running => if s.pwr.pfReady then .sends else .idle
def pcieRx (s : State) : Contact :=
  match modState s with
  | .running => if s.pwr.pfReady then .terminated else .off
  | _ => .off

/-- The transmitter and the receiver of a Span port (17 R513; 09 R245): per 802.3dj when up, terminated while EN is 1. -/
def spanTx (s : State) (x : Nat) : Contact :=
  match modState s with
  | .unpowered | .standby => .off
  | .inReset => .idle
  | .running => if portUp s x then .sends else .idle
def spanRx (s : State) (x : Nat) : Contact :=
  match modState s with
  | .running => if bit (getR s (kP x 0)) 31 then .terminated else .off
  | _ => .off

/-- PWRGD, FAULT_N, SMB_ALERT# and LEAK_N as the module drives them (17 R511, R513; 16 R476). -/
def pwrgdPin (s : State) : Contact := if s.pwr.vaux && s.pwr.pwrgd then .high else .low
def faultPin (s : State) : Contact :=
  match modState s with
  | .standby | .running => if s.pwr.faultLow then .low else .off
  | _ => .off
def alertPin (s : State) : Contact := if s.pwr.vaux && smbAlertLow s then .low else .off
def leakPin (s : State) : Contact := if s.pwr.vaux && s.pwr.leak then .low else .off

/-- The debug group (17 R512, R513). -/
def debugPins (s : State) : Contact := if s.pwr.vaux && s.pwr.pwrgd then .active else .off

/-- PERST# is asserted while the module runs (17 R514). -/
def doPerst (s : State) : State :=
  if s.pwr.pwrgd && !s.pwr.perst then
    let s := allDown 0xE2 s
    let s := { s with jobs := { s.jobs with subs := [], groups := [], drains := [] } }
    let s := each ((rangeFrom 0 32).filter fun p => partState s p != 0) (fun p t => finishDestroy p (setPartState p 4 t)) s
    let s := keepRegs keptOnPerst s
    { s with
      latch := [], jobs := {}, red := [], parts := s.parts
      span := { s.span with links := [], tags := [], waits := [] }
      sec := { s.sec with mailBusy := [], bodies := [] }
      dbg := { s.dbg with dumps := [], fired := [], halting := [], steps := [], wdg := [], quiet := [], pcs := [] }
      pwr := { s.pwr with perst := true, pfReady := false } }
  else modPwr (fun p => { p with perst := true, pfReady := false }) s

def execPerstAssert (s : State) : Out := .next (doPerst s)
/-- PERST# is released: the link trains (16 R493). -/
def execPerstRelease (s : State) : Out := .next (modPwr (fun p => { p with perst := false }) s)
/-- The rate, 1 to 6, and the width, x4, x8 or x16, that the host link trains at (10 R286): the link partner decides them, so they are free values
(log 92). -/
def trainedAt (s : State) : Nat × Nat :=
  let (r, w) := Config.linkTrained s.free
  (1 + r % 6, 4 * 2 ^ (w % 3))

/-- Training ends, at a rate and a width: the PF answers and all VFs are present (16 R493). -/
def doPfReady (s : State) : State :=
  if s.pwr.pwrgd && !s.pwr.perst then
    bumpFree (modPwr (fun p => { p with pfReady := true, rate := (trainedAt s).1, width := (trainedAt s).2 }) s)
  else modPwr (fun p => { p with pfReady := false }) s

def execPfReady (s : State) : Out := .next (doPfReady s)

/-- A function-level reset of a VF, 1 to 32 (10 R287, 14 R432, 18 R533). -/
def execFlrVf (v : BitVec 6) (s : State) : Out :=
  .next (if 1 ≤ v.toNat ∧ v.toNat ≤ 32 then startPartReset (v.toNat - 1) 0xE2 none (mbReset v.toNat s) else s)
/-- A function-level reset of the PF resets every partition (10 R287). -/
def execFlrPf (s : State) : Out :=
  .next (each (rangeFrom 0 32) (fun p => startPartReset p 0xE2 none) (mbReset 0 s))

/-- The drip clusters' self-test ends (16 R494). -/
def doDripTest (ok : Bool) (s : State) : State :=
  if svc s = 1 ∧ s.pwr.pwrgd then
    let s := each [0, 8, 16, 24] (fun c => setClst c 3) s
    if ok then modPwr (fun p => { p with dripOk := true }) (setSvc 2 s)
    else modPwr (fun p => { p with faultLow := true }) (pwrEvt 2 (setCause 0xF5 (setSvc 4 s)))
  else s

def execDripSelftestDone (pass : Bool) (s : State) : Out := .next (doDripTest pass s)

/-- Self-test after DRIP ends (16 R494, R496, R499): full service and the fill, or drip service with a cause. -/
def doFullTest (cl hbm : Bool) (s : State) : State :=
  if svc s = 2 then
    if cl && hbm then
      setF 0x12C 20 0 (fillBlocks * groupsN s) (modPwr (fun p => { p with fullOk := true, fill := [], early := [] }) (setSvc 3 s))
    else
      let s := setCause (if cl then 0xF6 else 0xF5) s
      let s := if cl then s else pwrEvt 2 s
      let s := if hbm then s else pwrEvt 1 s
      modPwr (fun p => { p with faultLow := true }) s
  else s

def execFullSelftestDone (clustersPass hbmPass : Bool) (s : State) : Out := .next (doFullTest clustersPass hbmPass s)

/-- The next block of a group is filled with zero codewords, in ascending row order; a block that an access had filled is passed (16 R496). -/
def doFill (g : Nat) (s : State) : State :=
  let n := ((rangeFrom (tab0 s.pwr.fill g) (fillBlocks - tab0 s.pwr.fill g)).find? fun b => !s.pwr.early.contains (g * fillBlocks + b)).getD fillBlocks
  if svc s = 3 ∧ g < groupsN s ∧ n < fillBlocks then
    setF 0x12C 20 0 (getF s 0x12C 20 0 - 1) (modPwr (fun p => { p with fill := tabSet0 g (n + 1) p.fill }) s)
  else s

def execHbmFillBlock (group : BitVec 7) (s : State) : Out := .next (doFill group.toNat s)

/-- The partition that holds a cluster. -/
def clOwner (s : State) (c : Nat) : Option Nat := (rangeFrom 0 32).find? fun p => partState s p != 0 && bit (clMask s p) c

/-- Whether a cluster has work: a command queued, a runnable context, or rows on their way to its engines (16 R481). -/
def clBusy (s : State) (c : Nat) : Bool :=
  s.eng.cmds.any (fun x => x.core / 16 == c) || (coresOf [c]).any (fun n => !(readyCtxs s 0 n).isEmpty) ||
    s.eng.cmbRows.any (fun r => r.dst == c) || s.eng.pourRows.any (fun r => r.core / 16 == c) || s.eng.full.any (fun f => f.cl == c)

/-- A cluster with nothing to do is gated (16 R481). -/
def doGate (c : Nat) (s : State) : State :=
  if clst s c = 0 ∧ !clBusy s c then setClst c 1 s else s

def execClusterGate (cl : BitVec 5) (s : State) : Out := .next (doGate cl.toNat s)

/-- Whether 16 R484 forbids OFF: NOSLEEP, or a resident context with an admitted deadline entry (a PERIOD record). -/
def noOff (s : State) (c : Nat) : Bool :=
  match clOwner s c with
  | none => false
  | some p =>
    bit (getR s (kPart p 0x200)) 0 ||
    (coresOf [c]).any fun n => (s.jobs.images.any fun i =>
      i.pid == p && (slotOf s n i.ctx).isSome && i.recs.any fun r => r.typ % 32768 == 2)

/-- A gated cluster goes OFF after PWR_IDLE (16 R481, R484). -/
def doOff (c : Nat) (s : State) : State :=
  if clst s c = 1 ∧ getF s 0x128 15 0 ≠ 0 ∧ !noOff s c then setClst c 2 s else s

def execClusterOff (cl : BitVec 5) (s : State) : Out := .next (doOff cl.toNat s)

/-! Power domains (01 R25, 16 R482) -/

/-- The separately switched power domains. -/
inductive Domain where
  | cluster (c : Nat)
  | fabric (die : Nat)
  | bdie (stack : Nat)
  | hiu
  | ports (x half : Nat)
  | reduction (x : Nat)
  | telemetry
  | dieBridge
  | capture
  | alwaysOn
  deriving DecidableEq, Repr

/-- The domains of the assembly. -/
def domains (s : State) : List Domain :=
  (rangeFrom 0 32).map .cluster ++ (rangeFrom 0 4).map .fabric ++ (rangeFrom 0 (stackCount s)).map .bdie ++
  [.hiu, .ports 0 0, .ports 0 1, .reduction 0, .telemetry, .dieBridge] ++
  (if xdies s = 2 then [.ports 1 0, .ports 1 1, .reduction 1, .capture] else []) ++ [.alwaysOn]

/-- Power state of a domain: 0 on, 1 gated, 2 off. -/
def domainPower (s : State) (d : Domain) : Nat :=
  let on (b : Bool) : Nat := if b then 0 else 2
  match d with
  | .cluster c => min 2 (clst s c)
  | .fabric _ => on (svc s == 2 || svc s == 3)
  | .bdie _ => on (svc s == 3)
  | .hiu | .telemetry | .dieBridge => on (s.pwr.modEn && s.pwr.pwrgd)
  | .ports x h => on ((rangeFrom (16 * x + 8 * h) 8).any fun P => bit (getR s (kP P 0)) 31)
  | .reduction x => on ((rangeFrom (8 * x) 8).any fun k => bit (getR s (kRdc k 0)) 31)
  | .capture => on (svc s == 3)
  | .alwaysOn => on s.pwr.vaux

/-- Something reaches a cluster below RUN (16 R483): it wakes. -/
def doWake (c : Nat) (s : State) : State :=
  if clst s c ≠ 0 ∧ (clOwner s c).isSome then modPwr (fun p => { p with waking := setIns c p.waking }) s else s

/-- A dispatch reaches clusters (16 R483). -/
def wakeAll (cls : List Nat) : State → State := each cls doWake

def execClusterWake (cl : BitVec 5) (s : State) : Out := .next (doWake cl.toNat s)

/-- The wake ends in RUN; leaving DARK zeroes the cluster's memories (16 R481). -/
def doWakeDone (c : Nat) (s : State) : State :=
  if s.pwr.waking.contains c then
    let s := if clst s c = 3 then zeroClusters [c] s else s
    setClst c 0 (modPwr (fun p => { p with waking := setDel c p.waking }) s)
  else s

def execClusterWakeDone (cl : BitVec 5) (s : State) : Out := .next (doWakeDone cl.toNat s)

/-- In an AO tick a channel group serves its queue at 320 GB/s (08 R225), and each partition with a master that waits for a credit counts the
tick (08 R234). -/
def hbmTick (ns : Nat) (s : State) : State :=
  let s := { s with hbm := { s.hbm with occ := (s.hbm.occ.map fun (g, n) => (g, n - ns * 5 / 4)).filter fun x => x.2 != 0 } }
  each ((rangeFrom 0 32).filter fun p => s.hbm.waits.any fun x => x.2.2 == p) (fun p => inc64 (kPart p 0x248) 1) s

/-- One AO tick (15 R467; 08 R234; 11 R535: service credits; 14 R429: watchdogs; 15 R450, 16 R491, R501: ticks under throttle). -/
def doTick (s : State) : State :=
  let add := tickLen s
  let s := { s with time := { s.time with dtime := s.time.dtime + BitVec.ofNat 64 add
                                          phase := if s.time.phase = 11 then 0 else s.time.phase + 1 } }
  let s := tickWatch (accrue add (hbmTick add s))
  if s.pwr.ratio < 256 then each (sealedPids s) (fun p => inc64 (kPart p 0x20C) 1) (inc64 0x860 1 s) else s

def execDtimeTick (s : State) : Out := .next (doTick s)

/-- A unit posts its heartbeat to the AOC (15 R465). -/
def execUnitHeartbeat (cls : Byte) (unit : BitVec 12) (s : State) : Out :=
  .next { s with dbg := { s.dbg with hearts := tabPut (fun _ _ => false) (cls.toNat * 65536 + unit.toNat) (now s) s.dbg.hearts } }

/-- The RTP writes its heartbeat (12 R364). -/
def execRtpHeartbeat (s : State) : Out := .next (modSec (fun x => { x with misses := 0 }) s)

/-- The AOC restarts the RTP after 100 missed heartbeats (12 R364): what only the RTP held is gone. -/
def doRtpRestart (s : State) : State :=
  let s := inc32 0x410 1 s
  let s := endFmSess s
  let s := { s with parts := s.parts.map fun (p, x) => (p, { x with kex := [] }) }
  modSec (fun x => { x with ready := false, hasImage := false, nonce := [], spdm := [], misses := 100 }) s

def execRtpRestart (s : State) : Out := .next (doRtpRestart s)

/-- The entropy source fails its health test (12 R366). -/
def execEntropyFail (s : State) : Out := .next (setF 0x400 26 26 1 s)

/-! SMBus (17 R511) and TAP (17 R512) -/

/-- The SMBus data of a read; with VAUX absent nothing answers. -/
def smbGive (v : Nat) (s : State) : State :=
  { s with bus := { s.bus with smb := if s.pwr.vaux then some (BitVec.ofNat 16 v) else none } }

/-- A reading that is 0x8000 while the VIN rails are down. -/
def railsOr (s : State) (v : Nat) : Nat := if s.pwr.pwrgd then v else 0x8000

def execSmbReadState (s : State) : Out := .next (smbGive (svc s + (if s.pwr.pwrgd then 128 else 0)) s)
def execSmbReadVin (s : State) : Out := .next (smbGive (railsOr s (getF s 0x108 15 0)) s)
def execSmbReadIin (s : State) : Out := .next (smbGive (railsOr s (getF s 0x108 31 16)) s)
def execSmbReadPin (s : State) : Out := .next (smbGive (railsOr s (getF s 0x10C 15 0)) s)
def execSmbReadEvt (s : State) : Out := .next (smbGive (getF s 0x104 3 0 + (if s.pwr.leak then 128 else 0)) s)
def execSmbReadCause (s : State) : Out := .next (smbGive (getF s 0x100 15 8) s)
/-- Sensor select, 0 to 53; any other value is no selection and is discarded (log 16). -/
def execSmbSensorSelect (n : Byte) (s : State) : Out :=
  .next (if n.toNat < 54 ∧ s.pwr.vaux then modPwr (fun p => { p with sensor := n.toNat }) s else s)
def execSmbReadTemp (s : State) : Out := .next (smbGive (railsOr s (getF s (0x200 + 4 * s.pwr.sensor) 15 0)) s)

/-- The TAP's data register; the debug group is powered from the I/O family (17 R509, R513). -/
def tapGive (v : Word) (s : State) : State := if s.pwr.pwrgd then { s with bus := { s.bus with tdo := v } } else s

def execTapIdcode (s : State) : Out := .next (tapGive 0x1D909C4B s)
def execTapBypass (s : State) : Out := .next (tapGive 0 s)

end Sys2Proof.Machine
end

