-- ==== Sys2Proof/Machine/Submit.lean ====
section
/-! DEFINITION. Rings, doorbells, submissions: fetch, copies, RUNs and their periods (10 R289-R309; 11 R350-R353; 12 R382-R384). -/

namespace Sys2Proof.Machine

/-! Ring registers -/

/-- A write of CTX_SQ_CFG by a function (10 R291, R292): while the ring is enabled FMT and LOG2SZ stay, and a write
that would change them is counted; a reserved LOG2SZ discards the whole write (00 R10). Enabling starts the ring and takes the
binding (R289); disabling gives it up. -/
def writeSqCfg (fn c : Nat) (v : Word) (s : State) : State :=
  let old := sqCfg s c
  if bit old 31 then
    let s := if (v &&& 0x11F) = (old &&& 0x11F) then s else accErr fn s
    let s := setR (kCtx c 8) ((v &&& 0x80000000) ||| (old &&& 0x11F)) s
    if bit v 31 then s else modRing c (fun r => { r with bound := none }) s
  else if fld v 4 0 < 4 ∨ 16 < fld v 4 0 then accErr fn s
  else
    let s := setR (kCtx c 8) (v &&& 0x8000011F) s
    if bit v 31 then
      let s := setF (kCtx c 0x20) 31 31 0 (setF (kCtx c 0x20) 23 16 0 s)
      let s := setR (kCtx c 0x0C) 0 (setR (kCtx c 0x24) 0 s)
      modRing c (fun r => { r with tail := 0, bound := some (homeFn s c) }) s
    else s

/-- Whether a value of CTX_CQ_CFG enables the ring with a vector that the bound function's MSI-X table does not have, or with vector 0: the PF's
table has 2,048 entries, a VF's 129 (10 R286, R287, R291). A ring that stays disabled has no vector to check (log 30). -/
def vecBad (s : State) (c : Nat) (v : Word) : Bool :=
  bit v 31 && (fld v 30 20 == 0 || decide ((if boundFn s c = 0 then 2048 else 129) ≤ fld v 30 20))

/-- A write of CTX_CQ_CFG by a function (10 R291, R292). -/
def writeCqCfg (fn c : Nat) (v : Word) (s : State) : State :=
  let old := cqCfg s c
  if vecBad s c v then accErr fn s
  else if bit old 31 then
    let s := if (v &&& 0x1F) = (old &&& 0x1F) then s else accErr fn s
    setR (kCtx c 0x18) ((v &&& 0xFFFFFFE0) ||| (old &&& 0x1F)) s
  else if fld v 4 0 < 4 ∨ 16 < fld v 4 0 then accErr fn s
  else
    let s := setR (kCtx c 0x18) v s
    if bit v 31 then
      modRing c (fun r => { r with cqHead := 0, modCnt := 0 }) (setR (kCtx c 0x1C) 0x10000 s)
    else s

def execSqEnable (ctx : BitVec 10) (val : Word) (s : State) : Out :=
  .next (writeSqCfg 0 ctx.toNat (val ||| 0x80000000) s)
def execSqDisable (ctx : BitVec 10) (val : Word) (s : State) : Out :=
  .next (writeSqCfg 0 ctx.toNat (val &&& 0x7FFFFFFF) s)
def execCqEnable (ctx : BitVec 10) (val : Word) (s : State) : Out :=
  .next (writeCqCfg 0 ctx.toNat (val ||| 0x80000000) s)
def execCqDisable (ctx : BitVec 10) (val : Word) (s : State) : Out :=
  .next (writeCqCfg 0 ctx.toNat (val &&& 0x7FFFFFFF) s)

/-- A write of CTX_CREC (10 R291): LOG2N 1, 2 and 13 to 15 are reserved encodings. -/
def writeCrec (fn c : Nat) (v : Word) (s : State) : State :=
  let n := fld v 16 13
  if n = 1 ∨ n = 2 ∨ 13 ≤ n then accErr fn s else setR (kCtx c 0x2C) (v &&& 0xFFFFE000) s

/-- Whether a function's BARs answer and show a context (10 R287, R288): the PF shows every context, a VF the first 128 of
its partition. -/
def fnShows (s : State) (fn c : Nat) : Bool :=
  fn == 0 || (partState s (fn - 1) != 0 && ((partCtxs s (fn - 1)).take 128).contains c)

/-- Whether an access of a VF to its slice comes from outside its partition's IDE stream in RUN_IDE: then the slice does not answer it
(12 R380). -/
def offStream (s : State) (fn : Nat) (ide : Bool) : Bool := fn != 0 && conf s (fn - 1) == 6 && !ide

def doCrecWrite (fn c : Nat) (v : Word) (s : State) : State :=
  if fnShows s fn c then writeCrec fn c v s else s

def execCtxCrecWrite (via : Via) (ctx : BitVec 10) (val : Word) (s : State) : Out :=
  .next (if offStream s via.fn.toNat via.ide then s else doCrecWrite via.fn.toNat ctx.toNat val s)

/-! Doorbells -/

/-- Whether a doorbell write of a function is for another function's ring (10 R289). -/
def wrongFn (s : State) (fn c : Nat) : Bool :=
  match (ringOf s c).bound with | some b => b != fn | none => false

/-- SQ_TAIL (10 R289, R293). -/
def doSqTail (fn c v : Nat) (s : State) : State :=
  if !fnShows s fn c then s
  else if !sqEn s c || wrongFn s fn c then inc32 (kCtx c 0x28) 1 s
  else
    let t := v % 65536
    if sqSize s c ≤ t then stopRing c 0x82 s else modRing c (fun r => { r with tail := t }) s

def execSqTail (fn : BitVec 6) (ctx : BitVec 10) (val : Word) (s : State) : Out :=
  .next (doSqTail fn.toNat ctx.toNat val.toNat s)

/-- CQ_HEAD (10 R289, R293): it must lie between the current head and the tail. -/
def doCqHead (fn c v : Nat) (s : State) : State :=
  if !fnShows s fn c then s
  else if !cqEn s c || wrongFn s fn c then inc32 (kCtx c 0x28) 1 s
  else
    let h := v % 65536
    let n := cqSize s c
    let old := (ringOf s c).cqHead
    if n ≤ h ∨ (cqTail s c + n - old) % n < (h + n - old) % n then stopRing c 0x82 s
    else modRing c (fun r => { r with cqHead := h }) s

def execCqHead (fn : BitVec 6) (ctx : BitVec 10) (val : Word) (s : State) : Out :=
  .next (doCqHead fn.toNat ctx.toNat val.toNat s)

/-! Fetch -/

/-- The context's partition is sealed and its confidentiality state lets rings fetch (11 R330, R334; 12 R377). -/
def ringsRun (s : State) (p : Nat) : Bool :=
  partState s p == 2 && (conf s p == 1 || conf s p == 3 || conf s p == 6)

/-- Whether the device may fetch the next entry of a ring (10 R292-R294; 14 R433). -/
def canFetch (s : State) (c : Nat) : Bool :=
  (match ctxOwner s c with | some p => ringsRun s p | none => false) &&
    sqEn s c && !ringErr s c && !(ringOf s c).stopped && sqHead s c != (ringOf s c).tail % sqSize s c && slotFree s c

/-- A record failed its check: AUTH_FAIL advances (12 R384). -/
def authFail (p : Nat) : State → State := inc32 (kPart p 0x8C) 1

def openPeriod (s : State) (c slot e : Nat) : Option Period :=
  s.jobs.periods.find? fun q => q.ctx == c && q.slot == slot && q.entry == e

/-- Whether a RUN must wait for its open period to close (11 R350). -/
def periodFull (s : State) (x : Sub) : Bool :=
  match myImage s x.ctx x.slot with
  | none => false
  | some i => match i.period x.entry, openPeriod s x.ctx x.slot x.entry with
    | some (_, _, n), some q => decide (n ≤ q.runs)
    | _, _ => false

/-- Hold a RUN until its period closes, and count it (11 R350, R353). -/
def holdRun (x : Sub) (s : State) : State :=
  inc32 (kCtx x.ctx 0xCC) 1 (modSub x.ctx x.seq (fun y => { y with st := .held }) s)

/-- A fetched entry becomes a submission (10 R294, R303; 11 R350). -/
def addSub (c : Nat) (v1 : Bool) (ent : List Byte) (s : State) : State :=
  let seq := (getR s (kCtx c 0x24)).toNat
  let x : Sub := { ctx := c, seq := seq, v1 := v1, ent := ent }
  let s := setN (kCtx c 0x24) ((seq + 1) % 2 ^ 32) s
  let s := setF (kCtx c 0x0C) 15 0 ((sqHead s c + 1) % sqSize s c) s
  let s := modRing c (fun r => { r with resv := r.resv + 1 }) s
  let s := showInflight c { s with jobs := { s.jobs with subs := s.jobs.subs ++ [x] } }
  if !x.legal then finishSub c seq 4 0x84 s
  else if x.opc = 1 ∧ periodFull s x then holdRun x s
  else s

/-- The device fetches the entry at the SQ head: plain, or a sealed record of stream 0 (10 R294; 12 R382-R384). An entry of
another length is not this fetch's. -/
def doSqFetch (c : Nat) (e : List Byte) (s : State) : State :=
  if !canFetch s c then s
  else
    let p := ctxPid s c
    let v1 := bit (sqCfg s c) 8
    let n := if v1 then 32 else 64
    let step := if conf s p = 3 then n + 32 else n
    let s0 := s
    let s := hostRead c (get64 s (kCtx c 0) + step * sqHead s c) step s
    if conf s p = 3 then
      if e.length ≠ step then s0
      else match openRec s p 0 n e with
        | some d => addSub c v1 d (setCnt p 0 (cntOf s p 0 + 1) s)
        | none => authFail p (stopRing c 0x8D s)
    else if e.length ≠ n then s0
    else addSub c v1 e s

def execSqFetch (ctx : BitVec 10) (entry : List Byte) (s : State) : Out := .next (doSqFetch ctx.toNat entry s)

/-! Dispatch -/

/-- The submissions of a context ahead of one in ring order that have not completed. -/
def subsAhead (s : State) (x : Sub) : List Sub := (subsOf s x.ctx).takeWhile fun y => y.seq != x.seq

def drainOf (s : State) (p : Nat) : Option Drain := s.jobs.drains.find? fun d => d.pid == p

/-- Whether a submission has been dispatched: its work has begun, or it ended before it could. -/
def Sub.begun (x : Sub) : Bool := x.st != .fetched && x.st != .held && x.st != .input

/-- Whether a fetched submission may be dispatched now (10 R295, R325; 14 R433). In ring order: none passes a submission with FENCE that has not
been dispatched, so such a NOP is a barrier (10 R303). -/
def canGo (s : State) (x : Sub) : Bool :=
  (match ctxOwner s x.ctx with
   | some p => partState s p == 2 && (x.opc == 6 || (drainOf s p).isNone)
   | none => false) &&
  !(ringOf s x.ctx).stopped && (!x.fence || (subsAhead s x).isEmpty) && (subsAhead s x).all fun y => !y.fence || y.begun

/-- The submission a command names, if it is of the opcode, fetched and may be dispatched. -/
def ready (s : State) (c seq opc : Nat) : Option Sub :=
  (findSub s c seq).filter fun x => x.opc == opc && x.st == .fetched && canGo s x

/-- Sealed records of input data, opened in order until one fails (12 R382, R383). -/
def openRecs (p : Nat) : Nat → Nat → List Byte → State → List Byte × Bool × State
  | 0, _, _, s => ([], true, s)
  | k + 1, n, d, s =>
    let m := min n 4096
    match openRec s p 2 m (d.take (m + 32)) with
    | none => ([], false, authFail p s)
    | some x =>
      let (r, ok, t) := openRecs p k (n - m) (d.drop (m + 32)) (setCnt p 2 (cntOf s p 2 + 1) s)
      (x ++ r, ok, t)

/-- The `n` input bytes that a host read of a submission's buffer delivered: the bytes before a failed record, whether all records are good. A delivery
of another length is not this read's. No bytes, no read. -/
def takeInput (c addr n : Nat) (d : List Byte) (s : State) : Option (List Byte × Bool × State) :=
  let p := ctxPid s c
  let s := if d.isEmpty then s else hostRead c addr d.length s
  if conf s p = 3 then
    (if d.length = n + 32 * ceilDiv n 4096 then some (openRecs p (ceilDiv n 4096) n d s) else none)
  else if d.length = n then some (d, true, s) else none

/-- Where a submission's input lies in host memory, and its length. -/
def Sub.input (x : Sub) : Nat × Nat :=
  if x.opc = 1 then (x.inaddr, x.inlen) else (x.hostAddr, if x.opc = 6 then x.commitLen else x.len)

/-- Input that arrives for a submission whose context is being reset is discarded; in bounce mode its records are authenticated and counted in
their stream all the same (14 R433). -/
def lateInput (c seq opc : Nat) (d : List Byte) (s : State) : State :=
  match findSub s c seq with
  | some x =>
    if bit (getR s (kCtx c 0xEC)) 1 && conf s (ctxPid s c) == 3 && x.opc == opc && x.st == .fetched then
      (match takeInput c x.input.1 x.input.2 d s with | some (_, _, t) => t | none => s)
    else s
  | none => s

/-- A host DMA access of a submission is refused or finds an uncorrectable error: STATUS 0x03 and the context's fault
(10 R298, R305; 08 R223). -/
def subFault (x : Sub) (f : Flt) (s : State) : State := faultCtx x.ctx 0 f 0 0 (finishSub x.ctx x.seq 3 f.reason s)

/-- A host read of a submission fails (10 R299, 12 R384). -/
def doReadFail (c : Nat) (use : HostReadUse) (err : HostReadErr) (s : State) : State :=
  let code := match err with | .link => 0x83 | .record => 0x8D
  let p := ctxPid s c
  let bad : State → State := fun s => match err with | .link => s | .record => authFail p s
  match use with
  | .fetch => if canFetch s c then bad (stopRing c code s) else s
  | .data q =>
    match findSub s c q.toNat with
    | some x =>
      if x.st = .fetched ∧ canGo s x ∧
          ((x.opc = 1 ∧ x.inlen ≠ 0) ∨ x.opc = 2 ∨ x.opc = 4 ∨ x.opc = 6) then bad (finishSub c q.toNat 7 code s)
      else s
    | none => s

def execHostReadFail (ctx : BitVec 10) (use : HostReadUse) (err : HostReadErr) (s : State) : Out :=
  .next (doReadFail ctx.toNat use err s)

/-! Completion -/

/-- A finished submission completes; on a v1 ring only when it is the oldest (10 R295, R296, R309). -/
def doComplete (c seq : Nat) (s : State) : State :=
  match findSub s c seq with
  | some x => if x.st = .done ∧ (!x.v1 || (subsAhead s x).isEmpty) then completeSub x s else s
  | none => s

def execSubmissionComplete (ctx : BitVec 10) (seq : Word) (s : State) : Out := .next (doComplete ctx.toNat seq.toNat s)

/-- MTIM has passed since the first entry after the last interrupt (10 R300). -/
def doModTimer (c : Nat) (s : State) : State :=
  if cqEn s c ∧ fld (cqCfg s c) 11 5 ≠ 0 ∧ (ringOf s c).modCnt ≠ 0 then
    msi (boundFn s c) (fld (cqCfg s c) 30 20) (modRing c (fun r => { r with modCnt := 0 }) s)
  else s

def execCqModerationTimer (ctx : BitVec 10) (s : State) : Out := .next (doModTimer ctx.toNat s)

/-! NOP and copies -/

def doNop (c seq : Nat) (s : State) : State :=
  match ready s c seq 0 with | some _ => finishSub c seq 0 0 s | none => s

def execNop (ctx : BitVec 10) (seq : Word) (s : State) : Out := .next (doNop ctx.toNat seq.toNat s)

/-- COPYIN (10 R305): the bytes land through the host DMA; with DIG they are hashed. -/
def doCopyin (c seq : Nat) (d : List Byte) (s : State) : State :=
  match ready s c seq 2 with
  | none => lateInput c seq 2 d s
  | some x => match takeInput c x.hostAddr x.len d s with
    | none => s
    | some (bs, ok, s) => match writeE (whoHost (ctxPid s c) c) x.localAddr bs s with
      | .error f s => subFault x f s
      | .ok _ s =>
        if !ok then finishSub c seq 7 0x8D s
        else if x.dig ∧ sha3 bs ≠ x.digest then finishSub c seq 5 0 s
        else finishSub c seq 0 0 s

def execCopyin (ctx : BitVec 10) (seq : Word) (data : List Byte) (s : State) : Out :=
  .next (doCopyin ctx.toNat seq.toNat data s)

/-- Give a submission's result data and finish it with STATUS 0x00. -/
def finishOut (c seq addr : Nat) (bs : List Byte) (s : State) : State :=
  modSub c seq (fun y => { y with out := [(addr, bs)] }) (finishSub c seq 0 0 s)

/-- COPYOUT (10 R305). -/
def doCopyout (c seq : Nat) (s : State) : State :=
  match ready s c seq 3 with
  | none => s
  | some x => match readE (whoHost (ctxPid s c) c) x.localAddr x.len s with
    | .error f s => subFault x f s
    | .ok bs s => finishOut c seq x.hostAddr bs s

def execCopyout (ctx : BitVec 10) (seq : Word) (s : State) : Out := .next (doCopyout ctx.toNat seq.toNat s)

/-! RUN -/

/-- Base of an entry's IN or OUT area (10 R312): the context's host DMA share in the cluster memory of relative cluster 0. -/
def areaE (c off : Nat) (wr : Bool) : Eng Nat := fun s =>
  match cmShare (whoHost (ctxPid s c) c) (listGet 0 (placeOf s c) 0) wr s with
  | .ok b s => .ok (b + off) s
  | .error f s => .error f s

/-- Whether another RUN of the context stands before this one in its ring and has not completed (10 R295). -/
def runAhead (s : State) (x : Sub) : Bool := (subsAhead s x).any fun y => y.opc == 1

/-- RUN (10 R304): checked, then its input lands in the IN area. A RUN whose period is full is held. -/
def doRun (c seq : Nat) (d : List Byte) (s : State) : State :=
  match ready s c seq 1 with
  | none => lateInput c seq 1 d s
  | some x =>
    if runAhead s x then s
    else if periodFull s x then holdRun x s
    else match (myImage s c x.slot).bind fun i => i.entries[x.entry]? with
      | none => finishSub c seq 4 0x85 s
      | some e =>
        if e.inmax < x.inlen ∨ e.outmax < x.outlen then finishSub c seq 4 0x84 s
        else match takeInput c x.inaddr x.inlen d s with
          | none => s
          | some (bs, ok, s) =>
            let landed : Eng Unit := if bs.isEmpty then pure () else
              areaE c e.inoff true >>= fun a => writeE (whoHost (ctxPid s c) c) a bs
            match landed s with
            | .error f s => subFault x f s
            | .ok _ s =>
              if !ok then finishSub c seq 7 0x8D s else modSub c seq (fun y => { y with st := .input }) s

def execRun (ctx : BitVec 10) (seq : Word) (input : List Byte) (s : State) : Out :=
  .next (doRun ctx.toNat seq.toNat input s)

/-- Whether every weight pointer an image's WDIGEST records name is set, with the record's length (10 R321). -/
def wptrsSet (s : State) (i : Image) : Bool :=
  i.recs.all fun r => r.typ != 8 ||
    (match tabFind (i.pid * 4096 + leAt r.body 0 2) s.jobs.wptr with
     | some (_, n) => n == leAt r.body 2 8
     | none => false)

/-- The budget counters of an entry's period (11 R351): one for each declared count, so that a unit declared with 0 has a budget of 0. -/
def budgetsOf (s : State) (i : Image) (e : Nat) : List Budget :=
  (declared (partOf s i.pid).gset (placeOf s i.ctx) i e).map fun (cls, u, n, d) =>
    { ctx := i.ctx, slot := i.slot, entry := e, cls := cls, unit := u,
      limit := if cls = 11 then ceilDiv n (256 * d) else n / d }

/-- The period of a RUN being dispatched: opened, or joined (11 R350); answers its deadline. -/
def joinPeriod (x : Sub) (i : Image) (dl : Nat) (s : State) : Nat × State :=
  match openPeriod s x.ctx x.slot x.entry with
  | some q =>
    (q.opened + dl, { s with jobs := { s.jobs with periods := s.jobs.periods.map fun r =>
        if r.ctx == x.ctx && r.slot == x.slot && r.entry == x.entry then { r with runs := r.runs + 1 } else r } })
  | none =>
    let q : Period := { ctx := x.ctx, slot := x.slot, entry := x.entry, opened := now s, runs := 1 }
    let old := s.jobs.budgets.filter fun b => !(b.ctx == x.ctx && b.slot == x.slot && b.entry == x.entry)
    (now s + dl, { s with jobs := { s.jobs with
        periods := s.jobs.periods ++ [q], budgets := old ++ budgetsOf s i x.entry } })

/-- Re-arm the dump entries of a context (15 R461). -/
def rearmDumps (c : Nat) (s : State) : State :=
  { s with dbg := { s.dbg with fired := s.dbg.fired.filter fun k => k / 2048 != c } }

/-- The programs of a RUN start (10 R304, R312): each core of the entry begins at PC within the CODE section of its relative core. -/
def startCores (x : Sub) (i : Image) (e : EntryRec) (s : State) : State :=
  let place := placeOf s x.ctx
  each (entryCores place e) (fun r t =>
    let at_ := match i.codes.find? fun (k, _) => k == r with | some (_, off) => i.base + off + e.pc | none => i.base + e.pc
    { t with eng := { t.eng with starts := tabPut (fun _ _ => false) (placedCore place r * 1024 + x.ctx) at_ t.eng.starts } }) s

/-- RUN_DISPATCH (10 R304, R312, R316, R321; 11 R350, R354, R535): its cores start, with no service credit left of an earlier RUN; clusters below
RUN begin to wake (16 R483). -/
def doRunDispatch (c seq : Nat) (s : State) : State :=
  match findSub s c seq with
  | none => s
  | some x =>
    if x.st = .input ∧ canGo s x ∧ !runAhead s x ∧ getF s (kCtx c 0xFC) 31 30 = 0 then
      match (myImage s c x.slot).bind fun i => (i.entries[x.entry]?).map fun e => (i, e) with
      | none => finishSub c seq 4 0x85 s
      | some (i, e) =>
        if !wptrsSet s i then finishSub c seq 4 0x85 s
        else
          let (dl, s) : Option Nat × State := match i.period x.entry with
            | some (_, dl, _) => (some (joinPeriod x i dl s).1, (joinPeriod x i dl s).2)
            | none => (none, s)
          let s := rearmDumps c (semZero c s)
          let s := { s with jobs := { s.jobs with images := s.jobs.images.map fun j =>
            if j.pid == i.pid && j.slot == i.slot then { j with last := now s } else j } }
          wakeAll (placeOf s c) (startCores x i e (charge c 13 0 x.inlen (modSub c seq (fun y => { y with st := .running, deadline := dl }) s)))
    else s

def execRunDispatch (ctx : BitVec 10) (seq : Word) (s : State) : Out := .next (doRunDispatch ctx.toNat seq.toNat s)

/-- A budget is overrun (11 R352): the record names class and unit, ADM_OVERRUNS advances, the context is reset with cause
0xB0, whatever FAULT_ACT says (14 R432). -/
def overrun (c cls unit : Nat) (s : State) : State :=
  let s := recordFault c 0 false { reason := 0xB0, cls := cls, unit := unit } 0 0 s
  startCtxReset c 0xB0 (inc32 (kPart (ctxPid s c) 0x1C) 1 s)

/-- The first budget of a context's running RUN that a counted charge has taken past its limit. -/
def overBudget (s : State) (x : Sub) : Option Budget :=
  s.jobs.budgets.find? fun b => b.ctx == x.ctx && b.slot == x.slot && b.entry == x.entry && decide (b.limit < b.used)

/-- RUN_END (10 R304; 11 R351, R352): with every command completed, the output is read from the OUT area. -/
def doRunEnd (c seq : Nat) (s : State) : State :=
  match findSub s c seq with
  | none => s
  | some x =>
    if x.opc = 1 ∧ x.st = .running ∧ !(s.eng.cmds.any fun m => m.ctx == c) then
      match (myImage s c x.slot).bind fun i => i.entries[x.entry]? with
      | none => s
      | some e =>
        let outE : Eng (List Byte) := if x.outlen = 0 then pure [] else
          areaE c e.outoff false >>= fun a => readE (whoHost (ctxPid s c) c) a x.outlen
        match outE (leaveCores c s) with
        | .error f s => subFault x f s
        | .ok bs s =>
          let s := charge c 13 1 x.outlen s
          match overBudget s x with
          | some b => overrun c b.cls b.unit s
          | none => if x.outlen = 0 then finishSub c seq 0 0 s else finishOut c seq x.outaddr bs s
    else s

def execRunEnd (ctx : BitVec 10) (seq : Word) (s : State) : Out := .next (doRunEnd ctx.toNat seq.toNat s)

/-- BUDGET_OVERRUN (11 R351, R352): the running RUN has a budget on the unit; for units counted here (classes 11 to 13) it
must be past its limit, for cycles the event says so. -/
def doOverrun (c cls unit : Nat) (s : State) : State :=
  match runningRun s c with
  | none => s
  | some x =>
    if s.jobs.budgets.any fun b => b.ctx == c && b.slot == x.slot && b.entry == x.entry && b.cls == cls &&
        b.unit == unit && (decide (cls ≤ 10) || decide (b.limit < b.used)) then overrun c cls unit s
    else s

def execBudgetOverrun (ctx : BitVec 10) (cls : BitVec 4) (unit : BitVec 12) (s : State) : Out :=
  .next (doOverrun ctx.toNat cls.toNat unit.toNat s)

/-- Whether a context's running RUN is one of an entry: it keeps the counters it was loaded with, also past its period (11 R351). -/
def inRun (s : State) (c slot e : Nat) : Bool :=
  match runningRun s c with | some x => x.slot == slot && x.entry == e | none => false

/-- PERIOD_CLOSE (11 R350): the period and its budgets end; RUNs held for it may go. -/
def doPeriodClose (p slot e : Nat) (s : State) : State :=
  match findImage s p slot with
  | none => s
  | some i =>
    { s with jobs := { s.jobs with
        periods := s.jobs.periods.filter fun q => !(q.ctx == i.ctx && q.slot == slot && q.entry == e)
        budgets := s.jobs.budgets.filter fun b => !(b.ctx == i.ctx && b.slot == slot && b.entry == e) || inRun s i.ctx slot e
        subs := s.jobs.subs.map fun x =>
          if x.ctx == i.ctx && x.st == .held && x.slot == slot && x.entry == e then { x with st := .fetched } else x } }

def execPeriodClose (pid : BitVec 5) (slot entry : Byte) (s : State) : Out :=
  .next (doPeriodClose pid.toNat slot.toNat entry.toNat s)

end Sys2Proof.Machine
end

