-- ==== Sys2Proof/Machine/Images.lean ====
section
/-! DEFINITION. Rupelen images and their admission (10 R306, R310-R314; 11 R343-R347, R354, R355; 12 R375). -/

namespace Sys2Proof.Machine

/-! The image file -/

/-- A section table entry (10 R311). -/
structure Sect where
  typ  : Nat
  tgt  : Nat
  off  : Nat
  slen : Nat
  load : Nat
  deriving DecidableEq, Repr

/-- What R314 accepts of an image. -/
structure Parsed where
  digest  : List Byte
  sects   : List Sect
  entries : List EntryRec
  recs    : List MRec
  deriving DecidableEq, Repr

/-- The section table. -/
def sectsOf (d : List Byte) (n : Nat) : List Sect :=
  (rangeFrom 0 n).map fun i =>
    let b := 128 + 32 * i
    { typ := leAt d b 2, tgt := leAt d (b + 4) 4, off := leAt d (b + 8) 8, slen := leAt d (b + 16) 8, load := leAt d (b + 24) 8 }

/-- A section is inside the image and well formed by itself (10 R311, R314). -/
def sectOk (d : List Byte) (i : Nat) (x : Sect) : Bool :=
  decide (1 ≤ x.typ) && decide (x.typ ≤ 5) && leAt d (128 + 32 * i + 2) 2 == 0 && x.off % 64 == 0 &&
    decide (x.off + x.slen ≤ d.length) && (x.typ == 3 || x.typ == 4 || x.tgt == 0) && (x.typ == 5 || x.load == 0)

def sectsDisjoint : List Sect → Bool
  | [] => true
  | x :: r => r.all (fun y => x.slen == 0 || y.slen == 0 || decide (x.off + x.slen ≤ y.off) || decide (y.off + y.slen ≤ x.off)) &&
      sectsDisjoint r

/-- The manifest's records, if each stays inside the section (10 R313). The type loses its CRIT bit; unknown records with it
make the image illegal, unknown ones without it are skipped. -/
def manifest : Nat → List Byte → Option (List MRec)
  | 0, d => if d.isEmpty then some [] else none
  | k + 1, d =>
    if d.isEmpty then some []
    else
      let t := leAt d 0 2
      let n := leAt d 2 2
      if d.length < 8 ∨ n < 8 ∨ n % 8 ≠ 0 ∨ d.length < n then none
      else match manifest k (d.drop n) with
        | none => none
        | some r =>
          let typ := t % 32768
          if 1 ≤ typ ∧ typ ≤ 11 then some ({ typ := typ, entry := leAt d 4 4, body := (d.take n).drop 8 } :: r)
          else if 32768 ≤ t then none
          else some r

/-- Records that apply to one entry (10 R313). -/
def perEntry (typ : Nat) : Bool := decide (2 ≤ typ ∧ typ ≤ 7)

/-- Least bytes of a record's body. -/
def bodyNeed (ncl ncore : Nat) (r : MRec) : Nat :=
  match r.typ with
  | 1 => 24 | 2 => 20 | 3 => 3 + 4 * leAt r.body 1 2 | 4 => 9 | 5 => 512 | 6 => 16 | 7 => 2 * ncore + 2 * ncl
  | 8 => 42 | 9 => 12 * ncore + 4 * ncl | 10 => 8 | _ => 8

/-- Two records that may not stand together (10 R314). -/
def sameRec (a b : MRec) : Bool :=
  a.typ == b.typ && a.entry == b.entry &&
    (if a.typ = 3 then leAt a.body 0 1 == leAt b.body 0 1 else if a.typ = 8 then leAt a.body 0 2 == leAt b.body 0 2 else true)

def recsDistinct : List MRec → Bool
  | [] => true
  | a :: r => !(r.any (sameRec a)) && recsDistinct r

/-- A record by itself is legal (10 R313, R314). -/
def recOk (ncl ncore nent : Nat) (r : MRec) : Bool :=
  let b := r.body
  decide (bodyNeed ncl ncore r ≤ b.length) &&
  (if perEntry r.typ then decide (r.entry < nent) else r.entry == 0xFFFFFFFF) &&
  (match r.typ with
   | 3 =>
     let cls := leAt b 0 1
     decide (cls ≤ 10) && (if cls ≤ 5 then decide (leAt b 1 2 ≤ ncore) else if cls ≤ 8 then decide (leAt b 1 2 ≤ ncl) else true)
   | 4 =>
     decide (leAt b 0 1 ≤ 1) && (leAt b 0 1 == 1 ||
       ((rangeFrom 0 ((b.length - 9) / 8)).foldl (fun a k => a + leAt b (9 + 8 * k) 8) 0) == leAt b 1 8)
   | 8 => decide (leAt b 0 2 < 4096)
   | _ => true)

/-- The entry table (10 R312). -/
def entriesOf (d : List Byte) (x : Sect) : List EntryRec :=
  (rangeFrom 0 (x.slen / 32)).map fun i =>
    let o := x.off + 32 * i
    { ncore := leAt d o 2, first := leAt d (o + 2) 2, pc := leAt d (o + 4) 4, inoff := leAt d (o + 8) 4,
      inmax := leAt d (o + 12) 4, outoff := leAt d (o + 16) 4, outmax := leAt d (o + 20) 4 }

/-- The checks of R314 on an image of an assembly. `inside` says whether a range is in the main part of the share or in one
cluster memory of the partition. -/
def parseImage (assy : Nat) (inside : Nat → Nat → Bool) (d : List Byte) : Option Parsed :=
  let n := leAt d 8 4
  let ss := sectsOf d n
  if leAt d 0 4 == 0x4E4C5052 && leAt d 4 2 == 1 && (leAt d 6 1).testBit assy && leAt d 7 1 == 0 && leAt d 12 4 == 0 &&
      leAt d 16 8 == d.length && decide (128 ≤ d.length) && ((d.drop 56).take 72).all (· == 0) &&
      decide (2 ≤ n) && decide (n ≤ 4096) && decide (128 + 32 * n ≤ d.length) &&
      (d.drop 24).take 32 == sha3 (d.drop 128) &&
      (rangeFrom 0 n).all (fun i => sectOk d i (listGet { typ := 0, tgt := 0, off := 0, slen := 0, load := 0 } ss i)) &&
      sectsDisjoint ss then
    match ss.filter (fun x => x.typ == 1), ss.filter (fun x => x.typ == 2) with
    | [man], [ent] =>
      match manifest (man.slen / 8 + 1) ((d.drop man.off).take man.slen) with
      | none => none
      | some recs =>
        match recs.filter (fun r => r.typ == 1) with
        | [ident] =>
          let ncl := leAt ident.body 16 2
          let ncore := leAt ident.body 18 2
          let es := entriesOf d ent
          if decide (1 ≤ ncl) && decide (ncl ≤ 32) && decide (1 ≤ ncore) && decide (ncore ≤ 512) &&
              decide (0 < ent.slen) && ent.slen % 32 == 0 && decide (ent.slen ≤ 8192) &&
              (rangeFrom 0 es.length).all (fun i => leAt d (ent.off + 32 * i + 24) 8 == 0) &&
              es.all (fun e => decide (1 ≤ e.ncore) && decide (e.first + e.ncore ≤ ncore)) &&
              ss.all (fun x => !(x.typ == 3 || x.typ == 4) || decide (x.tgt < ncore)) &&
              ss.all (fun x => x.typ != 5 || inside x.load x.slen) &&
              recs.all (recOk ncl ncore es.length) && recsDistinct recs then
            some { digest := (d.drop 24).take 32, sects := ss, entries := es, recs := recs }
          else none
        | _ => none
    | _, _ => none
  else none

/-- Whether a range lies in the main part of a partition's share, or in one cluster memory of it (10 R306, R314, R323). -/
def insideShare (s : State) (p a n : Nat) : Bool :=
  decide (a + n ≤ mainSize s p) || (partCls s p).any fun c => decide (cmBase c ≤ a) && decide (a + n ≤ cmBase c + cmSize)

/-! LOADIMG -/

/-- LOADIMG (10 R306): the image lands and is checked; it then waits for admission behind those that reached the RTP before it (11 R343). -/
def doLoadimg (c seq : Nat) (d : List Byte) (s : State) : State :=
  match ready s c seq 4 with
  | none => lateInput c seq 4 d s
  | some x =>
    let p := ctxPid s c
    if (findImage s p x.loadSlot).isSome || !insideShare s p x.localAddr x.len then finishSub c seq 4 0x84 s
    else match takeInput c x.hostAddr x.len d s with
      | none => s
      | some (bs, ok, s) => match writeE (whoHost p c) x.localAddr bs s with
        | .error f s => subFault x f s
        | .ok _ s =>
          if !ok then finishSub c seq 7 0x8D s
          else match parseImage s.assy.toNat (insideShare s p) bs with
            | none => finishSub c seq 4 0x86 s
            | some _ =>
              let s := modSub c seq (fun y => { y with st := .running, gdata := bs }) s
              { s with jobs := { s.jobs with admq := s.jobs.admq ++ [(c, seq)] } }

def execLoadimg (ctx : BitVec 10) (seq : Word) (data : List Byte) (s : State) : Out :=
  .next (doLoadimg ctx.toNat seq.toNat data s)

/-! Slots -/

/-- Unbind a slot: its demand, open periods and SLOTMAP bit go (10 R306, 11 R355). -/
def unbindSlot (p slot : Nat) (s : State) : State :=
  let c := match findImage s p slot with | some i => i.ctx | none => 0
  let s := { s with jobs := { s.jobs with
      images := s.jobs.images.filter fun i => !(i.pid == p && i.slot == slot)
      periods := s.jobs.periods.filter fun q => !(q.ctx == c && q.slot == slot)
      budgets := s.jobs.budgets.filter fun b => !(b.ctx == c && b.slot == slot) } }
  andnR (kPart p (0x40 + 4 * (slot / 32))) (2 ^ (slot % 32)) s

/-- Whether a RUN of a slot is in flight for its context: dispatched, landing its input, held, or ahead of the submission
that asks (10 R306, 11 R350). -/
def slotBusy (s : State) (c slot : Nat) (ahead : List Sub) : Bool :=
  ((subsOf s c).any fun y => y.opc == 1 && y.slot == slot && (y.st == .running || y.st == .input || y.st == .held)) ||
    ahead.any fun y => y.opc == 1 && y.slot == slot && y.st != .done

/-- UNLOADIMG (10 R306): it waits while a RUN of the slot is in flight. -/
def doUnloadimg (c seq : Nat) (s : State) : State :=
  match ready s c seq 5 with
  | none => s
  | some x =>
    match myImage s c x.slot with
    | none => finishSub c seq 4 0x85 s
    | some i =>
      if slotBusy s c x.slot (subsAhead s x) then s
      else finishSub c seq 0 0 (unbindSlot i.pid i.slot s)

def execUnloadimg (ctx : BitVec 10) (seq : Word) (s : State) : Out := .next (doUnloadimg ctx.toNat seq.toNat s)

/-! Reserved rates (11 R344-R346) -/

/-- Sum of two fractions. -/
def addFrac (x y : Nat × Nat) : Nat × Nat := (x.1 * y.2 + y.1 * x.2, x.2 * y.2)

/-- The deadline entries of an image with their demand: (class, unit, rate). -/
def imageRates (s : State) (i : Image) : List (Nat × Nat × Option (Nat × Nat)) :=
  let envclk := getF s (kPart i.pid 8) 15 0
  (rangeFrom 0 i.entries.length).flatMap fun e => match i.period e with
    | none => []
    | some (_, dl, _) => (demand (partOf s i.pid).gset (placeOf s i.ctx) i e).map fun (cls, u, n, d) =>
        (cls, u, phi s envclk dl cls u n d)

/-- Sum of rates on a unit; `none` when one is unbounded. -/
def rateSum (cls unit : Nat) : List (Nat × Nat × Option (Nat × Nat)) → Option (Nat × Nat)
  | [] => some (0, 1)
  | (k, u, f) :: r =>
    if k = cls ∧ u = unit then
      match f, rateSum cls unit r with
      | some x, some y => some (addFrac x y)
      | _, _ => none
    else rateSum cls unit r

/-- Whether a sum stays within the class's limit. -/
def rateOk (cls : Nat) : Option (Nat × Nat) → Bool
  | none => false
  | some (n, d) => if cls ≤ 10 then decide (10 * n ≤ 9 * d) else decide (5 * n ≤ 4 * d)

/-- A sum in units of 1/1,024, saturating (11 R337). -/
def rateReg : Option (Nat × Nat) → Nat
  | none => 0xFFFF
  | some (n, d) => min 0xFFFF (1024 * n / d)

/-- The rate check of 11 R346 of a new image among the others: the first unit that fails, and the highest sum. -/
def rateCheck (s : State) (others : List Image) (i : Image) : Option (Nat × Nat) × Nat :=
  let mine := imageRates s i
  let all := mine ++ others.flatMap (imageRates s)
  let us := mine.foldl (fun t (k, u, _) => setIns (k * 4096 + u) t) []
  let sums := us.map fun ku => (ku, rateSum (ku / 4096) (ku % 4096) all)
  ((sums.find? fun (ku, f) => !rateOk (ku / 4096) f).map fun (ku, _) => (ku / 4096, ku % 4096),
   sums.foldl (fun m (_, f) => max m (rateReg f)) 0)

/-! Claims (11 R347) -/

/-- Bytes of a context's share in a memory, as one master sees it (08 R222). -/
def shareSize (s : State) (w : Who) (lo size : Nat) : Option Nat :=
  let b := w.m.setBase
  ((rangeFrom 0 16).find? fun n =>
    let v := getR s (b + 16 * n)
    bit v 31 && !bit v 30 && fld v 9 0 == w.ctx &&
      decide (lo ≤ 64 * rgnBase s b n) && decide (64 * rgnBase s b n < lo + size)).map fun n =>
        min (64 * rgnLim s b n + 64) (lo + size) - 64 * rgnBase s b n

/-- The least share among masters that have one; 0 with none. -/
def leastShare (l : List (Option Nat)) : Nat :=
  match l.filterMap id with
  | [] => 0
  | x :: r => r.foldl min x

def coreMasters (s : State) (n c : Nat) : List Who :=
  [whoCtl s n c, whoFeed s n c, whoDrain s n c, whoVec s n c, whoDma s n c]

def spCap (s : State) (n c : Nat) : Nat := leastShare ((coreMasters s n c).map fun w => shareSize s w (spBase n) spSize)
def accCap (s : State) (n c : Nat) : Nat :=
  ((shareSize s (whoDrain s n c) (accBase n 0) accSize).getD 0) + ((shareSize s (whoDrain s n c) (accBase n 1) accSize).getD 0)
def cmCap (s : State) (cl c : Nat) : Nat :=
  leastShare (((coresOf [cl]).flatMap (fun n => coreMasters s n c) ++ [whoGate s cl c, whoComb s cl c, whoPage s cl c, whoHost (ctxPid s c) c]).map fun w =>
    shareSize s w (cmBase cl) cmSize)
def rsCap (s : State) (n c : Nat) : Nat :=
  match slotOf s n c with | some i => getF s (kCore n (0x184 + 8 * i)) 28 16 | none => 0
def tblCap (s : State) (n c : Nat) : Nat := if (slotOf s n c).isSome then 4 else 0

/-- Sum over images of a field of their SHARES records. -/
def claimSum (imgs : List Image) (f : Image → MRec → Nat) : Nat :=
  imgs.foldl (fun a i => match i.recs.find? (fun r => r.typ == 9) with | some r => a + f i r | none => a) 0

/-- NCL, NCORE and FEATURES of an image. -/
def Image.ident (i : Image) (o n : Nat) : Nat :=
  match i.recs.find? (fun r => r.typ == 1) with | some r => leAt r.body o n | none => 0
def Image.ncl (i : Image) : Nat := i.ident 16 2
def Image.ncore (i : Image) : Nat := i.ident 18 2

/-- Whether the claims of a context's images fit its shares, slots and frames (11 R347). -/
def claimsFit (s : State) (c : Nat) (imgs : List Image) : Bool :=
  let place := placeOf s c
  let le : Nat → Nat → Bool := fun need cap => need == 0 || decide (need ≤ cap)
  (rangeFrom 0 (16 * place.length)).all (fun r =>
    let n := placedCore place r
    let at_ : Nat → Nat → Nat := fun o w => claimSum imgs fun i x => if r < i.ncore then leAt x.body (12 * r + o) w else 0
    le (at_ 0 4) (spCap s n c) && le (at_ 4 4) (accCap s n c) && le (at_ 8 2) (rsCap s n c) && le (at_ 10 2) (tblCap s n c)) &&
  (rangeFrom 0 place.length).all (fun k =>
    le (claimSum imgs fun i x => if k < i.ncl then leAt x.body (12 * i.ncore + 4 * k) 4 else 0) (cmCap s (listGet 0 place k) c)) &&
  decide (imgs.foldl (fun a i => match i.recs.find? (fun r => r.typ == 10) with
    | some r => a + leAt r.body 0 4 | none => a) 0 ≤ (getR s (kCtx c 0x80)).toNat)

/-- Images to evict, oldest first, until the claims fit; `none` when no set does (11 R354). -/
def evictions (s : State) (c : Nat) : List Image → List Image → Option (List Image)
  | cand, keep =>
    if claimsFit s c keep then some []
    else match cand with
      | [] => none
      | i :: r => (evictions s c r (keep.filter fun k => !(k.pid == i.pid && k.slot == i.slot))).map (i :: ·)

/-- Insert an image by the time of its last dispatch, then by slot. -/
def insLru (i : Image) : List Image → List Image
  | [] => [i]
  | j :: r => if i.last < j.last ∨ (i.last = j.last ∧ i.slot < j.slot) then i :: j :: r else j :: insLru i r

/-! Admission (11 R343) -/

/-- The outcome of an admission: code, unit class, unit, highest rate, images evicted. -/
structure Adm where
  code  : Nat
  cls   : Nat := 0
  unit  : Nat := 0
  rate  : Nat := 0
  evict : List Image := []
  deriving DecidableEq, Repr

/-- Whether a reduction channel is held by another partition or absent (11 R343, 01 R21). -/
def redchBad (s : State) (p mask : Nat) : Bool :=
  (rangeFrom 0 16).any fun k => mask.testBit k &&
    ((decide (8 ≤ k) && xdies s == 1) || (bit (getR s (kRdc k 0)) 31 && getF s (kRdc k 0) 4 0 != p))

/-- Under drip service: HBM, Span or reduction demand, or a feature (16 R498). -/
def dripBad (i : Image) : Bool :=
  i.recs.any fun r => match r.typ with
    | 4 => leAt r.body 1 8 != 0
    | 5 => leNat (r.body.take 512) != 0
    | 11 => leAt r.body 0 2 != 0
    | 1 => leAt r.body 20 4 != 0
    | _ => false

/-- A request for a unit that an S1 assembly has not got (01 R21): FEATURES of X-die 1 or the second reduction engine or dumps, bytes of a port of
X-die 1, cycles of reduction engine 1; on any assembly, cycles of a stack's scan engine or of a reduction engine that is not there (10 R314, 11 R344). -/
def absentUnits (s : State) (i : Image) : Bool :=
  (xdies s == 1 && i.ident 20 4 % 8 != 0) ||
  i.recs.any fun r => match r.typ with
    | 3 =>
      let cls := leAt r.body 0 1
      let have_ := if cls = 9 then stackCount s else if cls = 10 then xdies s else 4096
      (rangeFrom 0 (leAt r.body 1 2)).any fun k => decide (have_ ≤ k) && leAt r.body (3 + 4 * k) 4 != 0
    | 5 => xdies s == 1 && (rangeFrom 16 16).any fun k => leAt r.body (16 * k) 8 != 0 || leAt r.body (16 * k + 8) 8 != 0
    | _ => false

/-- The checks of 11 R343, in order. -/
def judgeImage (s : State) (i : Image) : Adm :=
  let c := i.ctx
  let npl := (placeOf s c).length
  if absentUnits s i then { code := 0xA0 }
  else if isDrip s i.pid ∧ dripBad i then { code := 0xA8 }
  else if npl < i.ncl ∨ 16 * npl < i.ncore then { code := 0xA1 }
  else if (rangeFrom 0 i.entries.length).any (fun e => match i.period e with
      | some (p, d, n) => decide (p < 100000) || decide (p < d) || n == 0 | none => false) then { code := 0xA7 }
  else if redchBad s i.pid (match i.recs.find? (fun r => r.typ == 11) with | some r => leAt r.body 0 2 | none => 0) then
    { code := 0xA6 }
  else
    let mine := s.jobs.images.filter fun j => j.pid == i.pid && j.ctx == c
    let cand := (mine.filter fun j =>
      !((subsOf s c).any fun y => y.opc == 1 && y.slot == j.slot && y.st != .done)).foldl (fun a j => insLru j a) []
    match evictions s c cand (i :: mine) with
    | none => { code := 0xA2 }
    | some ev =>
      let others := s.jobs.images.filter fun j => !(ev.any fun k => k.pid == j.pid && k.slot == j.slot)
      match rateCheck s others i with
      | (some (cls, u), top) => { code := 0xA3, cls := cls, unit := u, rate := top }
      | (none, top) => { code := 0, rate := top, evict := ev }

/-- A slot is bound (10 R306; 11 R337, R343; 12 R375): SLOTMAP, the ledger, the DATA sections. -/
def bindImage (i : Image) (ss : List Sect) (d : List Byte) (s : State) : State :=
  let p := i.pid
  let s := { s with jobs := { s.jobs with images := s.jobs.images ++ [{ i with last := now s }] } }
  let s := orR (kPart p (0x40 + 4 * (i.slot / 32))) (2 ^ (i.slot % 32)) s
  let led := (rangeFrom 0 8).flatMap fun k => leBytes 4 (getR s (kPart p (0x90 + 4 * k))).toNat
  let h := sha3 (led ++ i.digest ++ leBytes 2 i.slot ++ leBytes 2 i.ctx)
  let s := each (rangeFrom 0 8) (fun k => setN (kPart p (0x90 + 4 * k)) (leAt h (4 * k) 4)) s
  each (ss.filter fun x => x.typ == 5) (fun x => rawWrite p x.load ((d.drop x.off).take x.slen)) s

/-- Whether a submission waits for admission. -/
def awaits (s : State) (k : Nat × Nat) : Bool :=
  match findSub s k.1 k.2 with | some x => x.opc == 4 && x.st == .running | none => false

/-- Whether the RTP takes requests: it runs, and not in recovery (12 R364, R369). -/
def rtpServes (s : State) : Bool := s.sec.ready && !inRecovery s

/-- ADMISSION (11 R343-R347, R354, R355): one at a time, of the LOADIMG that reached the RTP first. The outcome is recorded, images are evicted,
the slot is bound or stays empty; a slot bound since is a bound slot (10 R306). -/
def doAdmission (c seq : Nat) (s : State) : State :=
  match findSub s c seq with
  | none => s
  | some x =>
    if rtpServes s ∧ s.jobs.admq.find? (awaits s) = some (c, seq) then
      let p := ctxPid s c
      let s := { s with jobs := { s.jobs with admq := s.jobs.admq.filter (· != (c, seq)) } }
      match parseImage s.assy.toNat (insideShare s p) x.gdata with
      | none => s
      | some im =>
        if (findImage s p x.loadSlot).isSome then finishSub c seq 4 0x84 (modSub c seq (fun y => { y with gdata := [] }) s)
        else
        let i : Image := { pid := p, slot := x.loadSlot, ctx := c, base := x.localAddr, digest := im.digest,
                           entries := im.entries, recs := im.recs, last := 0
                           codes := (im.sects.filter fun k => k.typ == 3).map fun k => (k.tgt, k.off) }
        let a := judgeImage s i
        let s := setN (kPart p 0x14) a.rate (setN (kPart p 0x10) (a.code * 2 ^ 24 + a.cls * 2 ^ 20 + a.unit * 256) s)
        let s := modSub c seq (fun y => { y with gdata := [], result := leAt im.digest 0 4 }) s
        if a.code ≠ 0 then finishSub c seq 1 a.code s
        else
          let s := each a.evict (fun j t => vec0 (partFn t p) (inc32 (kPart p 0x18) 1 (unbindSlot p j.slot t))) s
          finishSub c seq 0 0 (bindImage i im.sects x.gdata s)
    else s

def execAdmission (ctx : BitVec 10) (seq : Word) (s : State) : Out := .next (doAdmission ctx.toNat seq.toNat s)

end Sys2Proof.Machine
end

