-- ==== Sys2Proof/Machine/Partitions.lean ====
section
/-! DEFINITION. The life cycle of partitions (11 R330-R338; 08 R230; 16 R479, R485, R498) and mailbox codes that are no request
(18 R533). -/

namespace Sys2Proof.Machine

/-- Rows of a channel group (08 R226). -/
def groupRows : Nat := 50331648

/-! Registers a partition holds -/

/-- The core, cluster or partition block that register `k` lies in belongs to partition `p`'s clusters `cls` or to `p` itself. -/
def inBlocks (p : Nat) (cls : List Nat) (k : Nat) : Bool :=
  (decide (kCore 0 0 ≤ k) && decide (k < kCore 512 0) && cls.contains ((k - kCore 0 0) / 0x10000)) ||
  (decide (kCl 0 0 ≤ k) && decide (k < kCl 32 0) && cls.contains ((k - kCl 0 0) / 0x1000)) ||
  (decide (kPart p 0 ≤ k) && decide (k < kPart (p + 1) 0))

/-- Register `k` is in the set-up block of one of the contexts. -/
def inCtxs (cs : List Nat) (k : Nat) : Bool :=
  decide (kCtx 0 0 ≤ k) && decide (k < kCtx 1024 0) && cs.contains ((k - kCtx 0 0) / 256)

/-- Return the SL fields of register `k` to reset. -/
def resetSL (k : Nat) (s : State) : State :=
  match regSpec k with
  | some r =>
    let m : Word := BitVec.ofNat 32 r.sl
    setR k ((getR s k &&& ~~~m) ||| (regReset k &&& m)) s
  | none => s

/-- The registers listed whose number satisfies a test. -/
def listed (s : State) (f : Nat → Bool) : List Nat := (s.regs.filter fun (k, _) => f k).map (·.1)

/-- The counters of core and cluster blocks: matrix, vector, memory, page, gate and combine, control core switches, results of crema taps
(15 R448, R449). -/
def unitCounter (k : Nat) : Bool :=
  if kCore 0 0 ≤ k then
    let o := k % 0x1000
    decide (o < 0x40) || (decide (0x80 ≤ o) && decide (o < 0xA0)) || (decide (0x100 ≤ o) && decide (o < 0x118)) || o == 0x1C4 ||
      (decide (0x200 ≤ o) && decide (o < 0x300) && decide (0xC ≤ o % 0x40))
  else
    let o := k % 0x1000
    decide (o < 0x18) || (decide (0x40 ≤ o) && decide (o < 0x60)) || (decide (0x80 ≤ o) && decide (o < 0xA0)) ||
      (decide (0x100 ≤ o) && decide (o < 0x200) && decide (0xC ≤ o % 0x40))

/-- The counters of a partition's blocks, by offset: control, security, recovery, dump, power, HBM, Span (15 R449). -/
def partCounters : List Nat :=
  [0x18, 0x1C, 0x20, 0x8C, 0x110, 0x114, 0x11C, 0x120, 0x124, 0x128, 0x20C, 0x210,
   0x240, 0x244, 0x248, 0x24C, 0x250, 0x254, 0x2000, 0x2004, 0x2008, 0x200C, 0x2010, 0x2014]

/-- Clear the counters PART_CREATE clears and disarm the crema taps of the clusters (15 R449). -/
def clearCounters (p : Nat) (cls : List Nat) (s : State) : State :=
  let s := each (listed s fun k => decide (kCl 0 0 ≤ k) && inBlocks p cls k && unitCounter k) rstR s
  let s := setF (kPart p 0x1D8) 15 0 0 (rstRs (partCounters.map (kPart p)) s)
  let s := each (coresOf cls) (fun n => each [0, 1, 2, 3] fun t => setF (kCore n (0x200 + 0x40 * t)) 31 31 0) s
  each cls (fun c => each [0, 1, 2, 3] fun t => setF (kCl c (0x100 + 0x40 * t)) 31 31 0) s

/-! Envelopes (16 R479, R485) -/

/-- Operating points: OPPT, clock in MHz, cost of a cluster in 10 mW. -/
def opPoints : List (Nat × Nat × Nat) := [(0, 800, 8125), (1, 700, 6298), (2, 600, 4744), (3, 500, 3444), (4, 400, 2376)]

/-- The fastest point whose cost for `n` clusters fits an envelope; `none` below the slowest. -/
def pointFor (n envw : Nat) : Option (Nat × Nat) :=
  (opPoints.find? fun (_, _, c) => decide (n * c ≤ envw * 100)).map fun (o, f, _) => (o, f)

/-! PART_CREATE -/

/-- The contexts of a CTXMASK. -/
def maskCtxs (m : List Byte) : List Nat := (rangeFrom 0 1024).filter fun c => bit (listGet 0 m (c / 8)) (c % 8)

/-- Why a PART_CREATE is refused: the first condition in the order of 11 R334. -/
def createCode (s : State) (p cmode envw : Nat) (cls cs : List Nat) : Nat :=
  if inRecovery s || bit (getR s 0x400) 26 || decide (2 < cmode) || (cmode != 0 && bit (getR s 0x400) 31) then 0x9C
  else if partState s p ≠ 0 then 0x98
  else if svc s ≠ 3 ∧ (cls.any (fun c => c % 8 != 0) ∨ (rangeFrom 0 32).any fun q => partState s q != 0) then 0x9E
  else if cls.isEmpty || cls.any (fun c => (clOwner s c).isSome) then 0x99
  else if cs.any (fun c => (ctxOwner s c).isSome) then 0x9A
  else if (pointFor cls.length envw).isNone || decide (getF s 0x114 15 0 < getF s 0x118 15 0 + envw) then 0x9B
  else 0

/-- The partition is created (11 R332, R338; 09 R260; 12 R377, R390; 15 R449; 16 R480, R481). -/
def createPart (p cmode envw : Nat) (clm : Word) (cls cs : List Nat) (s : State) : State :=
  let (o, f) := (pointFor cls.length envw).getD (4, 400)
  let s := each (listed s fun k => inBlocks p cls k || inCtxs cs k) resetSL s
  let s := clearCounters p cls s
  let s := setR (kPart p 4) clm s
  let s := setN (kPart p 8) (envw * 2 ^ 16 + f) s
  let s := setN (kPart p 0xC) cs.length s
  let s := each cs (fun c => setN (kCtx c 0xA0) (2 ^ 31 + p)) s
  let s := setN (kPart p 0x1000) ((epochOf s p + 1) % 65536) s
  let s := newMek p s
  let s := setN (kPart p 0x80) (cmode * 256) s
  let s := rstRs [kPart p 0x2428, kPart p 0x242C] s
  let s := setN (kPart p 0x204) o s
  let s := setF 0x118 15 0 (getF s 0x118 15 0 + envw) s
  let s := modPart p (fun x => { x with drip := svc s != 3 }) s
  let s := each cls (setClst · 0) (zeroClusters cls s)
  setPartState p 1 s

/-- PART_CREATE (11 R331, R332). A PID above 31 is a malformed body. -/
def doCreate (b : List Byte) (s : State) : State × Nat × List Byte :=
  let p := leAt b 0 1
  if b.length ≠ 136 ∨ 31 < p then (s, 0xC1, [])
  else
    let clm : Word := BitVec.ofNat 32 (leAt b 4 4)
    let cls := (rangeFrom 0 32).filter fun c => bit clm c
    let cs := maskCtxs (b.drop 8)
    let code := createCode s p (leAt b 1 1) (leAt b 2 2) cls cs
    if code ≠ 0 then (s, code, []) else (createPart p (leAt b 1 1) (leAt b 2 2) clm cls cs s, 0, [])

def execPartCreate (body : List Byte) (s : State) : Out := .next (request 0 0x10 body (doCreate body) s)

/-! PART_SEAL -/

/-- Whether a share is in force: sealed and not yet FREE, and not of a drip partition, which has none (08 R230; 16 R497). -/
def shareInForce (s : State) (q : Nat) : Bool := (partOf s q).inForce && !isDrip s q
def shareIso (s : State) (q : Nat) : Bool := bit (getR s (kPart q 0x2400)) 0
/-- The shares in force of other partitions. -/
def otherShares (s : State) (p : Nat) : List Nat := (rangeFrom 0 32).filter fun q => q != p && shareInForce s q

/-- The group set a share would take: its mask, or every group of the assembly that no isolated share in force owns (08 R227). -/
def newSet (s : State) (p : Nat) : List Nat :=
  if isDrip s p then []
  else if shareIso s p then maskGroups s p
  else
    let own := ((otherShares s p).filter (shareIso s)).flatMap fun q => (partOf s q).gset
    (rangeFrom 0 (groupsN s)).filter fun g => !own.contains g

/-- The row ranges of a share: main and pinned, first row and count, those that are not empty. -/
def shareRanges (s : State) (p : Nat) : List (Nat × Nat) :=
  [(getF s (kPart p 0x2418) 25 0, shareRows s p), (getF s (kPart p 0x2420) 25 0, sharePin s p)].filter fun (_, n) => n != 0

def rangesMeet (a b : Nat × Nat) : Bool := decide (a.1 < b.1 + b.2) && decide (b.1 < a.1 + a.2)

/-- R230: whether the share of a partition with group set `gs` is refused. -/
def shareBad (s : State) (p : Nat) (gs : List Nat) : Bool :=
  let rr := shareRanges s p
  let others := otherShares s p
  rr.any (fun (b, n) => decide (groupRows < b + n)) ||
  (!gs.isEmpty && (match rr with | [a, b] => rangesMeet a b | _ => false)) ||
  (rangeFrom 0 12).any (fun st => decide (2 ^ 32 < (gs.filter fun g => g / 8 == st).length * sharePin s p * 256)) ||
  (if shareIso s p then
    gs.any fun g => decide (groupsN s ≤ g) || others.any fun q => (partOf s q).gset.contains g
   else others.any fun q => !shareIso s q && gs.any (fun g => (partOf s q).gset.contains g) &&
      rr.any fun a => (shareRanges s q).any (rangesMeet a))

/-- Whether a share includes units that still await stage 2 of a scrub (12 R392). -/
def scrubMeets (s : State) (p : Nat) (gs : List Nat) : Bool :=
  s.hbm.scrub.any fun (g, b, n) => gs.contains g && (shareRanges s p).any (rangesMeet (b, n))

/-- Whether rising intervals cover [a, b). -/
def covered (iv : List (Nat × Nat)) (a b : Nat) : Bool :=
  decide (b ≤ iv.foldl (fun cur (lo, hi) => if lo ≤ cur ∧ cur < hi then hi else cur) a)

/-- The local addresses a partition may name: its share, its clusters' memories, scratchpads and accumulators (08 R212, R213). -/
def partRanges (s : State) (p : Nat) : List (Nat × Nat) :=
  let cls := partCls s p
  [(0, mainSize s p)] ++
  ((rangeFrom 0 12).map fun st => (0x20000000000 + st * 2 ^ 32, 0x20000000000 + st * 2 ^ 32 + pinSize s p st)) ++
  (cls.map fun c => (cmBase c, cmBase c + cmSize)) ++ (cls.map fun c => (spBase (16 * c), spBase (16 * c + 16))) ++
  (cls.map fun c => (accBase (16 * c) 0, accBase (16 * c + 16) 0))

/-- The first registers of the valid region entries of a partition's masters (08 R219, R220). -/
def regionEntries (s : State) (p : Nat) : List Nat :=
  (s.regs.filter fun (k, v) => bit v 31 && k % 16 == 0 && inBlocks p (partCls s p) k &&
    (if kCl 0 0 ≤ k then decide (0x400 ≤ k % 0x1000)
     else decide (0x2800 ≤ k % 0x4000) && decide (k % 0x4000 < 0x2A00))).map (·.1)

/-- Whether a valid region entry is illegal: a context the partition does not own, or an address outside its memories (11 R334). -/
def entryBad (s : State) (p : Nat) (iv : List (Nat × Nat)) (k : Nat) : Bool :=
  let a := 64 * rgnBase s k 0
  let b := 64 * rgnLim s k 0
  (!bit (getR s k) 30 && ctxOwner s (getF s k 9 0) != some p) || (decide (a ≤ b) && !covered iv a (b + 64))

/-- The valid residency slots of a core: context, first rescale entry, count (11 R340). -/
def slotsOf (s : State) (n : Nat) : List (Nat × Nat × Nat) :=
  (rangeFrom 0 8).filterMap fun i =>
    let v := getR s (kCore n (0x180 + 8 * i))
    if bit v 31 then some (fld v 9 0, getF s (kCore n (0x184 + 8 * i)) 11 0, getF s (kCore n (0x184 + 8 * i)) 28 16) else none

/-- Residency of a core is illegal (11 R334 code 0x93). -/
def slotsBad (s : State) (p : Nat) : List (Nat × Nat × Nat) → Bool
  | [] => false
  | (c, b, n) :: r =>
    ctxOwner s c != some p || decide (4096 < b + n) ||
      r.any (fun (c', b', n') => c' == c || (n != 0 && n' != 0 && rangesMeet (b, n) (b', n'))) || slotsBad s p r

def distinct : List Nat → Bool
  | [] => true
  | x :: r => !r.contains x && distinct r

/-- Placement of a context is illegal (11 R334 code 0x94). -/
def placeBad (s : State) (p c : Nat) : Bool :=
  let pl := placeOf s c
  !distinct pl || pl.any fun cl => !bit (clMask s p) cl || (coresOf [cl]).any fun n => (slotOf s n c).isNone

def winValid (s : State) (p n : Nat) : Bool := bit (getR s (kWin p n 0)) 31

/-- What a drip partition may not have (16 R498). -/
def dripSeal (s : State) (p : Nat) : Bool :=
  isDrip s p && (shareRows s p != 0 || sharePin s p != 0 ||
    (rangeFrom 0 64).any (fun n => winValid s p n || bit (getR s (kPeer p n 0)) 31) ||
    (rangeFrom 0 16).any (fun k => bit (getR s (kRdc k 0)) 31 && getF s (kRdc k 0) 4 0 == p) || bit (getR s (kPart p 0x1C0)) 31)

/-- Why a PART_SEAL is refused: the first condition in the order of 11 R334. `s` has the share's group set. -/
def sealCode (s : State) (p : Nat) : Nat :=
  let gs := (partOf s p).gset
  if partState s p ≠ 1 then 0x90
  else if dripSeal s p then 0x9E
  else if shareBad s p gs then 0x91
  else if scrubMeets s p gs then 0x96
  else if (regionEntries s p).any (entryBad s p (partRanges s p)) then 0x92
  else if (coresOf (partCls s p)).any (fun n => slotsBad s p (slotsOf s n)) then 0x93
  else if (partCtxs s p).any (placeBad s p) then 0x94
  else if xdies s = 1 ∧ (rangeFrom 0 64).any (fun n => winValid s p n && bit (getR s (kWin p n 0)) 24) then 0x95
  else if cmode s p = 2 ∧ !s.pwr.pfReady then 0x97
  else if bit (getR s (kPart p 0x1C0)) 31 ∧
      (rangeFrom 0 32).any (fun q => q != p && partState s q != 0 && bit (getR s (kPart q 0x1C0)) 31) then 0x9D
  else 0

/-- PART_SEAL (11 R334; 12 R375, R377); the RTP does not serve it in recovery (12 R369). -/
def doPartSeal (b : List Byte) (s : State) : State × Nat × List Byte :=
  let p := leAt b 0 1
  if inRecovery s then (s, 0xC0, [])
  else if b.length ≠ 1 ∨ 31 < p then (s, 0xC1, [])
  else
    let gs := newSet s p
    let t := if partState s p = 1 then modPart p (fun x => { x with gset := gs }) s else s
    let code := sealCode t p
    if code ≠ 0 then (setF (kPart p 0) 15 8 code s, code, [])
    else
      let t := set64 (kPart p 0x2428) (mainSize t p) (modPart p (fun x => { x with inForce := true }) t)
      let t := setF (kPart p 0x80) 3 0 (confWait (cmode t p)) (resetLedger p t)
      let t := setPartState p 2 t
      (if assigned t then noticeUp p t else t, 0, [])

def execPartSeal (body : List Byte) (s : State) : Out := .next (request 0 0x11 body (doPartSeal body) s)

/-! PART_DESTROY -/

/-- PART_DESTROY (11 R335): refused for a FREE PID; otherwise it stays with the RTP until the PID is FREE. During a partition reset it
waits for the reset's end; a CLOSING PID finishes its earlier destroy. The RTP does not serve it in recovery (12 R369). -/
def doDestroy (b : List Byte) (s : State) : State :=
  let p := leAt b 0 1
  if inRecovery s then mbReply 0 0x12 0xC0 [] s
  else if b.length ≠ 1 ∨ 31 < p then mbReply 0 0x12 0xC1 [] s
  else if partState s p = 0 then mbReply 0 0x12 0x9F [] s
  else
    let s := mbPend 0 (0x12 + 256 * p) s
    if partState s p = 3 then modPart p (fun x => { x with destroyWaits := true }) s
    else if partState s p = 4 then s
    else startDestroy p 0 s

def execPartDestroy (body : List Byte) (s : State) : Out := .next (takeRequest 0 0x12 body (doDestroy body) s)

/-- The teardown of a closing partition has drained: the destroy ends and its request returns (11 R335). An RTP that restarted has no
request to end (R364). -/
def doDestroyDrained (p : Nat) (s : State) : State :=
  match s.sec.mailBusy.find? fun (_, c) => c == 0x12 + 256 * p with
  | none => s
  | some (fn, c) =>
    if partState s p ≠ 4 then s
    else
      let s := { s with sec := { s.sec with mailBusy := s.sec.mailBusy.filter fun (_, d) => d != c } }
      mbReply fn c 0 [] (finishDestroy p s)

def execDestroyTeardownDrained (pid : BitVec 5) (s : State) : Out := .next (doDestroyDrained pid.toNat s)

/-- A mailbox GO with a code that is no request (18 R533). -/
def execMbUnknownCode (fn : BitVec 6) (code : Byte) (body : List Byte) (s : State) : Out :=
  .next (request fn.toNat code.toNat body (fun s => (s, 0xC0, [])) s)

end Sys2Proof.Machine
end

