-- ==== Sys2Proof/Machine/Reduction.lean ====
section
/-! DEFINITION. The reduction engines: channels, buckets, shared exponents, reduction packets (chapter 13). -/

namespace Sys2Proof.Machine

/-! Channels (13 R408, R409, R419) -/

def rdcValid (s : State) (k : Nat) : Bool := bit (getR s (kRdc k 0)) 31
def rdcPid (s : State) (k : Nat) : Nat := getF s (kRdc k 0) 4 0
def rdcMembers (s : State) (k : Nat) : Nat := getF s (kRdc k 4) 12 0
/-- This module's member index: RDC_SELF, or the narrower SELF of RDC_MEMB while RDC_SELF is 0 (log 22). -/
def rdcSelf (s : State) (k : Nat) : Nat := if getF s (kRdc k 0x34) 15 0 = 0 then getF s (kRdc k 4) 27 16 else getF s (kRdc k 0x34) 15 0
def rdcTable (s : State) (k : Nat) : Nat := getF s (kRdc k 8) 31 4 * 16 + getF s (kRdc k 0xC) 15 0 * 2 ^ 32
def rdcWork (s : State) (k : Nat) : Nat := getF s (kRdc k 0x10) 31 6 * 64 + getF s (kRdc k 0x14) 15 0 * 2 ^ 32

def modRed (k : Nat) (f : RedCh → RedCh) (s : State) : State := setRed k (f (redOf s k)) s
def modBucket (k : Nat) (f : Bucket → Bucket) : State → State := modRed k fun r => { r with cur := r.cur.map f }

/-- The master of a channel's accesses: the core DMA registers of the issuing core, for the posting context (13 R412); the engine works on its
X-die (13 R408). -/
def whoRed (s : State) (k : Nat) (q : Post) : Who := { whoDma s q.core q.ctx with cls := 10, unit := k / 8, die := some (4 + k / 8) }

/-- A fault of a bucket: the channel gives the bucket up and is idle (13 R417). -/
def redFault (k : Nat) (q : Post) (f : Flt) (s : State) : State :=
  let s := modRed k (fun r => { r with cur := none, inStep := false, next := [], posts := r.posts.filter fun x => x.ctx != q.ctx }) s
  showRdc k (setF (kRdc k 0x20) 15 0 0 (faultCtx q.ctx 0 f 0x50 q.cseq s))

def redCode (k code : Nat) : Flt := { reason := code, cls := 10, unit := k / 8 }

/-! RDPOST (13 R411) -/

def rdpostHold (p : Pay) (m : EngCmd) (s : State) : Option State :=
  if rdcValid s (pf p 0 12 9) && rdcPid s (pf p 0 12 9) == ctxPid s m.ctx && decide (64 ≤ (redOf s (pf p 0 12 9)).posts.length) then some s
  else none

/-- The post joins its channel's queue. One for a channel that its partition does not hold has no queue to wait in: it is current at once, and faults
(13 R417 code 0xD0). -/
def rdpostWork (p : Pay) (m : EngCmd) : Eng Word := do
  let k := pf p 0 12 9
  let held ← look fun s => rdcValid s k && rdcPid s k == ctxPid s m.ctx && decide (k < 8 * xdies s)
  guardE held (redCode k 0xD0)
  let q : Post := { core := m.core, ctx := m.ctx, cseq := m.cseq, bd := pf p 0 31 13, step := p.w1.toNat, bseq := pf p 2 31 16
                    last := pb p 0 8, strict := m.strict, satm := m.satm
                    bad := !pz p 0 0xFF || !pz p 2 0xFFFF || !wordsZero p 3 }
  upd (fun s => showRdc k (modRed k (fun r => { r with posts := r.posts ++ [q] }) s))
  pure 0

def execRdpost (core : BitVec 9) (ctx : BitVec 10) (p : Pay) (s : State) : Out :=
  .next (runHeld core.toNat ctx.toNat 0x50 p (rdpostHold p) (rdpostWork p) s)

/-! Descriptors (13 R412, R416) -/

def bdSrc (d : List Byte) : Nat := leAt d 0 8
def bdRes (d : List Byte) : Nat := leAt d 8 8
def bdDst (d : List Byte) : Nat := leAt d 16 8
def bdL (d : List Byte) : Nat := leAt d 24 4
def bdKsel (d : List Byte) : Nat := leAt d 28 4
def bdDi8 (d : List Byte) : Bool := leAt d 32 1 == 8
def bdFlag (d : List Byte) (i : Nat) : Bool := (leAt d 34 1).testBit i
def bdWide (d : List Byte) : Bool := bdFlag d 0
def bdResid (d : List Byte) : Bool := bdFlag d 1
def bdSei (d : List Byte) : Bool := bdFlag d 2
def bdOexp (d : List Byte) : Int := signed 8 (leAt d 35 1)
/-- CFG of a packet (13 R414). -/
def bdCfg (d : List Byte) : Nat := bdL d + (if bdWide d then 2 ^ 28 else 0) + (if bdSei d then 2 ^ 29 else 0)
/-- Bytes of a contribution and of a result. -/
def bdQ (d : List Byte) : Nat := if bdWide d then 8 else 4
def bdR (d : List Byte) : Nat := if bdSei d then bdQ d else 4

def bdBad (d : List Byte) : Bool :=
  bdSrc d % 64 != 0 || (bdResid d && bdRes d % 64 != 0) || bdDst d % 64 != 0 || bdL d == 0 || decide (2 ^ 28 ≤ bdL d) ||
    !(leAt d 32 1 == 0 || leAt d 32 1 == 8) || leAt d 33 1 == 255 || decide (8 ≤ leAt d 34 1) || leAt d 44 20 != 0

/-- SH and the bounds of shard `j` (13 R403). -/
def shSize (l n : Nat) : Nat := roundUp (ceilDiv l n) 32
def shardLo (l n j : Nat) : Nat := min l (j * shSize l n)
def shardHi (l n j : Nat) : Nat := min l ((j + 1) * shSize l n)

def membOf (e : List Byte) : Memb :=
  { modnum := leAt e 0 2, pid := leAt e 2 1 % 32, port := leAt e 3 1 % 32, epoch := leAt e 4 2, v := (leAt e 6 1).testBit 0 }

/-- The conditions of 0xD1 (13 R417). -/
def membsBad (s : State) (k : Nat) (d : List Byte) (ms : List Memb) (self : Nat) : Bool :=
  let n := rdcMembers s k
  n == 0 || (!bdWide d && decide (4096 < n)) || decide (n ≤ self) || ms.any (fun m => !m.v || decide (portsN s ≤ m.port)) ||
    (match ms[self]? with | some m => m.modnum != modNum s || m.pid != rdcPid s k | none => true)

/-! Packets (13 R414, R415) -/

/-- The bytes of a reduction packet: header, sub-header, payload. -/
def redBytes (k : RedPkt) : List Byte :=
  let sub := leBytes 2 k.bseq.toNat ++ leBytes 2 k.member.toNat ++ leBytes 4 k.cfg.toNat ++ leBytes 8 k.arg.toNat
  let h : Pkt := { opc := k.opc, strict := false, nbytes := BitVec.ofNat 9 k.data.length, dmod := k.dmod, smod := k.smod
                   dpid := k.dpid, spid := k.spid, sctx := k.sctx, tepoch := k.tepoch, sepoch := k.sepoch
                   addr := BitVec.ofNat 48 (k.step.toNat + k.ch.toNat * 2 ^ 44), status := 0, flags := 0, tag := 0
                   dcrc := BitVec.ofNat 32 (crc32c (sub ++ k.data)), data := sub ++ k.data }
  pktBytes h

/-- Send a reduction packet to a member through the port its entry names. -/
def sendRed (k : Nat) (b : Bucket) (opc j arg : Nat) (data : List Byte) (s : State) : State :=
  match b.membs[j]? with
  | none => s
  | some m =>
    let p := rdcPid s k
    let q : RedPkt := { opc := BitVec.ofNat 8 opc, dmod := BitVec.ofNat 16 m.modnum, smod := BitVec.ofNat 16 (modNum s)
                        dpid := BitVec.ofNat 5 m.pid, spid := BitVec.ofNat 5 p, sctx := BitVec.ofNat 10 b.post.ctx
                        tepoch := BitVec.ofNat 16 m.epoch
                        sepoch := BitVec.ofNat 16 (epochOf s p), step := BitVec.ofNat 32 b.post.step, ch := BitVec.ofNat 4 k
                        bseq := BitVec.ofNat 16 b.post.bseq, member := BitVec.ofNat 16 b.self
                        cfg := BitVec.ofNat 32 (bdCfg b.desc), arg := BitVec.ofNat 64 arg, data := data }
    sendSlots m.port 2 (redBytes q) { s with span := { s.span with out := s.span.out ++ [.red m.port q] } }

/-- The other members, ascending. -/
def others (b : Bucket) : List Nat := (rangeFrom 0 b.membs.length).filter fun j => j != b.self

/-- Whether a reduction packet is for this module, the channel's partition and its epoch (13 R415). -/
def redAccept (s : State) (q : RedPkt) : Bool :=
  let k := q.ch.toNat
  assigned s && q.dmod.toNat == modNum s && rdcPid s k == q.dpid.toNat && q.tepoch.toNat == epochOf s (rdcPid s k)

/-- Whether the member entry at a sender's index names its module, partition and epoch (13 R415). -/
def fromMember (ms : List Memb) (j smod spid sepoch : Nat) : Bool :=
  match ms[j]? with
  | some m => m.modnum == smod && m.pid == spid && m.epoch == sepoch
  | none => false

def redDrop (k : Nat) : State → State := inc32 (kRdc k 0x2C) 1

/-- Whether a packet belongs to the current bucket. -/
def forCur (b : Bucket) (q : RedPkt) : Bool := b.post.step == q.step.toNat && b.post.bseq == q.bseq.toNat

/-- Whether a packet belongs to the bucket expected next (13 R410). -/
def forNext (s : State) (k : Nat) (q : RedPkt) : Bool :=
  match (redOf s k).cur with
  | some b => if b.post.last then q.bseq == 0 else q.step.toNat == b.post.step && q.bseq.toNat == b.post.bseq + 1
  | none => rdcExpects s k q.step.toNat q.bseq.toNat

/-- A packet on a channel: checked, then given to the current bucket, whose member table says whom it is from; `early` takes it otherwise. None is this
member's own. A CFG that differs is 0xD3. -/
def takeRed (q : RedPkt) (early : State → State) (f : Bucket → State → State) (s : State) : State :=
  let k := q.ch.toNat
  if !rdcValid s k then inc32 0x100C 1 s
  else if !redAccept s q then redDrop k s
  else match (redOf s k).cur with
  | some b =>
    if forCur b q then
      (if !fromMember b.membs q.member.toNat q.smod.toNat q.spid.toNat q.sepoch.toNat || q.member.toNat == b.self then redDrop k s
       else if q.cfg.toNat = bdCfg b.desc then f b s
       else redFault k b.post (redCode k 0xD3) s)
    else early s
  | none => early s

/-! Phase 1 (13 R404) -/

/-- What a signalling NaN of the source raises in a strict context (02 R55). -/
def snanFlags (strict : Bool) (v : List Word) : Nat := if strict && v.any isSnan then flNV ||| flSNAN else 0

/-- Values of the source, with residuals added: and what the additions raise. -/
def readValues (w : Who) (d : List Byte) (strict : Bool) : Eng (List Word × Nat) := do
  let l := bdL d
  let v ← if bdDi8 d then
      (fun bs => bs.map fun b => fp32Of (scaledElem 8 (ds8 (leAt d 33 1)) b.toNat)) <$> readE w (bdSrc d) l
    else readWords w (bdSrc d) l
  if bdResid d then do
    let r ← readWords w (bdRes d) l
    pure (zipFl (fpAdd strict) v r)
  else pure (v, snanFlags strict v)

def isFinite (w : Word) : Bool := !isNan w && !isInf w

/-- A post becomes current: descriptor and member table are read and checked, the working area is zeroed, the local maximum is
formed. -/
def startBucket (k : Nat) (q : Post) : Eng Bucket := do
  let w ← look fun s => whoRed s k q
  let base ← cmShare w (clOf q.core) false
  let d ← readE w (base + q.bd * 64) 64
  guardE (!q.bad && !bdBad d) (redCode k 0xD0)
  let n ← look fun s => rdcMembers s k
  let self ← look fun s => rdcSelf s k
  let mt ← look fun s => rdcTable s k
  let tb ← if n = 0 then pure [] else readE w mt (16 * n)
  let ms := (chunks 16 tb.length tb).map membOf
  let bad ← look fun s => membsBad s k d ms self
  guardE (!bad) (redCode k 0xD1)
  let wk ← look fun s => rdcWork s k
  let sz ← look fun s => (getR s (kRdc k 0x18)).toNat
  guardE (decide (shSize (bdL d) n * 8 ≤ sz)) (redCode k 0xD2)
  let own := shardHi (bdL d) n self - shardLo (bdL d) n self
  if own = 0 then pure () else writeE w wk (List.replicate (own * 8) 0)
  let (v, f) ← readValues w d q.strict
  let a : Word := BitVec.ofNat 32 ((v.filter isFinite).foldl (fun m x => max m (magBits x)) 0)
  let me ← look fun s => (modNum s, rdcPid s k, epochOf s (rdcPid s k))
  let mine : Maximum := { member := self, smod := me.1, spid := me.2.1, sepoch := me.2.2, step := q.step, bseq := q.bseq, cfg := bdCfg d, a, nf := v.any fun x => !isFinite x }
  pure { post := q, desc := d, membs := ms, self, maxima := [mine], flags := f }

/-- The early maxima of a post's bucket: those of its STEP, and of them those whose senders the member table names (13 R410, R415). -/
def earlyFor (q : Post) (l : List Maximum) : List Maximum := l.filter fun m => m.step == q.step && m.bseq == q.bseq
def earlyFrom (b : Bucket) (l : List Maximum) : List Maximum :=
  l.filter fun m => m.member != b.self && fromMember b.membs m.member m.smod m.spid m.sepoch

/-- BUCKET_START (13 R409, R410). A post whose BSEQ has completed faults now (13 R417 code 0xD0). The senders of early maxima are checked against the
table read now; those it does not name are dropped and counted (log 107). -/
def doStart (k : Nat) (s : State) : State :=
  let r := redOf s k
  match (if r.cur.isSome then none else takeFirst (mayStart s k) r.posts) with
  | none => s
  | some (q, rest) =>
    let late := rdcLate s k q.step q.bseq
    let s := modRed k (fun r => { r with posts := rest, inStep := true }) s
    let s := setN (kRdc k 0x24) q.step (setF (kRdc k 0x20) 15 0 (if q.last then 0 else q.bseq + 1) s)
    if late then redFault k q (redCode k 0xD0) s
    else match startBucket k q s with
    | .error f s => redFault k q f s
    | .ok b s =>
      let all := earlyFor q r.next
      let early := earlyFrom b all
      let s := each (all.drop early.length) (fun _ => redDrop k) s
      if early.any fun m => m.cfg != bdCfg b.desc then redFault k q (redCode k 0xD3) s
      else
        let b := { b with maxima := b.maxima ++ early }
        let s := showRdc k (modRed k (fun r => { r with cur := some b, next := [] }) s)
        match b.maxima.head? with
        | some m => each (others b) (fun j => sendRed k b 0x10 j (m.a.toNat + (if m.nf then 2 ^ 32 else 0)) []) s
        | none => s

def execBucketStart (ch : BitVec 4) (s : State) : Out := .next (doStart ch.toNat s)

/-- RDMAX: a maximum of the current bucket, or of the next expected one, one to a member (13 R410). -/
def doRdmax (q : RedPkt) (s : State) : State :=
  let k := q.ch.toNat
  let m : Maximum := { member := q.member.toNat, smod := q.smod.toNat, spid := q.spid.toNat, sepoch := q.sepoch.toNat, step := q.step.toNat, bseq := q.bseq.toNat, cfg := q.cfg.toNat
                       a := BitVec.ofNat 32 (q.arg.toNat % 2 ^ 32), nf := q.arg.toNat / 2 ^ 32 % 256 != 0 }
  takeRed q
    (fun s => if forNext s k q then modRed k (fun r => { r with next := r.next.filter (fun x => x.member != m.member) ++ [m] }) s
      else redDrop k s)
    (fun b s => if b.maxima.any fun x => x.member == m.member then redDrop k s
      else modBucket k (fun b => { b with maxima := b.maxima ++ [m] }) s) s

def execRdmax (k : RedPkt) (s : State) : Out := .next (doRdmax k s)

/-! Phase 2 (13 R401, R402, R404) -/

/-- The shared exponent (13 R401): `h` is 18 or 46. -/
def sharedExp (h : Nat) (m : Word) : Int :=
  match ofFp32 m with
  | .fin _ 0 _ => 0
  | .fin _ n e =>
    let x : Int := n.log2 + e - h
    if rneInt false n (e - x) > 2 ^ (h + 1) - 1 then x + 1 else x
  | _ => 0

/-- The conversion of a value (13 R402): q, and UF for a value that became 0. -/
def seiOf (x : Int) (v : Word) : Int × Nat :=
  match ofFp32 v with
  | .fin n m e => let q := rneInt n m (e - x); (q, if q = 0 ∧ m ≠ 0 then flUF else 0)
  | _ => (0, 0)

/-- Insert an index in falling order of magnitude, lower indices first among equals. -/
def insMag (x : Nat × Word) : List (Nat × Word) → List (Nat × Word)
  | [] => [x]
  | y :: r => if magBits y.2 < magBits x.2 then x :: y :: r else y :: insMag x r

/-- The selected indices, ascending (13 R404). -/
def selected (ksel : Nat) (v : List Word) : List Nat :=
  if ksel = 0 ∨ v.length ≤ ksel then rangeFrom 0 v.length
  else
    let top := (((rangeFrom 0 v.length).zip v).foldl (fun l x => insMag x l) []).take ksel
    top.foldl (fun l x => setIns x.1 l) []

/-- The residual of a selected entry: round(v - q * 2^x). -/
def residOf (strict : Bool) (x : Int) (v : Word) (q : Int) : Word × Nat :=
  match ofFp32 v with
  | .fin n m e => if q = 0 then (v, 0) else let (z, f) := dySum (sgn n m) e (-q) x; fpOfDy strict z f
  | _ => (v, 0)

/-- Two's complement bytes. -/
def intBytes (n : Nat) (z : Int) : List Byte := leBytes n ((z % (2 ^ (8 * n) : Nat)).toNat)

/-- Contributions, as (bucket offset, q), are added into the home's working elements (13 R405). -/
def addWork (w : Who) (wk lo : Nat) (cs : List (Nat × Int)) : Eng Unit :=
  eachM cs fun (i, q) => do
    let a := wk + 8 * (i - lo)
    let old ← readE w a 8
    writeE w a (intBytes 8 (signed 64 (leNat old) + q))

/-- Send a member's contributions to a home: RDPART or RDPAIR packets, then RDDONE (13 R414). -/
def sendHome (k : Nat) (b : Bucket) (sparse : Bool) (j : Nat) (cs : List (Nat × Int)) (s : State) : State :=
  let n := bdQ b.desc
  let per := if n = 8 then 30 else 60
  let s :=
    if sparse then
      each (chunks (if n = 8 then 15 else 30) cs.length cs) (fun c => sendRed k b 0x12 j 0
        (c.flatMap fun (i, q) => leBytes 4 i ++ (if n = 8 then leBytes 4 0 else []) ++ intBytes n q)) s
    else
      each (chunks per cs.length cs) (fun c => sendRed k b 0x11 j ((c.head?.map (·.1)).getD 0) (c.flatMap fun (_, q) => intBytes n q)) s
  sendRed k b 0x13 j cs.length [] s

/-- Phase 2: exponent, conversions, selection, residuals, contributions. -/
def phase2 (k : Nat) (b : Bucket) : Eng Bucket := do
  let d := b.desc
  let w ← look fun s => whoRed s k b.post
  let m : Word := BitVec.ofNat 32 (b.maxima.foldl (fun a x => max a (magBits x.a)) 0)
  if b.maxima.any (·.nf) then
    pure { b with phase2 := true, m := qnan, nf := true, flags := b.flags ||| flNAN }
  else do
    let x := sharedExp (if bdWide d then 46 else 18) m
    let (v, f) ← readValues w d b.post.strict
    let qs := v.map (seiOf x)
    let sel := selected (bdKsel d) v
    let sparse := decide (sel.length < v.length)
    let lst := (rangeFrom 0 v.length).zip (v.zip qs)
    let g ← if bdResid d then do
        let rs := lst.map fun (i, y, q, _) => if sel.contains i then residOf b.post.strict x y q else (y, 0)
        writeE w (bdRes d) (wordBytes (rs.map (·.1)))
        pure (orFlags (rs.map (·.2)))
      else pure 0
    let cs := (lst.filter fun (i, _) => sel.contains i).map fun (i, _, q, _) => (i, q)
    let n := b.membs.length
    let toHome : Nat → List (Nat × Int) := fun j =>
      cs.filter fun (i, _) => decide (shardLo (bdL d) n j ≤ i) && decide (i < shardHi (bdL d) n j)
    let wk ← look fun s => rdcWork s k
    addWork w wk (shardLo (bdL d) n b.self) (toHome b.self)
    upd (each (others b) fun j => sendHome k b sparse j (toHome j))
    let own := (toHome b.self).length
    pure { b with phase2 := true, m, x, rows := sel.length, counts := tabSet0 b.self own b.counts, got := tabSet0 b.self own b.got
                  flags := b.flags ||| f ||| g ||| orFlags (qs.map (·.2)) }

/-- Everything a bucket holds after its work, put back; a fault abandons it. -/
def bucketWork (k : Nat) (b : Bucket) (work : Eng Bucket) (s : State) : State :=
  match work s with
  | .error f s => redFault k b.post f s
  | .ok b s => modRed k (fun r => { r with cur := some b }) s

/-- BUCKET_PHASE2: all maxima are held. -/
def doPhase2 (k : Nat) (s : State) : State :=
  match (redOf s k).cur with
  | some b => if !b.phase2 && b.maxima.length == b.membs.length then bucketWork k b (phase2 k b) s else s
  | none => s

def execBucketPhase2 (ch : BitVec 4) (s : State) : Out := .next (doPhase2 ch.toNat s)

/-! The home (13 R405, R406) -/

/-- Contributions of a member arrive at their home: none after its count has, which they would no longer match (13 R417 code 0xD4). -/
def takeParts (k : Nat) (b : Bucket) (j : Nat) (cs : List (Nat × Int)) : Eng Bucket := do
  let n := b.membs.length
  let lo := shardLo (bdL b.desc) n b.self
  let hi := shardHi (bdL b.desc) n b.self
  guardE ((tabFind j b.counts).isNone && cs.all fun (i, _) => decide (lo ≤ i) && decide (i < hi)) (redCode k 0xD4)
  let w ← look fun s => whoRed s k b.post
  let wk ← look fun s => rdcWork s k
  addWork w wk lo cs
  pure { b with got := tabSet0 j (tab0 b.got j + cs.length) b.got }

/-- Elements of a payload as signed integers. -/
def seiElems (n : Nat) (bs : List Byte) : List Int := (elemsOf n bs).map (signed (8 * n))

def doRdpart (q : RedPkt) (s : State) : State :=
  let k := q.ch.toNat
  takeRed q (redDrop k) (fun b s =>
    let es := seiElems (bdQ b.desc) q.data
    bucketWork k b (takeParts k b q.member.toNat ((rangeFrom q.arg.toNat es.length).zip es)) s) s

def execRdpart (k : RedPkt) (s : State) : Out := .next (doRdpart k s)

/-- The pairs of an RDPAIR payload. -/
def pairsOf (n : Nat) (bs : List Byte) : List (Nat × Int) :=
  (chunks (2 * n) bs.length bs).map fun c => (leAt c 0 4, signed (8 * n) (leAt c n n))

def doRdpair (q : RedPkt) (s : State) : State :=
  let k := q.ch.toNat
  takeRed q (redDrop k) (fun b s => bucketWork k b (takeParts k b q.member.toNat (pairsOf (bdQ b.desc) q.data)) s) s

def execRdpair (k : RedPkt) (s : State) : Out := .next (doRdpair k s)

/-- RDDONE: the count must be what has arrived from the member (13 R417). -/
def doRddone (q : RedPkt) (s : State) : State :=
  let k := q.ch.toNat
  takeRed q (redDrop k) (fun b s =>
    if tab0 b.got q.member.toNat = q.arg.toNat then
      modBucket k (fun b => { b with counts := tabPut (fun _ _ => false) q.member.toNat q.arg.toNat b.counts }) s
    else redFault k b.post (redCode k 0xD4) s) s

def execRddone (k : RedPkt) (s : State) : Out := .next (doRddone k s)

/-- One result from a working element (13 R405). -/
def resultOf (b : Bucket) (z : Int) : List Byte × Nat :=
  let d := b.desc
  if b.nf then (if bdSei d then leBytes (bdQ d) (2 ^ (8 * bdQ d - 1)) else leBytes 4 qnan.toNat, flNAN)
  else if bdSei d then (intBytes (bdQ d) z, 0)
  else
    let (w, f) := satmOvf b.post.satm (fpOfDy b.post.strict z (b.x + bdOexp d))
    (leBytes 4 w.toNat, f)

/-- The home forms, writes and sends its results. -/
def homeWork (k : Nat) (b : Bucket) : Eng Bucket := do
  let n := b.membs.length
  let lo := shardLo (bdL b.desc) n b.self
  let cnt := shardHi (bdL b.desc) n b.self - lo
  if cnt = 0 then pure { b with homeDone := true }
  else do
    let w ← look fun s => whoRed s k b.post
    let wk ← look fun s => rdcWork s k
    let zs ← if b.nf then pure (List.replicate cnt 0) else (fun bs => seiElems 8 bs) <$> readE w wk (8 * cnt)
    let rs := zs.map (resultOf b)
    let sz := bdR b.desc
    writeE w (bdDst b.desc + sz * lo) (rs.flatMap (·.1))
    let per := if sz = 8 then 30 else 60
    let cks := chunks per rs.length (rs.map (·.1))
    upd (each (others b) fun j =>
      each ((rangeFrom 0 cks.length).zip cks) (fun (i, c) => sendRed k b 0x14 j (lo + per * i) c.flatten))
    pure { b with homeDone := true, flags := b.flags ||| orFlags (rs.map (·.2)) }

/-- HOME_SUM_DONE: a count has arrived from every member, or the bucket is NaN. -/
def doHome (k : Nat) (s : State) : State :=
  match (redOf s k).cur with
  | some b =>
    if b.phase2 && !b.homeDone && (b.nf || (rangeFrom 0 b.membs.length).all fun j =>
        j == b.self || (tabFind j b.counts).isSome) then bucketWork k b (homeWork k b) s
    else s
  | none => s

def execHomeSumDone (ch : BitVec 4) (s : State) : Out := .next (doHome ch.toNat s)

/-! Results and the end (13 R405, R412, R413) -/

def takeResults (k : Nat) (b : Bucket) (j at_ : Nat) (data : List Byte) : Eng Bucket := do
  let w ← look fun s => whoRed s k b.post
  let sz := bdR b.desc
  writeE w (bdDst b.desc + sz * at_) data
  pure { b with resGot := tabSet0 j (tab0 b.resGot j + data.length / sz) b.resGot }

/-- RDRES: a home's results land; results outside the sender's shard are dropped. -/
def doRdres (q : RedPkt) (s : State) : State :=
  let k := q.ch.toNat
  takeRed q (redDrop k) (fun b s =>
    let n := b.membs.length
    let j := q.member.toNat
    let cnt := q.data.length / bdR b.desc
    if shardLo (bdL b.desc) n j ≤ q.arg.toNat ∧ q.arg.toNat + cnt ≤ shardHi (bdL b.desc) n j then
      bucketWork k b (takeResults k b j q.arg.toNat q.data) s
    else redDrop k s) s

def execRdres (k : RedPkt) (s : State) : Out := .next (doRdres k s)

/-- Whether this member's own shard is empty: then it is the home of nothing. -/
def ownEmpty (b : Bucket) : Bool := shardHi (bdL b.desc) b.membs.length b.self == shardLo (bdL b.desc) b.membs.length b.self

/-- Whether a member holds the results of every shard that is not empty. -/
def allResults (b : Bucket) : Bool :=
  let n := b.membs.length
  b.phase2 && (b.homeDone || ownEmpty b) && (others b).all fun j => tab0 b.resGot j == shardHi (bdL b.desc) n j - shardLo (bdL b.desc) n j

/-- XRES and MRES are written. Of a NaN bucket no exponent was chosen: XRES is a free value (log 8). -/
def finishWork (k : Nat) (b : Bucket) : Eng Bucket := do
  let w ← look fun s => whoRed s k b.post
  let base ← cmShare w (clOf b.post.core) true
  let x ← if b.nf then (do let v ← look freeN; upd bumpFree; pure (v : Int)) else pure (b.x + bdOexp b.desc)
  writeE w (base + b.post.bd * 64 + 36) (intBytes 4 x ++ leBytes 4 b.m.toNat)
  pure b

/-- BUCKET_COMPLETE: the post has its status word; the channel expects the next pair (13 R409, R413). -/
def doBucketEnd (k : Nat) (s : State) : State :=
  match (redOf s k).cur with
  | some b =>
    if !allResults b then s
    else match finishWork k b s with
    | .error f s => redFault k b.post f s
    | .ok _ s =>
      let q := b.post
      let s := mapCmds (fun x => if x.core == q.core && x.ctx == q.ctx && x.cseq == q.cseq then
        { x with status := statusWord b.rows b.flags } else x) s
      let s := inc32 (kRdc k 0x28) 1 (modRed k (fun r => { r with cur := none, inStep := !q.last }) s)
      showRdc k (setF (kRdc k 0x20) 15 0 (if q.last then 0 else q.bseq + 1) s)
  | none => s

def execBucketComplete (ch : BitVec 4) (s : State) : Out := .next (doBucketEnd ch.toNat s)

/-- Whether the current bucket still waits for a packet: a maximum, a contribution's count, or results of another home. -/
def awaitsPacket (b : Bucket) : Bool :=
  if !b.phase2 then decide (b.maxima.length < b.membs.length)
  else
    (!b.nf && !b.homeDone && !ownEmpty b && (others b).any fun j => (tabFind j b.counts).isNone) ||
      (others b).any fun j => tab0 b.resGot j != shardHi (bdL b.desc) b.membs.length j - shardLo (bdL b.desc) b.membs.length j

/-- RDC_TIMEOUT (13 R417 code 0xD5): no packet that the bucket expects has arrived in time. -/
def doRdcTimeout (k : Nat) (s : State) : State :=
  match (redOf s k).cur with
  | some b => if awaitsPacket b then redFault k b.post (redCode k 0xD5) s else s
  | none => s

def execRdcTimeout (ch : BitVec 4) (s : State) : Out := .next (doRdcTimeout ch.toNat s)

end Sys2Proof.Machine
end

