-- ==== Sys2Proof/Machine/Memories.lean ====
section
/-! DEFINITION. Starvation at the banks, HBM credits and imbalance windows, the patrol scrubber, stage 2 of a scrub (08 R218, R232-R240;
12 R391). -/

namespace Sys2Proof.Machine

/-- A DMA-side request has waited `n` cycles at a scratchpad or cluster memory (08 R218, R241). -/
def starved (k n : Nat) (s : State) : State :=
  let s := setN (k + 0x14) (max (getR s (k + 0x14)).toNat n) (inc64 k n s)
  if getF s (k + 0x18) 15 0 < n then setF (k + 0x18) 16 16 1 (inc32 (k + 0x10) 1 s) else s

/-- The memory counter block of a core's scratchpad or a cluster's memory (18 R527). -/
def memBlock (ofCore : Bool) (unit : Nat) : Nat := if ofCore then kCore unit 0x100 else kCl (unit % 32) 0

def execStarveLimit (ofCore : Bool) (unit : BitVec 9) (waited : Word) (s : State) : Out :=
  .next (starved (memBlock ofCore unit.toNat) waited.toNat s)

/-- The master whose turn a group's credit is: among those that wait for it, the next after the last one served, going round (08 R232). -/
def creditTurn (s : State) (g : Nat) : Option Nat :=
  leastBy (turnAfter 0x1000000 (tab0 s.hbm.lastGrant g)) ((s.hbm.waits.filter fun x => x.1 == g).map (·.2.1))

/-- A full group frees room for a unit and grants a credit: the master whose turn it is waits no more, and its unit takes the room; with none
waiting the queue is a unit shorter. -/
def doCredit (g : Nat) (s : State) : State :=
  match creditTurn s g with
  | none => { s with hbm := { s.hbm with occ := tabSet0 g (tab0 s.hbm.occ g - 1) s.hbm.occ } }
  | some m =>
    { s with hbm := { s.hbm with lastGrant := tabSet0 g m s.hbm.lastGrant
                                 waits := s.hbm.waits.filter fun x => !(x.1 == g && x.2.1 == m) } }

def execHbmCreditGrant (group : BitVec 7) (s : State) : Out := .next (doCredit group.toNat s)

/-- The group of a partition's set with the most units of the window, the lowest of equals. -/
def hotGroup (s : State) (p : Nat) : List Nat → Nat → Nat
  | [], b => b
  | g :: r, b => hotGroup s p r (if tab0 s.hbm.win (p * 96 + b) < tab0 s.hbm.win (p * 96 + g) then g else b)

/-- An imbalance window ends (08 R235, R242). A window without units leaves HBM_IMB; the next window has the length IMBWIN gives now. -/
def doWindow (p : Nat) (s : State) : State :=
  let gs := (partOf s p).gset
  let total := gs.foldl (fun a g => a + tab0 s.hbm.win (p * 96 + g)) 0
  let s1 :=
    if total = 0 then s
    else
      let h := hotGroup s p gs (gs.headD 0)
      let ratio := min 0xFFFF (tab0 s.hbm.win (p * 96 + h) * gs.length * 256 / total)
      let s := setN (kPart p 0x258) ((if s.hbm.hot.contains (p * 96 + h) then 2 ^ 31 else 0) + h * 2 ^ 24 + ratio) s
      if getF s (kPart p 0x25C) 15 0 < ratio then setF (kPart p 0x25C) 15 0 ratio s else s
  { s1 with hbm := { s1.hbm with
      win := tabClear (p * 96) (p * 96 + 96) s1.hbm.win
      hot := (s1.hbm.waits.filter fun x => x.2.2 == p).foldl (fun l x => setIns (p * 96 + x.1) l) (s1.hbm.hot.filter fun k => k / 96 != p)
      imbwin := tabSet0 p (getF s (kPart p 0x260) 19 0) s1.hbm.imbwin } }

def execImbWindowEnd (pid : BitVec 5) (s : State) : Out := .next (doWindow pid.toNat s)

/-- Offset of a unit in a range of rows striped over a set of groups, if it lies there: the inverse of 08 R227. -/
def unplace (key : Nat) (set : List Nat) (base rows g row : Nat) : Option Nat :=
  if base ≤ row ∧ row < base + rows ∧ set.contains g then
    let n := set.length
    let r := row - base
    let i := set.findIdx fun x => x == g
    some ((r * n + (i + n - mix (key ^^^ r) % n) % n) * 256)
  else none

/-- Share address of a unit of a partition's share. -/
def shareAddr (s : State) (p g row : Nat) : Option Nat :=
  let gs := (partOf s p).gset
  match unplace (shareKey s p) gs (getF s (kPart p 0x2418) 25 0) (shareRows s p) g row with
  | some a => some a
  | none =>
    (unplace (shareKey s p) (gs.filter fun x => x / 8 == g / 8) (getF s (kPart p 0x2420) 25 0) (sharePin s p) g row).map fun a =>
      0x20000000000 + g / 8 * 2 ^ 32 + a

/-- A patrol found an uncorrectable unit: logs, counters, the partition's report, the device log (08 R240; 14 R425, R442). -/
def patrolUe (g row : Nat) (s : State) : State :=
  let own := unitOwner s g row
  let s := noteUe true (g * 50331648 + row) own { s with hbm := { s.hbm with ue := setIns (g * 50331648 + row) s.hbm.ue } }
  let s := match own.bind fun p => (shareAddr s p g row).map fun a => (p, a) with
    | some (p, a) => setN (kPart p 0x134) (2 ^ 31 + a / 2 ^ 32) (setN (kPart p 0x130) (a % 2 ^ 32) s)
    | none => s
  devLog 0x68 (g * 50331648 + row) s

/-- The patrol scrubber's next unit of a group, rows ascending (08 R239). It runs with HBM in service. It finds what the command says, and any
error the unit is known to hold. -/
def doPatrol (g : Nat) (find : PatrolFind) (s : State) : State :=
  if svc s ≠ 3 ∨ groupsN s ≤ g then s
  else
    let row := tab0 s.hbm.patrol g
    let s := { s with hbm := { s.hbm with patrol := tabSet0 g ((row + 1) % 50331648) s.hbm.patrol } }
    let u := g * 50331648 + row
    if find = .uncorrectable ∨ s.hbm.ue.contains u then patrolUe g row s
    else if find = .corrected ∨ s.hbm.ce.contains u then noteCe u (unitOwner s g row) s
    else s

def execPatrolScrub (group : BitVec 7) (find : PatrolFind) (s : State) : Out := .next (doPatrol group.toNat find s)

/-- Take one row of a group out of the pending segments, if it is in one. -/
def scrubTake (g row : Nat) : List (Nat × Nat × Nat) → Option (List (Nat × Nat × Nat))
  | [] => none
  | (h, a, n) :: r =>
    if h = g ∧ a ≤ row ∧ row < a + n then
      some ([(h, a, row - a), (h, row + 1, a + n - (row + 1))].filter (fun x => x.2.2 != 0) ++ r)
    else match scrubTake g row r with | some t => some ((h, a, n) :: t) | none => none

/-- Stage 2 writes zero codewords into a released unit: no key reads it as written, and it is no longer uncorrectable (12 R391; 08
R238). -/
def doScrub (g row : Nat) (s : State) : State :=
  match scrubTake g row s.hbm.scrub with
  | none => s
  | some r =>
    let u := g * 50331648 + row
    let s := memForget (256 * u) (256 * u + 256) s
    let s := { s with hbm := { s.hbm with scrub := r, ue := setDel u s.hbm.ue, ce := setDel u s.hbm.ce } }
    set64 0x408 (get64 s 0x408 - 1) s

def execScrubZero (group : BitVec 7) (row : BitVec 26) (s : State) : Out := .next (doScrub group.toNat row.toNat s)

end Sys2Proof.Machine
end

