-- ==== Sys2Proof/Machine/FabricMgr.lean ====
section
/-! DEFINITION. The conversation with the fabric manager (09 R277-R281) and the set-up of its session (12 R388). -/

namespace Sys2Proof.Machine

/-- A management message is discarded and counted (09 R277). -/
def mgmtDrop (s : State) : State := inc32 0x1010 1 s

/-- A message of the manager within the session: with no port up none arrives; outside a session, or failing its check, it is discarded
and counted (09 R277; 12 R388). -/
def inSession (authentic : Bool) (f : State → State) (s : State) : State :=
  if (anyPort s).isNone then s
  else if !fmSess s || !authentic then mgmtDrop s
  else sessCheck (f { s with span := { s.span with sessRx := s.span.sessRx + 1 } })

/-- ANNOUNCE every second on one port until an ASSIGN is accepted (09 R278). -/
def doAnnounce (P : Nat) (s : State) : State := if s.span.annPort && portUp s P then announce P s else s

def execAnnounceTimer (port : PortId) (s : State) : Out := .next (doAnnounce (portNo port) s)

/-- Whether a partition has been sealed and is not yet torn down: it is sealed, in a reset, or in its teardown. -/
def anySealed (s : State) : Bool := (rangeFrom 0 32).any fun p => decide (2 ≤ partState s p)

/-- Whether an ASSIGN is accepted (09 R279): a module renumbers only when all its partitions are torn down (log 63). -/
def assignOk (s : State) (m : Nat) : Bool := !anySealed s || (assigned s && modNum s == m)

/-- ASSIGN (09 R279): accepted, or answered busy with nothing changed. -/
def doAssign (q m gen : Nat) (s : State) : State :=
  let ok := assignOk s m
  let s := if ok then
      let s := setN 0x1004 gen (setN 0x1000 (2 ^ 31 + m) s)
      { s with span := { s.span with annPort := false } }
    else s
  sendSess 0x22 s.span.seq (leBytes 2 q ++ leBytes 1 (if ok then 0 else 1)) (nextSeq s)

def execAssign (seq : BitVec 16) (authentic : Bool) (modnum : BitVec 16) (gen : Word) (s : State) : Out :=
  .next (inSession authentic (doAssign seq.toNat modnum.toNat gen.toNat) s)

/-- Whether a notice matches a window (09 R281). -/
def noticeHits (s : State) (kind : PeerKind) (m p e i n : Nat) : Bool :=
  let c := getR s (kWin i n 0)
  let w := getR s (kWin i n 4)
  bit c 31 && fld w 15 0 == m && (match kind with
    | .partDown => fld c 19 15 == p
    | .partUp => fld c 19 15 == p && fld w 31 16 != e
    | .modDown => true
    | .modUp => true)

/-- PEER_NOTICE (09 R281): matching windows become stale, and SPN_EVT.PEER of their partitions is set. -/
def doPeerNotice (kind : PeerKind) (m p e : Nat) (s : State) : State :=
  each (rangeFrom 0 32) (fun i t =>
    let hits := (rangeFrom 0 64).filter (noticeHits t kind m p e i)
    if hits.isEmpty then t else orR (kPart i 0x1004) 4 (each hits (setStale i) t)) s

def execPeerNotice (_seq : BitVec 16) (authentic : Bool) (kind : PeerKind) (modnum : BitVec 16) (pid : BitVec 5)
    (epoch : BitVec 16) (s : State) : Out :=
  .next (inSession authentic (doPeerNotice kind modnum.toNat pid.toNat epoch.toNat) s)

/-- QUERY: the device replies with REPORT (09 R278). -/
def doQuery (q : Nat) (s : State) : State :=
  let ports := (rangeFrom 0 (portsN s)).flatMap fun P => leBytes 4 (getR s (kP P 4)).toNat
  sendSess 0x28 s.span.seq
    (leBytes 2 q ++ ports ++ leBytes 4 (getR s 0x1000).toNat ++ leBytes 4 (getR s 0x1004).toNat) (nextSeq s)

def execQuery (seq : BitVec 16) (authentic : Bool) (s : State) : Out := .next (inSession authentic (doQuery seq.toNat) s)

/-- NOTICE_ACK ends the resending of the notice it names (09 R280). -/
def doNoticeAck (opc q : Nat) (s : State) : State :=
  { s with span := { s.span with notices := s.span.notices.filter fun n => !(n.opc == opc && n.seq == q) } }

def execNoticeAck (authentic : Bool) (opc : Byte) (seq : BitVec 16) (s : State) : Out :=
  .next (inSession authentic (doNoticeAck opc.toNat seq.toNat) s)

/-- NOTICE_RESEND: every notice still unacknowledged is sent again, in the order of the events (09 R280). -/
def doResend (s : State) : State := each s.span.notices (fun n => sendSess n.opc n.seq n.payload) s

def execNoticeResend (s : State) : Out := .next (doResend s)

/-! The session (12 R388) -/

/-- An Ed25519 and an ML-DSA-65 signature by the alias keys of the running firmware. -/
def signEd (s : State) (m : List Byte) : List Byte := (rangeFrom 0 64).map (Config.signByte 0 s.sec.runDigest m)
def signMl (s : State) (m : List Byte) : List Byte := (rangeFrom 0 3309).map (Config.signByte 1 s.sec.runDigest m)

/-- The certificate chains of some keys, Ed25519 first within each (12 R367). -/
def certsOf (s : State) (ks : List Nat) : List Byte :=
  ks.flatMap fun k => Config.certChain k 0 s.sec.runDigest ++ Config.certChain k 1 s.sec.runDigest

/-- The handshake secret of R386: HKDF-Extract, with a zero salt, over the X25519 and the ML-KEM-768 shared secret. -/
def handshake (ssX ssM : List Byte) : List Byte := Config.hkdfExtract (List.replicate 32 0) (ssX ++ ssM)

/-- Send the REPLY in fragments of 248 B (12 R388). -/
def sendFrags (P attempt count : Nat) : Nat → List (List Byte) → State → State
  | _, [], s => s
  | i, d :: r, s =>
    sendFrags P attempt count (i + 1) r
      (sendMgmt P 0x2B (leBytes 2 s.span.seq ++ leBytes 2 attempt ++ leBytes 2 i ++ leBytes 2 count ++ d) (nextSeq s))

/-- An OFFER is answered, with the alias chains, when its own chains end at the keys of FMROOT_SET and the random source works (12 R366, R388).
A session in force goes on until the new one is confirmed. -/
def takeOffer (P attempt : Nat) (m : List Byte) (s : State) : State :=
  if s.sec.fmroot.isEmpty || bit (getR s 0x400) 26 || !Config.managerOk s.sec.fmroot m then mgmtDrop s
  else
    let (x, ct, ssX, ssM) := Config.keyExchange s.free (m.take 32) ((m.drop 32).take 1184)
    let body := x ++ ct ++ certsOf s [1]
    let reply := body ++ signEd s (m ++ body) ++ signMl s (m ++ body)
    let s := bumpFree s
    let s := { s with span := { s.span with offer := m, reply := reply, offerKey := handshake ssX ssM } }
    let fr := chunks 248 reply.length reply
    sendFrags P attempt fr.length 0 fr s

/-- A CONFIRM whose signatures verify establishes the session, with a key for each direction; pending notices are sent again in it
(12 R388). -/
def takeConfirm (m : List Byte) (s : State) : State :=
  if Config.managerOk s.sec.fmroot (s.span.offer ++ s.span.reply ++ m) then
    let key := fun (dir : Byte) => Config.hkdf [] s.span.offerKey (dir :: (s.span.offer ++ s.span.reply))
    let s := setF 0x400 27 27 1 s
    doResend { s with span := { s.span with
      keyTx := key 1, keyRx := key 0, sessTx := 0, sessRx := 0, offer := [], reply := [], offerKey := [] } }
  else mgmtDrop { s with span := { s.span with offer := [], reply := [], offerKey := [] } }

/-- SESS_FRAG: fragments of one attempt are collected; a new attempt starts afresh; a whole message is the OFFER, then the CONFIRM.
An inconsistent fragment is discarded and counted. With the RTP not serving, nothing happens (12 R369). -/
def doFrag (attempt i n : Nat) (d : List Byte) (s : State) : State :=
  match anyPort s with
  | none => s
  | some P =>
    if !s.sec.ready then s
    else if n ≤ i ∨ 248 < d.length then mgmtDrop s
    else
      let s := if s.span.attempt = attempt then s
        else { s with span := { s.span with attempt := attempt, frags := [], offer := [], reply := [], offerKey := [] } }
      let fr := tabIns i d (tabDrop i s.span.frags)
      if (rangeFrom 0 n).all fun k => (tabFind k fr).isSome then
        let m := (rangeFrom 0 n).flatMap fun k => (tabFind k fr).getD []
        let s := { s with span := { s.span with frags := [] } }
        if s.span.offer.isEmpty then takeOffer P attempt m s else takeConfirm m s
      else { s with span := { s.span with frags := fr } }

def execSessFrag (attempt index count : BitVec 16) (data : List Byte) (s : State) : Out :=
  .next (doFrag attempt.toNat index.toNat count.toNat data s)

end Sys2Proof.Machine
end

