-- ==== Sys2Proof/Machine/Security.lean ====
section
/-! DEFINITION. The security requests of the mailbox (12 R367-R384, R394), crash dumps (15 R464-R466), SPDM and IDE
(12 R378, R379, R385-R387). -/

namespace Sys2Proof.Machine

/-- Exactly `n` bytes. -/
def fit (n : Nat) (l : List Byte) : List Byte := (l ++ List.replicate n 0).take n

/-- SHA3-256 of the identity public keys. -/
def iddig : List Byte := fit 32 (Config.identity 0)

/-- A request outside the channels of 12 R372 gets 0xC0; one of the wrong length 0xC1 (18 R533). `tenant`: 0 operator, 1 tenant, 2 both. In
recovery only some requests are served (12 R369). -/
def gate (s : State) (fn : Nat) (tenant : Nat) (recov : Bool) (lenOk : Bool) : Option Nat :=
  if (tenant = 0 ∧ fn ≠ 0) ∨ (tenant = 1 ∧ fn = 0) ∨ (inRecovery s && !recov) then some 0xC0
  else if !lenOk then some 0xC1
  else none

/-- Answer a request that passes its gate. -/
def gated (g : State → Option Nat) (f : State → State × Nat × List Byte) (s : State) : State × Nat × List Byte :=
  match g s with
  | some c => (s, c, [])
  | none => f s

/-! Reports (12 R374, R375) -/

/-- Bytes 0-255 of a report with a nonce: for a partition, or for the device alone. In a device report byte 81 is 0xFF and the
other partition bytes are 0. -/
def report (s : State) (nonce : List Byte) (pid : Option Nat) : List Byte :=
  let st := getR s 0x400
  let state := (if bit st 31 then 1 else 0) + (if bit st 29 then 2 else 0) + (if bit st 30 then 4 else 0) + (if bit st 26 then 8 else 0)
  let part := match pid with
    | none => [(0xFF : Byte)] ++ List.replicate 10 0
    | some p => leBytes 1 p ++ leBytes 2 (epochOf s p) ++ leBytes 1 (cmode s p) ++ leBytes 1 (conf s p) ++
        leBytes 1 (getF s (kPart p 0x2400) 0 0) ++ [0] ++ leBytes 4 (clMask s p).toNat
  let ledger := match pid with
    | none => List.replicate 32 (0 : Byte)
    | some p => (rangeFrom 0 8).flatMap fun k => leBytes 4 (getR s (kPart p (0x90 + 4 * k))).toNat
  leBytes 2 1 ++ leBytes 1 s.assy.toNat ++ [0x42] ++ iddig ++ fit 32 nonce ++ leBytes 8 (now s) ++
    leBytes 2 (fld st 15 8) ++ leBytes 2 (fld st 7 0) ++ leBytes 1 state ++ part ++
    fit 32 (Config.identity 1) ++ fit 32 s.sec.runDigest ++ fit 32 (Config.identity 2) ++ ledger ++
    sha3 (Config.kemPub s.sec.runDigest) ++ List.replicate 4 0

def signedReport (s : State) (nonce : List Byte) (pid : Option Nat) : List Byte :=
  let r := report s nonce pid
  r ++ signEd s r ++ signMl s r

/-! Requests -/

def execGetCerts (fn : BitVec 6) (body : List Byte) (s : State) : Out :=
  .next (request fn.toNat 0x20 body (gated (gate · fn.toNat 2 true (body.length == 0))
    fun s => (s, 0, (certsOf s [0, 1, 2]).take 61696)) s)

/-- GET_REPORT (12 R372): the operator names a PID or the device; a tenant gets its own partition. -/
def doReport (fn : Nat) (b : List Byte) (s : State) : State × Nat × List Byte :=
  if fn ≠ 0 then (s, 0, signedReport s b (some (fn - 1)))
  else
    let p := leAt b 32 1
    if p = 0xFF then (s, 0, signedReport s (b.take 32) none)
    else if 31 < p then (s, 0xC1, [])
    else (s, 0, signedReport s (b.take 32) (some p))

def execGetReport (fn : BitVec 6) (body : List Byte) (s : State) : Out :=
  .next (request fn.toNat 0x21 body
    (gated (gate · fn.toNat 2 true (body.length == (if fn = 0 then 33 else 32))) (doReport fn.toNat body)) s)

/-- BKEY_SET (12 R366, R378, R381). -/
def doBkey (fn : Nat) (b : List Byte) (s : State) : State × Nat × List Byte :=
  let p := fn - 1
  if bit (getR s 0x400) 26 then (s, 0xC7, [])
  else if partState s p ≠ 2 ∨ conf s p ≠ 2 then (s, 0xC2, [])
  else
    let ep := (b.drop 1136).take 2
    let ss := Config.kemDecap s.sec.runDigest (b.take 1088)
    let info := [0x44, 0x58, 0x39, 0x2D, 0x42, 0x4B, 0x45, 0x59] ++ leBytes 1 p ++ ep ++ iddig
    let kek := Config.hkdf (List.replicate 32 0) ss info
    match Config.gcmOpen kek (List.replicate 12 0) ep ((b.drop 1088).take 32) ((b.drop 1120).take 16) with
    | none => (s, 0xC3, [])
    | some kb =>
      if leNat ep ≠ epochOf s p then (s, 0xC3, [])
      else (setF (kPart p 0x80) 3 0 3 (modPart p (fun x => { x with kb := kb, kbEpoch := epochOf s p, cnts := [0, 0, 0, 0] }) s), 0, [])

def execBkeySet (fn : BitVec 6) (body : List Byte) (s : State) : Out :=
  .next (request fn.toNat 0x22 body (gated (gate · fn.toNat 1 false (body.length == 1138)) (doBkey fn.toNat body)) s)

/-- Write bytes of the flash. -/
def flashWrite (a : Nat) (bs : List Byte) (s : State) : State :=
  let n := bs.length
  { s with sec := { s.sec with flash :=
      (s.sec.flash.filter fun (k, _) => decide (k < a)) ++ (rangeFrom a n).zip bs ++
        (s.sec.flash.filter fun (k, _) => decide (a + n ≤ k)) } }

/-- The firmware slot that is not running: B unless image B runs. -/
def otherSlot (s : State) : Bool := !bit (getR s 0x400) 29

/-- FW_WRITE (12 R371, R372): COUNT and OFFSET keep within the 32 MiB slot. -/
def doFwWrite (b : List Byte) (s : State) : State × Nat × List Byte :=
  let off := leAt b 0 4
  let n := leAt b 4 4
  if n = 0 ∨ 61440 < n ∨ b.length ≠ 8 + n ∨ 0x02000000 < off + n then (s, 0xC1, [])
  else (flashWrite (fwBase (otherSlot s) + off) (b.drop 8) s, 0, [])

def execFwWrite (fn : BitVec 6) (body : List Byte) (s : State) : Out :=
  .next (request fn.toNat 0x23 body (gated (gate · fn.toNat 0 true (decide (8 ≤ body.length))) (doFwWrite body)) s)

/-- FW_ACTIVATE (12 R371). -/
def doActivate (s : State) : State × Nat × List Byte :=
  if fwValid s (otherSlot s) then (modSec (fun x => { x with pref := some (otherSlot s) }) s, 0, []) else (s, 0xC4, [])

def execFwActivate (fn : BitVec 6) (body : List Byte) (s : State) : Out :=
  .next (request fn.toNat 0x24 body (gated (gate · fn.toNat 0 true (body.length == 0)) doActivate) s)

/-- Fuse SVNMIN. -/
def setSvnMin (v : Nat) (s : State) : State := setF 0x400 7 0 v (modSec (fun x => { x with svnMin := v }) s)

/-- SVN_COMMIT (12 R370): SVNMIN rises to the running SVN. A burn that fails its check leaves a free value between the two. -/
def doSvnCommit (ok : Bool) (s : State) : State × Nat × List Byte :=
  let old := s.sec.svnMin
  let new := max old (getF s 0x400 15 8)
  if ok then (setSvnMin new s, 0, leBytes 2 new)
  else (bumpFree (setSvnMin (old + freeN s % (new - old + 1)) s), 0xC4, [])

def execSvnCommit (fn : BitVec 6) (body : List Byte) (burnOk : Bool) (s : State) : Out :=
  .next (request fn.toNat 0x25 body (gated (gate · fn.toNat 0 false (body.length == 0)) (doSvnCommit burnOk)) s)

/-- DBG_CHALLENGE (12 R366, R394): a new nonce. -/
def doChallenge (s : State) : State × Nat × List Byte :=
  if bit (getR s 0x400) 26 then (s, 0xC7, [])
  else
    let n := (rangeFrom 0 4).flatMap fun i => leBytes 8 (Config.random (s.free + i)).toNat
    ({ modSec (fun x => { x with nonce := n }) s with free := s.free + 4 }, 0, n)

def execDbgChallenge (fn : BitVec 6) (body : List Byte) (s : State) : Out :=
  .next (request fn.toNat 0x26 body (gated (gate · fn.toNat 0 false (body.length == 0)) doChallenge) s)

/-- Whether a debug token is good (12 R394). -/
def tokenOk (s : State) (b : List Byte) : Bool :=
  let m := b.take 96
  !s.sec.dbgFuse && !s.sec.nonce.isEmpty && m.take 32 == s.sec.nonce && (m.drop 32).take 32 == iddig && zeroAt m 64 96 &&
    Config.sigOk 0 1 m ((b.drop 96).take 64) && Config.sigOk 1 1 m (b.drop 160)

/-- DBG_UNLOCK (12 R394): the nonce serves one attempt. -/
def doUnlock (b : List Byte) (s : State) : State × Nat × List Byte :=
  let t := modSec (fun x => { x with nonce := [] }) s
  if (rangeFrom 0 32).any fun p => partState s p != 0 then (t, 0xC5, [])
  else if tokenOk s b then (setF 0x400 31 31 1 t, 0, [])
  else (t, 0xC6, [])

def execDbgUnlock (fn : BitVec 6) (body : List Byte) (s : State) : Out :=
  .next (request fn.toNat 0x27 body (gated (gate · fn.toNat 0 false (body.length == 3469)) (doUnlock body)) s)

def execFmrootSet (fn : BitVec 6) (body : List Byte) (s : State) : Out :=
  .next (request fn.toNat 0x28 body (gated (gate · fn.toNat 0 false (body.length == 32))
    fun s => (setF 0x400 28 28 1 (modSec (fun x => { x with fmroot := body }) s), 0, [])) s)

/-! Crash dumps (15 R464-R466) -/

/-- Whether the control state of a cluster's units is withheld: its partition is in a confidential state (15 R451, R465). -/
def withheld (s : State) (c : Nat) : Bool :=
  match clOwner s c with
  | some p => conf s p != 0 && conf s p != 1
  | none => false

/-- Every unit of the assembly in the order of 15 R455: class and number. The units R466 counts beside those of R344: class 9 stands for the
B-dies; 0x10 the HIU; 0x12 the capture engine; 0xFF the clusters' memories (0-31), the C-die fabrics (32-35) and telemetry (36). -/
def allUnits (s : State) : List (Nat × Nat) :=
  ((rangeFrom 0 6).flatMap fun k => (rangeFrom 0 512).map (k, ·)) ++ ((rangeFrom 6 3).flatMap fun k => (rangeFrom 0 32).map (k, ·)) ++
  (rangeFrom 0 (stackCount s)).map (9, ·) ++ (rangeFrom 0 (xdies s)).map (10, ·) ++ (rangeFrom 0 (portsN s)).map (12, ·) ++ [(16, 0)] ++
  (if xdies s = 2 then [(18, 0)] else []) ++ (rangeFrom 0 37).map (255, ·)

/-- The cluster a unit of this list is in. -/
def unitCl' (cls unit : Nat) : Option Nat := if cls = 255 then (if unit < 32 then some unit else none) else unitCl cls unit

/-- The power domain of a unit (01 R25). -/
def unitDomain (cls unit : Nat) : Domain :=
  match unitCl' cls unit with
  | some c => .cluster c
  | none =>
    if cls = 9 then .bdie unit
    else if cls = 10 then .reduction unit
    else if cls = 11 then .bdie (unit / 8)
    else if cls = 12 then .ports (unit / 16) (unit / 8 % 2)
    else if cls = 18 then .capture
    else if cls = 255 then (if unit < 36 then .fabric (unit - 32) else .telemetry)
    else .hiu

/-- Power state of a unit as the AOC knows it: 0 on, 1 gated, 2 off (16 R481, R482). The capture engine's buffer is on only while a partition
holds it. -/
def unitPower (s : State) (cls unit : Nat) : Nat :=
  if cls = 18 ∧ !((rangeFrom 0 32).any fun p => partState s p != 0 && bit (getR s (kPart p 0x1C0)) 31) then 2
  else domainPower s (unitDomain cls unit)

/-- Stamp of a unit's last heartbeat. -/
def heartOf (s : State) (cls unit : Nat) : Nat := tab0 s.dbg.hearts (cls * 65536 + unit)

/-- The record of one unit. Its control state is a free value (log 11). -/
def crashRec (s : State) (u : Nat × Nat) : List Byte :=
  let (cls, n) := u
  let wh := match unitCl' cls n with | some c => withheld s c | none => false
  let res := if unitPower s cls n = 2 then 2 else if wh then 3 else if s.sec.crashUnreach.contains u then 1 else 0
  leBytes 1 cls ++ leBytes 2 n ++ [0] ++ leBytes 1 res ++ [0, 0, 0] ++ leBytes 8 (heartOf s cls n) ++
    (if res = 0 then (rangeFrom 0 6).flatMap fun i => leBytes 8 (Config.unitState cls n (s.free + i)).toNat else List.replicate 48 0)

/-- A crash dump: 64 B header, one record per unit. -/
def crashBytes (s : State) : List Byte :=
  let us := allUnits s
  fit 64 (leBytes 8 (now s) ++ leBytes 4 s.assy.toNat ++ leBytes 4 us.length) ++ us.flatMap (crashRec s)

def crashArea : Nat := 0x04000000

/-- CRASH_DUMP (15 R464): into the flash crash area, and to the host when HOST is not 0. -/
def doCrashDump (b : List Byte) (s : State) : State × Nat × List Byte :=
  let d := crashBytes s
  let host := leNat b
  let s' := flashWrite crashArea d { s with free := s.free + 6, sec := { s.sec with crashUnreach := [] } }
  (if host = 0 then s' else hostWrite 0 none host false d s', 0, leBytes 4 (allUnits s).length)

def execCrashDump (fn : BitVec 6) (body : List Byte) (s : State) : Out :=
  .next (request fn.toNat 0x30 body (gated (gate · fn.toNat 0 false (body.length == 8)) (doCrashDump body)) s)

/-- A unit will not answer within 10 µs: the next dump records it as unreachable (15 R465). -/
def execCrashUnitTimeout (cls : Byte) (unit : BitVec 12) (s : State) : Out :=
  .next (modSec (fun x => { x with crashUnreach := (cls.toNat, unit.toNat) :: (x.crashUnreach.filter (· != (cls.toNat, unit.toNat))) }) s)

/-- CRASH_READ (15 R464): within the 1 MiB area. -/
def doCrashRead (b : List Byte) (s : State) : State × Nat × List Byte :=
  let off := leAt b 0 4
  let n := leAt b 4 4
  if n = 0 ∨ 61440 < n ∨ 2 ^ 20 < off + n then (s, 0xC1, []) else (s, 0, flashBytes s (crashArea + off) n)

def execCrashRead (fn : BitVec 6) (body : List Byte) (s : State) : Out :=
  .next (request fn.toNat 0x31 body (gated (gate · fn.toNat 0 false (body.length == 8)) (doCrashRead body)) s)

/-! SPDM and IDE (12 R385-R387) -/

/-- Answer on a function's DOE mailbox. -/
def doe (fn : Nat) (r : SpdmRsp) (d : List Byte) (s : State) : State := { s with host := s.host ++ [.doe fn r d] }

/-- An SPDM request is answered while the RTP runs outside recovery (12 R364, R369). -/
def spdm (f : State → State) (s : State) : State := if s.sec.ready then f s else s

/-- How far version, capabilities and algorithms have been settled on a function. -/
def spdmStage (s : State) (fn : Nat) : Nat := tab0 s.sec.spdm fn
def setStage (fn n : Nat) : State → State := modSec fun x => { x with spdm := tabSet0 fn n x.spdm }

/-- A step of the connection: in SPDM's order, else refused. -/
def spdmStep (fn n : Nat) (r : SpdmRsp) (d : List Byte) (s : State) : State :=
  if n ≤ spdmStage s fn + 1 then doe fn r d (setStage fn n s) else doe fn .refused [] s

/-- What is negotiated (12 R385), in the selection bits of SPDM 1.3 (log 10): EdDSA Ed25519, SHA3-256, AES-256-GCM. -/
def spdmAlgs : List Byte := leBytes 4 0x200 ++ leBytes 4 0x8 ++ leBytes 2 0x2

/-- A request of a connection whose algorithms are settled. -/
def spdmReady (fn : Nat) (f : State → State) : State → State :=
  spdm fun s => if 3 ≤ spdmStage s fn then f s else doe fn .refused [] s

def execGetVersion (fn : BitVec 6) (s : State) : Out := .next (spdm (spdmStep fn.toNat 1 .version [0x13]) s)
def execGetCapabilities (fn : BitVec 6) (s : State) : Out := .next (spdm (spdmStep fn.toNat 2 .capabilities []) s)
def execNegotiateAlgorithms (fn : BitVec 6) (s : State) : Out := .next (spdm (spdmStep fn.toNat 3 .algorithms spdmAlgs) s)

/-- The chain that GET_DIGESTS and GET_CERTIFICATE show: that of the key which signs in SPDM, the alias key, under Ed25519 (log 10). -/
def certChain (s : State) : List Byte := Config.certChain 1 0 s.sec.runDigest

def execGetDigests (fn : BitVec 6) (s : State) : Out :=
  .next (spdmReady fn.toNat (fun s => doe fn.toNat .digests (sha3 (certChain s)) s) s)

def execGetCertificate (fn : BitVec 6) (offset length : BitVec 16) (s : State) : Out :=
  .next (spdmReady fn.toNat (fun s => doe fn.toNat .certificate (((certChain s).drop offset.toNat).take length.toNat) s) s)

/-- A message with its Ed25519 signature, and the ML-DSA-65 signature that travels in OpaqueData (12 R385). -/
def signedMsg (s : State) (m : List Byte) : List Byte := m ++ signEd s m ++ signMl s m

/-- CHALLENGE: a signature over the chain's digest and the nonce. -/
def execChallenge (fn : BitVec 6) (nonce : List Byte) (s : State) : Out :=
  .next (spdmReady fn.toNat (fun s => doe fn.toNat .challengeAuth (signedMsg s (sha3 (certChain s) ++ nonce)) s) s)

/-- GET_MEASUREMENTS: one block, index 0x10, of report bytes 0-255 with the requester's nonce (12 R385); a VF reports its own partition. -/
def execGetMeasurements (fn : BitVec 6) (nonce : List Byte) (s : State) : Out :=
  .next (spdmReady fn.toNat (fun s =>
    doe fn.toNat .measurements (signedMsg s ([0x01, 0x10] ++ report s nonce (if fn = 0 then none else some (fn.toNat - 1)))) s) s)

/-- The partition of a function that may hold a session now: a sealed one in a given state of confidentiality. -/
def sessPid (s : State) (fn : Nat) (ok : Nat → Bool) : Option Nat :=
  if fn ≠ 0 ∧ partState s (fn - 1) = 2 ∧ ok (conf s (fn - 1)) then some (fn - 1) else none

/-- LW_KEX (12 R366, R378, R386): while the partition awaits a session and has none. Refusals carry their code. -/
def doKex (fn : Nat) (x k n : List Byte) (s : State) : State :=
  if bit (getR s 0x400) 26 then doe fn .refused [0xC7] s
  else match sessPid s fn (· == 4) with
  | none => doe fn .refused [0xC2] s
  | some p =>
    let (pub, ct, ssX, ssM) := Config.keyExchange s.free x k
    let body := pub ++ ct
    let h := sha3 (x ++ k ++ n ++ body)
    doe fn .lwKex (body ++ signEd s h ++ signMl s h) (bumpFree (modPart p (fun y => { y with kex := handshake ssX ssM }) s))

def execLwKex (fn : BitVec 6) (x25519 kem nonce : List Byte) (s : State) : Out :=
  .next (spdmReady fn.toNat (doKex fn.toNat x25519 kem nonce) s)

/-- FINISH (12 R377, R386): with a key exchange before it and its check good, the session stands and CONF is SESSION. -/
def doFinish (fn : Nat) (ok : Bool) (s : State) : State :=
  match sessPid s fn (· == 4) with
  | none => doe fn .refused [0xC2] s
  | some p =>
    if (partOf s p).kex.isEmpty || !ok then doe fn .refused [] (modPart p (fun x => { x with kex := [] }) s)
    else doe fn .finish [] (setF (kPart p 0x80) 3 0 5 (modPart p (fun x => { x with kex := [], sess := true }) s))

def execFinish (fn : BitVec 6) (verify : Bool) (s : State) : Out := .next (spdmReady fn.toNat (doFinish fn.toNat verify) s)

/-- The session ends with a cause: in RUN_IDE the partition is reset; before, the cause is recorded and a session is awaited again
(12 R379, R398). -/
def sessEnd (cause p : Nat) (s : State) : State :=
  if conf s p = 6 then startPartReset p cause none s
  else
    let s := modPart p (fun x => { x with sess := false, kex := [], keys := [], go := [] }) s
    setF (kPart p 0x84) 7 0 cause (setF (kPart p 0x80) 3 0 4 s)

/-- A request within the partition's session. One that fails the session's own integrity check ends the session (12 R379). -/
def inSess (via : SessVia) (f : Nat → State → State) : State → State :=
  spdm fun s => match sessPid s via.fn.toNat (fun c => c == 5 || c == 6) with
    | some p => if via.ok then f p s else sessEnd 0xC9 p s
    | none => doe via.fn.toNat .refused [] s

def execKeyUpdate (via : SessVia) (s : State) : Out :=
  .next (inSess via (fun _ => doe via.fn.toNat .keyUpdate []) s)
def execHeartbeat (via : SessVia) (s : State) : Out :=
  .next (inSess via (fun _ => doe via.fn.toNat .heartbeat []) s)

def execEndSession (via : SessVia) (s : State) : Out :=
  .next (inSess via (fun p s => sessEnd 0xC9 p (doe via.fn.toNat .endSession [] s)) s)

/-- A heartbeat is missed for the session's period (12 R379). -/
def execSessionHeartbeatMiss (fn : BitVec 6) (s : State) : Out :=
  .next (match sessPid s fn.toNat (fun c => c == 5 || c == 6) with
    | some p => sessEnd 0xCA p s
    | none => s)

def execIdeQuery (via : SessVia) (s : State) : Out := .next (inSess via (fun _ => doe via.fn.toNat .ideQuery []) s)

/-- KEY_PROG: a key for one sub-stream and key set. -/
def execKeyProg (via : SessVia) (sub : BitVec 3) (set : BitVec 1) (key : BitVec 256) (s : State) : Out :=
  .next (inSess via (fun p s =>
    doe via.fn.toNat .ideAck [] (modPart p (fun x => { x with keys := tabPut (fun _ _ => false) (2 * sub.toNat + set.toNat) key x.keys }) s)) s)

/-- K_SET_GO: a sub-stream runs on a programmed key set. When all six run the partition enters RUN_IDE (12 R377, R387). -/
def doGo (fn k p : Nat) (s : State) : State :=
  if (tabFind k (partOf s p).keys).isNone then doe fn .refused [] s
  else
    let s := modPart p (fun x => { x with go := setIns k (x.go.filter fun j => j / 2 != k / 2) }) s
    let s := if conf s p = 5 ∧ (partOf s p).go.length = 6 then setF (kPart p 0x80) 3 0 6 s else s
    doe fn .ideAck [] s

def execKSetGo (via : SessVia) (sub : BitVec 3) (set : BitVec 1) (s : State) : Out :=
  .next (inSess via (doGo via.fn.toNat (2 * sub.toNat + set.toNat)) s)

/-- K_SET_STOP: a sub-stream no longer runs on the set. -/
def execKSetStop (via : SessVia) (sub : BitVec 3) (set : BitVec 1) (s : State) : Out :=
  .next (inSess via (fun p s => doe via.fn.toNat .ideAck []
    (modPart p (fun x => { x with go := setDel (2 * sub.toNat + set.toNat) x.go }) s)) s)

/-- A TLP on the IDE stream fails its integrity check (12 R379, R398). -/
def doIdeFail (fn : Nat) (s : State) : State :=
  match sessPid s fn (fun c => c == 5 || c == 6) with
  | none => s
  | some p =>
    if (partOf s p).go.isEmpty then s
    else
      let s := authFail p s
      if conf s p = 6 then startPartReset p 0xC8 none s else s

def execIdeCheckFail (fn : BitVec 6) (s : State) : Out := .next (doIdeFail fn.toNat s)

end Sys2Proof.Machine
end

