-- ==== Sys2Proof/Machine/Debug.lean ====
section
/-! DEFINITION. Halts and breakpoints (15 R443-R447), hang snapshots (15 R451-R455; 09 R282), crema taps (15 R456, R457), named-tensor
dumps (15 R460-R463). -/

namespace Sys2Proof.Machine

/-! Halts -/

/-- A context starts halting, with a cause and a core (15 R443, R444). -/
def startHalt (c cause core : Nat) (s : State) : State := setN (kCtx c 0xFC) (2 ^ 30 + cause * 2 ^ 27 + core * 2 ^ 18) s

/-- Whether a context may halt: it belongs to a sealed partition and is not being reset. -/
def mayHalt (s : State) (c : Nat) : Bool :=
  (match ctxOwner s c with | some p => partState s p == 2 | none => false) && !bit (getR s (kCtx c 0xEC)) 1

/-- HALTREQ (15 R444). -/
def doHaltreq (c : Nat) (s : State) : State := if mayHalt s c && brkState s c == 0 then startHalt c 2 0 s else s

def execHaltreq (ctx : BitVec 10) (s : State) : Out := .next (doHaltreq ctx.toNat s)

/-- An armed comparator matches the next instruction of one of the control cores that run the context (15 R444). -/
def doBreak (c core cmp : Nat) (pc : Word) (s : State) : State :=
  if mayHalt s c && brkState s c == 0 && runsOn s core c && bit (getR s (kCtx c 0xF0)) (31 - cmp) &&
      getR s (kCtx c (0xF4 + 4 * cmp)) == pc then startHalt c cmp core s else s

def execBreakpointMatch (ctx : BitVec 10) (core : BitVec 9) (cmp : BitVec 1) (pc : Word) (s : State) : Out :=
  .next (doBreak ctx.toNat core.toNat cmp.toNat pc s)

/-- RESUME takes effect on a halted context only (15 R447). -/
def doResume (c : Nat) (s : State) : State :=
  if brkState s c = 2 then
    { setF (kCtx c 0xFC) 31 30 0 s with dbg := { s.dbg with
        halting := s.dbg.halting.filter fun (x, _) => x != c, pcs := s.dbg.pcs.filter fun (x, _) => x % 1024 != c } }
  else s

def execResume (ctx : BitVec 10) (s : State) : Out := .next (doResume ctx.toNat s)

/-- STEP: one instruction on each control core that runs the context, then halting again (15 R447). -/
def doStep (c : Nat) (s : State) : State :=
  if brkState s c = 2 then
    let on := ((rangeFrom 0 512).filter fun n => runsOn s n c).map fun n => n * 1024 + c
    startHalt c 3 0 { s with dbg := { s.dbg with steps := (s.dbg.steps.filter fun k => k % 1024 != c) ++ on } }
  else s

def execStep (ctx : BitVec 10) (s : State) : Out := .next (doStep ctx.toNat s)

/-- The halt record of a core (15 R445). -/
def haltRecord (s : State) (c core stamp : Nat) (pc : Word) (regs : List DWord) : List Byte :=
  leBytes 4 pc.toNat ++ leBytes 1 (getF s (kCtx c 0xFC) 29 27) ++ [0, 0, 0] ++ leBytes 8 stamp ++
    leBytes 2 (cseqOf s core c).toNat ++ List.replicate 46 0 ++ (rangeFrom 0 64).flatMap fun i => leBytes 8 (listGet 0 regs i).toNat

/-- A core of a halted context writes its halt record at RECADDR in its own scratchpad share; a write that is refused, or fails, faults the context
(08 R223). -/
def writeHalt (c core : Nat) (pc : Word) (regs : List DWord) (s : State) : State :=
  let r := regionOf 0 core
  let d := haltRecord s c core (stampOf s r) pc regs
  let s := noteStamp r s
  let s := { s with dbg := { s.dbg with pcs := tabPut (fun _ _ => false) (core * 1024 + c) (pc, regs) s.dbg.pcs } }
  let w := whoCtl s core c
  let act : Eng Unit := spShare w core true >>= fun b => writeE w (b + 64 * getF s (kCtx c 0x54) 31 17) d
  match act s with
  | .ok _ t => t
  | .error f t => faultCtx c 0 f 0 0 t

/-- HALT_DRAINED: the last command of a halting context has completed (15 R445). -/
def doHaltDrained (c : Nat) (pcs : List (BitVec 9 × Word × List DWord)) (s : State) : State :=
  if brkState s c = 1 ∧ !(s.eng.cmds.any fun m => m.ctx == c) then
    let s := setF (kCtx c 0xFC) 31 30 2 s
    let s := { s with dbg := { s.dbg with halting := tabSet0 c (now s) s.dbg.halting
                                          steps := s.dbg.steps.filter fun k => k % 1024 != c } }
    let s := each (pcs.filter fun (n, _, _) => runsOn s n.toNat c) (fun (n, pc, regs) => writeHalt c n.toNat pc regs) s
    vec0 (boundFn s c) s
  else s

def execHaltDrained (ctx : BitVec 10) (pcs : List (BitVec 9 × Word × List DWord)) (s : State) : Out :=
  .next (doHaltDrained ctx.toNat pcs s)

/-! Snapshots -/

/-- Number of a scope: its PID, or 32 for the device. -/
def scopeNo (sc : Option (BitVec 5)) : Nat := match sc with | some p => p.toNat | none => 32
/-- Register `o` of a scope's snapshot block (15 R453). -/
def kSnp (k o : Nat) : Nat := if k = 32 then 0x900 + o else kPart k (0x180 + o)
def snapOf (s : State) (k : Nat) : Snap := (tabFind k s.dbg.snaps).getD {}
def setSnap (k : Nat) (v : Snap) (s : State) : State :=
  { s with dbg := { s.dbg with snaps := tabPut (fun _ x => x == {}) k v s.dbg.snaps } }
def snapBusy (s : State) (k : Nat) : Bool := getF s (kSnp k 4) 31 30 == 1

/-- A snapshot is wanted at the next AO tick: by TRIG or by AUTO; none while one is read out (15 R454). -/
def wantSnap (k : Nat) (s : State) : State := if snapBusy s k then s else setSnap k { snapOf s k with pending := true } s

def execSnpTrig (scope : Option (BitVec 5)) (s : State) : Out := .next (wantSnap (scopeNo scope) s)

/-- A watchdog fires: the scopes with AUTO set take a snapshot (15 R453, R454). -/
def autoSnap (p : Option Nat) (s : State) : State :=
  let s := match p with | some p => if bit (getR s (kSnp p 0)) 30 then wantSnap p s else s | none => s
  if bit (getR s (kSnp 32 0)) 30 then wantSnap 32 s else s

/-- One 32 B record (15 R455). -/
def snapRec (kind cls unit : Nat) (ctx : Option Nat) (a b c : Nat) : List Byte :=
  leBytes 1 kind ++ leBytes 1 cls ++ leBytes 2 unit ++ leBytes 2 (match ctx with | some x => x | none => 2 ^ 15) ++ [0, 0] ++
    leBytes 8 a ++ leBytes 8 b ++ leBytes 8 c

/-- The commands of a unit. -/
def unitCmds (s : State) (cls unit : Nat) : List EngCmd := s.eng.cmds.filter fun m => m.queue / 4096 == cls && cmdUnit s m == unit

/-- State of a queue's head: 0 running, 1 semaphore wait, 2 credit or bank wait, 3 frozen (15 R455). Whether the feeder or the drain of a running matrix
or drain command is frozen at the tick is a free value (03 R75, log 8). -/
def headState (s : State) (m : EngCmd) : Nat :=
  if m.running && m.pay.isNone then
    (if (m.queue / 4096 = 1 ∨ m.queue / 4096 = 2) ∧ Config.freeNat (s.free + m.queue) % 2 = 1 then 3 else 0)
  else if !m.running && !waitsMet s m then 1 else 2

/-- AO ticks that a queue has made no progress, as its watchdog counts them; after its firing, and for a queue it does not see, a free value. -/
def stuckTicks (s : State) (k : Nat) : Nat :=
  match tabFind k s.dbg.wdg with
  | some (_, some n) => n
  | _ => Config.freeNat (s.free + k)

/-- The wait words of a command that its context has not met. -/
def waitRecs (s : State) (cls unit : Nat) (m : EngCmd) : List (List Byte) :=
  if m.running then []
  else ([m.env.w1, m.env.w2].filter fun w => !waitMet s m w).map fun w =>
    let sem := fld w 30 25
    snapRec 2 cls unit (some m.ctx) (clOf m.core + sem * 2 ^ 8 + fld w 15 0 * 2 ^ 16 + (semOf s m.ctx (clOf m.core) sem).toNat * 2 ^ 32)
      (envOpc m.env + m.cseq * 2 ^ 16) 0

/-- QHEAD and WAIT records of a unit's queues, one queue per context. -/
def queueRecs (s : State) (sees : Nat → Bool) (cls unit : Nat) : List (List Byte) :=
  let ms := (unitCmds s cls unit).filter fun m => sees m.ctx
  let cs := ms.foldl (fun l m => setIns m.ctx l) []
  cs.flatMap fun c => match ms.filter (fun m => m.ctx == c) with
    | [] => []
    | m :: r => snapRec 1 cls unit (some c) (envOpc m.env + m.cseq * 2 ^ 16 + (r.length + 1) * 2 ^ 32)
        (stuckTicks s (engKey cls unit c)) (headState s m) :: (m :: r).flatMap (waitRecs s cls unit)

/-- QHEAD records of the rings with submissions in flight (HIU). Ticks without progress are a free value. -/
def ringRecs (s : State) (sees : Nat → Bool) : List (List Byte) :=
  let cs := (s.jobs.subs.filter fun x => sees x.ctx).foldl (fun l x => setIns x.ctx l) []
  cs.flatMap fun c => match subsOf s c with
    | [] => []
    | x :: r => [snapRec 1 16 0 (some c) (x.opc + x.seq % 2 ^ 16 * 2 ^ 16 + (r.length + 1) * 2 ^ 32) (Config.freeNat s.free)
        (if x.st = .running then 0 else 2)]

/-- The outstanding Span tags of contexts, as SPANOUT records of the port they left by. -/
def tagRecs (s : State) (sees : Nat → Bool) (P : Nat) : List (List Byte) :=
  (s.span.tags.filter fun t => sees t.ctx && t.use != .retired && t.port == P).map fun t =>
    snapRec 4 12 P (some t.ctx) 0 (t.tag * 2 ^ 48) 0

/-- The CREDIT and SPANOUT records of a port in a device scope. -/
def portRecs (s : State) (P : Nat) : List (List Byte) :=
  if portUp s P then
    let l := linkOf s P
    ((rangeFrom 0 4).map fun v => snapRec 3 12 P none (v + P * 2 ^ 8) (listGet 0 l.credits v) l.unacked.length) ++
      l.unacked.map fun f => snapRec 4 12 P none f.hdr.toNat (leAt f.slots 0 4 + leAt f.slots 24 4 * 2 ^ 32) 0
  else []

/-- The CREDIT record of a channel group: for the device, the room in its request queue and the requests in it and waiting; for a partition, its own
masters that wait for a credit (08 R232). -/
def groupRecs (s : State) (p : Option Nat) (g : Nat) : List (List Byte) :=
  let ws := s.hbm.waits.filter fun x => x.1 == g && (match p with | some q => x.2.2 == q | none => true)
  match p with
  | none => [snapRec 3 11 g none g (256 - tab0 s.hbm.occ g) (tab0 s.hbm.occ g + ws.length)]
  | some _ => if ws.isEmpty then [] else [snapRec 3 11 g none g 0 ws.length]

/-- The HALTED records of a core. -/
def haltRecs (s : State) (sees : Nat → Bool) (core : Nat) : List (List Byte) :=
  (s.dbg.pcs.filter fun (k, _) => k / 1024 == core && sees (k % 1024)).map fun (k, pc, _) =>
    snapRec 8 0 core (some (k % 1024)) pc.toNat (tab0 s.dbg.halting (k % 1024)) 0

/-- The records of one unit in a scope, the device's or a partition's; a unit of a partition in a confidential state gives one WITHHELD record in a
device scope. -/
def unitRecs (s : State) (scope : Option Nat) (sees : Nat → Bool) (u : Nat × Nat) : List (List Byte) :=
  let (cls, n) := u
  let dev := scope.isNone
  if dev && (match unitCl' cls n with | some c => withheld s c | none => false) then
    [snapRec 7 cls n none (heartOf s cls n) (unitPower s cls n) 0]
  else
    (if cls = 0 then haltRecs s sees n else []) ++
    (if 1 ≤ cls ∧ cls ≤ 10 then queueRecs s sees cls n else []) ++
    (if cls = 11 then groupRecs s scope n else []) ++
    (if cls = 12 then (if dev then portRecs s n else tagRecs s sees n) else []) ++
    (if cls = 16 then ringRecs s sees else [])

/-- The units of a scope: all of them and the channel groups, or a partition's cores and clusters and the shared units. -/
def scopeUnits (s : State) (k : Nat) : List (Nat × Nat) :=
  let gs := (rangeFrom 0 (groupsN s)).map (11, ·)
  if k = 32 then (allUnits s).filter (fun u => decide (u.1 < 11)) ++ gs ++ (allUnits s).filter (fun u => decide (11 ≤ u.1))
  else
    let cls := partCls s k
    ((rangeFrom 0 6).flatMap fun c => (coresOf cls).map (c, ·)) ++ ((rangeFrom 6 3).flatMap fun c => cls.map (c, ·)) ++
      (rangeFrom 0 (stackCount s)).map (9, ·) ++ (rangeFrom 0 (xdies s)).map (10, ·) ++ gs ++
      ((rangeFrom 0 (portsN s)).map (12, ·)) ++ [(16, 0)]

/-- The contexts a scope records: a partition's own; for the device those of no confidential partition. -/
def scopeSees (s : State) (k c : Nat) : Bool :=
  match ctxOwner s c with
  | some p => if k = 32 then conf s p == 0 || conf s p == 1 else p == k
  | none => k == 32

/-- Each port that is up begins its capture and sends its MARKER ahead of data not yet sent (09 R282). -/
def markPort (id P : Nat) (s : State) : State :=
  if portUp s P then
    let l := linkOf s P
    let sent := match l.unacked with
      | [] => [BitVec.ofNat 64 l.txSeq, BitVec.ofNat 64 l.txSeq]
      | f :: _ => [BitVec.ofNat 64 (flitSeq f), BitVec.ofNat 64 ((l.txSeq + 4095) % 4096)]
    let s := modLink P (fun l => { l with
      capId := some id, capIn := [], capEnd := none, capDone := false, capOut := l.credits.map (BitVec.ofNat 64) ++ sent }) s
    putFlit P (bareFlit (linkHdr id 0 0 0 ((l.rxSeq + 4095) % 4096) 2 0)) s
  else modLink P (fun l => { l with capId := none, capIn := [], capOut := [], capEnd := none, capDone := false }) s

/-- SNAPSHOT_TICK: what was asked for is taken (15 R452, R454). -/
def doSnapTick (k : Nat) (s : State) : State :=
  if !(snapOf s k).pending || snapBusy s k then s
  else
    let id := if k = 32 then (s.dbg.markid + 1) % 256 else 0
    let us := scopeUnits s k
    let hdr := snapRec 0 255 0 none (now s) (id + (if k = 32 then 255 else k) * 2 ^ 8) us.length
    let recs := hdr :: us.flatMap (unitRecs s (if k = 32 then none else some k) (scopeSees s k))
    let s := setSnap k { pending := false, recs := recs } s
    let s := set64 (kSnp k 0x18) (now s) (setR (kSnp k 0x14) 0 s)
    let s := setN (kSnp k 4) (2 ^ 30 + id * 2 ^ 16) s
    let s := if k = 32 then { s with dbg := { s.dbg with markid := id } } else s
    if k = 32 then each (rangeFrom 0 (portsN s)) (markPort id) s else s

def execSnapshotTick (scope : Option (BitVec 5)) (s : State) : Out := .next (doSnapTick (scopeNo scope) s)

/-- Where a record stands in the order of 15 R455. -/
def recOrder (r : List Byte) : Nat := leAt r 1 1 * 65536 + leAt r 2 2

/-- Insert a record behind those that stand before it or with it. -/
def insRec (r : List Byte) : List (List Byte) → List (List Byte)
  | [] => [r]
  | x :: t => if recOrder r < recOrder x then r :: x :: t else x :: insRec r t

/-- Write the records that fit, in order: to the partition's share as the host DMA registers with ALLCTX grant, or to the host
through the PF (15 R453). -/
def writeRecs (k addr : Nat) : Nat → List (List Byte) → State → State
  | _, [], s => s
  | i, r :: t, s =>
    let s := if k = 32 then inc32 (kSnp k 0x14) 1 (hostWrite 0 none (addr + 32 * i) false r s)
      else match writeE { whoHost k 0 with allOnly := true } (addr + 32 * i) r s with
        | .ok _ s => inc32 (kSnp k 0x14) 1 s
        | .error _ s => s
    writeRecs k addr (i + 1) t s

/-- SNAPSHOT_READOUT_DONE (15 R454, R455; 09 R282): units that did not answer give one UNREACH record; ports' inbound captures are
added; records beyond LEN are discarded. During a partition reset the readout waits. -/
def doReadout (k : Nat) (gone : List (Byte × BitVec 12)) (s : State) : State :=
  if !snapBusy s k || (k != 32 && partState s k == 3) then s
  else
    let sn := snapOf s k
    let un := gone.map fun (c, u) => (c.toNat, u.toNat)
    let body := (sn.recs.drop 1).filter fun r => !un.contains (leAt r 1 1, leAt r 2 2)
    let body := un.foldl (fun b (c, u) => insRec (snapRec 6 c u none (heartOf s c u) (unitPower s c u) 0) b) body
    let ports := if k = 32 then (rangeFrom 0 (portsN s)).filter fun P => (linkOf s P).capId.isSome else []
    let body := ports.foldl (fun b P => (linkOf s P).capIn.foldl (fun b h => insRec (snapRec 5 12 P none h.toNat 0 0) b) b) body
    let late := ports.any fun P => (linkOf s P).capEnd.isNone
    let all := sn.recs.take 1 ++ body
    let room := getF s (kSnp k 0x10) 31 6 * 2
    let addr := getF s (kSnp k 8) 31 6 * 64 + (getR s (kSnp k 0xC)).toNat * 2 ^ 32
    let s := writeRecs k addr 0 (all.take room) s
    let s := setF (kSnp k 4) 28 28 (if room < all.length then 1 else 0) s
    let s := setF (kSnp k 4) 29 29 (if un.isEmpty && !late then 0 else 1) s
    setSnap k {} (setF (kSnp k 4) 31 30 2 s)

def execSnapshotReadoutDone (scope : Option (BitVec 5)) (unreachable : List (Byte × BitVec 12)) (s : State) : Out :=
  .next (doReadout (scopeNo scope) unreachable s)

/-! Crema taps -/

/-- First register of a tap. -/
def kTap (ofCore : Bool) (unit tap : Nat) : Nat := if ofCore then kCore unit (0x200 + 0x40 * tap) else kCl unit (0x100 + 0x40 * tap)

/-- Whether MASTER and FMT of a CRM_CTL value are defined. -/
def crmOk (v : Word) : Bool :=
  decide (fld v 30 27 ≤ 8) && (decide (fld v 26 23 ≤ 4) || fld v 26 23 == 8 || fld v 26 23 == 15)

/-- A write of CRM_CTL (15 R457): a reserved MASTER or FMT discards it whole; while armed only ARM changes; arming sets every result to its
reset value. -/
def writeCrm (k : Nat) (v : Word) (s : State) : State :=
  if !crmOk v then s
  else if bit (getR s k) 31 then setF k 31 31 (fld v 31 31) s
  else
    let s := setR k (v &&& 0xFFF803FF) s
    if bit v 31 then rstRs ((rangeFrom 3 12).map fun i => k + 4 * i) s else s

def execCrmArm (ofCore : Bool) (unit : BitVec 9) (tap : BitVec 2) (val : Word) (s : State) : Out :=
  .next (writeCrm (kTap ofCore unit.toNat tap.toNat) (val ||| 0x80000000) s)
def execCrmDisarm (ofCore : Bool) (unit : BitVec 9) (tap : BitVec 2) (val : Word) (s : State) : Out :=
  .next (writeCrm (kTap ofCore unit.toNat tap.toNat) (val &&& 0x7FFFFFFF) s)

/-! Dumps -/

/-- Whether a dump table entry is well formed (15 R461). -/
def dumpOk (e : List Byte) : Bool :=
  let n := leAt e 24 8
  leAt e 40 1 % 2 == 1 && decide (64 ≤ n) && decide (n ≤ 2 ^ 32) && n % 64 == 0 && decide (leAt e 32 2 < 1024) &&
    decide (leAt e 34 1 < 32) && decide (leAt e 35 1 < 64) && decide (leAt e 38 1 < 32) && decide (leAt e 39 1 < 64)

/-- The capture engine on X-die 1 works through the partition's host DMA registers (15 R460, R462). -/
def whoDump (p c : Nat) : Who := { whoHost p c with crema := none, die := some 5 }

/-- The source bytes of a dump, whether the read was refused, and the state the read leaves (15 R461). -/
def dumpSource (p c src n : Nat) (s : State) : List Byte × Bool × State :=
  match readE (whoDump p c) src n s with
  | .ok d s => (d, false, s)
  | .error _ s => ([], true, s)

/-- The bytes a read answered, none where it was refused or failed, and the state it left. -/
def orNone (r : EStateM.Result Flt State (List Byte)) : List Byte × State :=
  match r with
  | .ok e t => (e, t)
  | .error _ t => ([], t)

/-- The capture engine as it reads a partition's dump table: through entries with ALLCTX set (log 77). -/
def whoTable (p : Nat) : Who := { whoDump p 0 with allOnly := true }

/-- Where entry `i` of a partition's dump table stands (15 R460). -/
def dumpEntryAt (s : State) (p i : Nat) : Nat :=
  getF s (kPart p 0x1C8) 31 6 * 64 + getF s (kPart p 0x1CC) 15 0 * 2 ^ 32 + 64 * i

/-- Entry `i` of a partition's dump table (15 R460), read through entries of the partition's host DMA set with ALLCTX set (log 77): its bytes, and
the state the read leaves. An entry that cannot be read is none. -/
def dumpEntry (p i : Nat) (s : State) : List Byte × State :=
  orNone (readE (whoTable p) (dumpEntryAt s p i) 64 s)

/-- Whether a partition's dump block watches entry `i` of its table (15 R460). -/
def dumpArmed (s : State) (p i : Nat) : Bool :=
  let ctl := getR s (kPart p 0x1C0)
  bit ctl 31 && bit ctl 30 && partState s p == 2 && xdies s == 2 && decide (i < getF s (kPart p 0x1D0) 6 0)

/-- Whether an entry of the dump table fires: valid and not fired in this RUN, its semaphore at its value (15 R461). -/
def dumpMay (s : State) (p i : Nat) (e : List Byte) : Bool :=
  let c := leAt e 32 2
  e.length == 64 && dumpOk e && ctxOwner s c == some p && !s.dbg.fired.contains (c * 2048 + p * 64 + i) &&
    semMet (semOf s c (leAt e 34 1) (leAt e 35 1)) (leAt e 36 2)

/-- A dump with its header waits to be written (15 R462). -/
def dumpHold (p i : Nat) (e : List Byte) (seq st : Nat) (d : List Byte) (refused : Bool) (s : State) : State :=
  let c := leAt e 32 2
  let hdr := e.take 16 ++ leBytes 8 st ++ leBytes 8 (leAt e 16 8) ++ leBytes 8 (leAt e 24 8) ++ leBytes 4 seq ++ leBytes 2 c ++ leBytes 1 i ++
    leBytes 1 (if refused then 1 else 0) ++ leBytes 8 (if refused then 0 else csumSpan 0 0 d) ++ List.replicate 8 0
  showDump p { s with dbg := { s.dbg with dumps := s.dbg.dumps ++
    [{ pid := p, entry := i, ctx := c, data := hdr ++ d, dcl := leAt e 38 1, dsem := leAt e 39 1 }] } }

/-- A dump's source is read (15 R461, R462). -/
def dumpRun (p i : Nat) (e : List Byte) (x : Sub) (s : State) : State :=
  let c := leAt e 32 2
  let st := stampOf s 34
  let s := noteStamp 34 s
  let s := { s with dbg := { s.dbg with fired := setIns (c * 2048 + p * 64 + i) s.dbg.fired } }
  let (d, refused, s) := dumpSource p c (leAt e 16 8) (leAt e 24 8) s
  dumpHold p i e x.seq st d refused s

/-- DUMP_FIRE (15 R461, R462): an entry whose semaphore meets TVAL, once per RUN of its context. A source that is refused, or does not
deliver, gives a header only (R463). -/
def doDumpFire (p i : Nat) (s : State) : State :=
  if dumpArmed s p i then
    let (e, s) := dumpEntry p i s
    if dumpMay s p i e then
      match runningRun s (leAt e 32 2) with
      | some x => dumpRun p i e x s
      | none => s
    else s
  else s

def execDumpFire (pid : BitVec 5) (entry : BitVec 6) (s : State) : Out := .next (doDumpFire pid.toNat entry.toNat s)

/-- The dump is written, through the partition's host DMA registers, into what is left of the 4 GiB carve, or, when it does not fit, sets OVF
(15 R462, R463). A write that is refused or fails leaves WPTR and DUMPS (log 77). -/
def writeDump (d : Dump) (s : State) : State :=
  let p := d.pid
  let w := getF s (kPart p 0x1D4) 26 0
  let n := d.data.length / 64
  if 2 ^ 26 < w + n then setF (kPart p 0x1D8) 31 31 1 s
  else
    match writeE (whoDump p d.ctx) (getF s (kPart p 0x1C4) 15 0 * 2 ^ 32 + 64 * w) d.data s with
    | .ok _ s => inc16 (kPart p 0x1D8) 1 (setF (kPart p 0x1D4) 26 0 (w + n) s)
    | .error _ s => s

/-- DUMP_COMPLETE: the oldest dump in progress is written and DSEM is signalled (15 R462, R463). -/
def doDumpDone (p : Nat) (s : State) : State :=
  match s.dbg.dumps.find? fun d => d.pid == p with
  | none => s
  | some d =>
    let s := { s with dbg := { s.dbg with dumps := s.dbg.dumps.filter fun x => !(x.pid == p && x.ctx == d.ctx && x.entry == d.entry) } }
    showDump p (signal d.ctx d.dcl d.dsem (writeDump d s))

def execDumpComplete (pid : BitVec 5) (s : State) : Out := .next (doDumpDone pid.toNat s)

/-! What happens while no command waits -/

/-- With DEBUG set the side debug bus reaches memory without a region check and may halt any context (12 R363, R394; 15 R447): one byte written, or a
context halted as by HALTREQ. -/
def sideBus (kind place n : Nat) (s : State) : State :=
  match kind with
  | 8 => memPuts [place] [BitVec.ofNat 8 n] s
  | 9 => doHaltreq (place % 1024) s
  | _ => s

/-- What strikes a powered module while no command waits (log 105): an error in HBM or in an on-chip memory, a transfer that will fail its check,
arbitration lost or a DMA-side wait at a memory's banks; with DEBUG set, an act of the side debug bus. A block of HBM not yet filled holds no codeword
that could go wrong (16 R496). -/
def strike (s : State) : State :=
  if !s.pwr.pwrgd then s
  else
    let (kind, place, n) := Config.event s.free
    let s := bumpFree s
    let u := place % (96 * 50331648)
    let w := 0xF00000000000 / 8 + place % (0x100002100000 / 8)
    let blk := memBlock (place % 2 == 0) (place / 2 % 512)
    match kind with
    | 1 => if hbmFilled s u then { s with hbm := { s.hbm with ce := setIns u s.hbm.ce } } else s
    | 2 => if hbmFilled s u then { s with hbm := { s.hbm with ue := setIns u s.hbm.ue } } else s
    | 3 => { s with hbm := { s.hbm with sramCe := setIns w s.hbm.sramCe } }
    | 4 => { s with hbm := { s.hbm with sramUe := setIns w s.hbm.sramUe } }
    | 5 => { s with hbm := { s.hbm with netErr := setIns place s.hbm.netErr } }
    | 6 => inc64 (blk + 8) n s
    | 7 => starved blk n s
    | k => if bit (getR s 0x400) 31 then sideBus k place n s else s

end Sys2Proof.Machine
end

