-- ==== Sys2Proof/Machine/Resets.lean ====
section
/-! DEFINITION. Resets asked for and ended, progress watchdogs, units that stop responding (14 R425, R428-R437). -/

namespace Sys2Proof.Machine

/-! Context resets -/

/-- A write of 1 to CTX_RST.RST (14 R426, R432, R433): the record shows a reset requested by the host. One that joins a reset in progress
adds nothing (R435). -/
def doCtxRst (c : Nat) (s : State) : State :=
  match ctxOwner s c with
  | none => s
  | some p =>
    if partState s p ≠ 2 ∨ bit (getR s (kCtx c 0xEC)) 1 then s
    else startCtxReset c 0xE1 (recordFault c 2 false { reason := 0xE1 } 0 0 s)

def execCtxRst (ctx : BitVec 10) (s : State) : Out := .next (doCtxRst ctx.toNat s)

/-- The teardown of a context reset has drained (14 R433 steps 5 and 6). -/
def execCtxResetDrained (ctx : BitVec 10) (s : State) : Out := .next (finishCtxReset ctx.toNat s)

/-- A teardown that has not drained in 2.5 ms: the context reset is abandoned for a partition reset with cause 0xE3 (14 R435). -/
def doEscalate (c : Nat) (s : State) : State :=
  if s.jobs.resetting.any fun (x, _) => x == c then startPartReset (ctxPid s c) 0xE3 (some c) s else s

def execCtxResetEscalate (ctx : BitVec 10) (s : State) : Out := .next (doEscalate ctx.toNat s)

/-! Partition resets -/

/-- A write of 1 to RCV_PRST.PRST (14 R432, R442). -/
def execRcvPrst (pid : BitVec 5) (s : State) : Out := .next (startPartReset pid.toNat 0xE2 none s)

/-- The teardown of a partition reset has drained (14 R436 steps 5 and 6). -/
def execPartResetDrained (pid : BitVec 5) (s : State) : Out := .next (finishPartReset pid.toNat s)

/-- A teardown that has not drained in 32 ms: the power domains of the partition's clusters are reset and what it awaited is gone
(14 R436 step 4). -/
def doDomainReset (p : Nat) (s : State) : State :=
  if partState s p = 3 then setR (kPart p 0x12C) 0 (zeroClusters (partCls s p) s) else s

def execPartResetDomainReset (pid : BitVec 5) (s : State) : Out := .next (doDomainReset pid.toNat s)

/-! Watchdogs (14 R429-R431) -/

/-- A watchdog of a partition has fired: counted; an event-only firing is recorded in RCV_WDG, if it is free, and signalled. -/
def wdgEvent (p row unit : Nat) (ctx : Option Nat) (s : State) : State :=
  let s := inc32 (kPart p 0x11C) 1 s
  let v := match ctx with | some c => c | none => 2 ^ 15
  let s := if bit (getR s (kPart p 0x118)) 31 then s else setN (kPart p 0x118) (2 ^ 31 + row * 2 ^ 28 + unit * 2 ^ 16 + v) s
  autoSnap (some p) (vec0 (partFn s p) s)

/-- A watchdog names a context: fault 0xE0, KIND 0b01. -/
def wdgFault (c cls unit opc cseq : Nat) (s : State) : State :=
  let p := ctxPid s c
  faultCtx c 1 { reason := 0xE0, cls := cls, unit := unit } opc cseq (autoSnap (some p) (inc32 (kPart p 0x11C) 1 s))

/-- Whether a context belongs to a partition. -/
def ownedBy (s : State) (p c : Nat) : Bool := ctxOwner s c == some p

/-- Whether a control core runs a context, which nothing but its own program holds up: it is not halted, being reset or descheduled, and its
cluster does not wake (14 R429; 15 R446; 16 R483). -/
def coreWatched (s : State) (core c : Nat) : Bool :=
  (slotOf s core c).isSome && runsOn s core c && brkState s c != 2 && !bit (getR s (kCtx c 0xEC)) 1 && turnOf s 0 core c && !isWaking s 0 core

/-- The VC of a port whose queue is stuck, with the packet of that partition and context at its head. -/
def stuckVc (s : State) (p P : Nat) (c : Option Nat) : Option Nat :=
  (rangeFrom 0 4).find? fun v => wdgDue s p (spanKey P v) (spanSig s P v) &&
    (match headOwner s P v with | some o => o == (p, c) | none => true)

/-- WATCHDOG_FIRE (14 R429, R430): a queue the model watches fires when its count has reached the timeout; of the others, whose progress it does not see,
the event says that it has. A queue with nothing in it, of a halted context or of a cluster that wakes, and one that has fired and not progressed since,
fires nothing. -/
def doWatchdog (q : WdgQueue) (s : State) : State :=
  match q with
  | .engine cls unit ctx =>
    let c := ctx.toNat
    let k := engKey cls.toNat unit.toNat c
    (match headCmd s cls.toNat unit.toNat c with
     | none => s
     | some m =>
       if brkState s c = 2 ∨ isWaking s cls.toNat unit.toNat ∨ !wdgDue s (ctxPid s c) k (headSig m) then s
       else wdgFault c cls.toNat unit.toNat (envOpc m.env) m.cseq (wdgSilent k (headSig m) s))
  | .control core ctx =>
    let k := ctlKey core.toNat ctx.toNat
    if coreWatched s core.toNat ctx.toNat && !s.dbg.quiet.contains k then wdgFault ctx.toNat 0 core.toNat 0 0 (beQuiet k s) else s
  | .bank pid unit ctx =>
    let k := memQKey unit.toNat ctx.toNat
    if ownedBy s pid.toNat ctx.toNat && !s.dbg.quiet.contains k then wdgEvent pid.toNat 2 unit.toNat (some ctx.toNat) (beQuiet k s) else s
  | .completion ctx =>
    let c := ctx.toNat
    (match ctxOwner s c with
     | some p =>
       if (ringOf s c).resv = 0 ∨ !wdgDue s p (compKey c) (compSig s c) then s
       else wdgEvent p 3 0 (some c) (wdgSilent (compKey c) (compSig s c) s)
     | none => s)
  | .span pid unit ctx =>
    let c := ctx.map fun x => x.toNat
    (match stuckVc s pid.toNat unit.toNat c with
     | some v => wdgEvent pid.toNat 4 unit.toNat c (wdgSilent (spanKey unit.toNat v) (spanSig s unit.toNat v) s)
     | none => s)
  | .hbm g =>
    if tab0 s.hbm.occ g.toNat = 0 ∨ s.dbg.quiet.contains (grpKey g.toNat) then s
    else autoSnap none (devLog 0xE0 g.toNat (beQuiet (grpKey g.toNat) s))

def execWatchdogFire (q : WdgQueue) (s : State) : Out := .next (doWatchdog q s)

/-- UNIT_UNRESPONSIVE (14 R425): each context with a command queued on the unit is faulted with 0xE4; with none it is a device
error. -/
def doUnresponsive (cls unit : Nat) (s : State) : State :=
  let cs := (s.eng.cmds.filter fun m => headCmd s cls unit m.ctx == some m).foldl (fun l m => if l.any (·.ctx == m.ctx) then l else l ++ [m]) []
  if cs.isEmpty then devLog 0xE4 (cls * 4096 + unit) s
  else each cs (fun m => faultCtx m.ctx 0 { reason := 0xE4, cls := cls, unit := unit } (envOpc m.env) m.cseq) s

def execUnitUnresponsive (cls : BitVec 4) (unit : BitVec 12) (s : State) : Out := .next (doUnresponsive cls.toNat unit.toNat s)

end Sys2Proof.Machine
end

