-- ==== Sys2Proof/Machine/RegIO.lean ====
section
/-! DEFINITION. Host accesses to the set-up registers (00 R9-R12; 18 R518-R529; 12 R380; 16 R493), counter reads and clears. -/

namespace Sys2Proof.Machine

/-! Which register an access reaches -/

/-- What an access reaches: a register, a reserved offset, a part of the view that reads 0, whose writes are discarded and counted
(`shut`), or nothing, since it is not aligned: then it is counted, read or write (00 R9). -/
inductive Target where
  | reg (k : Nat)
  | reserved
  | shut
  | skew
  deriving DecidableEq, Repr

/-- Whether a VF's BARs answer: its partition exists (10 R287). -/
def vfAnswers (s : State) (fn : Nat) : Bool := partState s (fn - 1) != 0

/-- The cluster that a VF's windows show, if it is of the partition (18 R526). -/
def winCluster (s : State) (fn : Nat) : Option Nat :=
  let c := getF s (kVf fn 0x3018) 4 0
  if bit (clMask s (fn - 1)) c then some c else none

/-- A register if the map has one there. -/
def known (k : Nat) : Target := if (regSpec k).isSome then .reg k else .reserved

/-- The target of an offset of a VF slice (18 R523, R524, R526, R527). -/
def vfTarget (s : State) (fn off : Nat) : Target :=
  let p := fn - 1
  if off < 0x3000 then
    (if (0x2400 ≤ off ∧ off < 0x2430) ∨ (0x2800 ≤ off ∧ off < 0x2A00) then .reserved else known (kPart p off))
  else if off < 0x3400 then
    (if off = 0x3000 then .reg 0 else if off = 0x3008 then .reg 8 else if off = 0x300C then .reg 0xC else known (kVf fn off))
  else if off < 0x4000 then
    (match winCluster s fn with
     | none => if off < 0x3800 then .shut else .reserved
     | some c => if off - 0x3400 < 0x200 then known (kCl c (off - 0x3400)) else .reserved)
  else if off < 0x8000 then
    (match winCluster s fn with
     | none => .shut
     | some c =>
       let o := off % 0x400
       if 0x180 ≤ o ∧ o < 0x1C8 then .reserved else known (kCore (16 * c + (off - 0x4000) / 0x400) o))
  else
    match ((partCtxs s p).take 128)[(off - 0x8000) / 256]? with
    | some c => known (kCtx c (off % 256))
    | none => .shut

/-- The target of an access of a function; `none` when its BAR does not answer (10 R287). A VF's BAR0 is 64 KiB. -/
def target (s : State) (fn off : Nat) : Option Target :=
  if fn = 0 then some (if off % 4 = 0 then known off else .skew)
  else if vfAnswers s fn ∧ off < 0x10000 then some (if off % 4 = 0 then vfTarget s fn off else .skew)
  else none

/-! What stands in the way of an access -/

/-- The cluster whose block register `k` is in. -/
def regCluster (k : Nat) : Option Nat :=
  if kCore 0 0 ≤ k ∧ k < kCore 512 0 then some ((k - kCore 0 0) / 0x10000)
  else if kCl 0 0 ≤ k ∧ k < kCl 32 0 then some ((k - kCl 0 0) / 0x1000)
  else none

/-- The partition whose block register `k` is in. -/
def regPart (k : Nat) : Option Nat := if kPart 0 0 ≤ k ∧ k < kPart 32 0 then some ((k - kPart 0 0) / 0x4000) else none
/-- The context whose set-up block register `k` is in. -/
def regCtx (k : Nat) : Option Nat := if kCtx 0 0 ≤ k ∧ k < kCtx 1024 0 then some ((k - kCtx 0 0) / 256) else none

/-- Registers of hardware the assembly lacks (18 R519; 09 R285; 15 R450 and the dump block). -/
def regAbsent (s : State) (k : Nat) : Bool :=
  (xdies s == 1 && ((decide (0x1200 ≤ k) && decide (k < 0x1300)) || (decide (0x2200 ≤ k) && decide (k < 0x2400)) ||
    (decide (0x850 ≤ k) && decide (k < 0x860)) ||
    ((regPart k).isSome && decide (0x1C0 ≤ k % 0x4000) && decide (k % 0x4000 < 0x1DC)))) ||
  (decide (0x3000 ≤ k) && decide (k < 0x3180) && decide (stackCount s ≤ (k - 0x3000) / 0x20)) ||
  (decide (0x200 ≤ k) && decide (k < 0x2D8) && !sensorHere s ((k - 0x200) / 4))

/-- Registers not yet in service (16 R493). -/
def regUnready (s : State) (k : Nat) : Bool :=
  match regCluster k with
  | some c => if c % 8 = 0 then !s.pwr.dripOk else !s.pwr.fullOk
  | none => svc s != 3 && ((decide (0x1100 ≤ k) && decide (k < 0x1300)) || (decide (0x3000 ≤ k) && decide (k < 0x3180)))

/-- Whether a register has no field that software sets: it shows status, an event or a count. -/
def statusOnly (k : Nat) : Bool :=
  match regSpec k with
  | some r => r.rw == 0 && r.sl == 0 && r.wo == 0
  | none => false

/-- Offsets of a context's status, fault and debug registers (18 R528). CTX_RST, at 0xEC, is none of them. -/
def ctxMasked : List Nat :=
  [0x0C, 0x1C, 0x20, 0x24, 0x28, 0x4C, 0x54, 0x88, 0xC8, 0xCC, 0xD0, 0xD4, 0xD8, 0xDC, 0xE0, 0xE4, 0xE8, 0xF0, 0xF4, 0xF8, 0xFC]

/-- The registers of a partition's confidential states (12 R380; log 31): its counter blocks, its status registers, the fault, status and
debug registers of its contexts. Registers that set a partition up, the security block and CTX_RST are not masked. -/
def maskedReg (k : Nat) : Bool :=
  if (regPart k).isSome then
    let o := k % 0x4000
    decide (o < 0x80) || (decide (0x2000 ≤ o) && decide (o < 0x201C)) ||
      (((decide (0x100 ≤ o) && decide (o < 0x264)) || (decide (0x1000 ≤ o) && decide (o < 0x1400))) && statusOnly k)
  else if (regCtx k).isSome then ctxMasked.contains (k % 256)
  else if kCore 0 0 ≤ k then
    let o := k % 0x1000
    decide (o < 0x120) || (decide (0x200 ≤ o) && decide (o < 0x300))
  else decide (k % 0x1000 < 0x200)

/-- The partition that a register belongs to: by block, context or cluster. -/
def regOwner (s : State) (k : Nat) : Option Nat :=
  match regPart k, regCtx k, regCluster k with
  | some p, _, _ => some p
  | _, some c, _ => ctxOwner s c
  | _, _, some c => clOwner s c
  | _, _, _ => none

/-- Whether the PF view of a register is masked (12 R380). -/
def regMasked (s : State) (fn k : Nat) : Bool :=
  fn == 0 && (match regOwner s k with
    | some p => decide (2 ≤ conf s p) && maskedReg k
    | none => false)

/-- Whether an SL field may be written: through the PF, while its partition is not yet sealed (00 R11; 18 R525). A reduction channel's while
the partition it names, and the one it has, are OPEN (13 R419). -/
def slOpen (s : State) (fn k : Nat) (v : Word) : Bool :=
  fn == 0 &&
    (if 0x2000 ≤ k ∧ k < 0x2400 then
      partState s (fld v 4 0) == 1 && (!bit (getR s k) 31 || partState s (getF s k 4 0) == 1)
     else match regOwner s k with
      | some p => decide (partState s p < 2)
      | none => true)

/-! Writes -/

/-- Whether a written value holds a reserved encoding in a field that it may set (00 R10). -/
def badField (r : RegSpec) (m : Nat) (v : Word) : Bool :=
  r.rng.any fun (hi, lo, a, b) => m.testBit lo && (decide (fld v hi lo < a) || decide (b < fld v hi lo))

/-- The effect of access codes on a stored value (00 R11): fields of mask `m` are set, W1C bits that are written 1 are cleared. -/
def applyWrite (r : RegSpec) (m : Nat) (old v : Word) : Word :=
  let mw : Word := BitVec.ofNat 32 m
  let w1c : Word := BitVec.ofNat 32 r.w1c
  ((old &&& ~~~mw) ||| (v &&& mw)) &&& ~~~(v &&& w1c)

/-- A write by its access codes alone. An SL field written through a VF slice is discarded and counted (18 R525). -/
def plainWrite (fn k : Nat) (v : Word) (s : State) : State :=
  match regSpec k with
  | none => accErr fn s
  | some r =>
    let m := r.rw ||| (if slOpen s fn k v then r.sl else 0)
    if badField r m v then accErr fn s
    else
      let s := if fn ≠ 0 ∧ r.sl ≠ 0 then accErr fn s else s
      setR k (applyWrite r m (getR s k) v) s

/-- Zero counters. -/
def zeroRegs (ks : List Nat) : State → State := each ks (setR · 0)
/-- `n` registers from `k`. -/
def regsFrom (k n : Nat) : List Nat := (rangeFrom 0 n).map fun i => k + 4 * i

/-- The counters that each clear register clears (03 R90; 05 R152; 06 R188; 07 R211; 08 R241; 09 R284; 13 R419; 15 R450; 18 R521). -/
def clrMx (core : Nat) : State → State := zeroRegs (regsFrom (kCore core 0) 16)
def clrVx (core : Nat) : State → State := zeroRegs (regsFrom (kCore core 0x80) 8)
def clrPg (cl : Nat) : State → State := zeroRegs (regsFrom (kCl cl 0x40) 8)
def clrGx (cl : Nat) : State → State := zeroRegs (regsFrom (kCl cl 0x80) 8)
def clrMem (k : Nat) : State → State := zeroRegs (regsFrom k 5)
def clrSpn (p : Nat) : State → State := zeroRegs (regsFrom (kPart p 0x2000) 6)
def clrGc : State → State := zeroRegs (regsFrom 0x800 26 ++ [0x86C, 0x870])
def clrRdc (k : Nat) : State → State := zeroRegs [kRdc k 0x28, kRdc k 0x2C]

/-- A ring's BASE register: locked while the ring is enabled; a write that would change it is counted (10 R292). -/
def writeBase (fn k : Nat) (en : Bool) (v : Word) (s : State) : State :=
  if en then
    (match regSpec k with
     | some r => if applyWrite r r.rw (getR s k) v = getR s k then s else accErr fn s
     | none => s)
  else plainWrite fn k v s

/-- CTX_BRK_CTL: the comparators, then HALTREQ, RESUME and STEP (15 R443). -/
def writeBrk (fn c : Nat) (v : Word) (s : State) : State :=
  let s := plainWrite fn (kCtx c 0xF0) v s
  let s := if bit v 29 then doHaltreq c s else s
  let s := if bit v 28 then doResume c s else s
  if bit v 27 then doStep c s else s

/-- A write of a context register. -/
def writeCtx (fn c o : Nat) (v : Word) (s : State) : State :=
  let k := kCtx c o
  if o = 0x00 ∨ o = 0x04 then writeBase fn k (sqEn s c) v s
  else if o = 0x08 then writeSqCfg fn c v s
  else if o = 0x10 ∨ o = 0x14 then writeBase fn k (cqEn s c) v s
  else if o = 0x18 then writeCqCfg fn c v s
  else if o = 0x2C then writeCrec fn c v s
  else if o = 0xEC then (if bit v 0 then doCtxRst c s else s)
  else if o = 0xF0 then writeBrk fn c v s
  else plainWrite fn k v s

/-- A write of a snapshot control register (15 R453, R454). -/
def writeSnp (fn k scope : Nat) (v : Word) (s : State) : State :=
  let s := plainWrite fn k v s
  if bit v 31 then wantSnap scope s else s

/-- A write of a partition register. -/
def writePart (fn p o : Nat) (v : Word) (s : State) : State :=
  if o = 0x108 then (if bit v 0 then startPartReset p 0xE2 none s else s)
  else if o = 0x180 then writeSnp fn (kPart p o) p v s
  else if o = 0x2018 then (if bit v 0 then clrSpn p s else s)
  else plainWrite fn (kPart p o) v s

/-- A write of a tap register: while armed only ARM changes (15 R457). -/
def writeTap (fn tap k : Nat) (v : Word) (s : State) : State :=
  if k = tap then writeCrm k v s
  else if bit (getR s tap) 31 then s
  else plainWrite fn k v s

/-- A write of a core register. -/
def writeCore (fn n o : Nat) (v : Word) (s : State) : State :=
  if o = 0x44 then (if bit v 0 then clrMx n s else s)
  else if o = 0xA4 then (if bit v 0 then clrVx n s else s)
  else if o = 0x11C then (if bit v 0 then clrMem (kCore n 0x100) s else s)
  else if 0x200 ≤ o ∧ o < 0x300 then writeTap fn (kCore n (o - o % 0x40)) (kCore n o) v s
  else plainWrite fn (kCore n o) v s

/-- A write of a cluster register. -/
def writeCluster (fn c o : Nat) (v : Word) (s : State) : State :=
  if o = 0x1C then (if bit v 0 then clrMem (kCl c 0) s else s)
  else if o = 0x64 then (if bit v 0 then clrPg c s else s)
  else if o = 0xA4 then (if bit v 0 then clrGx c s else s)
  else if 0x100 ≤ o ∧ o < 0x200 then writeTap fn (kCl c (o - o % 0x40)) (kCl c o) v s
  else plainWrite fn (kCl c o) v s

/-- A write of a device register (16 R500 for PCAP and PBUDGET). -/
def writeDev (fn k : Nat) (v : Word) (s : State) : State :=
  if k = 0x14 then (if bit v 0 then setR 0x10 0 s else s)
  else if k = 0x110 then (if 500 ≤ fld v 15 0 ∧ fld v 15 0 ≤ peakW s then plainWrite fn k v s else s)
  else if k = 0x114 then (if fld v 15 0 < getF s 0x118 15 0 then accErr fn s else plainWrite fn k v s)
  else if k = 0x874 then (if bit v 0 then clrGc s else s)
  else if k = 0x900 then writeSnp fn k 32 v s
  else if 0x1100 ≤ k ∧ k < 0x1300 ∧ k % 16 = 0 then writePortCfg fn ((k - 0x1100) / 16) v s
  else if 0x2000 ≤ k ∧ k < 0x2400 ∧ k % 0x40 = 0x30 then (if bit v 0 then clrRdc ((k - 0x2000) / 0x40) s else s)
  else plainWrite fn k v s

/-- A write that reaches a register, by the block it is in. -/
def writeReg (fn k : Nat) (v : Word) (s : State) : State :=
  match regPart k, regCtx k, regCluster k with
  | some p, _, _ => writePart fn p (k % 0x4000) v s
  | _, some c, _ => writeCtx fn c (k % 256) v s
  | _, _, some c => if kCore 0 0 ≤ k then writeCore fn ((k - kCore 0 0) / 0x1000) (k % 0x1000) v s else writeCluster fn c (k % 0x1000) v s
  | _, _, _ =>
    if k = kVf fn 0x3014 then (if bit v 0 then setR (kVf fn 0x3010) 0 s else s)
    else writeDev fn k v s

/-- A host write of a register of BAR0 (00 R10, R11; 18 R519, R525-R527; 12 R380; 16 R493). -/
def doRegWrite (fn off : Nat) (v : Word) (s : State) : State :=
  match target s fn off with
  | none => s
  | some .reserved => accErr fn s
  | some .shut => accErr fn s
  | some .skew => accErr fn s
  | some (.reg k) =>
    if regAbsent s k || regMasked s fn k then s
    else if regUnready s k then accErr fn s
    else writeReg fn k v s

/-- A host write into BAR4 (18 R531, R533): while BUSY, GO, MB_REQ and body bytes are discarded and counted. A GO that submits a request is
that request's own command. -/
def doMbWrite (fn off : Nat) (v : Word) (s : State) : State :=
  let busy := mbBusy s fn
  if fn ≠ 0 ∧ !vfAnswers s fn then s
  else if off % 4 ≠ 0 ∨ 0x10000 ≤ off then accErr fn s
  else if off = 0 then (if busy && bit v 0 then accErr fn s else s)
  else if off = 4 then (if busy then accErr fn s else setR (kMb fn 4) (v &&& 0xFF01FFFF) s)
  else if off = 8 then (if bit v 30 then setF (kMb fn 8) 30 30 0 s else s)
  else if off < 0x14 then s
  else if off < 0xF00 then accErr fn s
  else if busy then accErr fn s
  else
    let b := (tabFind fn s.sec.bodies).getD []
    let o := off - 0xF00
    let b := b ++ List.replicate (o + 4 - b.length) 0
    { s with sec := { s.sec with bodies := tabPut (fun _ x => x == []) fn (b.take o ++ leBytes 4 v.toNat ++ b.drop (o + 4)) s.sec.bodies } }

/-- REG_WRITE: of a set-up register in BAR0, or of a mailbox register or body word in BAR4. A write that R380 keeps from a VF's slice is
discarded. -/
def execRegWrite (via : Via) (bar4 : Bool) (off : BitVec 26) (val : Word) (s : State) : Out :=
  .next (if bar4 then doMbWrite via.fn.toNat off.toNat val s
    else if offStream s via.fn.toNat via.ide then s
    else doRegWrite via.fn.toNat off.toNat val s)

/-! Reads -/

/-- The value a register shows now: device time runs; WO fields read 0; the assembly code is fused (18 R521). -/
def showReg (s : State) (k : Nat) : Word :=
  if k = 0 then getR s 0 ||| BitVec.ofNat 32 s.assy.toNat
  else if k = 8 then BitVec.ofNat 32 (now s)
  else if k = 0xC then BitVec.ofNat 32 (now s / 2 ^ 32)
  else match regSpec k with
    | some r => getR s k &&& ~~~(BitVec.ofNat 32 r.wo)
    | none => 0

/-- A read through a function: masked, absent and unready registers and reserved offsets read 0 (18 R519; 12 R380; 16 R493). -/
def readVia (s : State) (fn off : Nat) : Option Nat :=
  match target s fn off with
  | some (.reg k) => if regAbsent s k || regMasked s fn k || regUnready s k then none else some k
  | _ => none

/-- The place of a counter's high-word latch: DT_HI of each function has its own. -/
def latchKey (fn k : Nat) : Nat := if k = 8 ∧ fn ≠ 0 then kVf fn 0x300C else k + 4

/-- The number of a register's latched word: the high words of counters have one. -/
def latchOf (s : State) (fn k : Nat) : Option Word := if isCounterLo (k - 4) then tabFind (latchKey fn (k - 4)) s.latch else none

/-- COUNTER_LOW_READ: the word is returned, and the low word of a counter latches its high word, which a following read of the high word
returns (03 R91, 18 R526). A high word that has never been latched is read as it stands (log 34). An access that is not aligned reads 0 and is
counted (00 R9). -/
def doCounterRead (fn off : Nat) (s : State) : State :=
  match readVia s fn off with
  | none =>
    let s := { s with bus := { s.bus with read := 0 } }
    if target s fn off = some .skew then accErr fn s else s
  | some k =>
    if isCounterLo k then
      { s with bus := { s.bus with read := showReg s k }, latch := tabPut (fun _ _ => false) (latchKey fn k) (showReg s (k + 4)) s.latch }
    else { s with bus := { s.bus with read := (latchOf s fn k).getD (showReg s k) } }

/-- COUNTER_LOW_READ; a read that R380 keeps from a VF's slice answers 0. -/
def execCounterLowRead (via : Via) (off : BitVec 26) (s : State) : Out :=
  .next (if offStream s via.fn.toNat via.ide then { s with bus := { s.bus with read := 0 } } else doCounterRead via.fn.toNat off.toNat s)

/-- BAR_BAD_ACCESS: wrong width or alignment is discarded, or reads 0, and is counted; of reserved offsets only writes are counted
(00 R9; 18 R519). -/
def doBadAccess (fn : Nat) (why : BadAccess) (write : Bool) (s : State) : State :=
  if fn ≠ 0 ∧ !vfAnswers s fn then (if write then s else { s with bus := { s.bus with read := 0 } })
  else
    let s := if write then s else { s with bus := { s.bus with read := 0 } }
    if why = .reserved ∧ !write then s else accErr fn s

def execBarBadAccess (fn : BitVec 6) (why : BadAccess) (write : Bool) (s : State) : Out := .next (doBadAccess fn.toNat why write s)

/-! Clears -/

/-- A clear through the PF of a register that can be reached. -/
def clearVia (k : Nat) (f : State → State) (s : State) : State :=
  if regAbsent s k || regMasked s 0 k then s else if regUnready s k then accErr 0 s else f s

def execMxCtrClr (core : BitVec 9) (s : State) : Out := .next (clearVia (kCore core.toNat 0x44) (clrMx core.toNat) s)
def execVxCtrClr (core : BitVec 9) (s : State) : Out := .next (clearVia (kCore core.toNat 0xA4) (clrVx core.toNat) s)
def execPgCtrClr (cl : BitVec 5) (s : State) : Out := .next (clearVia (kCl cl.toNat 0x64) (clrPg cl.toNat) s)
def execGxCtrClr (cl : BitVec 5) (s : State) : Out := .next (clearVia (kCl cl.toNat 0xA4) (clrGx cl.toNat) s)
def execMemCtrClr (ofCore : Bool) (unit : BitVec 9) (s : State) : Out :=
  let k := if ofCore then kCore unit.toNat 0x100 else kCl unit.toNat 0
  .next (clearVia (k + 0x1C) (clrMem k) s)
def execSpnCtrClr (pid : BitVec 5) (s : State) : Out := .next (clearVia (kPart pid.toNat 0x2018) (clrSpn pid.toNat) s)
def execGcClr (s : State) : Out := .next (clearVia 0x874 clrGc s)
def execRdcClr (ch : BitVec 4) (s : State) : Out := .next (clearVia (kRdc ch.toNat 0x30) (clrRdc ch.toNat) s)
def execFnAccerrClr (s : State) : Out := .next (setR 0x10 0 s)
def execVfAccerrClr (via : Via) (s : State) : Out :=
  .next (if vfAnswers s via.fn.toNat && !offStream s via.fn.toNat via.ide then setR (kVf via.fn.toNat 0x3010) 0 s else s)

end Sys2Proof.Machine
end

