-- ==== Sys2Proof/Machine/Commit.lean ====
section
/-! DEFINITION. Commit groups: staging, the drain, the commit point, CGSUBMIT (10 R320-R329; 05 R138; 09 R259). -/

namespace Sys2Proof.Machine

/-! Group images (10 R322, R323) -/

def actType (a : List Byte) : Nat := leAt a 0 1
def actLen (a : List Byte) : Nat := leAt a 1 1
def actCtx (a : List Byte) : Nat := leAt a 2 2
def actArg0 (a : List Byte) : Nat := leAt a 4 4
def actArg1 (a : List Byte) : Nat := leAt a 8 8
def actData (a : List Byte) : List Byte := (a.drop 16).take (actLen a)

/-- Whether TYPE, LEN and the reserved bits of an action are legal by its type's row of 10 R323. ARG bits that the row does not list are
reserved. -/
def actForm (a : List Byte) : Bool :=
  let n := actLen a
  let a0 := actArg0 a
  let a1 := actArg1 a
  match actType a with
  | 1 => n == 8 && decide (a0 < 4096)
  | 2 => n == 0 && decide (a0 < 16) && a1 == 0
  | 3 => n == 32 || n == 64
  | 4 => decide (1 ≤ n) && decide (a1 < 16) && decide (a1 + n ≤ 16)
  | 5 => n == 20 && decide (a0 < 64) && a1 == 0
  | 6 => n == 8 && decide (a0 < 64) && a1 == 0
  | 7 => decide (1 ≤ n) && decide (n ≤ 64) && a0 == 0
  | 8 => decide (4 ≤ n) && decide (n ≤ 64) && n % 4 == 0 && a0 % 4 == 0 && a1 == 0
  | _ => false

/-- Whether an action of a partition's group is well formed: its form, its target context, zero DATA beyond LEN. -/
def actLegal (s : State) (p : Nat) (a : List Byte) : Bool :=
  actForm a && decide (actCtx a < 1024) && ctxOwner s (actCtx a) == some p && (a.drop (16 + actLen a)).all (· == 0)

/-- A group image as a group, unless it is malformed (10 R322-R324, R307). -/
def parseGroup (s : State) (p owner : Nat) (src : GroupSrc) (b : List Byte) : Option Group :=
  let n := leAt b 0 1
  let tmo := leAt b 8 4
  let acts := (rangeFrom 0 n).map fun i => (b.drop (64 + 80 * i)).take 80
  if n = 0 ∨ 64 < n ∨ b.length ≠ 64 + 80 * n ∨ leAt b 1 3 ≠ 0 ∨ leAt b 12 52 ≠ 0 ∨ 10000000 < tmo then none
  else if acts.all (actLegal s p) then
    some { pid := p, owner := owner, src := src, gtag := leAt b 4 4, tmo := (if tmo = 0 then 100000 else tmo), acts := acts }
  else none

/-! Staging (10 R324) -/

def groupsOf (s : State) (p : Nat) : List Group := s.jobs.groups.filter fun g => g.pid == p
def stageGroup (g : Group) (s : State) : State := { s with jobs := { s.jobs with groups := s.jobs.groups ++ [g] } }

/-- COMMIT: the group image has been fetched (10 R307, R324); a failed record is 12 R384. -/
def doCommit (c seq : Nat) (d : List Byte) (s : State) : State :=
  match ready s c seq 6 with
  | none => lateInput c seq 6 d s
  | some x => match takeInput c x.hostAddr x.commitLen d s with
    | none => s
    | some (bs, ok, s) =>
      if !ok then finishSub c seq 7 0x8D s
      else modSub c seq (fun y => { y with st := .fetchedGroup, gdata := bs }) s

def execCommit (ctx : BitVec 10) (seq : Word) (data : List Byte) (s : State) : Out :=
  .next (doCommit ctx.toNat seq.toNat data s)

/-- GROUP_STAGE: the partition's first fetched group is staged, or refused as malformed; while 16 groups are staged it waits. -/
def doStage (p : Nat) (s : State) : State :=
  match s.jobs.subs.find? fun x => x.st == .fetchedGroup && ctxOwner s x.ctx == some p && !(ringOf s x.ctx).stopped with
  | none => s
  | some x => match parseGroup s p x.ctx (.commit x.seq) x.gdata with
    | none => finishSub x.ctx x.seq 2 0x88 s
    | some g =>
      if 16 ≤ (groupsOf s p).length then s
      else stageGroup g (modSub x.ctx x.seq (fun y => { y with st := .staged }) s)

def execGroupStage (pid : BitVec 5) (s : State) : Out := .next (doStage pid.toNat s)

/-! CGSUBMIT (10 R329) -/

/-- A group of which a CGSUBMIT gives only the outcome word. -/
def refusedGroup (m : EngCmd) (p oaddr : Nat) (hdr : List Byte) : Group :=
  { pid := p, owner := m.ctx, src := .cg m.core oaddr, gtag := leAt hdr 4 4, tmo := 0, acts := [] }

def cgWork (p : Pay) (m : EngCmd) : Eng Word := do
  let w ← look fun s => whoDma s m.core m.ctx
  decodeE w [(0x8E, !pz p 0 0x1FFF || !pz p 1 0x1FFF || !wordsZero p 2)]
  let b ← cmShare w (clOf m.core) false
  let ga := b + 64 * pf p 0 31 13
  let oa := b + 64 * pf p 1 31 13
  let hdr ← readE w ga 64
  let n := leAt hdr 0 1
  let acts ← readE w (ga + 64) (if 1 ≤ n ∧ n ≤ 64 then 80 * n else 0)
  checkE w false true oa 8
  upd fun s =>
    match parseGroup s w.pid m.ctx (.cg m.core oa) (hdr ++ acts) with
    | none => groupOutcome (refusedGroup m w.pid oa hdr) 2 0x88 0 s
    | some g => if 16 ≤ (groupsOf s w.pid).length then groupOutcome g 2 0x8C 0 s else stageGroup g s
  pure 0

def execCgsubmit (core : BitVec 9) (ctx : BitVec 10) (p : Pay) (s : State) : Out :=
  .next (runCmd core.toNat ctx.toNat 0x60 p (cgWork p) s)

/-! The drain (10 R325, R327) -/

/-- A submission held by a drain that has timed out and not dispatched since. -/
def stillHeld (s : State) (p : Nat) : Bool :=
  s.jobs.subs.any fun x => ctxOwner s x.ctx == some p && s.jobs.heldBack.contains (x.ctx, x.seq) &&
    !x.begun

/-- COMMIT_DRAIN_START: dispatch stops; the drain waits for what is dispatched. -/
def doDrainStart (p : Nat) (s : State) : State :=
  if (groupsOf s p).isEmpty || (drainOf s p).isSome || stillHeld s p then s
  else
    let waits := (s.jobs.subs.filter fun x =>
      ctxOwner s x.ctx == some p && x.opc != 6 && (x.st == .running || x.st == .done)).map fun x => (x.ctx, x.seq)
    { s with jobs := { s.jobs with
        drains := s.jobs.drains ++ [{ pid := p, waits := waits }]
        heldBack := s.jobs.heldBack.filter fun (c, _) => ctxOwner s c != some p } }

def execCommitDrainStart (pid : BitVec 5) (s : State) : Out := .next (doDrainStart pid.toNat s)

/-- Whether a drain has ended: everything it waits for has completed. -/
def drained (s : State) (d : Drain) : Bool := d.waits.all fun (c, q) => (findSub s c q).isNone

def endDrain (p : Nat) (s : State) : State :=
  { s with jobs := { s.jobs with drains := s.jobs.drains.filter fun d => d.pid != p } }

/-- COMMIT_DRAIN_TIMEOUT: the first group aborts, the others stay staged, dispatch resumes; the next drain starts after what was held. -/
def doDrainTimeout (p : Nat) (s : State) : State :=
  match drainOf s p, groupsOf s p with
  | some d, g :: _ =>
    if drained s d then s
    else
      let held := (s.jobs.subs.filter fun x =>
        ctxOwner s x.ctx == some p && x.opc != 6 && !x.begun).map fun x => (x.ctx, x.seq)
      let s := endDrain p { s with jobs := { s.jobs with heldBack := s.jobs.heldBack ++ held, groups := s.jobs.groups.erase g } }
      groupOutcome g 2 0x8A 0 s
  | _, _ => s

def execCommitDrainTimeout (pid : BitVec 5) (s : State) : Out := .next (doDrainTimeout pid.toNat s)

/-! Actions: the condition at the commit point, and the effect with the data it holds (10 R323) -/

/-- An action's condition is not met. -/
def condE (b : Bool) : Eng Unit := guardE b { reason := 0x89 }

def planWptr (p : Nat) (a : List Byte) : Eng (State → State) := do
  let n := leNat (actData a)
  let ok ← look fun s => insideShare s p (actArg1 a) n
  condE ok
  pure fun s => { s with jobs := { s.jobs with
    wptr := tabPut (fun _ _ => false) (p * 4096 + actArg0 a) (actArg1 a, n) s.jobs.wptr } }

/-- Switch one SFU slot of a context on every core (05 R138). -/
def switchBank (c prog : Nat) (s : State) : State :=
  let s := setF (kCtx c 0x50) (4 + prog) (4 + prog) (1 - getF s (kCtx c 0x50) (4 + prog) (4 + prog)) s
  let s := setF (kCtx c 0x50) (8 + prog) (8 + prog) 0 s
  { s with eng := { s.eng with shadow := s.eng.shadow.filter fun k => k / 4 % 1024 != c || k % 4 != prog } }

def planSfusw (a : List Byte) : Eng (State → State) := do
  let c := actCtx a
  let slots := (rangeFrom 0 4).filter fun i => (actArg0 a).testBit i
  let sh ← look fun s => getF s (kCtx c 0x50) 11 8
  condE (slots.all fun i => sh.testBit i)
  pure (each slots (switchBank c))

def planPgset (p : Nat) (a : List Byte) : Eng (State → State) := do
  let c := actCtx a
  let st := actArg0 a
  let last := actArg1 a + actLen a / 32 - 1
  let n ← look fun s => kvStreams s c
  condE (decide (st < n))
  let cl ← look fun s => leNat (rawRead s p (streamAddr s c st + 28) 1) % 32
  let own ← look fun s => bit (clMask s p) cl
  condE own
  let w ← look fun s => whoPage s cl c
  let e ← readStream w st
  condE (decide (last < e.maxpg))
  eachM (rangeFrom (actArg1 a) (actLen a / 32)) (fun q => do
    let x ← readPage w e q
    condE (!x.isSealed))
  let at_ := e.plbase + 32 * actArg1 a
  checkE w false true at_ (actLen a)
  pure (landSure w at_ (actData a))

/-- Bytes read at the commit point: present, with no error that stops the read. -/
def commitRead (w : Who) (a n : Nat) : Eng (List Byte) := fun s =>
  match firstHole s w.pid (granules a n) with
  | some (_, e) => .error (w.flt e a) s
  | none =>
    let ks := keysOf s w.pid a n
    match errAt s false ks with
    | some x => .error (w.flt x.2.1 (a + x.1)) (errNoted w.pid x s)
    | none => .ok (rawRead s w.pid a n) (tookBytes w ks s)

def planGate (p : Nat) (a : List Byte) : Eng (State → State) := do
  let c := actCtx a
  let l := actArg0 a
  let off := actArg1 a
  let nlt ← look fun s => getF s (kCtx c 0x98) 8 0
  condE (decide (l < nlt))
  let at_ ← look fun s => layerAddr s c l
  let old ← commitRead (whoHost p c) at_ 16
  let new := old.take off ++ actData a ++ old.drop (off + actLen a)
  condE (!layerBad new)
  pure (landSure (whoHost p c) (at_ + off) (actData a))

/-- Write whole set-up registers of an entry: the fields the map gives them. -/
def putRegs : List (Nat × Word) → State → State
  | [], s => s
  | (k, v) :: r, s => putRegs r (setR k (v &&& BitVec.ofNat 32 ((regSpec k).getD {}).sl) s)

/-- 32-bit words of a byte list. -/
def wordAt (b : List Byte) (i : Nat) : Word := BitVec.ofNat 32 (leAt b (4 * i) 4)

def planWin (p : Nat) (a : List Byte) : Eng (State → State) := do
  let d := actData a
  let xd ← look xdies
  condE (!bit (wordAt d 0) 24 || xd == 2)
  pure (putRegs ((rangeFrom 0 5).map fun i => (kWin p (actArg0 a) (4 * i), wordAt d i)))

def planPeer (p : Nat) (a : List Byte) : Eng (State → State) :=
  pure (putRegs ((rangeFrom 0 2).map fun i => (kPeer p (actArg0 a) (4 * i), wordAt (actData a) i)))

def planWrite (p : Nat) (a : List Byte) : Eng (State → State) := do
  let w := whoHost p (actCtx a)
  let at_ := actArg1 a
  let n := actLen a
  condE (at_ / 64 == (at_ + n - 1) / 64)
  checkE w false true at_ n
  let ks ← look fun s => keysOf s p at_ n
  let bad ← look fun s => errAt s true ks
  match bad with
  | some x => if x.2.1 = 0xE6 then pure () else upd (errNoted p x) >>= fun _ => stop (w.flt x.2.1 at_)
  | none => pure ()
  pure (landSure w at_ (actData a))

/-- Whether REGW may write a register of a partition: of its blocks, its contexts' blocks, the Grind slots and crema taps of its cores and
clusters, its valid reduction channels, with no SL or WO field (10 R323; 13 R419; 15 R457). -/
def regwOk (s : State) (p k : Nat) : Bool :=
  (match regSpec k with
   | some r => r.sl == 0 && r.wo == 0
   | none => false) &&
  (regPart k == some p ||
   (match regCtx k with | some c => ctxOwner s c == some p | none => false) ||
   (match regCluster k with
    | some c => bit (clMask s p) c &&
        (if kCore 0 0 ≤ k then (decide (0x140 ≤ k % 0x1000) && decide (k % 0x1000 < 0x180)) ||
            (decide (0x200 ≤ k % 0x1000) && decide (k % 0x1000 < 0x300))
         else decide (0x100 ≤ k % 0x1000) && decide (k % 0x1000 < 0x200))
    | none => false) ||
   (decide (0x2000 ≤ k) && decide (k < 0x2400) &&
     (let h := getR s (k / 0x40 * 0x40)
      bit h 31 && fld h 4 0 == p)))

def planRegw (p : Nat) (a : List Byte) : Eng (State → State) := do
  let ks := (rangeFrom 0 (actLen a / 4)).map fun i => actArg0 a + 4 * i
  let ok ← look fun s => ks.all (regwOk s p)
  condE ok
  let d := actData a
  pure (each (rangeFrom 0 (actLen a / 4)) fun i => writeReg 0 (actArg0 a + 4 * i) (wordAt d i))

def planAct (p : Nat) (a : List Byte) : Eng (State → State) :=
  match actType a with
  | 1 => planWptr p a
  | 2 => planSfusw a
  | 3 => planPgset p a
  | 4 => planGate p a
  | 5 => planWin p a
  | 6 => planPeer p a
  | 7 => planWrite p a
  | 8 => planRegw p a
  | _ => stop { reason := 0x88 }

/-- The effects of a group's actions in order, or the index of the first whose condition fails; with the state evaluation leaves. -/
def planAll (p : Nat) : Nat → List (List Byte) → State → Except Nat (List (State → State)) × State
  | _, [], s => (.ok [], s)
  | i, a :: r, s => match planAct p a s with
    | .error _ s => (.error i, s)
    | .ok f s => match planAll p (i + 1) r s with
      | (.ok fs, s) => (.ok (f :: fs), s)
      | (.error j, s) => (.error j, s)

/-- One group at the commit point: all of its actions or none (10 R325, R326). -/
def commitGroup (g : Group) (s : State) : State :=
  match planAll g.pid 0 g.acts s with
  | (.ok fs, s) => groupOutcome g 0 0 0 (each fs (fun f t => f t) s)
  | (.error i, s) => groupOutcome g 2 0x89 i s

/-- COMMIT_POINT: with the drain ended, the staged groups are evaluated and applied in staging order; dispatch resumes. -/
def doCommitPoint (p : Nat) (s : State) : State :=
  match drainOf s p with
  | none => s
  | some d =>
    if drained s d then
      let gs := groupsOf s p
      endDrain p (each gs commitGroup { s with jobs := { s.jobs with groups := s.jobs.groups.filter fun g => g.pid != p } })
    else s

def execCommitPoint (pid : BitVec 5) (s : State) : Out := .next (doCommitPoint pid.toNat s)

end Sys2Proof.Machine
end

