-- ==== Sys2Proof/Machine/Dispatch.lean ====
section
/-! DEFINITION. One arm for each command: a direct call of its meaning. -/

namespace Sys2Proof.Machine

def exec (i : Instr) (s : State) : Host.Outcome State Fault Refusal :=
  match i with
  | .vauxUp straps => Sys2Proof.Machine.execVauxUp straps s
  | .bootImageSelect => Sys2Proof.Machine.execBootImageSelect s
  | .vauxLost => Sys2Proof.Machine.execVauxLost s
  | .modEnRise => Sys2Proof.Machine.execModEnRise s
  | .vinEntersRange => Sys2Proof.Machine.execVinEntersRange s
  | .railFamilyGood => Sys2Proof.Machine.execRailFamilyGood s
  | .railFamilyTimeout => Sys2Proof.Machine.execRailFamilyTimeout s
  | .modEnFall => Sys2Proof.Machine.execModEnFall s
  | .vinUndervoltage => Sys2Proof.Machine.execVinUndervoltage s
  | .vinOvervoltage => Sys2Proof.Machine.execVinOvervoltage s
  | .dieTempCritical sensor => Sys2Proof.Machine.execDieTempCritical sensor s
  | .throttleFastSource src => Sys2Proof.Machine.execThrottleFastSource src s
  | .pcapSample vin iin pin => Sys2Proof.Machine.execPcapSample vin iin pin s
  | .ratioStep => Sys2Proof.Machine.execRatioStep s
  | .throttleFloorTimeout => Sys2Proof.Machine.execThrottleFloorTimeout s
  | .sensorUpdate temps => Sys2Proof.Machine.execSensorUpdate temps s
  | .leakDetect => Sys2Proof.Machine.execLeakDetect s
  | .perstAssert => Sys2Proof.Machine.execPerstAssert s
  | .perstRelease => Sys2Proof.Machine.execPerstRelease s
  | .flrVf v => Sys2Proof.Machine.execFlrVf v s
  | .flrPf => Sys2Proof.Machine.execFlrPf s
  | .dripSelftestDone pass => Sys2Proof.Machine.execDripSelftestDone pass s
  | .fullSelftestDone clustersPass hbmPass => Sys2Proof.Machine.execFullSelftestDone clustersPass hbmPass s
  | .hbmFillBlock group => Sys2Proof.Machine.execHbmFillBlock group s
  | .clusterGate cl => Sys2Proof.Machine.execClusterGate cl s
  | .clusterOff cl => Sys2Proof.Machine.execClusterOff cl s
  | .clusterWake cl => Sys2Proof.Machine.execClusterWake cl s
  | .clusterWakeDone cl => Sys2Proof.Machine.execClusterWakeDone cl s
  | .dtimeTick => Sys2Proof.Machine.execDtimeTick s
  | .unitHeartbeat cls unit => Sys2Proof.Machine.execUnitHeartbeat cls unit s
  | .rtpHeartbeat => Sys2Proof.Machine.execRtpHeartbeat s
  | .rtpRestart => Sys2Proof.Machine.execRtpRestart s
  | .entropyFail => Sys2Proof.Machine.execEntropyFail s
  | .smbReadState => Sys2Proof.Machine.execSmbReadState s
  | .smbReadVin => Sys2Proof.Machine.execSmbReadVin s
  | .smbReadIin => Sys2Proof.Machine.execSmbReadIin s
  | .smbReadPin => Sys2Proof.Machine.execSmbReadPin s
  | .smbReadEvt => Sys2Proof.Machine.execSmbReadEvt s
  | .smbReadCause => Sys2Proof.Machine.execSmbReadCause s
  | .smbSensorSelect n => Sys2Proof.Machine.execSmbSensorSelect n s
  | .smbReadTemp => Sys2Proof.Machine.execSmbReadTemp s
  | .tapIdcode => Sys2Proof.Machine.execTapIdcode s
  | .tapBypass => Sys2Proof.Machine.execTapBypass s
  | .barBadAccess fn why write => Sys2Proof.Machine.execBarBadAccess fn why write s
  | .regWrite fn bar4 off val => Sys2Proof.Machine.execRegWrite fn bar4 off val s
  | .counterLowRead fn off => Sys2Proof.Machine.execCounterLowRead fn off s
  | .mxCtrClr core => Sys2Proof.Machine.execMxCtrClr core s
  | .vxCtrClr core => Sys2Proof.Machine.execVxCtrClr core s
  | .pgCtrClr cl => Sys2Proof.Machine.execPgCtrClr cl s
  | .gxCtrClr cl => Sys2Proof.Machine.execGxCtrClr cl s
  | .memCtrClr ofCore unit => Sys2Proof.Machine.execMemCtrClr ofCore unit s
  | .spnCtrClr pid => Sys2Proof.Machine.execSpnCtrClr pid s
  | .gcClr => Sys2Proof.Machine.execGcClr s
  | .rdcClr ch => Sys2Proof.Machine.execRdcClr ch s
  | .fnAccerrClr => Sys2Proof.Machine.execFnAccerrClr s
  | .vfAccerrClr v => Sys2Proof.Machine.execVfAccerrClr v s
  | .sqEnable ctx val => Sys2Proof.Machine.execSqEnable ctx val s
  | .sqDisable ctx val => Sys2Proof.Machine.execSqDisable ctx val s
  | .cqEnable ctx val => Sys2Proof.Machine.execCqEnable ctx val s
  | .cqDisable ctx val => Sys2Proof.Machine.execCqDisable ctx val s
  | .ctxCrecWrite fn ctx val => Sys2Proof.Machine.execCtxCrecWrite fn ctx val s
  | .sqTail fn ctx val => Sys2Proof.Machine.execSqTail fn ctx val s
  | .cqHead fn ctx val => Sys2Proof.Machine.execCqHead fn ctx val s
  | .sqFetch ctx entry => Sys2Proof.Machine.execSqFetch ctx entry s
  | .hostReadFail ctx use err => Sys2Proof.Machine.execHostReadFail ctx use err s
  | .submissionComplete ctx seq => Sys2Proof.Machine.execSubmissionComplete ctx seq s
  | .cqModerationTimer ctx => Sys2Proof.Machine.execCqModerationTimer ctx s
  | .nop ctx seq => Sys2Proof.Machine.execNop ctx seq s
  | .run ctx seq input => Sys2Proof.Machine.execRun ctx seq input s
  | .runDispatch ctx seq => Sys2Proof.Machine.execRunDispatch ctx seq s
  | .runEnd ctx seq => Sys2Proof.Machine.execRunEnd ctx seq s
  | .copyin ctx seq data => Sys2Proof.Machine.execCopyin ctx seq data s
  | .copyout ctx seq => Sys2Proof.Machine.execCopyout ctx seq s
  | .loadimg ctx seq data => Sys2Proof.Machine.execLoadimg ctx seq data s
  | .unloadimg ctx seq => Sys2Proof.Machine.execUnloadimg ctx seq s
  | .admission ctx seq => Sys2Proof.Machine.execAdmission ctx seq s
  | .commit ctx seq data => Sys2Proof.Machine.execCommit ctx seq data s
  | .groupStage pid => Sys2Proof.Machine.execGroupStage pid s
  | .commitDrainStart pid => Sys2Proof.Machine.execCommitDrainStart pid s
  | .commitPoint pid => Sys2Proof.Machine.execCommitPoint pid s
  | .commitDrainTimeout pid => Sys2Proof.Machine.execCommitDrainTimeout pid s
  | .periodClose pid slot entry => Sys2Proof.Machine.execPeriodClose pid slot entry s
  | .budgetOverrun ctx cls unit => Sys2Proof.Machine.execBudgetOverrun ctx cls unit s
  | .commandStart core ctx env => Sys2Proof.Machine.execCommandStart core ctx env s
  | .commandComplete core ctx opc => Sys2Proof.Machine.execCommandComplete core ctx opc s
  | .unitSchedule cls unit => Sys2Proof.Machine.execUnitSchedule cls unit s
  | .controlCoreException core ctx exc addr => Sys2Proof.Machine.execControlCoreException core ctx exc addr s
  | .mxmul core ctx p => Sys2Proof.Machine.execMxmul core ctx p s
  | .mxtamp core ctx p => Sys2Proof.Machine.execMxtamp core ctx p s
  | .drcvt core ctx p => Sys2Proof.Machine.execDrcvt core ctx p s
  | .drred core ctx p => Sys2Proof.Machine.execDrred core ctx p s
  | .drsplit core ctx p => Sys2Proof.Machine.execDrsplit core ctx p s
  | .drrsld core ctx p => Sys2Proof.Machine.execDrrsld core ctx p s
  | .grpass core ctx p => Sys2Proof.Machine.execGrpass core ctx p s
  | .vew core ctx p => Sys2Proof.Machine.execVew core ctx p s
  | .vrow core ctx p => Sys2Proof.Machine.execVrow core ctx p s
  | .vsf core ctx p => Sys2Proof.Machine.execVsf core ctx p s
  | .vtld core ctx p => Sys2Proof.Machine.execVtld core ctx p s
  | .vsmax core ctx p => Sys2Proof.Machine.execVsmax core ctx p s
  | .vnorm core ctx p => Sys2Proof.Machine.execVnorm core ctx p s
  | .gtroute core ctx p => Sys2Proof.Machine.execGtroute core ctx p s
  | .combineRow cl => Sys2Proof.Machine.execCombineRow cl s
  | .cmbfin core ctx p => Sys2Proof.Machine.execCmbfin core ctx p s
  | .pourRow cl => Sys2Proof.Machine.execPourRow cl s
  | .pageSeal cl => Sys2Proof.Machine.execPageSeal cl s
  | .pginit core ctx p => Sys2Proof.Machine.execPginit core ctx p s
  | .pgpush core ctx p => Sys2Proof.Machine.execPgpush core ctx p s
  | .pggath core ctx p => Sys2Proof.Machine.execPggath core ctx p s
  | .pgrels core ctx p => Sys2Proof.Machine.execPgrels core ctx p s
  | .kvscan core ctx p => Sys2Proof.Machine.execKvscan core ctx p s
  | .dmcopy core ctx p => Sys2Proof.Machine.execDmcopy core ctx p s
  | .spcopy core ctx p => Sys2Proof.Machine.execSpcopy core ctx p s
  | .spatom core ctx p => Sys2Proof.Machine.execSpatom core ctx p s
  | .spfence core ctx p => Sys2Proof.Machine.execSpfence core ctx p s
  | .cgsubmit core ctx p => Sys2Proof.Machine.execCgsubmit core ctx p s
  | .rdpost core ctx p => Sys2Proof.Machine.execRdpost core ctx p s
  | .ccRemoteLoad core ctx gaddr log2n => Sys2Proof.Machine.execCcRemoteLoad core ctx gaddr log2n s
  | .ccRemoteStore core ctx gaddr log2n val => Sys2Proof.Machine.execCcRemoteStore core ctx gaddr log2n val s
  | .ccRemoteAdd core ctx op gaddr val => Sys2Proof.Machine.execCcRemoteAdd core ctx op gaddr val s
  | .starveLimit ofCore unit waited => Sys2Proof.Machine.execStarveLimit ofCore unit waited s
  | .hbmCreditGrant group => Sys2Proof.Machine.execHbmCreditGrant group s
  | .imbWindowEnd pid => Sys2Proof.Machine.execImbWindowEnd pid s
  | .patrolScrub group find => Sys2Proof.Machine.execPatrolScrub group find s
  | .scrubZero group row => Sys2Proof.Machine.execScrubZero group row s
  | .portEnable port val => Sys2Proof.Machine.execPortEnable port val s
  | .portDisable port val => Sys2Proof.Machine.execPortDisable port val s
  | .portTrained port low high => Sys2Proof.Machine.execPortTrained port low high s
  | .linkDown port => Sys2Proof.Machine.execLinkDown port s
  | .flitReceive port f => Sys2Proof.Machine.execFlitReceive port f s
  | .nakReplay port seq => Sys2Proof.Machine.execNakReplay port seq s
  | .init port vc credits => Sys2Proof.Machine.execInit port vc credits s
  | .marker port id => Sys2Proof.Machine.execMarker port id s
  | .echo port id ackseq => Sys2Proof.Machine.execEcho port id ackseq s
  | .echoTimeout port => Sys2Proof.Machine.execEchoTimeout port s
  | .rd port k => Sys2Proof.Machine.execRd port k s
  | .wr port k => Sys2Proof.Machine.execWr port k s
  | .fadd port k => Sys2Proof.Machine.execFadd port k s
  | .iadd32 port k => Sys2Proof.Machine.execIadd32 port k s
  | .iadd64 port k => Sys2Proof.Machine.execIadd64 port k s
  | .rdrsp port k => Sys2Proof.Machine.execRdrsp port k s
  | .ack port k => Sys2Proof.Machine.execAck port k s
  | .spanBadPacket port opc => Sys2Proof.Machine.execSpanBadPacket port opc s
  | .spanReqTimeout tag => Sys2Proof.Machine.execSpanReqTimeout tag s
  | .windowPortTimeout pid win => Sys2Proof.Machine.execWindowPortTimeout pid win s
  | .announceTimer port => Sys2Proof.Machine.execAnnounceTimer port s
  | .assign seq authentic modnum gen => Sys2Proof.Machine.execAssign seq authentic modnum gen s
  | .peerNotice seq authentic kind modnum pid epoch => Sys2Proof.Machine.execPeerNotice seq authentic kind modnum pid epoch s
  | .query seq authentic => Sys2Proof.Machine.execQuery seq authentic s
  | .noticeAck authentic opc seq => Sys2Proof.Machine.execNoticeAck authentic opc seq s
  | .noticeResend => Sys2Proof.Machine.execNoticeResend s
  | .sessFrag attempt index count data => Sys2Proof.Machine.execSessFrag attempt index count data s
  | .bucketStart ch => Sys2Proof.Machine.execBucketStart ch s
  | .bucketPhase2 ch => Sys2Proof.Machine.execBucketPhase2 ch s
  | .homeSumDone ch => Sys2Proof.Machine.execHomeSumDone ch s
  | .bucketComplete ch => Sys2Proof.Machine.execBucketComplete ch s
  | .rdmax k => Sys2Proof.Machine.execRdmax k s
  | .rdpart k => Sys2Proof.Machine.execRdpart k s
  | .rdpair k => Sys2Proof.Machine.execRdpair k s
  | .rddone k => Sys2Proof.Machine.execRddone k s
  | .rdres k => Sys2Proof.Machine.execRdres k s
  | .rdcTimeout ch => Sys2Proof.Machine.execRdcTimeout ch s
  | .partCreate body => Sys2Proof.Machine.execPartCreate body s
  | .partSeal body => Sys2Proof.Machine.execPartSeal body s
  | .partDestroy body => Sys2Proof.Machine.execPartDestroy body s
  | .getCerts fn body => Sys2Proof.Machine.execGetCerts fn body s
  | .getReport fn body => Sys2Proof.Machine.execGetReport fn body s
  | .bkeySet fn body => Sys2Proof.Machine.execBkeySet fn body s
  | .fwWrite fn body => Sys2Proof.Machine.execFwWrite fn body s
  | .fwActivate fn body => Sys2Proof.Machine.execFwActivate fn body s
  | .svnCommit fn body burnOk => Sys2Proof.Machine.execSvnCommit fn body burnOk s
  | .dbgChallenge fn body => Sys2Proof.Machine.execDbgChallenge fn body s
  | .dbgUnlock fn body => Sys2Proof.Machine.execDbgUnlock fn body s
  | .fmrootSet fn body => Sys2Proof.Machine.execFmrootSet fn body s
  | .crashDump fn body => Sys2Proof.Machine.execCrashDump fn body s
  | .crashUnitTimeout cls unit => Sys2Proof.Machine.execCrashUnitTimeout cls unit s
  | .crashRead fn body => Sys2Proof.Machine.execCrashRead fn body s
  | .getVersion fn => Sys2Proof.Machine.execGetVersion fn s
  | .getCapabilities fn => Sys2Proof.Machine.execGetCapabilities fn s
  | .negotiateAlgorithms fn => Sys2Proof.Machine.execNegotiateAlgorithms fn s
  | .getDigests fn => Sys2Proof.Machine.execGetDigests fn s
  | .getCertificate fn offset length => Sys2Proof.Machine.execGetCertificate fn offset length s
  | .challenge fn nonce => Sys2Proof.Machine.execChallenge fn nonce s
  | .getMeasurements fn nonce => Sys2Proof.Machine.execGetMeasurements fn nonce s
  | .lwKex fn x25519 kem nonce => Sys2Proof.Machine.execLwKex fn x25519 kem nonce s
  | .finish fn verify => Sys2Proof.Machine.execFinish fn verify s
  | .keyUpdate fn => Sys2Proof.Machine.execKeyUpdate fn s
  | .heartbeat fn => Sys2Proof.Machine.execHeartbeat fn s
  | .endSession fn => Sys2Proof.Machine.execEndSession fn s
  | .sessionHeartbeatMiss fn => Sys2Proof.Machine.execSessionHeartbeatMiss fn s
  | .ideQuery fn => Sys2Proof.Machine.execIdeQuery fn s
  | .keyProg fn sub set key => Sys2Proof.Machine.execKeyProg fn sub set key s
  | .kSetGo fn sub set => Sys2Proof.Machine.execKSetGo fn sub set s
  | .kSetStop fn sub set => Sys2Proof.Machine.execKSetStop fn sub set s
  | .ideCheckFail fn => Sys2Proof.Machine.execIdeCheckFail fn s
  | .ctxRst ctx => Sys2Proof.Machine.execCtxRst ctx s
  | .ctxResetDrained ctx => Sys2Proof.Machine.execCtxResetDrained ctx s
  | .ctxResetEscalate ctx => Sys2Proof.Machine.execCtxResetEscalate ctx s
  | .rcvPrst pid => Sys2Proof.Machine.execRcvPrst pid s
  | .partResetDrained pid => Sys2Proof.Machine.execPartResetDrained pid s
  | .partResetDomainReset pid => Sys2Proof.Machine.execPartResetDomainReset pid s
  | .watchdogFire q => Sys2Proof.Machine.execWatchdogFire q s
  | .unitUnresponsive cls unit => Sys2Proof.Machine.execUnitUnresponsive cls unit s
  | .haltreq ctx => Sys2Proof.Machine.execHaltreq ctx s
  | .resume ctx => Sys2Proof.Machine.execResume ctx s
  | .step ctx => Sys2Proof.Machine.execStep ctx s
  | .breakpointMatch ctx core cmp pc => Sys2Proof.Machine.execBreakpointMatch ctx core cmp pc s
  | .haltDrained ctx pcs => Sys2Proof.Machine.execHaltDrained ctx pcs s
  | .snpTrig scope => Sys2Proof.Machine.execSnpTrig scope s
  | .snapshotTick scope => Sys2Proof.Machine.execSnapshotTick scope s
  | .snapshotReadoutDone scope unreachable => Sys2Proof.Machine.execSnapshotReadoutDone scope unreachable s
  | .crmArm ofCore unit tap val => Sys2Proof.Machine.execCrmArm ofCore unit tap val s
  | .crmDisarm ofCore unit tap val => Sys2Proof.Machine.execCrmDisarm ofCore unit tap val s
  | .dumpFire pid entry => Sys2Proof.Machine.execDumpFire pid entry s
  | .dumpComplete pid => Sys2Proof.Machine.execDumpComplete pid s
  | .fastSourceEnd src => Sys2Proof.Machine.execFastSourceEnd src s
  | .leakClear => Sys2Proof.Machine.execLeakClear s
  | .spanTagRelease tag => Sys2Proof.Machine.execSpanTagRelease tag s
  | .destroyTeardownDrained pid => Sys2Proof.Machine.execDestroyTeardownDrained pid s
  | .pfReady => Sys2Proof.Machine.execPfReady s
  | .mbUnknownCode fn code body => Sys2Proof.Machine.execMbUnknownCode fn code body s

end Sys2Proof.Machine
end

