-- ==== Sys2Proof/Safety.lean ====
section
/-! DEFINITION. What a sound state is, and the words the statements use. -/

namespace Sys2Proof.Machine

/-- Memory and the register space are in canonical form, and the AO tick phase is one of twelve (15 R467). -/
def State.Sound (s : State) : Prop :=
  Memory.wf s.mem = true ∧ Regs.wf s.regs = true ∧ s.time.phase < 12

/-- Every register but those listed reads as before. -/
def State.regsBut (ks : List Nat) (s t : State) : Prop := ∀ k, k ∉ ks → getR t k = getR s k

/-- One register has counted one event, and every other reads as before. -/
def State.countedOnce (s : State) (k : Nat) (t : State) : Prop := getR t k = sat32Add (getR s k) 1 ∧ s.regsBut [k] t

/-- The VIN rails are down and what they supplied is gone (16 R476): memories, engines, rings, links and every partition; the epochs,
the always-on domain and the RTP stay. -/
def State.railsLost (s t : State) : Prop :=
  t.mem = [] ∧ t.eng = {} ∧ t.jobs = {} ∧ t.red = [] ∧ t.span.links = [] ∧ t.pwr.rails = 0 ∧ t.pwr.pwrgd = false ∧
  (∀ p < 32, partState t p = 0) ∧ (∀ p < 32, getR t (kPart p 0x1000) = getR s (kPart p 0x1000)) ∧
  (∀ c < 1024, bit (getR t (kCtx c 8)) 31 = false) ∧ t.time = s.time ∧ t.sec.ready = s.sec.ready ∧ t.bus = s.bus

/-- A write of register `k` through the PF view reaches it: it is there, not masked, and in service (18 R519, 12 R380, 16 R493). -/
def State.pfReaches (s : State) (k : Nat) : Prop := regAbsent s k = false ∧ regMasked s 0 k = false ∧ regUnready s k = false

/-- A command answers a state in which the registers listed are 0 and nothing else has changed. -/
def State.clearedBy (s : State) (i : Instr) (ks : List Nat) : Prop :=
  ∃ t, exec i s = .next t ∧ t = { s with regs := t.regs } ∧ (∀ k ∈ ks, getR t k = 0) ∧ s.regsBut ks t

/-- The rings of every other context are as before. -/
def State.ringsBut (s : State) (c : Nat) (t : State) : Prop := ∀ d, d ≠ c → ringOf t d = ringOf s d

/-- Registers that count traffic or corrected errors, or watch writes, which any memory access may advance: the die-link and host-link
counters (15 R450), the blocks still to fill (16 R496), corrected errors of a partition, a stack and the device (08 R237; 14 R422; 18 R522), a
partition's HBM units (08 R242), the results of crema taps (15 R457). -/
def isTally (k : Nat) : Bool :=
  decide (0x800 ≤ k ∧ k < 0x860) || decide (k = 0x12C ∨ k = 0x86C) || decide (0x3000 ≤ k ∧ k < 0x3200 ∧ k % 0x20 = 0) ||
  decide (0x100000 ≤ k ∧ k < 0x180000 ∧ (k % 0x4000 = 0x120 ∨ k % 0x4000 = 0x240 ∨ k % 0x4000 = 0x244 ∨ k % 0x4000 = 0x250)) ||
  decide (0x200000 ≤ k ∧ k < 0x220000 ∧ 0x10C ≤ k % 0x1000 ∧ k % 0x1000 < 0x200) ||
  decide (0x400000 ≤ k ∧ k < 0x600000 ∧ 0x20C ≤ k % 0x1000 ∧ k % 0x1000 < 0x300)

/-- What accesses do beside moving bytes and advancing tallies: the budgets of 11 R351, the imbalance windows and the queues of the channel groups
(08 R232-R235), blocks filled early (16 R496), error marks of places written over or corrected, each correction logged and told to the PF (14 R425). -/
def State.besides (s t : State) : Prop :=
  t.jobs = { s.jobs with budgets := t.jobs.budgets } ∧ t.pwr = { s.pwr with early := t.pwr.early } ∧
  (∃ l, t.sec = { s.sec with log := s.sec.log ++ l } ∧ t.host = s.host ++ List.replicate l.length (.msi 0 0)) ∧
  (∀ u, u ∈ t.hbm.ue → u ∈ s.hbm.ue) ∧ (∀ u, u ∈ t.hbm.ce → u ∈ s.hbm.ce) ∧ (∀ u, u ∈ t.hbm.sramUe → u ∈ s.hbm.sramUe) ∧
  (∀ u, u ∈ t.hbm.sramCe → u ∈ s.hbm.sramCe) ∧
  t.hbm = { s.hbm with ue := t.hbm.ue, ce := t.hbm.ce, sramUe := t.hbm.sramUe, sramCe := t.hbm.sramCe, win := t.hbm.win, occ := t.hbm.occ
                       waits := t.hbm.waits, hot := t.hbm.hot }

/-- Nothing but memory accesses happened: memory, and what counts, watches or accompanies accesses. -/
def State.onlyAccesses (s t : State) : Prop :=
  t = { s with regs := t.regs, mem := t.mem, jobs := t.jobs, hbm := t.hbm, free := t.free, pwr := t.pwr, sec := t.sec, host := t.host } ∧
  s.besides t ∧ ∀ k, isTally k = false → getR t k = getR s k

/-- A master may read the run of bytes, and none of its transfers fails: no uncorrectable error stands there, no CRC-32C mismatch (08 R221, R238;
14 R422, R423). -/
def State.mayRead (s : State) (w : Who) (a n : Nat) : Prop :=
  refusal s w true false false a n = none ∧ errAt s false (keysOf s w.pid a n) = none

/-- A master may write the run of bytes, and none of its transfers fails. -/
def State.mayWrite (s : State) (w : Who) (a n : Nat) : Prop :=
  refusal s w false true false a n = none ∧ errAt s true (keysOf s w.pid a n) = none

/-- Every byte of memory outside the places listed reads as before. -/
def State.memBut (s : State) (ks : List Nat) (t : State) : Prop := ∀ m k, k ∉ ks → memByte m t k = memByte m s k

/-- The state once `n` bytes of a submission's input have been read from host memory (10 R289). -/
def State.hasRead (s : State) (c addr n : Nat) : State := if n = 0 then s else hostRead c addr n s

/-- A submission is now `x`, and every other one is as it was. -/
def State.subNow (s : State) (c q : Nat) (x : Sub) (t : State) : Prop :=
  findSub t c q = some x ∧ ∀ d r, d ≠ c ∨ r ≠ q → findSub t d r = findSub s d r

/-- Registers the engines themselves advance or show besides: counters, status and activity of a cluster's and of a core's blocks (03 R90, 05
R152, 06 R188, 07 R211, 08 R241). -/
def isWork (k : Nat) : Bool :=
  isTally k || decide (0x200000 ≤ k ∧ k < 0x220000 ∧ k % 0x1000 < 0x100) || decide (0x400000 ≤ k ∧ k < 0x600000 ∧ k % 0x1000 < 0x140)

/-- A command has done its work: it waits for its completion with its status word, and nothing has changed but memory at the places `ks`,
the registers `rs`, what accesses and engines advance, and the engines. -/
def State.didWork (s : State) (m : EngCmd) (p : Pay) (st : Word) (ks rs : List Nat) (t : State) : Prop :=
  t = { s with regs := t.regs, mem := t.mem, eng := t.eng, jobs := t.jobs, hbm := t.hbm, free := t.free, pwr := t.pwr, sec := t.sec, host := t.host } ∧
  s.besides t ∧
  (∃ x ∈ t.eng.cmds, x.core = m.core ∧ x.ctx = m.ctx ∧ x.cseq = m.cseq ∧ x.env = m.env ∧ x.pay = some p ∧ x.status = st) ∧
  (∀ k, isWork k = false → k ∉ rs → getR t k = getR s k) ∧ s.memBut ks t

/-- A master may read, or write, each of `m` rows of `n` bytes, `st` bytes apart. -/
def State.mayReadRows (s : State) (w : Who) (a st m n : Nat) : Prop := ∀ i < m, s.mayRead w (a + i * st) n
def State.mayWriteRows (s : State) (w : Who) (a st m n : Nat) : Prop := ∀ i < m, s.mayWrite w (a + i * st) n

/-- The bytes of such rows. -/
def rowKeys (s : State) (p a st m n : Nat) : List Nat := (rangeFrom 0 m).flatMap fun i => keysOf s p (a + i * st) n

/-- A master may write `m` output rows of `n` elements in a form, elements and scales (04 R99, 05 R122). -/
def State.mayOut (s : State) (w : Who) (o : OutForm) (m n : Nat) : Prop :=
  s.mayWriteRows w o.addr o.stride m (rowBytes o.fmt n) ∧ s.mayWriteRows w o.saddr o.sstride m (scaleBytes o.lay n)

/-- The bytes of such rows. -/
def outKeys (s : State) (p : Nat) (o : OutForm) (m n : Nat) : List Nat :=
  rowKeys s p o.addr o.stride m (rowBytes o.fmt n) ++ rowKeys s p o.saddr o.sstride m (scaleBytes o.lay n)

/-- The base of a master's share in its core's scratchpad, or in its cluster's memory (08 R222). -/
def State.memShare (s : State) (w : Who) (core : Nat) (cluster : Bool) : Option Nat :=
  if cluster then shareOf s w (cmBase (clOf core)) cmSize else shareOf s w (spBase core) spSize

/-- The command of an opcode that a context issued first on a core, and that has work to do, is `m`, it runs, and its unit serves its context
(10 R316; 11 R348). -/
def State.runs (s : State) (core ctx opc : Nat) (m : EngCmd) : Prop := findCmd s core ctx opc = some m ∧ m.running = true ∧ cmdTurn s m = true

/-- The columns of a matrix command whose B operand a core holds (03 R66). -/
def Mx.colsOn (c : Mx) (n : Nat) : Nat :=
  let own := (c.arrays.filter fun (x, _) => x == c.core).length * c.w
  if n = c.core then min c.n own else c.n - own

/-- The cores and arrays of a matrix command's group, with their places in it (03 R66). -/
def Mx.places (c : Mx) : List (Nat × Nat × Nat) := (rangeFrom 0 c.arrays.length).zip c.arrays

/-- Every access of one problem of a matrix command is granted (03 R77-R81, 04 R112; 08 R221): A rows in the issuing core's share at `b`, the
smoothing factors, B columns in each core's share, the rows and real columns of the accumulator region of each array. -/
def State.mayProb (s : State) (ctx : Nat) (c : Mx) (q : Prob) (b : Nat) : Prop :=
  (match c.grind with
   | none => s.mayReadRows (whoFeed s c.core ctx) (b + q.a) c.astr q.m (rowBytes c.afmt c.k) ∧
       s.mayReadRows (whoFeed s c.core ctx) (b + q.sa) c.asstr q.m (scaleBytes c.alay c.k)
   | some g => s.mayReadRows (whoFeed s c.core ctx) (b + q.a) c.astr q.m (rowBytes g.ifmt c.k) ∧
       (g.smooth = true → s.mayRead (whoFeed s c.core ctx) (b + g.table) (4 * c.k))) ∧
  ∀ j n a, (j, n, a) ∈ c.places →
    (∃ bn, s.memShare (whoFeed s n ctx) n false = some bn ∧
      s.mayReadRows (whoFeed s n ctx) (bn + q.b) c.bstr (c.colsOn n) (rowBytes c.bfmt c.k) ∧
      s.mayReadRows (whoFeed s n ctx) (bn + q.sb) c.bsstr (c.colsOn n) (scaleBytes c.blay c.k)) ∧
    (∃ ba, shareOf s (whoDrain s n ctx) (accBase n a) accSize = some ba ∧
      s.mayWriteRows (whoDrain s n ctx) (ba + q.accb * 1024) (4 * c.w) q.m (4 * c.colsAt j) ∧
      (c.acci = 1 → s.mayReadRows (whoDrain s n ctx) (ba + q.accb * 1024) (4 * c.w) q.m (4 * c.colsAt j)))

/-- The accumulator bytes a problem writes: its rows and real columns (03 R77, R81). -/
def probKeys (s : State) (ctx : Nat) (c : Mx) (q : Prob) : List Nat :=
  c.places.flatMap fun (j, n, a) => match shareOf s (whoDrain s n ctx) (accBase n a) accSize with
    | some ba => rowKeys s (ctxPid s ctx) (ba + q.accb * 1024) (4 * c.w) q.m (4 * c.colsAt j)
    | none => []

/-- The accumulator entries of rows, given as region and row, in the columns given as core, array, first column and count, are readable
(04 R97, R99). -/
def State.mayAcc (s : State) (ctx w : Nat) (cols : List (Nat × Nat × Nat × Nat)) (rows : List (Nat × Nat)) : Prop :=
  ∀ c a n0 n, (c, a, n0, n) ∈ cols → ∃ ba, shareOf s (whoDrain s c ctx) (accBase c a) accSize = some ba ∧
    ∀ b i, (b, i) ∈ rows → s.mayRead (whoDrain s c ctx) (ba + b * 1024 + i * w * 4) (4 * n)

/-- The rows a DRCVT covers, each as group tag, region and row (04 R98, R99): its own, or those of its group table, which it may read. -/
def State.covers (s : State) (ctx : Nat) (c : Cvt) (p : Pay) (rows : List (Nat × Nat × Nat)) : Prop :=
  (c.tamp = false → rows = (rangeFrom 0 c.m).map fun k => (0, c.accb, k)) ∧
  (c.tamp = true → ∃ (b : Nat) (es : List (List Byte)), s.memShare (whoDrain s c.core ctx) c.core false = some b ∧ es.length = c.gcount ∧
    (∀ i e, es[i]? = some e → s.mayRead (whoDrain s c.core ctx) (b + pf p 6 31 17 * 64 + 16 * i) 16 ∧
      e = rawRead s (ctxPid s ctx) (b + pf p 6 31 17 * 64 + 16 * i) 16 ∧ regionEnd c.w (entryProb e) ≤ 131072) ∧
    rows = es.flatMap fun e => (rangeFrom 0 (entryProb e).m).map fun k => (leAt e 14 2, (entryProb e).accb, k))

/-- Where a DRCVT to memory writes, in a share at `b` (04 R99). -/
def Cvt.place (c : Cvt) (p : Pay) (b : Nat) : OutForm :=
  { fmt := c.ofmt, lay := c.olay, satm := false, strict := false, sr := .near, tx := none, addr := b + pf p 2 31 13 * 64
    stride := pf p 2 12 2 * 64, saddr := b + pf p 3 31 11 * 16, sstride := pf p 3 10 0 * 16 }

/-- The places a gather writes, as address and length (06 R179, R180). -/
def Gather.places (g : Gather) : List (Nat × Nat) :=
  (rangeFrom 0 g.count).flatMap fun i =>
    (if g.parts.testBit 0 then [(g.k + 8192 * i, 8192)] else []) ++ (if g.parts.testBit 1 then [(g.ks + 1024 * i, 1024)] else []) ++
    (if g.parts.testBit 2 then (rangeFrom 0 128).map fun d => (g.v + d * g.count * 64 + 64 * i, 64) else []) ++
    (if g.parts.testBit 3 then [(g.r + 256 * i, 256)] else []) ++ (if g.parts.testBit 4 then [(g.r + 256 * g.count + 256 * i, 256)] else [])

/-- A stream of a context that its page engine serves and may read (06 R163). -/
def State.streamIs (s : State) (w : Who) (st : Nat) (e : StreamEnt) : Prop :=
  s.mayRead w (streamAddr s w.ctx st) 32 ∧ e = streamOf (rawRead s w.pid (streamAddr s w.ctx st) 32)

/-- A page's entry and summary may be written and its entry read (06 R164, R165). -/
def State.pageOpen (s : State) (w : Who) (e : StreamEnt) (i : Nat) : Prop :=
  s.mayRead w (e.plbase + 32 * i) 32 ∧ s.mayWrite w (e.plbase + 32 * i) 32 ∧ s.mayWrite w (e.smbase + 144 * i + 140) 4

/-- The bytes of them. -/
def pageKeys (s : State) (w : Who) (e : StreamEnt) (l : List Nat) : List Nat :=
  l.flatMap fun i => keysOf s w.pid (e.plbase + 32 * i) 32 ++ keysOf s w.pid (e.smbase + 144 * i + 140) 4

/-- The free list takes `n` more frames (06 R168, R178). -/
def State.listTakes (s : State) (ctx n : Nat) : Prop :=
  kvFlcnt s ctx + n ≤ kvFlcap s ctx ∧ ∀ i < n, s.mayWrite (whoPage s (kvHome s ctx) ctx) (kvBase s ctx 0x78 + 4 * (kvFlcnt s ctx + i)) 4

/-- Its bytes for them. -/
def listKeys (s : State) (ctx n : Nat) : List Nat :=
  (rangeFrom 0 n).flatMap fun i => keysOf s (ctxPid s ctx) (kvBase s ctx 0x78 + 4 * (kvFlcnt s ctx + i)) 4

/-- A target of a dispatch (07 R199): whether it is one, its core, the index of its group table entry, the entry's address in a share at `tb`. -/
def tgtOn (d : List Byte) : Bool := bit (BitVec.ofNat 32 (leAt d 4 4) : Word) 22
def tgtCore (d : List Byte) : Nat := fld (BitVec.ofNat 32 (leAt d 4 4) : Word) 31 23
def tgtIdx (d : List Byte) : Nat := fld (BitVec.ofNat 32 (leAt d 0 4) : Word) 16 6
def tgtEntry (tb : Nat) (d : List Byte) : Nat := tb + fld (BitVec.ofNat 32 (leAt d 0 4) : Word) 31 17 * 64 + 16 * tgtIdx d

/-- A dispatch to a target is granted for the first `m` token rows and the first `cap` rows of the group (07 R198, R199): its core is the
partition's, its entry stands, whatever `k` bytes the dispatch writes, and the rows it may copy are readable and writable. -/
def State.mayFill (s : State) (w : Who) (p : Pay) (b m cap : Nat) (K : List Nat) (d : List Byte) : Prop :=
  bit (clMask s (ctxPid s w.ctx)) (clOf (tgtCore d)) = true ∧ tgtIdx d ≤ 2046 ∧
  ∃ tb q, shareOf s w (spBase (tgtCore d)) spSize = some tb ∧ q = entryProb (rawRead s w.pid (tgtEntry tb d) 16) ∧
    s.mayRead w (tgtEntry tb d) 16 ∧ s.mayWrite w (tgtEntry tb d) 4 ∧ (∀ k ∈ keysOf s w.pid (tgtEntry tb d) 16, k ∉ K) ∧
    (∀ t < m, s.mayRead w (b + pf p 6 31 13 * 64 + t * pf p 6 12 2 * 64) (pf p 4 12 0 * 64) ∧
      (pf p 3 12 0 ≠ 0 → s.mayRead w (b + pf p 7 31 11 * 16 + t * pf p 7 10 0 * 16) (pf p 3 12 0 * 16))) ∧
    ∀ r < cap, s.mayWrite w (tb + q.a + r * fld (BitVec.ofNat 32 (leAt d 4 4) : Word) 21 11 * 64) (pf p 4 12 0 * 64) ∧
      (∀ k ∈ keysOf s w.pid (tb + q.a + r * fld (BitVec.ofNat 32 (leAt d 4 4) : Word) 21 11 * 64) (pf p 4 12 0 * 64), k ∈ K) ∧
      (pf p 3 12 0 ≠ 0 →
        s.mayWrite w (tb + q.sa + r * fld (BitVec.ofNat 32 (leAt d 4 4) : Word) 10 0 * 16) (pf p 3 12 0 * 16) ∧
        ∀ k ∈ keysOf s w.pid (tb + q.sa + r * fld (BitVec.ofNat 32 (leAt d 4 4) : Word) 10 0 * 16) (pf p 3 12 0 * 16), k ∈ K)

/-- The count words of targets. -/
def State.tgtKeys (s : State) (w : Who) (d : List Byte) : List Nat :=
  match shareOf s w (spBase (tgtCore d)) spSize with | some tb => keysOf s w.pid (tgtEntry tb d) 4 | none => []

/-- The targets of a dispatch for `n` experts. -/
def State.targets (s : State) (w : Who) (p : Pay) (b n : Nat) : List (List Byte) :=
  ((rangeFrom 0 n).flatMap fun x => chunks 8 32 (rawRead s w.pid (b + pf p 5 31 13 * 64 + 32 * x) 32)).filter tgtOn

/-- What routing token rows one after another comes to, from counts of the experts' groups: choices dispatched, choices dropped, flags (07
R193-R195, R197). -/
def routeAll (e : LayerEnt) (strict : Bool) : List (List Word) → List Nat → Nat × Nat × Nat
  | [], _ => (0, 0, 0)
  | row :: rest, cs =>
    let x := routeRow e row cs
    let y := routeAll e strict rest x.2
    let kept := (x.1.choices.filter fun c => c.row.isSome).length
    (kept + y.1, x.1.choices.length - kept + y.2.1,
      (weights e strict x.1.choices).2 ||| (if x.1.nansc then flNAN else 0) ||| y.2.2)

/-- Outside the engines and what accesses advance, nothing has changed but registers among `rs` and what sending on ports changes: tags,
requests that wait, links and what ports sent (09 R252, R265, R268). `n` more requests are outstanding or waiting. -/
def State.hasSent (s : State) (rs : List Nat) (n : Nat) (t : State) : Prop :=
  t = { s with regs := t.regs, eng := t.eng, jobs := t.jobs, hbm := t.hbm, free := t.free, pwr := t.pwr, sec := t.sec, host := t.host,
               span := { s.span with links := t.span.links, tags := t.span.tags, waits := t.span.waits, out := t.span.out } } ∧ s.besides t ∧
  (∀ k, isWork k = false → k ∉ rs → getR t k = getR s k) ∧
  t.span.tags.length + t.span.waits.length = s.span.tags.length + s.span.waits.length + n

/-- A command waits for its completion with its status word. -/
def State.hasDone (t : State) (m : EngCmd) (p : Pay) (st : Word) : Prop :=
  ∃ x ∈ t.eng.cmds, x.core = m.core ∧ x.ctx = m.ctx ∧ x.cseq = m.cseq ∧ x.env = m.env ∧ x.pay = some p ∧ x.status = st

/-- A reduction channel has worked: nothing has changed but the channel, memory at the places `ks`, registers among `rs`, what accesses
advance, and the links it sent on (13 R404, R405, R412). -/
def State.redWorked (s : State) (k : Nat) (ks rs : List Nat) (t : State) : Prop :=
  t = { s with regs := t.regs, mem := t.mem, jobs := t.jobs, hbm := t.hbm, free := t.free, pwr := t.pwr, sec := t.sec, host := t.host,
               red := t.red, span := { s.span with links := t.span.links, out := t.span.out } } ∧ s.besides t ∧
  (∀ j, j ≠ k → redOf t j = redOf s j) ∧ (∀ j, isWork j = false → j ∉ rs → getR t j = getR s j) ∧ s.memBut ks t

/-- A packet belongs to the current bucket of its channel and is accepted: it comes from another member of the bucket's table (13 R410, R415). -/
def State.redFor (s : State) (q : RedPkt) (b : Bucket) : Prop :=
  rdcValid s q.ch.toNat = true ∧ redAccept s q = true ∧ (redOf s q.ch.toNat).cur = some b ∧ forCur b q = true ∧ q.cfg.toNat = bdCfg b.desc ∧
  fromMember b.membs q.member.toNat q.smod.toNat q.spid.toNat q.sepoch.toNat = true ∧ q.member.toNat ≠ b.self

/-- A master may read and write 8 bytes of the working area for each element of a list (13 R405). -/
def State.mayAdd (s : State) (w : Who) (wk lo : Nat) (l : List Nat) : Prop :=
  ∀ i ∈ l, s.mayRead w (wk + 8 * (i - lo)) 8 ∧ s.mayWrite w (wk + 8 * (i - lo)) 8

/-- The bytes of such elements. -/
def addKeys (s : State) (p wk lo : Nat) (l : List Nat) : List Nat := l.flatMap fun i => keysOf s p (wk + 8 * (i - lo)) 8

/-- Contributions, each of another element, have been added into the working area's elements (13 R405). -/
def State.added (s : State) (p wk lo : Nat) (cs : List (Nat × Int)) (t : State) : Prop :=
  (addKeys s p wk lo (cs.map (·.1))).Nodup → ∀ c ∈ cs, rawRead t p (wk + 8 * (c.1 - lo)) 8 =
    intBytes 8 (signed 64 (leNat (rawRead s p (wk + 8 * (c.1 - lo)) 8)) + c.2)

/-- The bytes of a bucket's source elements (13 R412). -/
def bdSrcLen (d : List Byte) : Nat := if bdDi8 d then bdL d else 4 * bdL d

/-- Only the link of one port, and what ports sent, have changed (09 R249, R252). -/
def State.linkOnly (s : State) (P : Nat) (t : State) : Prop :=
  t = { s with span := { s.span with links := t.span.links, out := t.span.out } } ∧ ∀ Q, Q ≠ P → linkOf t Q = linkOf s Q

/-- A port has sent what may go: only its link, what ports sent, and what the accesses that waited for it change by leaving, have changed (09 R249,
R252, R268). -/
def State.linkSent (s : State) (P : Nat) (t : State) : Prop :=
  t = { s with regs := t.regs, free := t.free, jobs := { s.jobs with budgets := t.jobs.budgets }
               span := { s.span with links := t.span.links, out := t.span.out, tags := t.span.tags, waits := t.span.waits } } ∧
  (∀ Q, Q ≠ P → linkOf t Q = linkOf s Q) ∧ ((∀ x ∈ s.span.waits, x.port ≠ P) → s.linkOnly P t)

/-- A mailbox channel has no request with the RTP, and the RTP serves requests (18 R532, R533). -/
def State.mbOpen (s : State) (fn : Nat) : Prop := fn ≤ 32 ∧ mbBusy s fn = false ∧ (s.sec.ready || inRecovery s) = true

/-- The registers of a channel that a request writes. -/
def mbRegs (fn : Nat) : List Nat := [kMb fn 4, kMb fn 8, kMb fn 0xC]

/-- A channel has a reply: BUSY clear, DONE set, STATUS and CODE, the length and the body (18 R532). -/
def State.replied (t : State) (fn code status : Nat) (reply : List Byte) : Prop :=
  getR t (kMb fn 8) = BitVec.ofNat 32 (2 ^ 30 + status * 256 + code) ∧ getR t (kMb fn 0xC) = BitVec.ofNat 32 reply.length ∧
  (tabFind fn t.sec.bodies).getD [] = reply

/-- A tenant's session has ended with a cause: before RUN_IDE a new one is awaited; in RUN_IDE the partition is reset, in a new epoch
(12 R379, R398). -/
def State.sessEnds (s : State) (p cause : Nat) (h : List HostOut) (t : State) : Prop :=
  (conf s p = 5 → t = { s with regs := t.regs, parts := t.parts, host := h } ∧ conf t p = 4 ∧ getF t (kPart p 0x84) 7 0 = cause ∧
    partOf t p = { partOf s p with sess := false, kex := [], keys := [], go := [] } ∧ (∀ q, q ≠ p → partOf t q = partOf s q) ∧
    s.regsBut [kPart p 0x80, kPart p 0x84] t) ∧
  (conf s p = 6 → partState t p = 3 ∧ getF t (kPart p 0x84) 7 0 = cause ∧ epochOf t p = (epochOf s p + 1) % 65536)

/-- Nothing has changed but the mailbox of a function, told by its vector 0, and registers among `rs`. -/
def State.mailOnly (s : State) (fn : Nat) (rs : List Nat) (t : State) : Prop :=
  t = { s with regs := t.regs, sec := { s.sec with bodies := t.sec.bodies }, host := s.host ++ [.msi fn 0] } ∧ s.regsBut (mbRegs fn ++ rs) t

end Sys2Proof.Machine
end

