-- ==== Sys2Proof/Certificates/Slice0/Obligations.lean ====
section
/-! DEFINITION. The statements. A statement about commands says what state each of them answers, for every state and operands that meet its
premises, and what stays as it was. -/

open Sys2Proof Sys2Proof.Machine

/-- The block takes its commands in order: a step runs the command at the front of the queue on the rest of the queue; with no command
waiting it idles, and only what then strikes it (log 3, log 105: the model's choice) happens; with the rails down nothing does. -/
def Obligations.StepTakesTheFrontCommand : Prop :=
  (∀ (c : Instr) (r : List Instr) (s : State), step { s with pending := c :: r } = exec c { s with pending := r }) ∧
  (∀ s : State, step { s with pending := [] } = .next (strike { s with pending := [] })) ∧
  (∀ s : State, s.pwr.pwrgd = false → step { s with pending := [] } = .next { s with pending := [] })

/-- The state after reset is sound (00 R6, R467). -/
def Obligations.ResetIsSound : Prop :=
  State.reset.Sound

/-- Every step from a sound state leads to a sound state: memory and registers keep their canonical form, and DTIME's phase stays one of
twelve (15 R467). -/
def Obligations.EveryStepKeepsSound : Prop :=
  ∀ s t : State, s.Sound → step s = .next t → t.Sound

/-- No command ends a run, and none touches the queue of commands: each answers a next state whose queue is as it was. -/
def Obligations.EveryCommandCompletesAndLeavesTheQueue : Prop :=
  ∀ (i : Instr) (s : State), ∃ t, exec i s = .next t ∧ (s.Sound → t.pending = s.pending)

/-- VAUX_UP (15 R467, 17 R511, 09 R260): DTIME starts at 0, the straps are sampled, every epoch starts at a random 16-bit value.
BOOT_IMAGE_SELECT with VAUX present (12 R369, R399): the boot ROM's choice runs, or recovery is entered with its code, 0x03 when the fuses cannot
be read, which is a free value (log 8); memory, time and every register below the mailboxes but PWR_STATE, SEC_STATE and SEC_BOOTCODE are as before. -/
def Obligations.VauxUpAndBoot : Prop :=
  (∀ (straps : BitVec 2) (s : State), ∃ t, exec (.vauxUp straps) s = .next t ∧
    t = { s with time := {}, regs := t.regs, free := t.free,
                 pwr := { s.pwr with vaux := true, straps := straps.toNat, lowAt := if s.pwr.modEn then none else some 0 } } ∧
    now t = 0 ∧ (∀ p < 32, ∃ n, getR t (kPart p 0x1000) = BitVec.ofNat 32 ((Config.random n).toNat % 65536)) ∧
    getR t 0x400 = putFld (getR s 0x400) 7 0 s.sec.svnMin ∧
    s.regsBut (0x400 :: (rangeFrom 0 32).map fun p => kPart p 0x1000) t) ∧
  (∀ s : State, s.pwr.vaux = true → ∃ t, exec .bootImageSelect s = .next t ∧
    (match (if Config.fusesRead s.free then bootChoice s else .error 3) with
     | .ok b => t.sec.ready = true ∧ t.sec.hasImage = true ∧ t.sec.runDigest = fwDigest s b ∧ getF t 0x404 7 0 = 0 ∧
         getF t 0x400 30 30 = 0 ∧ getF t 0x400 29 29 = (if b then 1 else 0) ∧ getF t 0x400 15 8 = fwSvn s b % 256
     | .error c => t.sec.ready = false ∧ t.sec.hasImage = false ∧ getF t 0x404 7 0 = c % 256 ∧ getF t 0x400 30 30 = 1) ∧
    t.mem = s.mem ∧ t.jobs = s.jobs ∧ t.time = s.time ∧
    (∀ k < 0x5000000, k ≠ 0x100 → k ≠ 0x400 → k ≠ 0x404 → getR t k = getR s k))

/-- Bringing up (16 R474, R475, R492): with VAUX in range and the RTP ready, MOD_EN high and VIN at 38 V together start the rails and STATE
reads POWERING; while VIN is low the module waits. Each family that is good lets the next start; PWRGD rises with the third.
Powering down (16 R475, R476, R477; 17 R516): each event takes the VIN rails down with its cause; an emergency also drives FAULT_N low
and enters FAULT. Loss of VAUX leaves nothing but flash and fuses, and the levels the outside holds on the pins. -/
def Obligations.RailsUpAndDown : Prop :=
  ((∀ s : State, s.pwr.vaux = true → s.sec.ready = true → bit (getR s 0x400) 30 = false → s.pwr.needLow = false →
     s.pwr.rails = 0 → s.pwr.raising = false →
     (s.pwr.vinOk = true → ∃ t, exec .modEnRise s = .next t ∧
       t = { s with regs := t.regs, pwr := { s.pwr with modEn := true, lowAt := none, raising := true, faultLow := false } } ∧
       getR t 0x100 = putFld (getR s 0x100) 31 29 1 ∧ s.regsBut [0x100] t) ∧
     (s.pwr.vinOk = false → exec .modEnRise s = .next { s with pwr := { s.pwr with modEn := true, lowAt := none } }) ∧
     (s.pwr.modEn = true → svc s ≠ 4 → ∃ t, exec .vinEntersRange s = .next t ∧
       t = { s with regs := t.regs, pwr := { s.pwr with vinOk := true, raising := true, faultLow := false } } ∧
       getR t 0x100 = putFld (getR s 0x100) 31 29 1 ∧ s.regsBut [0x100] t)) ∧
   (∀ s : State, s.pwr.raising = true → ∃ t, exec .railFamilyGood s = .next t ∧
     t = { s with regs := t.regs, pwr := { s.pwr with rails := s.pwr.rails + 1, raising := decide (s.pwr.rails + 1 < 3)
                                                      pwrgd := decide (3 ≤ s.pwr.rails + 1) } } ∧
     s.regsBut [0x120, 0x124] t ∧
     (s.pwr.rails = 1 → svc s ≠ 5 → ∀ c ∈ [0, 8, 16, 24], clst t c = 0) ∧
     (s.pwr.rails ≠ 1 ∨ svc s = 5 → t.regs = s.regs))) ∧
((∀ s : State, s.pwr.rails ≠ 0 ∨ s.pwr.raising = true →
     (∃ t, exec .vinUndervoltage s = .next t ∧ s.railsLost t ∧ getF t 0x100 15 8 = 0xF0 ∧ svc t = 4 ∧ t.pwr.faultLow = true ∧
       bit (getR t 0x104) 3 = true) ∧
     (∃ t, exec .vinOvervoltage s = .next t ∧ s.railsLost t ∧ getF t 0x100 15 8 = 0xF1 ∧ svc t = 4 ∧ t.pwr.faultLow = true ∧
       bit (getR t 0x104) 3 = true) ∧
     (∀ n : BitVec 6, n.toNat < 52 → sensorHere s n.toNat = true → ∃ t, exec (.dieTempCritical n) s = .next t ∧ s.railsLost t ∧
       getF t 0x100 15 8 = 0xF3 ∧ svc t = 4 ∧ t.pwr.faultLow = true ∧ bit (getR t 0x104) 3 = true) ∧
     (s.pwr.ratio = 0x40 → bit (getR s 0x11C) 2 = true ∨ bit (getR s 0x11C) 3 = true →
       ∃ t, exec .throttleFloorTimeout s = .next t ∧ s.railsLost t ∧ getF t 0x100 15 8 = 0xF4 ∧ svc t = 4 ∧ t.pwr.faultLow = true ∧
         bit (getR t 0x104) 3 = true) ∧
     (svc s ≠ 5 → ∃ t, exec .modEnFall s = .next t ∧ s.railsLost t ∧ getF t 0x100 15 8 = 0xF7 ∧ svc t = 0 ∧ t.pwr.modEn = false ∧
       t.pwr.lowAt = some (now s) ∧ t.pwr.faultLow = s.pwr.faultLow ∧ t.host = s.host)) ∧
   (∀ s : State, s.pwr.raising = true → ∃ t, exec .railFamilyTimeout s = .next t ∧ s.railsLost t ∧ getF t 0x100 15 8 = 0xF2 ∧
     svc t = 4 ∧ t.pwr.faultLow = true ∧ t.pwr.needLow = true) ∧
   (∀ s : State, ∃ t, exec .vauxLost s = .next t ∧ t.mem = [] ∧ t.eng = {} ∧ t.jobs = {} ∧ t.parts = [] ∧ t.red = [] ∧ t.hbm = {} ∧ t.dbg = {} ∧
     t.latch = [] ∧ t.time = {} ∧ t.span = { out := s.span.out } ∧
     t.sec = { flash := s.sec.flash, svnMin := s.sec.svnMin, dbgFuse := s.sec.dbgFuse, pref := s.sec.pref, mekSerial := s.sec.mekSerial } ∧
     t.pwr = { modEn := s.pwr.modEn, vinOk := s.pwr.vinOk, leak := s.pwr.leak, perst := s.pwr.perst } ∧
     (∀ k, k ≠ 0x110 → getR t k = regReset k)))

/-- Throttling (16 R487-R489, R500; 17 R516, R517): a fast source takes RATIO to at most 0x0080; the step of each ms takes 8 from it, down to 0x0040,
while a slow source is active, gives it 8, up to 0x0100, when nothing holds it, and otherwise leaves it; every partition shows it. PWR_EVT.THROT
and vector 0 of the PF tell when throttling begins. The end of a fast source clears its bit. The samples set the input registers, PCAP, the thermal
block and TEMP. -/
def Obligations.Throttling : Prop :=
  (∀ (src : FastSrc) (s : State), ∃ t, exec (.throttleFastSource src) s = .next t ∧
    t = { s with regs := t.regs, host := t.host, pwr := { s.pwr with ratio := min s.pwr.ratio 0x80 } } ∧
    getR t 0x11C = getR s 0x11C ||| BitVec.ofNat 32 (2 ^ fastBit src) ∧
    getF t 0x868 15 0 = min s.pwr.ratio 0x80 ∧ (∀ p < 32, getF t (kPart p 0x208) 15 0 = min s.pwr.ratio 0x80) ∧
    (s.pwr.ratio = 256 → bit (getR t 0x104) 0 = true ∧ t.host = s.host ++ [.msi 0 0]) ∧
    (s.pwr.ratio ≠ 256 → getR t 0x104 = getR s 0x104 ∧ t.host = s.host) ∧
    s.regsBut ([0x11C, 0x868, 0x104] ++ (rangeFrom 0 32).map fun p => kPart p 0x208) t) ∧
  (∀ (src : FastSrc) (s : State), ∃ t, exec (.fastSourceEnd src) s = .next t ∧ t = { s with regs := t.regs } ∧
    getR t 0x11C = getR s 0x11C &&& ~~~(BitVec.ofNat 32 (2 ^ fastBit src)) ∧ s.regsBut [0x11C] t) ∧
  (∀ (vin iin pin : BitVec 16) (s : State), ∃ t, exec (.pcapSample vin iin pin) s = .next t ∧
    t = { s with regs := t.regs, pwr := { s.pwr with vinOk := decide (3800 ≤ vin.toNat) } } ∧
    getF t 0x108 15 0 = vin.toNat ∧ getF t 0x108 31 16 = iin.toNat ∧ getR t 0x10C = BitVec.ofNat 32 pin.toNat ∧
    getR t 0x11C = (if getF s 0x110 15 0 < pin.toNat then getR s 0x11C ||| 4#32 else getR s 0x11C &&& ~~~(4#32)) ∧
    s.regsBut [0x108, 0x10C, 0x11C] t) ∧
  (∀ s : State,
    (bit (getR s 0x11C) 2 = true ∨ bit (getR s 0x11C) 3 = true → ∃ t, exec .ratioStep s = .next t ∧
      t = { s with regs := t.regs, host := t.host, pwr := { s.pwr with ratio := max 0x40 (s.pwr.ratio - 8) } } ∧
      getF t 0x868 15 0 = max 0x40 (s.pwr.ratio - 8) % 65536 ∧ (∀ p < 32, getF t (kPart p 0x208) 15 0 = max 0x40 (s.pwr.ratio - 8) % 65536) ∧
      (s.pwr.ratio = 256 → bit (getR t 0x104) 0 = true ∧ t.host = s.host ++ [.msi 0 0]) ∧
      (s.pwr.ratio ≠ 256 → getR t 0x104 = getR s 0x104 ∧ t.host = s.host) ∧
      s.regsBut ([0x868, 0x104] ++ (rangeFrom 0 32).map fun p => kPart p 0x208) t) ∧
    (getF s 0x11C 4 0 = 0 → getF s 0x10C 15 0 * 100 ≤ getF s 0x110 15 0 * 97 → coolEnough s = true → s.pwr.ratio < 256 →
      ∃ t, exec .ratioStep s = .next t ∧
      t = { s with regs := t.regs, pwr := { s.pwr with ratio := min 256 (s.pwr.ratio + 8) } } ∧
      getF t 0x868 15 0 = min 256 (s.pwr.ratio + 8) ∧ (∀ p < 32, getF t (kPart p 0x208) 15 0 = min 256 (s.pwr.ratio + 8)) ∧
      s.regsBut (0x868 :: (rangeFrom 0 32).map fun p => kPart p 0x208) t) ∧
    (bit (getR s 0x11C) 2 = false → bit (getR s 0x11C) 3 = false →
      getF s 0x11C 4 0 ≠ 0 ∨ getF s 0x110 15 0 * 97 < getF s 0x10C 15 0 * 100 ∨ coolEnough s = false → exec .ratioStep s = .next s)) ∧
  (∀ (temps : List (BitVec 16)) (s : State), ∃ t, exec (.sensorUpdate temps) s = .next t ∧ t = { s with regs := t.regs } ∧
    (∀ n < 54, let v := listGet 0x8000 temps n
      (sensorHere s n = true ∧ v ≠ 0x8000 → bit (getR t (0x200 + 4 * n)) 31 = true ∧ getF t (0x200 + 4 * n) 15 0 = v.toNat ∧
        bit (getR t (0x200 + 4 * n)) 30 = (match throttleLimit n with | some l => decide (l * 8 < v.toInt) | none => false)) ∧
      (sensorHere s n = false ∨ v = 0x8000 → getR t (0x200 + 4 * n) = 0x8000)) ∧
    (bit (getR t 0x11C) 3 = true ↔ ∃ n < 54, bit (getR t (0x200 + 4 * n)) 30 = true) ∧
    s.regsBut (0x11C :: (rangeFrom 0 54).map fun n => 0x200 + 4 * n) t)

/-- Pins (17 R511, R514; 16 R493) and self-test (16 R494, R496): a leak drives SMB_ALERT# low; PERST# is released, and with the rails up the PF
answers once the link has trained, at a rate and a width that are free values (log 92); the two self-tests lead on when they pass, to FAULT or to
drip service alone with their cause when they fail; the fill of HBM takes the next block of a group that no access has had filled. -/
def Obligations.PinsAndSelfTest : Prop :=
  (∀ s : State, exec .leakDetect s = .next { s with pwr := { s.pwr with leak := true } } ∧
    smbAlertLow { s with pwr := { s.pwr with leak := true } } = true) ∧
  (∀ s : State, exec .leakClear s = .next { s with pwr := { s.pwr with leak := false } } ∧
    (smbAlertLow { s with pwr := { s.pwr with leak := false } } = true ↔ getF s 0x104 3 0 ≠ 0)) ∧
  (∀ s : State, exec .perstRelease s = .next { s with pwr := { s.pwr with perst := false } }) ∧
  (∀ s : State,
    (s.pwr.pwrgd = true → s.pwr.perst = false → ∃ t, exec .pfReady s = .next t ∧
      t = { s with free := s.free + 1, pwr := { s.pwr with pfReady := true, rate := t.pwr.rate, width := t.pwr.width } } ∧
      1 ≤ t.pwr.rate ∧ t.pwr.rate ≤ 6 ∧ t.pwr.width ∈ [4, 8, 16]) ∧
    (s.pwr.pwrgd = false ∨ s.pwr.perst = true → exec .pfReady s = .next { s with pwr := { s.pwr with pfReady := false } })) ∧
  (∀ s : State, svc s = 1 → s.pwr.pwrgd = true →
    (∃ t, exec (.dripSelftestDone true) s = .next t ∧ t = { s with regs := t.regs, pwr := { s.pwr with dripOk := true } } ∧
      svc t = 2 ∧ s.regsBut [0x100, 0x120, 0x124] t) ∧
    (∃ t, exec (.dripSelftestDone false) s = .next t ∧ t = { s with regs := t.regs, pwr := { s.pwr with faultLow := true } } ∧
      svc t = 4 ∧ getF t 0x100 15 8 = 0xF5 ∧ bit (getR t 0x104) 2 = true ∧ s.regsBut [0x100, 0x104, 0x120, 0x124] t)) ∧
  (∀ s : State, svc s = 2 →
    (∃ t, exec (.fullSelftestDone true true) s = .next t ∧
      t = { s with regs := t.regs, pwr := { s.pwr with fullOk := true, fill := [], early := [] } } ∧ svc t = 3 ∧
      getF t 0x12C 20 0 = 12288 * groupsN s ∧ s.regsBut [0x100, 0x12C] t) ∧
    (∀ cl hbm : Bool, (cl && hbm) = false → ∃ t, exec (.fullSelftestDone cl hbm) s = .next t ∧
      t = { s with regs := t.regs, pwr := { s.pwr with faultLow := true } } ∧ svc t = 2 ∧
      (cl = true → getF t 0x100 15 8 = 0xF6) ∧ (hbm = true → getF t 0x100 15 8 = 0xF5) ∧
      (getF t 0x100 15 8 = 0xF5 ∨ getF t 0x100 15 8 = 0xF6) ∧ (cl = false → bit (getR t 0x104) 2 = true) ∧
      (hbm = false → bit (getR t 0x104) 1 = true) ∧ s.regsBut [0x100, 0x104] t)) ∧
  (∀ (g : BitVec 7) (s : State),
    (∀ n, svc s = 3 → g.toNat < groupsN s → tab0 s.pwr.fill g.toNat ≤ n → n < 12288 → g.toNat * 12288 + n ∉ s.pwr.early →
      (∀ b, tab0 s.pwr.fill g.toNat ≤ b → b < n → g.toNat * 12288 + b ∈ s.pwr.early) →
      ∃ t, exec (.hbmFillBlock g) s = .next t ∧
        t = { s with regs := t.regs, pwr := { s.pwr with fill := tabSet0 g.toNat (n + 1) s.pwr.fill } } ∧
        getF t 0x12C 20 0 = getF s 0x12C 20 0 - 1 ∧ s.regsBut [0x12C] t) ∧
    ((∀ n, tab0 s.pwr.fill g.toNat ≤ n → n < 12288 → g.toNat * 12288 + n ∈ s.pwr.early) → exec (.hbmFillBlock g) s = .next s))

/-- The power states of a cluster (16 R481, R483, R484): RUN to GATED with nothing to do, GATED to OFF unless it may not, a wake of a cluster
that a partition holds, and back to RUN; leaving GATED or OFF keeps the memories, leaving DARK zeroes them. -/
def Obligations.ClusterDomains : Prop :=
  ∀ (c : BitVec 5) (s : State),
    (clst s c.toNat = 0 → clBusy s c.toNat = false → ∃ t, exec (.clusterGate c) s = .next t ∧
      clst t c.toNat = 1 ∧ t = { s with regs := t.regs } ∧ (∀ d < 32, d ≠ c.toNat → clst t d = clst s d) ∧
      s.regsBut [0x120 + 4 * (c.toNat / 16)] t) ∧
    (clBusy s c.toNat = true → exec (.clusterGate c) s = .next s) ∧
    (clst s c.toNat = 1 → getF s 0x128 15 0 ≠ 0 → noOff s c.toNat = false → ∃ t, exec (.clusterOff c) s = .next t ∧
      clst t c.toNat = 2 ∧ t = { s with regs := t.regs } ∧ (∀ d < 32, d ≠ c.toNat → clst t d = clst s d) ∧
      s.regsBut [0x120 + 4 * (c.toNat / 16)] t) ∧
    (noOff s c.toNat = true → exec (.clusterOff c) s = .next s) ∧
    (clst s c.toNat ≠ 0 → clOwner s c.toNat ≠ none →
      exec (.clusterWake c) s = .next { s with pwr := { s.pwr with waking := setIns c.toNat s.pwr.waking } }) ∧
    (c.toNat ∈ s.pwr.waking → ∃ t, exec (.clusterWakeDone c) s = .next t ∧ clst t c.toNat = 0 ∧
      t.pwr = { s.pwr with waking := setDel c.toNat s.pwr.waking } ∧ (∀ d < 32, d ≠ c.toNat → clst t d = clst s d) ∧
      s.regsBut [0x120 + 4 * (c.toNat / 16)] t ∧ (clst s c.toNat ≠ 3 → t.mem = s.mem ∧ t.eng = s.eng ∧ t.hbm = s.hbm) ∧
      (clst s c.toNat = 3 → ∀ k, cmBase c.toNat ≤ k → k < cmBase c.toNat + cmSize → memByte 0 t k = 0))

/-- Device time (15 R467): it starts at 0 when VAUX comes up; a tick adds 52 ns, each twelfth 53 ns; no command but these and the loss of
VAUX, no reset among them, changes it or its phase; a read of DT_LO, through the PF or the slice of a VF, gives the low word and latches the
high word. -/
def Obligations.DeviceTimeRunsThroughEveryReset : Prop :=
  (∀ (straps : BitVec 2) (s : State), ∃ t, exec (.vauxUp straps) s = .next t ∧ t.time.dtime = 0 ∧ t.time.phase = 0) ∧
  (∀ s : State, ∃ t, exec .dtimeTick s = .next t ∧ t.time.dtime = s.time.dtime + (if s.time.phase = 11 then 53#64 else 52#64) ∧
    t.time.phase = (if s.time.phase = 11 then 0 else s.time.phase + 1)) ∧
  (∀ (i : Instr) (s t : State), i ≠ .dtimeTick → i ≠ .vauxLost → (∀ straps, i ≠ .vauxUp straps) → exec i s = .next t →
    t.time.dtime = s.time.dtime ∧ t.time.phase = s.time.phase) ∧
  (∀ (fn : BitVec 6) (off : BitVec 26) (ide : Bool) (s : State),
    (fn = 0 ∧ off = 8 ∨ fn ≠ 0 ∧ partState s (fn.toNat - 1) ≠ 0 ∧ offStream s fn.toNat ide = false ∧ off = 0x3008) →
    ∃ t, exec (.counterLowRead ⟨fn, ide⟩ off) s = .next t ∧ t.bus.read = BitVec.ofNat 32 s.time.dtime.toNat ∧
    tabFind (if fn = 0 then 0xC else kVf fn.toNat 0x300C) t.latch = some (BitVec.ofNat 32 (s.time.dtime.toNat / 2 ^ 32)))

/-- The clock ratio stays in its range, 0x0040 to 0x0100 (16 R487), whatever the command. -/
def Obligations.RatioStaysInRange : Prop :=
  ∀ s t : State, 0x40 ≤ s.pwr.ratio → s.pwr.ratio ≤ 0x100 → step s = .next t → 0x40 ≤ t.pwr.ratio ∧ t.pwr.ratio ≤ 0x100

/-- Ticks and heartbeats (15 R450, R465; 08 R234; 12 R364, R366; 16 R491, R501): a tick under throttle is counted, for the device and each sealed
partition, and for a partition with a master that waits for a credit; a heartbeat notes its time; a restarted RTP loses its session, nonce and readiness; a failed entropy source shows in SEC_STATE.
SMBus reads (17 R511) with VAUX present, and the TAP (17 R512) with the rails up: the data of each code; nothing else changes. With
the rails down the measured values read 0x8000. -/
def Obligations.TapsBusAndTicks : Prop :=
  ((∀ s : State, ∃ t, exec .dtimeTick s = .next t ∧
     t = { s with regs := t.regs, time := t.time, free := t.free, eng := { s.eng with credit := t.eng.credit }
                  hbm := { s.hbm with occ := t.hbm.occ }, dbg := { s.dbg with wdg := t.dbg.wdg, quiet := t.dbg.quiet } } ∧
     (∀ p < 32, get64 t (kPart p 0x248) = if s.hbm.waits.any (fun x => x.2.2 == p) then min (get64 s (kPart p 0x248) + 1) (2 ^ 64 - 1)
       else get64 s (kPart p 0x248)) ∧
     get64 t 0x860 = (if s.pwr.ratio < 256 then min (get64 s 0x860 + 1) (2 ^ 64 - 1) else get64 s 0x860) ∧
     (∀ p < 32, get64 t (kPart p 0x20C) = if s.pwr.ratio < 256 ∧ partState s p = 2 then min (get64 s (kPart p 0x20C) + 1) (2 ^ 64 - 1)
       else get64 s (kPart p 0x20C)) ∧
     s.regsBut ([0x860, 0x864] ++ (rangeFrom 0 32).flatMap fun p => [kPart p 0x20C, kPart p 0x210, kPart p 0x248, kPart p 0x24C]) t) ∧
   (∀ (cls : Byte) (unit : BitVec 12) (s : State), ∃ h, exec (.unitHeartbeat cls unit) s =
       .next { s with dbg := { s.dbg with hearts := h } } ∧
     tabFind (cls.toNat * 65536 + unit.toNat) h = some (now s) ∧
     ∀ k, k ≠ cls.toNat * 65536 + unit.toNat → tabFind k h = tabFind k s.dbg.hearts) ∧
   (∀ s : State, exec .rtpHeartbeat s = .next { s with sec := { s.sec with misses := 0 } }) ∧
   (∀ s : State, ∃ t, exec .rtpRestart s = .next t ∧ getR t 0x410 = sat32Add (getR s 0x410) 1 ∧ bit (getR t 0x400) 27 = false ∧
     t.sec = { s.sec with ready := false, hasImage := false, nonce := [], spdm := [], misses := 100 } ∧ t.mem = s.mem ∧
     (∀ p, (partOf t p).kex = []) ∧ t.jobs = s.jobs ∧ s.regsBut [0x400, 0x410] t) ∧
   (∀ s : State, ∃ t, exec .entropyFail s = .next t ∧ bit (getR t 0x400) 26 = true ∧ t = { s with regs := t.regs } ∧
     s.regsBut [0x400] t)) ∧
((∀ s : State, s.pwr.vaux = true →
     (∃ v : BitVec 16, exec .smbReadState s = .next { s with bus := { s.bus with smb := some v } } ∧
       v.toNat = svc s + (if s.pwr.pwrgd then 128 else 0)) ∧
     (∃ v : BitVec 16, exec .smbReadVin s = .next { s with bus := { s.bus with smb := some v } } ∧
       v.toNat = if s.pwr.pwrgd then getF s 0x108 15 0 else 0x8000) ∧
     (∃ v : BitVec 16, exec .smbReadIin s = .next { s with bus := { s.bus with smb := some v } } ∧
       v.toNat = if s.pwr.pwrgd then getF s 0x108 31 16 else 0x8000) ∧
     (∃ v : BitVec 16, exec .smbReadPin s = .next { s with bus := { s.bus with smb := some v } } ∧
       v.toNat = if s.pwr.pwrgd then getF s 0x10C 15 0 else 0x8000) ∧
     (∃ v : BitVec 16, exec .smbReadEvt s = .next { s with bus := { s.bus with smb := some v } } ∧
       v.toNat = getF s 0x104 3 0 + (if s.pwr.leak then 128 else 0)) ∧
     (∃ v : BitVec 16, exec .smbReadCause s = .next { s with bus := { s.bus with smb := some v } } ∧ v.toNat = getF s 0x100 15 8) ∧
     (∃ v : BitVec 16, exec .smbReadTemp s = .next { s with bus := { s.bus with smb := some v } } ∧
       v.toNat = if s.pwr.pwrgd then getF s (0x200 + 4 * s.pwr.sensor) 15 0 else 0x8000) ∧
     (∀ n : Byte, n.toNat ≤ 53 → exec (.smbSensorSelect n) s = .next { s with pwr := { s.pwr with sensor := n.toNat } })) ∧
   (∀ s : State, s.pwr.pwrgd = true →
     exec .tapIdcode s = .next { s with bus := { s.bus with tdo := 0x1D909C4B } } ∧
     exec .tapBypass s = .next { s with bus := { s.bus with tdo := 0 } }))

/-- Register writes through the PF follow the access codes (00 R10, R11; 18 R519): in a context's block, at the registers listed, RW bits take the value
written, W1C bits written 1 clear, SL bits take it only until the owner is sealed, RO bits stay; a reserved encoding of CTX_GATE_NLT is discarded and
counted, as is a write of a reserved or unaligned offset. A body word of a free mailbox is stored (18 R531). -/
def Obligations.RegisterWrites : Prop :=
  (∀ (c : BitVec 10) (o : Nat) (v : Word) (ide : Bool) (s : State) (r : RegSpec) (off : BitVec 26),
    off.toNat = kCtx c.toNat o → ctxSpec o = some r →
    o ∈ [0x40, 0x44, 0x48, 0x4C, 0x50, 0x54, 0x60, 0x64, 0x68, 0x6C, 0x70, 0x74, 0x78, 0x7C, 0x80, 0x84, 0x90, 0x94, 0x98, 0x9C,
      0xA4, 0xA8, 0xAC, 0xB0, 0xB4, 0xB8, 0xBC, 0xC0, 0xC4, 0xD0, 0xF4, 0xF8] →
    (∀ p, ctxOwner s c.toNat = some p → conf s p < 2) →
    let open_ := match ctxOwner s c.toNat with | some p => decide (partState s p < 2) | none => true
    (∀ x ∈ r.rng, x.2.2.1 ≤ fld v x.1 x.2.1 ∧ fld v x.1 x.2.1 ≤ x.2.2.2) →
    ∃ t, exec (.regWrite ⟨0, ide⟩ false off v) s = .next t ∧ t = { s with regs := t.regs } ∧
      (∀ i < 32, (getR t (kCtx c.toNat o)).getLsbD i =
        if r.rw.testBit i || (open_ && r.sl.testBit i) then v.getLsbD i
        else if r.w1c.testBit i then (getR s (kCtx c.toNat o)).getLsbD i && !v.getLsbD i
        else (getR s (kCtx c.toNat o)).getLsbD i) ∧
      s.regsBut [kCtx c.toNat o] t) ∧
  (∀ (c : BitVec 10) (v : Word) (ide : Bool) (s : State) (off : BitVec 26), off.toNat = kCtx c.toNat 0x98 → 256 < fld v 8 0 →
    (∀ p, ctxOwner s c.toNat = some p → conf s p < 2) →
    ∃ t, exec (.regWrite ⟨0, ide⟩ false off v) s = .next t ∧ t = { s with regs := t.regs } ∧
      getR t 0x10 = sat32Add (getR s 0x10) 1 ∧ s.regsBut [0x10] t) ∧
  (∀ (off : BitVec 26) (v : Word) (ide : Bool) (s : State), regSpec off.toNat = none →
    ∃ t, exec (.regWrite ⟨0, ide⟩ false off v) s = .next t ∧ t = { s with regs := t.regs } ∧
      getR t 0x10 = sat32Add (getR s 0x10) 1 ∧ s.regsBut [0x10] t) ∧
  (∀ (i : Nat) (v : Word) (ide : Bool) (s : State) (off : BitVec 26), i < 15424 → off.toNat = 0xF00 + 4 * i → mbBusy s 0 = false →
    ∃ t, exec (.regWrite ⟨0, ide⟩ true off v) s = .next t ∧ t = { s with sec := { s.sec with bodies := t.sec.bodies } } ∧
      (∀ f, f ≠ 0 → tabFind f t.sec.bodies = tabFind f s.sec.bodies) ∧
      (∀ j, listGet 0 ((tabFind 0 t.sec.bodies).getD []) j =
        if 4 * i ≤ j ∧ j < 4 * i + 4 then BitVec.ofNat 8 (v.toNat / 2 ^ (8 * (j - 4 * i)))
        else listGet 0 ((tabFind 0 s.sec.bodies).getD []) j))

/-- Bad accesses are counted and read 0 (00 R9), for the PF and for a VF whose partition exists; a read of a counter's low word latches its
high word, which a read of the high word then answers (03 R91), DT_LO the high word of device time (15 R467).
Counter clears (03 R90, 05 R152, 06 R188, 07 R211, 08 R241, 09 R284, 13 R419, 15 R450, 18 R521, R524): each sets the counters of its
block to zero, when the block can be reached (18 R519, 12 R380, 16 R493), and changes no other register. -/
def Obligations.CountersAndBadAccesses : Prop :=
  ((∀ (why : BadAccess) (write : Bool) (s : State), why ≠ .reserved ∨ write = true → ∃ t, exec (.barBadAccess 0 why write) s = .next t ∧
     t = { s with regs := t.regs, bus := { s.bus with read := if write then s.bus.read else 0 } } ∧
     getR t 0x10 = sat32Add (getR s 0x10) 1 ∧ s.regsBut [0x10] t) ∧
   (∀ (v : BitVec 6) (why : BadAccess) (write : Bool) (s : State), 1 ≤ v.toNat → partState s (v.toNat - 1) ≠ 0 →
     why ≠ .reserved ∨ write = true → ∃ t, exec (.barBadAccess v why write) s = .next t ∧
     t = { s with regs := t.regs, bus := { s.bus with read := if write then s.bus.read else 0 } } ∧
     getR t (kVf v.toNat 0x3010) = sat32Add (getR s (kVf v.toNat 0x3010)) 1 ∧ s.regsBut [kVf v.toNat 0x3010] t) ∧
   (∀ (off : BitVec 26) (val : Word) (ide : Bool) (s : State), off.toNat % 4 ≠ 0 →
     (∃ t, exec (.counterLowRead ⟨0, ide⟩ off) s = .next t ∧ t = { s with regs := t.regs, bus := { s.bus with read := 0 } } ∧
       getR t 0x10 = sat32Add (getR s 0x10) 1 ∧ s.regsBut [0x10] t) ∧
     (∃ t, exec (.regWrite ⟨0, ide⟩ false off val) s = .next t ∧ t = { s with regs := t.regs } ∧
       getR t 0x10 = sat32Add (getR s 0x10) 1 ∧ s.regsBut [0x10] t)) ∧
   (∀ (off : BitVec 26) (ide : Bool) (s : State), isCounterLo off.toNat = true → off.toNat ≠ 8 → regAbsent s off.toNat = false →
     regMasked s 0 off.toNat = false → regUnready s off.toNat = false → ∃ t, exec (.counterLowRead ⟨0, ide⟩ off) s = .next t ∧
     t = { s with latch := t.latch, bus := { s.bus with read := getR s off.toNat } } ∧
     tabFind (off.toNat + 4) t.latch = some (getR s (off.toNat + 4)) ∧
     ∀ k, k ≠ off.toNat + 4 → tabFind k t.latch = tabFind k s.latch) ∧
   (∀ (off : BitVec 26) (ide : Bool) (s : State) (w : Word), isCounterLo (off.toNat - 4) = true → isCounterLo off.toNat = false →
     tabFind off.toNat s.latch = some w → regAbsent s off.toNat = false → regMasked s 0 off.toNat = false → regUnready s off.toNat = false →
     exec (.counterLowRead ⟨0, ide⟩ off) s = .next { s with bus := { s.bus with read := w } }) ∧
   (∀ (ide : Bool) (s : State), ∃ t, exec (.counterLowRead ⟨0, ide⟩ 8) s = .next t ∧
     t = { s with latch := t.latch, bus := { s.bus with read := BitVec.ofNat 32 (now s) } } ∧
     tabFind 0xC t.latch = some (BitVec.ofNat 32 (now s / 2 ^ 32)))) ∧
(∀ s : State,
     (∀ n : BitVec 9, s.pfReaches (kCore n.toNat 0x44) → s.clearedBy (.mxCtrClr n) ((rangeFrom 0 16).map fun i => kCore n.toNat (4 * i))) ∧
     (∀ n : BitVec 9, s.pfReaches (kCore n.toNat 0xA4) → s.clearedBy (.vxCtrClr n) ((rangeFrom 0 8).map fun i => kCore n.toNat (0x80 + 4 * i))) ∧
     (∀ c : BitVec 5, s.pfReaches (kCl c.toNat 0x64) → s.clearedBy (.pgCtrClr c) ((rangeFrom 0 8).map fun i => kCl c.toNat (0x40 + 4 * i))) ∧
     (∀ c : BitVec 5, s.pfReaches (kCl c.toNat 0xA4) → s.clearedBy (.gxCtrClr c) ((rangeFrom 0 8).map fun i => kCl c.toNat (0x80 + 4 * i))) ∧
     (∀ n : BitVec 9, s.pfReaches (kCore n.toNat 0x11C) → s.clearedBy (.memCtrClr true n) ((rangeFrom 0 5).map fun i => kCore n.toNat (0x100 + 4 * i))) ∧
     (∀ n : BitVec 9, n.toNat < 32 → s.pfReaches (kCl n.toNat 0x1C) → s.clearedBy (.memCtrClr false n) ((rangeFrom 0 5).map fun i => kCl n.toNat (4 * i))) ∧
     (∀ p : BitVec 5, s.pfReaches (kPart p.toNat 0x2018) → s.clearedBy (.spnCtrClr p) ((rangeFrom 0 6).map fun i => kPart p.toNat (0x2000 + 4 * i))) ∧
     (s.pfReaches 0x874 → s.clearedBy .gcClr ((rangeFrom 0 26).map (fun i => 0x800 + 4 * i) ++ [0x86C, 0x870])) ∧
     (∀ ch : BitVec 4, s.pfReaches (kRdc ch.toNat 0x30) → s.clearedBy (.rdcClr ch) [kRdc ch.toNat 0x28, kRdc ch.toNat 0x2C]) ∧
     s.clearedBy .fnAccerrClr [0x10] ∧
     (∀ (v : BitVec 6) (ide : Bool), 1 ≤ v.toNat → partState s (v.toNat - 1) ≠ 0 → offStream s v.toNat ide = false →
       s.clearedBy (.vfAccerrClr ⟨v, ide⟩) [kVf v.toNat 0x3010]))

/-- Ring registers (10 R289, R291, R292): enabling a submission queue starts it at its first entry, with no error, and binds it to the
function that holds the context; enabling a completion queue starts it with phase 1; a size or a vector that is no encoding is discarded and
counted (00 R10); while enabled the geometry stays, and a write that would change it is counted; LOG2N of CTX_CREC takes 0 and 3 to 12. Nothing
else changes.
Doorbells (10 R289, R293): a tail below the ring's size and a head between the head and the tail are taken; others stop the ring with
code 0x82; a doorbell of a ring that is not enabled, or that is another function's, is counted. Nothing else changes. -/
def Obligations.RingsAndDoorbells : Prop :=
  (∀ (ctx : BitVec 10) (val : Word) (s : State),
     (sqEn s ctx.toNat = false → 4 ≤ fld val 4 0 → fld val 4 0 ≤ 16 → ∃ t, exec (.sqEnable ctx val) s = .next t ∧
       t = { s with regs := t.regs, jobs := { s.jobs with rings := t.jobs.rings } } ∧
       getR t (kCtx ctx.toNat 8) = (val ||| 0x80000000#32) &&& 0x8000011F#32 ∧ getF t (kCtx ctx.toNat 0x20) 31 31 = 0 ∧
       getF t (kCtx ctx.toNat 0x20) 23 16 = 0 ∧ getR t (kCtx ctx.toNat 0x0C) = 0 ∧ getR t (kCtx ctx.toNat 0x24) = 0 ∧
       ringOf t ctx.toNat = { ringOf s ctx.toNat with tail := 0, bound := some (homeFn s ctx.toNat) } ∧ s.ringsBut ctx.toNat t ∧
       s.regsBut [kCtx ctx.toNat 8, kCtx ctx.toNat 0x0C, kCtx ctx.toNat 0x20, kCtx ctx.toNat 0x24] t) ∧
     (sqEn s ctx.toNat = true → ∃ t, exec (.sqDisable ctx val) s = .next t ∧
       t = { s with regs := t.regs, jobs := { s.jobs with rings := t.jobs.rings } } ∧
       getR t (kCtx ctx.toNat 8) = sqCfg s ctx.toNat &&& 0x11F#32 ∧
       getR t 0x10 = (if val &&& 0x11F#32 = sqCfg s ctx.toNat &&& 0x11F#32 then getR s 0x10 else sat32Add (getR s 0x10) 1) ∧
       ringOf t ctx.toNat = { ringOf s ctx.toNat with bound := none } ∧ s.ringsBut ctx.toNat t ∧
       s.regsBut [kCtx ctx.toNat 8, 0x10] t) ∧
     (cqEn s ctx.toNat = false → vecBad s ctx.toNat (val ||| 0x80000000#32) = false → 4 ≤ fld val 4 0 → fld val 4 0 ≤ 16 →
       ∃ t, exec (.cqEnable ctx val) s = .next t ∧
       t = { s with regs := t.regs, jobs := { s.jobs with rings := t.jobs.rings } } ∧
       getR t (kCtx ctx.toNat 0x18) = val ||| 0x80000000#32 ∧ getR t (kCtx ctx.toNat 0x1C) = 0x10000#32 ∧
       ringOf t ctx.toNat = { ringOf s ctx.toNat with cqHead := 0, modCnt := 0 } ∧ s.ringsBut ctx.toNat t ∧
       s.regsBut [kCtx ctx.toNat 0x18, kCtx ctx.toNat 0x1C] t) ∧
     (cqEn s ctx.toNat = true → ∃ t, exec (.cqDisable ctx val) s = .next t ∧ t = { s with regs := t.regs } ∧
       getR t (kCtx ctx.toNat 0x18) = val &&& 0x7FFFFFE0#32 ||| cqCfg s ctx.toNat &&& 0x1F#32 ∧
       getR t 0x10 = (if val &&& 0x1F#32 = cqCfg s ctx.toNat &&& 0x1F#32 then getR s 0x10 else sat32Add (getR s 0x10) 1) ∧
       s.regsBut [kCtx ctx.toNat 0x18, 0x10] t) ∧
     (∀ t, t = accErr 0 s →
       (sqEn s ctx.toNat = false → fld val 4 0 < 4 ∨ 16 < fld val 4 0 → exec (.sqEnable ctx val) s = .next t) ∧
       (cqEn s ctx.toNat = false → vecBad s ctx.toNat (val ||| 0x80000000#32) = true ∨ fld val 4 0 < 4 ∨ 16 < fld val 4 0 →
         exec (.cqEnable ctx val) s = .next t)) ∧
     (∀ (fn : BitVec 6) (ide : Bool), offStream s fn.toNat ide = false → fnShows s fn.toNat ctx.toNat = true →
       (fld val 16 13 = 0 ∨ 3 ≤ fld val 16 13 ∧ fld val 16 13 ≤ 12) →
       ∃ t, exec (.ctxCrecWrite ⟨fn, ide⟩ ctx val) s = .next t ∧ t = { s with regs := t.regs } ∧
       getR t (kCtx ctx.toNat 0x2C) = val &&& 0xFFFFE000#32 ∧ s.regsBut [kCtx ctx.toNat 0x2C] t)) ∧
(∀ (fn : BitVec 6) (ctx : BitVec 10) (val : Word) (s : State), fnShows s fn.toNat ctx.toNat = true →
     (sqEn s ctx.toNat = true → (ringOf s ctx.toNat).bound = some fn.toNat →
       (val.toNat % 65536 < sqSize s ctx.toNat → ∃ t, exec (.sqTail fn ctx val) s = .next t ∧
         t = { s with jobs := { s.jobs with rings := t.jobs.rings } } ∧
         ringOf t ctx.toNat = { ringOf s ctx.toNat with tail := val.toNat % 65536 } ∧ s.ringsBut ctx.toNat t) ∧
       (sqSize s ctx.toNat ≤ val.toNat % 65536 → ∃ t, exec (.sqTail fn ctx val) s = .next t ∧ t = { s with regs := t.regs } ∧
         ringErr t ctx.toNat = true ∧ getF t (kCtx ctx.toNat 0x20) 23 16 = 0x82 ∧ s.regsBut [kCtx ctx.toNat 0x20] t)) ∧
     (cqEn s ctx.toNat = true → (ringOf s ctx.toNat).bound = some fn.toNat → cqTail s ctx.toNat < cqSize s ctx.toNat →
       (ringOf s ctx.toNat).cqHead < cqSize s ctx.toNat →
       (∀ k ≤ (cqTail s ctx.toNat + cqSize s ctx.toNat - (ringOf s ctx.toNat).cqHead) % cqSize s ctx.toNat,
         val.toNat % 65536 = ((ringOf s ctx.toNat).cqHead + k) % cqSize s ctx.toNat → ∃ t, exec (.cqHead fn ctx val) s = .next t ∧
         t = { s with jobs := { s.jobs with rings := t.jobs.rings } } ∧
         ringOf t ctx.toNat = { ringOf s ctx.toNat with cqHead := val.toNat % 65536 } ∧ s.ringsBut ctx.toNat t) ∧
       ((cqSize s ctx.toNat ≤ val.toNat % 65536 ∨
           (∀ k ≤ (cqTail s ctx.toNat + cqSize s ctx.toNat - (ringOf s ctx.toNat).cqHead) % cqSize s ctx.toNat,
             val.toNat % 65536 ≠ ((ringOf s ctx.toNat).cqHead + k) % cqSize s ctx.toNat)) →
         ∃ t, exec (.cqHead fn ctx val) s = .next t ∧ t = { s with regs := t.regs } ∧
         ringErr t ctx.toNat = true ∧ getF t (kCtx ctx.toNat 0x20) 23 16 = 0x82 ∧ s.regsBut [kCtx ctx.toNat 0x20] t)) ∧
     (sqEn s ctx.toNat = false ∨ wrongFn s fn.toNat ctx.toNat = true → ∃ t, exec (.sqTail fn ctx val) s = .next t ∧ t = { s with regs := t.regs } ∧
       getR t (kCtx ctx.toNat 0x28) = sat32Add (getR s (kCtx ctx.toNat 0x28)) 1 ∧ s.regsBut [kCtx ctx.toNat 0x28] t) ∧
     (cqEn s ctx.toNat = false ∨ wrongFn s fn.toNat ctx.toNat = true → ∃ t, exec (.cqHead fn ctx val) s = .next t ∧ t = { s with regs := t.regs } ∧
       getR t (kCtx ctx.toNat 0x28) = sat32Add (getR s (kCtx ctx.toNat 0x28)) 1 ∧ s.regsBut [kCtx ctx.toNat 0x28] t))

/-- The device fetches the entry at the head of an enabled ring (10 R289, R294, R303, R309; 11 R350; unsealed): it is read from host memory by the bound
function; one submission joins the context's, the sequence number and the head advance, a completion slot is reserved, INFLIGHT shows it. An entry that is not legal is finished with
STATUS 0x04 and reason 0x84, a RUN whose period is full is held and counted. A ring that may not fetch fetches nothing. -/
def Obligations.SubmissionsAreFetched : Prop :=
  ∀ (ctx : BitVec 10) (e : List Byte) (s : State),
    (canFetch s ctx.toNat = true → conf s (ctxPid s ctx.toNat) ≠ 3 → e.length = (if bit (sqCfg s ctx.toNat) 8 then 32 else 64) →
      findSub s ctx.toNat (getR s (kCtx ctx.toNat 0x24)).toNat = none → ∃ t x, exec (.sqFetch ctx e) s = .next t ∧
      t = { s with regs := t.regs, time := t.time, free := t.free, jobs := { s.jobs with rings := t.jobs.rings, subs := s.jobs.subs ++ [x] }
                   host := s.host ++ [.read (boundFn s ctx.toNat) (ideOf s (ctxOwner s ctx.toNat))
                     (get64 s (kCtx ctx.toNat 0) + e.length * sqHead s ctx.toNat) e.length] } ∧
      (x.legal = true → t.time = s.time ∧ t.free = s.free) ∧ t.time.dtime = s.time.dtime ∧
      x.ctx = ctx.toNat ∧ x.seq = (getR s (kCtx ctx.toNat 0x24)).toNat ∧ x.ent = e ∧ x.v1 = bit (sqCfg s ctx.toNat) 8 ∧ x.out = [] ∧
      (x.legal = false → x.st = .done ∧ x.status = 4 ∧ x.reason = 0x84) ∧
      (x.legal = true → x.opc ≠ 1 ∨ periodFull s x = false → x.st = .fetched ∧ getR t (kCtx ctx.toNat 0xCC) = getR s (kCtx ctx.toNat 0xCC)) ∧
      (x.legal = true → x.opc = 1 → periodFull s x = true →
        x.st = .held ∧ getR t (kCtx ctx.toNat 0xCC) = sat32Add (getR s (kCtx ctx.toNat 0xCC)) 1) ∧
      getR t (kCtx ctx.toNat 0x24) = getR s (kCtx ctx.toNat 0x24) + 1 ∧
      sqHead t ctx.toNat = (sqHead s ctx.toNat + 1) % sqSize s ctx.toNat % 65536 ∧
      ringOf t ctx.toNat = { ringOf s ctx.toNat with resv := (ringOf s ctx.toNat).resv + 1 } ∧ s.ringsBut ctx.toNat t ∧
      getF t (kCtx ctx.toNat 0x20) 15 0 = ((subsOf s ctx.toNat).length + 1) % 65536 ∧ getF t (kCtx ctx.toNat 0x20) 30 30 = 0 ∧
      get64 t 0x800 = min (get64 s 0x800 + e.length) (2 ^ 64 - 1) ∧
      s.regsBut [kCtx ctx.toNat 0x0C, kCtx ctx.toNat 0x20, kCtx ctx.toNat 0x24, kCtx ctx.toNat 0xCC, 0x800, 0x804] t) ∧
    (canFetch s ctx.toNat = false → exec (.sqFetch ctx e) s = .next s)

/-- A host read fails (10 R298, R299; 12 R384): of a fetch, the ring stops with code 0x83, or 0x8D for a record that does not verify; of a
submission's data, the submission finishes with STATUS 0x07 and that reason. A bad record is counted in AUTH_FAIL. -/
def Obligations.HostReadsFail : Prop :=
  ∀ (ctx : BitVec 10) (s : State),
    (canFetch s ctx.toNat = true →
      (∃ t, exec (.hostReadFail ctx .fetch .link) s = .next t ∧ t = { s with regs := t.regs } ∧ ringErr t ctx.toNat = true ∧
        getF t (kCtx ctx.toNat 0x20) 23 16 = 0x83 ∧ s.regsBut [kCtx ctx.toNat 0x20] t) ∧
      (∃ t, exec (.hostReadFail ctx .fetch .record) s = .next t ∧ t = { s with regs := t.regs } ∧ ringErr t ctx.toNat = true ∧
        getF t (kCtx ctx.toNat 0x20) 23 16 = 0x8D ∧
        getR t (kPart (ctxPid s ctx.toNat) 0x8C) = sat32Add (getR s (kPart (ctxPid s ctx.toNat) 0x8C)) 1 ∧
        s.regsBut [kCtx ctx.toNat 0x20, kPart (ctxPid s ctx.toNat) 0x8C] t)) ∧
    (∀ (q : Word) (x : Sub), findSub s ctx.toNat q.toNat = some x → x.st = .fetched → canGo s x = true →
      (x.opc = 1 ∧ x.inlen ≠ 0 ∨ x.opc = 2 ∨ x.opc = 4 ∨ x.opc = 6) →
      (∃ t, exec (.hostReadFail ctx (.data q) .link) s = .next t ∧
        t = { s with time := t.time, free := t.free, jobs := { s.jobs with subs := t.jobs.subs } } ∧
        s.subNow ctx.toNat q.toNat { x with st := .done, status := 7, reason := 0x83, time := stampOf s 32 } t) ∧
      (∃ t, exec (.hostReadFail ctx (.data q) .record) s = .next t ∧
        t = { s with regs := t.regs, time := t.time, free := t.free, jobs := { s.jobs with subs := t.jobs.subs } } ∧
        s.subNow ctx.toNat q.toNat { x with st := .done, status := 7, reason := 0x8D, time := stampOf s 32 } t ∧
        getR t (kPart (ctxPid s ctx.toNat) 0x8C) = sat32Add (getR s (kPart (ctxPid s ctx.toNat) 0x8C)) 1 ∧
        s.regsBut [kPart (ctxPid s ctx.toNat) 0x8C] t))

/-- Completion (10 R286, R295-R297, R300, R309; unsealed). The result data of a finished submission is written, relaxed where its function enables that,
then bytes 0 to 27 of its entry, then the word with the phase, then the interrupt when it or MCNT asks for one; the tail advances and the phase turns
over at the end of the ring; the submission leaves. With the queue disabled no entry is written. The moderation timer sends the interrupt that was held. -/
def Obligations.SubmissionsComplete : Prop :=
  (∀ (ctx : BitVec 10) (seq : Word) (s : State) (x : Sub), findSub s ctx.toNat seq.toNat = some x → x.st = .done →
    (x.v1 = false ∨ subsAhead s x = []) → (conf s (ctxPid s ctx.toNat) ≠ 3) →
    ∀ fn ide relaxed, fn = boundFn s ctx.toNat → ide = ideOf s (ctxOwner s ctx.toNat) → relaxed = !(s.bus.strictOrder.contains fn) →
    (cqEn s ctx.toNat = true → ∃ t e, exec (.submissionComplete ctx seq) s = .next t ∧
      (∃ m, t = { s with regs := t.regs, host := t.host,
                         jobs := { s.jobs with rings := t.jobs.rings, subs := t.jobs.subs, admq := t.jobs.admq } } ∧ t.host = s.host ++
        x.out.map (fun o => HostOut.write fn ide o.1 relaxed o.2) ++
        [.write fn ide (get64 s (kCtx ctx.toNat 0x10) + 32 * cqTail s ctx.toNat) false (e.take 28),
         .write fn ide (get64 s (kCtx ctx.toNat 0x10) + 32 * cqTail s ctx.toNat + 28) false (e.drop 28)] ++ m ∧
        (x.irq = true ∨ fld (cqCfg s ctx.toNat) 19 12 ≤ (ringOf s ctx.toNat).modCnt + 1 →
          m = [.msi fn (fld (cqCfg s ctx.toNat) 30 20)]) ∧
        (x.irq = false → (ringOf s ctx.toNat).modCnt + 1 < fld (cqCfg s ctx.toNat) 19 12 → m = [])) ∧
      e.length = 32 ∧ leAt e 0 4 = x.seq % 2 ^ 32 ∧ leAt e 4 4 = x.tag % 2 ^ 32 ∧ leAt e 8 1 = x.status % 256 ∧
      leAt e 9 1 = x.reason % 256 ∧ leAt e 10 1 = x.opc % 256 ∧ leAt e 11 1 = 0 ∧ leAt e 12 2 = sqHead s ctx.toNat ∧
      leAt e 14 2 = 0 ∧ leAt e 16 8 = x.time % 2 ^ 64 ∧ leAt e 24 4 = x.result % 2 ^ 32 ∧ leAt e 28 4 = getF s (kCtx ctx.toNat 0x1C) 16 16 * 2 ^ 31 ∧
      cqTail t ctx.toNat = (cqTail s ctx.toNat + 1) % cqSize s ctx.toNat % 65536 ∧
      getF t (kCtx ctx.toNat 0x1C) 16 16 = (if (cqTail s ctx.toNat + 1) % cqSize s ctx.toNat = 0 then
        1 - getF s (kCtx ctx.toNat 0x1C) 16 16 else getF s (kCtx ctx.toNat 0x1C) 16 16) ∧
      t.jobs.subs.length + 1 = s.jobs.subs.length ∧ (∀ d q, d ≠ ctx.toNat ∨ q ≠ seq.toNat → findSub t d q = findSub s d q) ∧
      s.regsBut [0x808, 0x80C, kCtx ctx.toNat 0x1C, kCtx ctx.toNat 0x20, kCtx ctx.toNat 0xC8, kPart (ctxPid s ctx.toNat) 0x20] t) ∧
    (cqEn s ctx.toNat = false → ∃ t, exec (.submissionComplete ctx seq) s = .next t ∧
      t = { s with regs := t.regs, host := s.host ++ x.out.map (fun o => HostOut.write fn ide o.1 relaxed o.2),
                   jobs := { s.jobs with rings := t.jobs.rings, subs := t.jobs.subs, admq := t.jobs.admq } } ∧
      t.jobs.subs.length + 1 = s.jobs.subs.length ∧ (∀ d q, d ≠ ctx.toNat ∨ q ≠ seq.toNat → findSub t d q = findSub s d q) ∧
      s.regsBut [0x808, 0x80C, kCtx ctx.toNat 0x20, kCtx ctx.toNat 0xC8, kPart (ctxPid s ctx.toNat) 0x20] t)) ∧
  (∀ (ctx : BitVec 10) (s : State), cqEn s ctx.toNat = true → fld (cqCfg s ctx.toNat) 11 5 ≠ 0 → (ringOf s ctx.toNat).modCnt ≠ 0 →
    ∃ t, exec (.cqModerationTimer ctx) s = .next t ∧
    t = { s with jobs := { s.jobs with rings := t.jobs.rings }
                 host := s.host ++ [.msi (boundFn s ctx.toNat) (fld (cqCfg s ctx.toNat) 30 20)] } ∧
    ringOf t ctx.toNat = { ringOf s ctx.toNat with modCnt := 0 } ∧ s.ringsBut ctx.toNat t)

/-- NOP and RUN of an unsealed context (10 R303, R304, R312; 11 R350-R353): NOP finishes with STATUS 0x00. The input of a RUN lands at the IN offset
of its entry in the context's share of its first cluster's memory, and nowhere else. Dispatch starts a program on each core of the entry, sets every
semaphore of the context to 0, opens or joins the period of its entry and fixes the deadline. At the end, within its budgets, no core runs the context
and the bytes at the OUT offset are its result. -/
def Obligations.NopAndRun : Prop :=
  ∀ (ctx : BitVec 10) (seq : Word) (s : State) (x : Sub),
    (ready s ctx.toNat seq.toNat 0 = some x → ∃ t, exec (.nop ctx seq) s = .next t ∧
      t = { s with time := t.time, free := t.free, jobs := { s.jobs with subs := t.jobs.subs } } ∧
      s.subNow ctx.toNat seq.toNat { x with st := .done, status := 0, reason := 0, time := stampOf s 32 } t) ∧
    (∀ (input : List Byte) (i : Image) (e : EntryRec) (b : Nat), ready s ctx.toNat seq.toNat 1 = some x → runAhead s x = false →
      periodFull s x = false → myImage s ctx.toNat x.slot = some i → i.entries[x.entry]? = some e → x.inlen ≤ e.inmax →
      x.outlen ≤ e.outmax → conf s (ctxPid s ctx.toNat) ≠ 3 → input.length = x.inlen →
      shareOf s (whoHost (ctxPid s ctx.toNat) ctx.toNat) (cmBase (listGet 0 (placeOf s ctx.toNat) 0)) cmSize = some b →
      s.mayWrite (whoHost (ctxPid s ctx.toNat) ctx.toNat) (b + e.inoff) x.inlen → b + e.inoff + x.inlen ≤ cmBase 32 →
      ∃ t, exec (.run ctx seq input) s = .next t ∧
      { s.hasRead ctx.toNat x.inaddr x.inlen with jobs := { s.jobs with subs := t.jobs.subs } }.onlyAccesses t ∧ s.subNow ctx.toNat seq.toNat { x with st := .input } t ∧
      (∀ m, ∀ j < x.inlen, memByte m t (b + e.inoff + j) = listGet 0 input j) ∧ s.memBut (rangeFrom (b + e.inoff) x.inlen) t) ∧
    (∀ (i : Image) (e : EntryRec), findSub s ctx.toNat seq.toNat = some x → x.st = .input → canGo s x = true → runAhead s x = false →
      getF s (kCtx ctx.toNat 0xFC) 31 30 = 0 → myImage s ctx.toNat x.slot = some i → i.entries[x.entry]? = some e → wptrsSet s i = true →
      ∃ t, exec (.runDispatch ctx seq) s = .next t ∧
      t = { s with jobs := { s.jobs with subs := t.jobs.subs, images := t.jobs.images, periods := t.jobs.periods, budgets := t.jobs.budgets }
                   eng := { s.eng with sems := t.eng.sems, starts := t.eng.starts }, dbg := { s.dbg with fired := t.dbg.fired }
                   pwr := { s.pwr with waking := t.pwr.waking } } ∧
      (∀ r ∈ entryCores (placeOf s ctx.toNat) e, ∃ at_, tabFind (placedCore (placeOf s ctx.toNat) r * 1024 + ctx.toNat) t.eng.starts = some at_ ∧
        (∀ off, i.codes.find? (fun y => y.1 == r) = some (r, off) → (entryCores (placeOf s ctx.toNat) e).all (fun q => q == r ||
          placedCore (placeOf s ctx.toNat) q != placedCore (placeOf s ctx.toNat) r) = true → at_ = i.base + off + e.pc)) ∧
      s.subNow ctx.toNat seq.toNat { x with st := .running, deadline := (i.period x.entry).map fun q =>
        (match openPeriod s ctx.toNat x.slot x.entry with | some o => o.opened | none => now s) + q.2.1 } t ∧
      (∀ cl < 32, ∀ sem < 64, semOf t ctx.toNat cl sem = 0) ∧
      (∀ d, d ≠ ctx.toNat → ∀ cl < 32, ∀ sem < 64, semOf t d cl sem = semOf s d cl sem) ∧
      (i.period x.entry ≠ none → ∃ o, openPeriod t ctx.toNat x.slot x.entry = some o ∧
        (match openPeriod s ctx.toNat x.slot x.entry with
         | some o' => o.opened = o'.opened ∧ o.runs = o'.runs + 1
         | none => o.opened = now s ∧ o.runs = 1)) ∧
      (i.period x.entry = none → t.jobs.periods = s.jobs.periods)) ∧
    (∀ (i : Image) (e : EntryRec), findSub s ctx.toNat seq.toNat = some x → x.opc = 1 → x.st = .running →
      (∀ m ∈ s.eng.cmds, m.ctx ≠ ctx.toNat) → myImage s ctx.toNat x.slot = some i → i.entries[x.entry]? = some e →
      (∀ b ∈ s.jobs.budgets, b.ctx = ctx.toNat → b.slot = x.slot → b.entry = x.entry →
        b.used + (if b.cls = 13 ∧ b.unit = 1 then x.outlen else 0) ≤ b.limit) →
      (x.outlen = 0 → ∃ t tm, exec (.runEnd ctx seq) s = .next t ∧ t.mem = s.mem ∧
        { leaveCores ctx.toNat s with time := t.time, jobs := { s.jobs with subs := t.jobs.subs } }.onlyAccesses t ∧
        (∀ n < 512, getF t (kCore n 0x1C0) 13 13 = 1 → getF t (kCore n 0x1C0) 9 0 ≠ ctx.toNat) ∧
        s.subNow ctx.toNat seq.toNat { x with st := .done, status := 0, reason := 0, time := tm } t) ∧
      (∀ b, 0 < x.outlen →
        shareOf s (whoHost (ctxPid s ctx.toNat) ctx.toNat) (cmBase (listGet 0 (placeOf s ctx.toNat) 0)) cmSize = some b →
        s.mayRead (whoHost (ctxPid s ctx.toNat) ctx.toNat) (b + e.outoff) x.outlen → ∃ t tm, exec (.runEnd ctx seq) s = .next t ∧ t.mem = s.mem ∧
        { leaveCores ctx.toNat s with time := t.time, jobs := { s.jobs with subs := t.jobs.subs } }.onlyAccesses t ∧
        (∀ n < 512, getF t (kCore n 0x1C0) 13 13 = 1 → getF t (kCore n 0x1C0) 9 0 ≠ ctx.toNat) ∧
        s.subNow ctx.toNat seq.toNat { x with st := .done, status := 0, reason := 0, time := tm
                                              out := [(x.outaddr, rawRead s (ctxPid s ctx.toNat) (b + e.outoff) x.outlen)] } t))

/-- Copies of an unsealed context (10 R305): COPYIN lands its bytes at its local range and nowhere else, and checks their digest when it
gives one; COPYOUT's result is the bytes of its range, and memory is as it was. -/
def Obligations.Copies : Prop :=
  ∀ (ctx : BitVec 10) (seq : Word) (s : State) (x : Sub),
    (∀ data : List Byte, ready s ctx.toNat seq.toNat 2 = some x → conf s (ctxPid s ctx.toNat) ≠ 3 → data.length = x.len →
      s.mayWrite (whoHost (ctxPid s ctx.toNat) ctx.toNat) x.localAddr x.len →
      (keysOf s (ctxPid s ctx.toNat) x.localAddr x.len).Nodup → (keysOf s (ctxPid s ctx.toNat) x.localAddr x.len).length = x.len →
      ∃ t tm, exec (.copyin ctx seq data) s = .next t ∧
      { s.hasRead ctx.toNat x.hostAddr x.len with time := t.time, jobs := { s.jobs with subs := t.jobs.subs } }.onlyAccesses t ∧
      rawRead t (ctxPid s ctx.toNat) x.localAddr x.len = data ∧ s.memBut (keysOf s (ctxPid s ctx.toNat) x.localAddr x.len) t ∧
      s.subNow ctx.toNat seq.toNat { x with st := .done, status := if x.dig = true ∧ sha3 data ≠ x.digest then 5 else 0, reason := 0, time := tm } t) ∧
    (ready s ctx.toNat seq.toNat 3 = some x → s.mayRead (whoHost (ctxPid s ctx.toNat) ctx.toNat) x.localAddr x.len →
      ∃ t tm, exec (.copyout ctx seq) s = .next t ∧ { s with time := t.time, jobs := { s.jobs with subs := t.jobs.subs } }.onlyAccesses t ∧
      t.mem = s.mem ∧ s.subNow ctx.toNat seq.toNat { x with st := .done, status := 0, reason := 0, time := tm
                                                            out := [(x.hostAddr, rawRead s (ctxPid s ctx.toNat) x.localAddr x.len)] } t)

/-- Images of an unsealed context (10 R306, R314; 11 R337, R343, R355): LOADIMG into an empty slot lands the bytes and then waits for
admission, or finishes with STATUS 0x04 and reason 0x86 when they are no image; admission takes the one that came first, answers in the admission
registers and binds the slot or leaves it empty; a slot bound meanwhile is answered 0x84; UNLOADIMG empties the slot of the context and gives up its periods and budgets. -/
def Obligations.Images : Prop :=
  ∀ (ctx : BitVec 10) (seq : Word) (s : State) (x : Sub),
    (∀ data : List Byte, ready s ctx.toNat seq.toNat 4 = some x → findImage s (ctxPid s ctx.toNat) x.loadSlot = none →
      insideShare s (ctxPid s ctx.toNat) x.localAddr x.len = true → conf s (ctxPid s ctx.toNat) ≠ 3 → data.length = x.len →
      s.mayWrite (whoHost (ctxPid s ctx.toNat) ctx.toNat) x.localAddr x.len →
      (keysOf s (ctxPid s ctx.toNat) x.localAddr x.len).Nodup → (keysOf s (ctxPid s ctx.toNat) x.localAddr x.len).length = x.len →
      ∃ t tm, exec (.loadimg ctx seq data) s = .next t ∧
      { s.hasRead ctx.toNat x.hostAddr x.len with time := t.time, jobs := { s.jobs with subs := t.jobs.subs, admq := t.jobs.admq } }.onlyAccesses t ∧
      t.jobs.admq = s.jobs.admq ++ (if (parseImage s.assy.toNat (insideShare s (ctxPid s ctx.toNat)) data).isSome = true then
        [(ctx.toNat, seq.toNat)] else []) ∧
      rawRead t (ctxPid s ctx.toNat) x.localAddr x.len = data ∧ s.memBut (keysOf s (ctxPid s ctx.toNat) x.localAddr x.len) t ∧
      s.subNow ctx.toNat seq.toNat (if (parseImage s.assy.toNat (insideShare s (ctxPid s ctx.toNat)) data).isSome = true then
        { x with st := .running, gdata := data } else { x with st := .done, status := 4, reason := 0x86, time := tm }) t) ∧
    (∀ i : Image, ready s ctx.toNat seq.toNat 5 = some x → myImage s ctx.toNat x.slot = some i →
      slotBusy s ctx.toNat x.slot (subsAhead s x) = false → ∃ t, exec (.unloadimg ctx seq) s = .next t ∧
      t = { s with regs := t.regs, time := t.time, free := t.free
                   jobs := { s.jobs with subs := t.jobs.subs, images := t.jobs.images, periods := t.jobs.periods, budgets := t.jobs.budgets } } ∧
      s.subNow ctx.toNat seq.toNat { x with st := .done, status := 0, reason := 0, time := stampOf s 32 } t ∧
      findImage t i.pid i.slot = none ∧ (∀ p k, p ≠ i.pid ∨ k ≠ i.slot → findImage t p k = findImage s p k) ∧
      (∀ e, openPeriod t i.ctx i.slot e = none) ∧ (∀ b ∈ t.jobs.budgets, b.ctx = i.ctx → b.slot ≠ i.slot) ∧
      (i.slot < 256 → bit (getR t (kPart i.pid (0x40 + 4 * (i.slot / 32)))) (i.slot % 32) = false) ∧
      s.regsBut [kPart i.pid (0x40 + 4 * (i.slot / 32))] t) ∧
    (∀ im : Parsed, findSub s ctx.toNat seq.toNat = some x → rtpServes s = true → s.jobs.admq.find? (awaits s) = some (ctx.toNat, seq.toNat) →
      parseImage s.assy.toNat (insideShare s (ctxPid s ctx.toNat)) x.gdata = some im → findImage s (ctxPid s ctx.toNat) x.loadSlot = none →
      ∃ t a i tm, exec (.admission ctx seq) s = .next t ∧
      i = { pid := ctxPid s ctx.toNat, slot := x.loadSlot, ctx := ctx.toNat, base := x.localAddr, digest := im.digest
            entries := im.entries, recs := im.recs, last := 0, codes := (im.sects.filter fun k => k.typ == 3).map fun k => (k.tgt, k.off) } ∧
      a = judgeImage { s with jobs := { s.jobs with admq := t.jobs.admq } } i ∧ (ctx.toNat, seq.toNat) ∉ t.jobs.admq ∧
      getR t (kPart (ctxPid s ctx.toNat) 0x10) = BitVec.ofNat 32 (a.code * 2 ^ 24 + a.cls * 2 ^ 20 + a.unit * 256) ∧
      getR t (kPart (ctxPid s ctx.toNat) 0x14) = BitVec.ofNat 32 a.rate ∧
      s.subNow ctx.toNat seq.toNat { x with st := .done, gdata := [], result := leAt im.digest 0 4, time := tm
                                            status := if a.code = 0 then 0 else 1, reason := a.code } t ∧
      (a.code ≠ 0 → t.mem = s.mem ∧ t.jobs.images = s.jobs.images ∧ t.jobs.periods = s.jobs.periods ∧
        s.regsBut [kPart (ctxPid s ctx.toNat) 0x10, kPart (ctxPid s ctx.toNat) 0x14] t) ∧
      (a.code = 0 → a.evict = [] → x.loadSlot < 256 → t.jobs.images = s.jobs.images ++ [{ i with last := now s }] ∧
        bit (getR t (kPart (ctxPid s ctx.toNat) (0x40 + 4 * (x.loadSlot / 32)))) (x.loadSlot % 32) = true)) ∧
    (∀ im : Parsed, findSub s ctx.toNat seq.toNat = some x → rtpServes s = true → s.jobs.admq.find? (awaits s) = some (ctx.toNat, seq.toNat) →
      parseImage s.assy.toNat (insideShare s (ctxPid s ctx.toNat)) x.gdata = some im → findImage s (ctxPid s ctx.toNat) x.loadSlot ≠ none →
      ∃ t, exec (.admission ctx seq) s = .next t ∧
      t = { s with time := t.time, free := t.free, jobs := { s.jobs with subs := t.jobs.subs, admq := t.jobs.admq } } ∧
      s.subNow ctx.toNat seq.toNat { x with st := .done, gdata := [], status := 4, reason := 0x84, time := stampOf s 32 } t)

/-- Commit groups (10 R307, R324, R325, R327; unsealed): COMMIT brings the group image; it is staged after the groups already staged, or
finishes with STATUS 0x02 and reason 0x88; the drain stops dispatch; a drain that does not end in time aborts the first group with reason
0x8A and lets dispatch go on.
The commit point (10 R323, R325, R326) with one staged group of weight-pointer actions: with every range inside the share all pointers
are set, the last action of an index winning, and the COMMIT finishes with STATUS 0x00; if a range is not, none is set, and it finishes
with STATUS 0x02, reason 0x89 and the first such action's index. -/
def Obligations.CommitGroups : Prop :=
  ((∀ (ctx : BitVec 10) (seq : Word) (data : List Byte) (s : State) (x : Sub), ready s ctx.toNat seq.toNat 6 = some x →
     conf s (ctxPid s ctx.toNat) ≠ 3 → data.length = x.commitLen → ∃ t, exec (.commit ctx seq data) s = .next t ∧
     t = { s.hasRead ctx.toNat x.hostAddr x.commitLen with jobs := { s.jobs with subs := t.jobs.subs } } ∧
     s.subNow ctx.toNat seq.toNat { x with st := .fetchedGroup, gdata := data } t ∧ s.regsBut [0x800, 0x804] t) ∧
   (∀ (pid : BitVec 5) (s : State) (x : Sub),
     s.jobs.subs.find? (fun x => x.st == .fetchedGroup && ctxOwner s x.ctx == some pid.toNat && !(ringOf s x.ctx).stopped) = some x →
     findSub s x.ctx x.seq = some x →
     (parseGroup s pid.toNat x.ctx (.commit x.seq) x.gdata = none → ∃ t, exec (.groupStage pid) s = .next t ∧
       t = { s with time := t.time, free := t.free, jobs := { s.jobs with subs := t.jobs.subs } } ∧
       s.subNow x.ctx x.seq { x with st := .done, status := 2, reason := 0x88, time := stampOf s 32 } t) ∧
     (∀ g, parseGroup s pid.toNat x.ctx (.commit x.seq) x.gdata = some g → (groupsOf s pid.toNat).length < 16 →
       ∃ t, exec (.groupStage pid) s = .next t ∧
       t = { s with jobs := { s.jobs with subs := t.jobs.subs, groups := s.jobs.groups ++ [g] } } ∧
       s.subNow x.ctx x.seq { x with st := .staged } t)) ∧
   (∀ (pid : BitVec 5) (s : State), groupsOf s pid.toNat ≠ [] → drainOf s pid.toNat = none → stillHeld s pid.toNat = false →
     ∃ t d, exec (.commitDrainStart pid) s = .next t ∧
     t = { s with jobs := { s.jobs with drains := s.jobs.drains ++ [d], heldBack := t.jobs.heldBack } } ∧ d.pid = pid.toNat ∧
     (∀ c q, (c, q) ∈ d.waits ↔ ∃ x ∈ s.jobs.subs, x.ctx = c ∧ x.seq = q ∧ ctxOwner s c = some pid.toNat ∧ x.opc ≠ 6 ∧
       (x.st = .running ∨ x.st = .done)) ∧
     (∀ x : Sub, ctxOwner s x.ctx = some pid.toNat → x.opc ≠ 6 → canGo t x = false)) ∧
   (∀ (pid : BitVec 5) (s : State) (d : Drain) (g : Group) (r : List Group) (q : Nat) (x : Sub), drainOf s pid.toNat = some d →
     drained s d = false → groupsOf s pid.toNat = g :: r → g.src = .commit q → findSub s g.owner q = some x →
     ∃ t, exec (.commitDrainTimeout pid) s = .next t ∧
     t = { s with time := t.time, free := t.free,
                  jobs := { s.jobs with subs := t.jobs.subs, groups := t.jobs.groups, drains := t.jobs.drains, heldBack := t.jobs.heldBack } } ∧
     drainOf t pid.toNat = none ∧ groupsOf t pid.toNat = r ∧
     s.subNow g.owner q { x with st := .done, status := 2, reason := 0x8A, result := 0, time := stampOf s 32 } t)) ∧
(∀ (pid : BitVec 5) (s : State) (d : Drain) (g : Group) (q : Nat) (x : Sub), drainOf s pid.toNat = some d → drained s d = true →
     groupsOf s pid.toNat = [g] → g.src = .commit q → findSub s g.owner q = some x → g.acts ≠ [] →
     (∀ a ∈ g.acts, actType a = 1 ∧ actArg0 a < 4096) →
     ((∀ a ∈ g.acts, insideShare s pid.toNat (actArg1 a) (leNat (actData a)) = true) → ∃ t, exec (.commitPoint pid) s = .next t ∧
       t = { s with time := t.time, free := t.free,
                    jobs := { s.jobs with subs := t.jobs.subs, groups := t.jobs.groups, drains := t.jobs.drains, wptr := t.jobs.wptr } } ∧
       s.subNow g.owner q { x with st := .done, status := 0, reason := 0, result := 0, time := stampOf s 32 } t ∧
       drainOf t pid.toNat = none ∧ groupsOf t pid.toNat = [] ∧
       (∀ k, tabFind k t.jobs.wptr = match g.acts.reverse.find? (fun a => pid.toNat * 4096 + actArg0 a == k) with
         | some a => some (actArg1 a, leNat (actData a))
         | none => tabFind k s.jobs.wptr)) ∧
     (∀ (i : Nat) (a : List Byte), g.acts[i]? = some a → insideShare s pid.toNat (actArg1 a) (leNat (actData a)) = false →
       (∀ j < i, ∀ b, g.acts[j]? = some b → insideShare s pid.toNat (actArg1 b) (leNat (actData b)) = true) →
       ∃ t, exec (.commitPoint pid) s = .next t ∧
       t = { s with time := t.time, free := t.free,
                    jobs := { s.jobs with subs := t.jobs.subs, groups := t.jobs.groups, drains := t.jobs.drains } } ∧
       s.subNow g.owner q { x with st := .done, status := 2, reason := 0x89, result := i, time := stampOf s 32 } t ∧
       drainOf t pid.toNat = none ∧ groupsOf t pid.toNat = []))

/-- Periods and budgets (11 R350-R352): a period that closes gives up its budgets, but for those a RUN still runs on, and frees the RUNs held for it; an overrun, of cycles or of a
counted unit past its limit, is recorded with reason 0xB0, counted, and resets the context. -/
def Obligations.PeriodsAndBudgets : Prop :=
  (∀ (pid : BitVec 5) (slot entry : Byte) (s : State) (i : Image), findImage s pid.toNat slot.toNat = some i →
    ∃ t, exec (.periodClose pid slot entry) s = .next t ∧
    t = { s with jobs := { s.jobs with subs := t.jobs.subs, periods := t.jobs.periods, budgets := t.jobs.budgets } } ∧
    openPeriod t i.ctx slot.toNat entry.toNat = none ∧
    (∀ c k e, c ≠ i.ctx ∨ k ≠ slot.toNat ∨ e ≠ entry.toNat → openPeriod t c k e = openPeriod s c k e) ∧
    (∀ b, b ∈ t.jobs.budgets ↔ b ∈ s.jobs.budgets ∧ (¬ (b.ctx = i.ctx ∧ b.slot = slot.toNat ∧ b.entry = entry.toNat) ∨
      inRun s i.ctx slot.toNat entry.toNat = true)) ∧
    (∀ c q x, findSub s c q = some x → findSub t c q = some (if x.ctx = i.ctx ∧ x.st = .held ∧ x.slot = slot.toNat ∧
      x.entry = entry.toNat then { x with st := .fetched } else x))) ∧
  (∀ (ctx : BitVec 10) (cls : BitVec 4) (unit : BitVec 12) (s : State) (x : Sub) (b : Budget) (p : Nat), runningRun s ctx.toNat = some x →
    ctxOwner s ctx.toNat = some p → partState s p = 2 → bit (getR s (kCtx ctx.toNat 0xEC)) 1 = false → b ∈ s.jobs.budgets →
    b.ctx = ctx.toNat → b.slot = x.slot → b.entry = x.entry → b.cls = cls.toNat → b.unit = unit.toNat →
    (cls.toNat ≤ 10 ∨ b.limit < b.used) → ∃ t, exec (.budgetOverrun ctx cls unit) s = .next t ∧
    (bit (getR s (kCtx ctx.toNat 0xD0)) 31 = false → bit (getR t (kCtx ctx.toNat 0xD0)) 31 = true ∧
      getF t (kCtx ctx.toNat 0xD0) 23 16 = 0xB0 ∧ getF t (kCtx ctx.toNat 0xD0) 27 24 = cls.toNat ∧
      getF t (kCtx ctx.toNat 0xD0) 11 0 = unit.toNat) ∧
    getR t (kPart p 0x1C) = sat32Add (getR s (kPart p 0x1C)) 1 ∧ bit (getR t (kCtx ctx.toNat 0xEC)) 1 = true ∧
    t.jobs.resetting = s.jobs.resetting ++ [(ctx.toNat, 0xB0)] ∧ (∀ m ∈ t.eng.cmds, m.ctx ≠ ctx.toNat) ∧
    (ringOf t ctx.toNat).stopped = true ∧ s.ringsBut ctx.toNat t)

/-- The command envelope (10 R315-R318; 02 R56; 11 R340, R535): an issued command takes the next number of its context and core, joins its
queue, and runs when its waits are met and none before it in its queue has work to do; a bad envelope faults the context with reason 0x80;
a command that completes leaves, its flags stick and its signals add 1; a control core shows the context chosen for it. -/
def Obligations.CommandEnvelope : Prop :=
  (∀ (core : BitVec 9) (ctx : BitVec 10) (env : Env) (s : State), mayIssue s core.toNat ctx.toNat = true →
    (opcClass (envOpc env) ≠ none → envReserved env = false → envOutside s ctx.toNat env = false →
      ∃ t l m, exec (.commandStart core ctx env) s = .next t ∧
      t = { s with eng := { s.eng with cseq := t.eng.cseq, cmds := l ++ [m] }, dbg := { s.dbg with steps := t.dbg.steps } } ∧ l.length = s.eng.cmds.length ∧ m.core = core.toNat ∧
      m.ctx = ctx.toNat ∧ m.env = env ∧ m.cseq = (cseqOf s core.toNat ctx.toNat + 1).toNat ∧ m.pay = none ∧
      m.strict = bit (getR s (kCtx ctx.toNat 0x40)) 0 ∧ m.satm = bit (getR s (kCtx ctx.toNat 0x40)) 1 ∧
      cseqOf t core.toNat ctx.toNat = cseqOf s core.toNat ctx.toNat + 1 ∧
      (m.running = true ↔ waitsMet s m = true ∧ ∀ q ∈ s.eng.cmds, q.ctx = ctx.toNat → q.queue = m.queue → q.pay ≠ none)) ∧
    (opcClass (envOpc env) = none ∨ envReserved env = true → bit (getR s (kCtx ctx.toNat 0xD0)) 31 = false →
      ∃ t, exec (.commandStart core ctx env) s = .next t ∧ bit (getR t (kCtx ctx.toNat 0xD0)) 31 = true ∧
      getF t (kCtx ctx.toNat 0xD0) 23 16 = 0x80)) ∧
  (∀ (core : BitVec 9) (ctx : BitVec 10) (opc : Byte) (s : State) (m : EngCmd),
    s.eng.cmds.find? (fun m => m.core == core.toNat && m.ctx == ctx.toNat && envOpc m.env == opc.toNat && m.pay.isSome && landed s m) = some m →
    bit m.env.w0 13 = false → ∃ t, exec (.commandComplete core ctx opc) s = .next t ∧ t.mem = s.mem ∧ t.jobs = s.jobs ∧
    (∀ n ∈ t.eng.cmds, n.core ≠ m.core ∨ n.ctx ≠ m.ctx ∨ n.cseq ≠ m.cseq) ∧
    getR t (kCtx m.ctx 0x4C) = getR s (kCtx m.ctx 0x4C) ||| BitVec.ofNat 32 (m.status.toNat % 256) ∧
    (∀ cl < 32, ∀ sem < 64, semOf t m.ctx cl sem = semOf s m.ctx cl sem +
      (if bit m.env.w3 31 = true ∧ fld m.env.w3 24 20 = cl ∧ fld m.env.w3 30 25 = sem then 1 else 0) +
      (if bit m.env.w3 15 = true ∧ fld m.env.w3 8 4 = cl ∧ fld m.env.w3 14 9 = sem then 1 else 0))) ∧
  (∀ (n : BitVec 12) (s : State), n.toNat < 512 →
    (∀ c owed, choose s 0 n.toNat = some (c, owed) → ∃ t, exec (.unitSchedule 0 n) s = .next t ∧
      t = { s with regs := t.regs, eng := { s.eng with active := t.eng.active } } ∧ servedBy t 0 n.toNat = some c ∧
      underCredit t 0 n.toNat = owed ∧ getR t (kCore n.toNat 0x1C0) = BitVec.ofNat 32 (2 ^ 13 + unitSlot s 0 n.toNat c * 1024 + c) ∧
      getR t (kCore n.toNat 0x1C4) = (if getR s (kCore n.toNat 0x1C0) = getR t (kCore n.toNat 0x1C0) then getR s (kCore n.toNat 0x1C4)
        else sat32Add (getR s (kCore n.toNat 0x1C4)) 1) ∧ s.regsBut [kCore n.toNat 0x1C0, kCore n.toNat 0x1C4] t) ∧
    (choose s 0 n.toNat = none → ∃ t, exec (.unitSchedule 0 n) s = .next t ∧
      t = { s with regs := t.regs, eng := { s.eng with active := t.eng.active } } ∧ servedBy t 0 n.toNat = none ∧
      getR t (kCore n.toNat 0x1C0) = 0 ∧ s.regsBut [kCore n.toNat 0x1C0] t)) ∧
  (∀ (core : BitVec 9) (ctx : BitVec 10) (exc : CcExc) (addr : BitVec 48) (s : State), mayIssue s core.toNat ctx.toNat = true →
    exc ≠ .badFetch → bit (getR s (kCtx ctx.toNat 0xD0)) 31 = false → ∃ t, exec (.controlCoreException core ctx exc addr) s = .next t ∧
    bit (getR t (kCtx ctx.toNat 0xD0)) 31 = true ∧ getF t (kCtx ctx.toNat 0xD0) 23 16 = 0xE7 ∧ getF t (kCtx ctx.toNat 0xD0) 27 24 = 0 ∧
    getF t (kCtx ctx.toNat 0xD0) 11 0 = core.toNat)

/-- VEW, VROW and VSF (05 R117-R123, R139, R141): decoded and granted its rows, each runs to its end, tells the rows it produced, and writes its
output rows and nothing else in memory; no register but the unit's counters and status changes.
VSMAX and VNORM (05 R143-R148): as the element commands; VSMAX also uses its work rows. -/
def Obligations.VectorCommands : Prop :=
  (∀ (core : BitVec 9) (ctx : BitVec 10) (p : Pay) (s : State) (m : EngCmd) (w : Who) (b ob : Nat),
     w = whoVec s core.toNat ctx.toNat → s.memShare w core.toNat false = some b →
     (s.runs core.toNat ctx.toNat 0x20 m → firstCode (vewCodes p) = none → s.memShare w core.toNat (pb p 0 8) = some ob →
       s.mayReadRows w (b + vAddr p) (vStride p) (vM p) (rowBytes (pf p 0 25 22) (vN p)) →
       (usesB (pf p 0 31 26) = true → pf p 0 10 9 = 0 →
         s.mayReadRows w (b + pf p 3 31 17 * 64) (pf p 3 16 6 * 64) (vM p) (rowBytes (pf p 0 21 18) (vN p))) →
       (usesB (pf p 0 31 26) = true → 2 ≤ pf p 0 10 9 →
         s.mayRead w (b + pf p 3 31 17 * 64) (rowBytes (pf p 0 21 18) (if pf p 0 10 9 = 2 then vN p else vM p))) →
       s.mayOut w (vOut p m ob (pf p 0 17 14) (pf p 0 13 12) (pb p 0 11)) (vM p) (vN p) →
       ∃ t fl, exec (.vew core ctx p) s = .next t ∧ s.didWork m p (statusWord (vM p) fl)
         (outKeys s w.pid (vOut p m ob (pf p 0 17 14) (pf p 0 13 12) (pb p 0 11)) (vM p) (vN p)) [] t) ∧
     (s.runs core.toNat ctx.toNat 0x21 m → firstCode (vrowCodes p) = none → s.memShare w core.toNat (pb p 0 24) = some ob →
       s.mayReadRows w (b + vAddr p) (vStride p) (vM p) (rowBytes (pf p 0 28 25) (vN p)) →
       s.mayWriteRows w (ob + pf p 4 31 13 * 64) 4 (vM p) 4 →
       ∃ t fl, exec (.vrow core ctx p) s = .next t ∧ s.didWork m p (statusWord (vM p) fl)
         (rowKeys s w.pid (ob + pf p 4 31 13 * 64) 4 (vM p) 4) [] t) ∧
     (s.runs core.toNat ctx.toNat 0x22 m → firstCode (vsfCodes p) = none →
       (∀ i, 0xC ≤ pf p 0 31 27 → slotOf s core.toNat ctx.toNat = some i → errAt s false (rangeFrom (tblBase core.toNat i (pf p 0 31 27 - 0xC)
         (if m.banks.testBit (pf p 0 31 27 - 0xC) then 1 else 0)) 1056) = none) →
       s.memShare w core.toNat (pb p 0 15) = some ob →
       s.mayReadRows w (b + vAddr p) (vStride p) (vM p) (rowBytes (pf p 0 26 23) (vN p)) →
       s.mayOut w (vOut p m ob (pf p 0 22 19) (pf p 0 18 17) (pb p 0 16)) (vM p) (vN p) →
       ∃ t fl, exec (.vsf core ctx p) s = .next t ∧ s.didWork m p (statusWord (vM p) fl)
         (outKeys s w.pid (vOut p m ob (pf p 0 22 19) (pf p 0 18 17) (pb p 0 16)) (vM p) (vN p)) [] t)) ∧
(∀ (core : BitVec 9) (ctx : BitVec 10) (p : Pay) (s : State) (m : EngCmd) (w : Who) (b ob : Nat),
     w = whoVec s core.toNat ctx.toNat → s.memShare w core.toNat false = some b →
     (s.runs core.toNat ctx.toNat 0x24 m → firstCode (vsmaxCodes p) = none → s.memShare w core.toNat (pb p 0 16) = some ob →
       s.mayReadRows w (b + vAddr p) (vStride p) (vM p) (rowBytes (pf p 0 27 24) (vN p)) →
       s.mayWriteRows w (b + pf p 3 31 17 * 64) (pf p 3 16 6 * 64) (vM p) (4 * vN p) →
       s.mayOut w (vOut p m ob (pf p 0 23 20) (pf p 0 19 18) (pb p 0 17)) (vM p) (vN p) →
       ∃ t fl, exec (.vsmax core ctx p) s = .next t ∧ s.didWork m p (statusWord (vM p) fl)
         (rowKeys s w.pid (b + pf p 3 31 17 * 64) (pf p 3 16 6 * 64) (vM p) (4 * vN p) ++
           outKeys s w.pid (vOut p m ob (pf p 0 23 20) (pf p 0 19 18) (pb p 0 17)) (vM p) (vN p)) [] t) ∧
     (s.runs core.toNat ctx.toNat 0x25 m → firstCode (vnormCodes p) = none → s.memShare w core.toNat (pb p 0 18) = some ob →
       s.mayReadRows w (b + vAddr p) (vStride p) (vM p) (rowBytes (pf p 0 29 26) (vN p)) →
       (pb p 0 17 = true → s.mayRead w (b + pf p 3 31 17 * 64) (rowBytes 0 (vN p))) →
       (pb p 0 16 = true → s.mayRead w (b + pf p 3 16 2 * 64) (rowBytes 0 (vN p))) →
       s.mayOut w (vOut p m ob (pf p 0 25 22) (pf p 0 21 20) (pb p 0 19)) (vM p) (vN p) →
       ∃ t fl, exec (.vnorm core ctx p) s = .next t ∧ s.didWork m p (statusWord (vM p) fl)
         (outKeys s w.pid (vOut p m ob (pf p 0 25 22) (pf p 0 21 20) (pb p 0 19)) (vM p) (vN p)) [] t))

/-- MXMUL and MXTAMP (03 R79-R86, 04 R112): decoded, and granted the accesses of their problems, they run to their end; only the accumulator
regions of their problems change in memory, and only counters and status among the registers. A table entry with no rows is passed over. -/
def Obligations.MatrixCommands : Prop :=
  ∀ (core : BitVec 9) (ctx : BitVec 10) (p : Pay) (s : State) (m : EngCmd) (b : Nat),
    s.memShare (whoFeed s core.toNat ctx.toNat) core.toNat false = some b →
    (s.runs core.toNat ctx.toNat 0x10 m → firstCode (mxCodes (mxOf m p false) p) = none →
      s.mayProb ctx.toNat (mxOf m p false) (mxProb p) b →
      ∃ t fl, exec (.mxmul core ctx p) s = .next t ∧
        s.didWork m p (statusWord 0 fl) (probKeys s ctx.toNat (mxOf m p false) (mxProb p)) [] t) ∧
    (∀ (es : List (List Byte)) (K : List Nat), s.runs core.toNat ctx.toNat 0x11 m → firstCode (mxCodes (mxOf m p true) p) = none →
      es.length = pf p 2 16 6 →
      (∀ i e, es[i]? = some e → s.mayRead (whoFeed s core.toNat ctx.toNat) (b + pf p 2 31 17 * 64 + 16 * i) 16 ∧
        e = rawRead s (ctxPid s ctx.toNat) (b + pf p 2 31 17 * 64 + 16 * i) 16 ∧ entryReserved e = false ∧
        roundUp (entryProb e).m 16 ≤ shapeM (mxOf m p true).shape ∧ regionEnd (mxOf m p true).w (entryProb e) ≤ 131072 ∧
        ((entryProb e).m ≠ 0 → s.mayProb ctx.toNat (mxOf m p true) (entryProb e) b) ∧
        (∀ k ∈ keysOf s (ctxPid s ctx.toNat) (b + pf p 2 31 17 * 64 + 16 * i) 16, k ∉ K)) →
      K = (es.filter fun e => (entryProb e).m != 0).flatMap (fun e => probKeys s ctx.toNat (mxOf m p true) (entryProb e)) →
      ∃ t fl, exec (.mxtamp core ctx p) s = .next t ∧ s.didWork m p (statusWord 0 fl) K [] t)

/-- DRCVT (04 R98-R104): decoded, its entries readable and its output granted, it runs to its end with the rows it covered. AMAX writes the amax
word alone; a derived scale is stored beside it; otherwise only its output rows change in memory, and none of them when the rows leave for
a combine or page engine. -/
def Obligations.DrainConversions : Prop :=
  ∀ (core : BitVec 9) (ctx : BitVec 10) (p : Pay) (s : State) (m : EngCmd) (w : Who) (c : Cvt) (rows : List (Nat × Nat × Nat)) (cb : Nat)
    (S : List Nat), w = whoDrain s core.toNat ctx.toNat → s.runs core.toNat ctx.toNat 0x18 m → c = cvtOf m p →
    firstCode (cvtCodes s ctx.toNat c p) = none → s.covers ctx.toNat c p rows → s.mayAcc ctx.toNat c.w c.cols (rows.map (·.2)) →
    (c.amax = true ∨ c.scsrc = true ∨ c.dest = 1 → s.memShare w core.toNat true = some cb) →
    (c.amax = true → s.mayRead w (cb + pf p 5 19 1 * 64) 4 → s.mayWrite w (cb + pf p 5 19 1 * 64) 4 →
      ∃ t fl, exec (.drcvt core ctx p) s = .next t ∧ s.didWork m p (statusWord 0 fl) (keysOf s w.pid (cb + pf p 5 19 1 * 64) 4) [] t) ∧
    (c.amax = false →
      (if c.scsrc then s.mayRead w (cb + pf p 5 19 1 * 64) 4 ∧ s.mayWrite w (cb + pf p 5 19 1 * 64 + 4) 1 ∧
        S = keysOf s w.pid (cb + pf p 5 19 1 * 64 + 4) 1 else S = []) →
      (c.dest = 0 → ∀ b, s.memShare w core.toNat false = some b → s.mayOut w (c.place p b) rows.length c.rowCols →
        (c.n ≤ c.rowCols → ∃ t fl, exec (.drcvt core ctx p) s = .next t ∧
          s.didWork m p (statusWord rows.length fl) (S ++ outKeys s w.pid (c.place p b) rows.length c.rowCols) [] t) ∧
        (∀ w' b', c.rowCols < c.n → w' = whoDrain s (core.toNat + 1) ctx.toNat → s.memShare w' (core.toNat + 1) false = some b' →
          s.mayOut w' (c.place p b') rows.length (c.n - c.rowCols) → ∃ t fl, exec (.drcvt core ctx p) s = .next t ∧
          s.didWork m p (statusWord rows.length fl) (S ++ outKeys s w.pid (c.place p b) rows.length c.rowCols ++
            outKeys s w.pid (c.place p b') rows.length (c.n - c.rowCols)) [] t)) ∧
      (c.dest = 1 → s.mayOut w (c.place p cb) rows.length c.n → ∃ t fl, exec (.drcvt core ctx p) s = .next t ∧
        s.didWork m p (statusWord rows.length fl) (S ++ outKeys s w.pid (c.place p cb) rows.length c.n) [] t) ∧
      (c.dest = 2 → bit (clMask s w.pid) (fld c.arg 31 27) = true → ∃ t fl, exec (.drcvt core ctx p) s = .next t ∧
        s.didWork m p (statusWord rows.length fl) S [] t) ∧
      (c.dest = 3 → ∀ b, s.memShare w core.toNat false = some b →
        (∀ k < rows.length, s.mayRead w (b + fld c.arg 18 4 * 64 + 8 * k) 8) → ∃ t fl, exec (.drcvt core ctx p) s = .next t ∧
        s.didWork m p (statusWord rows.length fl) S [] t))

/-- DRRED, DRSPLIT and GRPASS (04 R105-R113): decoded and granted their accesses, they run to their ends and tell the rows; DRRED writes one
candidate a row, DRSPLIT its accumulator rows, GRPASS its output rows, and nothing else in memory. -/
def Obligations.DrainRows : Prop :=
  ∀ (core : BitVec 9) (ctx : BitVec 10) (p : Pay) (s : State) (m : EngCmd) (w : Who) (b ob rows n : Nat), rows = pf p 0 8 0 → n = pf p 1 31 20 →
    w = whoDrain s core.toNat ctx.toNat →
    (s.runs core.toNat ctx.toNat 0x19 m → firstCode (redCodes p) = none → s.memShare w core.toNat (pb p 2 12) = some ob →
      (pb p 0 27 = false → s.mayAcc ctx.toNat (shapeW (pf p 0 25 24)) [(core.toNat, if pf p 0 31 30 = 1 then 0 else 1, 0, n)]
        ((rangeFrom 0 rows).map fun i => (pf p 1 19 13, i))) →
      (pb p 0 27 = true → s.memShare w core.toNat (pb p 4 12) = some b ∧
        s.mayReadRows w (b + pf p 4 31 13 * 64) (pf p 4 11 1 * 64) rows (8 * n)) →
      s.mayWriteRows w (ob + pf p 2 31 13 * 64) 8 rows 8 → ∃ t fl, exec (.drred core ctx p) s = .next t ∧
        s.didWork m p (statusWord rows fl) (rowKeys s w.pid (ob + pf p 2 31 13 * 64) 8 rows 8) [] t) ∧
    (∀ (cols : List (Nat × Nat × Nat × Nat)) (W : Nat) (K : List Nat), s.runs core.toNat ctx.toNat 0x1A m → firstCode (splitCodes p) = none →
      W = shapeW (pf p 0 29 28) → cols = arrCols W n (arrsOf core.toNat (pf p 0 31 30)) → s.memShare w core.toNat (pb p 2 12) = some b →
      (∀ j < pf p 0 25 21, s.mayReadRows w (b + pf p 2 31 13 * 64 + j * pf p 3 31 8 * 64) (pf p 2 11 1 * 64) rows (4 * n)) →
      (pb p 0 26 = false → s.mayAcc ctx.toNat W cols ((rangeFrom 0 rows).map fun i => (pf p 1 19 13, i))) →
      (∀ c a n0 k, (c, a, n0, k) ∈ cols → ∃ ba, shareOf s w (accBase c a) accSize = some ba ∧
        s.mayWriteRows w (ba + pf p 1 19 13 * 1024) (W * 4) rows (4 * k) ∧
        ∀ x ∈ rowKeys s w.pid (ba + pf p 1 19 13 * 1024) (W * 4) rows (4 * k), x ∈ K) →
      ∃ t fl, exec (.drsplit core ctx p) s = .next t ∧ s.didWork m p (statusWord rows fl) K [] t) ∧
    (∀ (g : GrSlot) (v : Who) (o : OutForm), s.runs core.toNat ctx.toNat 0x1C m → g = grSlot m (pf p 0 31 29) → firstCode (grCodes g p) = none →
      v = whoGrind s core.toNat ctx.toNat → s.memShare v core.toNat false = some b → s.memShare v core.toNat (pb p 0 21) = some ob →
      (g.smooth = true → s.mayRead v (b + g.table) (4 * pf p 1 31 16)) →
      s.mayReadRows v (b + pf p 2 31 17 * 64) (pf p 2 16 6 * 64) (pf p 0 12 0) (rowBytes g.ifmt (pf p 1 31 16)) →
      o.fmt = pf p 0 28 25 → o.lay = pf p 0 24 23 → o.addr = ob + pf p 3 31 13 * 64 → o.stride = pf p 3 12 2 * 64 →
      o.saddr = ob + pf p 4 31 11 * 16 → o.sstride = pf p 4 10 0 * 16 → s.mayOut v o (pf p 0 12 0) (pf p 1 31 16) →
      ∃ t fl, exec (.grpass core ctx p) s = .next t ∧
        s.didWork m p (statusWord (pf p 0 12 0) fl) (outKeys s v.pid o (pf p 0 12 0) (pf p 1 31 16)) [] t)

/-- DRRSLD and VTLD (04 R102, 05 R137): decoded and granted their reads, they load the rescale entries named, and a shadow bank of a table slot,
from the bytes read; the slot's shadow is then not valid. It is valid on the core once the VTLD completes, and SHVALID shows whether it is on every
core where the context is resident. -/
def Obligations.TableLoads : Prop :=
  ∀ (core : BitVec 9) (ctx : BitVec 10) (p : Pay) (s : State) (m : EngCmd) (b : Nat),
    (∀ w n, w = whoDrain s core.toNat ctx.toNat → n = pf p 0 17 5 → s.runs core.toNat ctx.toNat 0x1B m → firstCode (rsldCodes s m p) = none →
      s.memShare w core.toNat false = some b → s.mayRead w (b + pf p 1 31 17 * 64) (8 * n) →
      ∃ t, exec (.drrsld core ctx p) s = .next t ∧ s.didWork m p (statusWord n 0) [] [] t ∧
        ∀ a i, (core.toNat, a) ∈ arrsOf core.toNat (pf p 0 31 30) → i < n → n ≤ i + 4096 →
          (tabFind ((core.toNat * 2 + a) * 4096 + ((rsShare s core.toNat ctx.toNat).1 + pf p 0 29 18 + i) % 4096) t.eng.rescale).getD {} =
            rescaleOf ((rawRead s w.pid (b + pf p 1 31 17 * 64) (8 * n)).drop (8 * i))) ∧
    (∀ w prog bank i, w = whoVec s core.toNat ctx.toNat → prog = pf p 0 31 30 → bank = shadowBank s ctx.toNat prog →
      s.runs core.toNat ctx.toNat 0x23 m → firstCode (vtldCodes p) = none → bankInUse s m prog bank = false →
      slotOf s core.toNat ctx.toNat = some i → s.memShare w core.toNat false = some b → s.mayRead w (b + pf p 1 31 17 * 64) 1056 →
      errAt s true (rangeFrom (tblBase core.toNat i prog bank) 1056) = none → ∃ t, exec (.vtld core ctx p) s = .next t ∧
        s.didWork m p (statusWord 0 0) (rangeFrom (tblBase core.toNat i prog bank) 1056) [kCtx ctx.toNat 0x50] t ∧
        (rangeFrom (tblBase core.toNat i prog bank) 1056).map (memByte 0 t) = rawRead s w.pid (b + pf p 1 31 17 * 64) 1056 ∧
        bankKey core.toNat i prog bank ∈ t.eng.banks ∧ (core.toNat * 1024 + ctx.toNat) * 4 + prog ∉ t.eng.shadow ∧
        getF t (kCtx ctx.toNat 0x50) (8 + prog) (8 + prog) = 0) ∧
    (∀ q prog, s.eng.cmds.find? (fun m => m.core == core.toNat && m.ctx == ctx.toNat && envOpc m.env == 0x23 && m.pay.isSome && landed s m) =
        some m → m.pay = some q → prog = pf q 0 31 30 → bit m.env.w0 13 = false → (slotOf s core.toNat ctx.toNat).isSome = true →
      ∃ t, exec (.commandComplete core ctx 0x23) s = .next t ∧ (core.toNat * 1024 + ctx.toNat) * 4 + prog ∈ t.eng.shadow ∧
        getF t (kCtx ctx.toNat 0x50) (8 + prog) (8 + prog) = (if (rangeFrom 0 512).all fun n => (slotOf s n ctx.toNat).isNone ||
          t.eng.shadow.contains ((n * 1024 + ctx.toNat) * 4 + prog) then 1 else 0))

/-- PGINIT, PGPUSH and PGRELS (06 R168, R176-R178, R181): decoded, granted their accesses and with room on the free list, they run to their
ends. PGPUSH touches the list alone, whose count grows by its frames; the others touch the entries and summaries of the pages they clear, the list, and
the stream's own entry, and nothing else in memory. No register but the list's count and the engine's changes. -/
def Obligations.PageLists : Prop :=
  ∀ (core : BitVec 9) (ctx : BitVec 10) (p : Pay) (s : State) (m : EngCmd) (w : Who) (b : Nat),
    w = whoPage s (clOf core.toNat) ctx.toNat →
    (∀ old e a, s.runs core.toNat ctx.toNat 0x38 m → streamHold [0x3A, 0x3C] p m s = none → s.memShare w core.toNat false = some b →
      firstCode [(0x40, !pz p 1 0x1FFFF || !wordsZero p 2), (0x41, decide (kvStreams s ctx.toNat ≤ p.w0.toNat))] = none →
      a = streamAddr s ctx.toNat p.w0.toNat → s.streamIs w p.w0.toNat old → s.mayRead w (b + pf p 1 31 17 * 64) 32 →
      e = streamOf (rawRead s w.pid (b + pf p 1 31 17 * 64) 32) →
      firstCode [(0x42, if old.maxpg = 0 then bit (clMask s w.pid) e.eng && e.eng != clOf core.toNat else old.eng != clOf core.toNat),
        (0x45, decide (32768 < e.maxpg) || !bit (clMask s w.pid) e.eng || decide (stackCount s ≤ e.smstack))] = none →
      s.listTakes ctx.toNat old.maxpg → (∀ i < old.maxpg, s.pageOpen w old i) → (∀ i < e.maxpg, s.pageOpen w e i) → s.mayWrite w a 32 →
      ∃ t r, exec (.pginit core ctx p) s = .next t ∧ r ≤ old.maxpg ∧ getR t (kCtx ctx.toNat 0x88) = BitVec.ofNat 32 (kvFlcnt s ctx.toNat + r) ∧
        s.didWork m p (statusWord (e.maxpg + r) 0) (listKeys s ctx.toNat old.maxpg ++ pageKeys s w old (rangeFrom 0 old.maxpg) ++
          keysOf s w.pid a 32 ++ pageKeys s w e (rangeFrom 0 e.maxpg)) [kCtx ctx.toNat 0x88] t) ∧
    (∀ n, n = pf p 0 31 20 → s.runs core.toNat ctx.toNat 0x39 m → s.memShare w core.toNat false = some b →
      firstCode [(0x40, !pz p 0 0xFFFFF || !pz p 1 0x1FFFF || !wordsZero p 2), (0x41, kvNseq s ctx.toNat == 0),
        (0x42, kvHome s ctx.toNat != clOf core.toNat), (0x43, n == 0)] = none →
      s.mayRead w (b + pf p 1 31 17 * 64) (4 * n) →
      (∀ i < n, leAt (rawRead s w.pid (b + pf p 1 31 17 * 64) (4 * n)) (4 * i) 4 < kvNfrm s ctx.toNat) → s.listTakes ctx.toNat n →
      ∃ t, exec (.pgpush core ctx p) s = .next t ∧ getR t (kCtx ctx.toNat 0x88) = BitVec.ofNat 32 (kvFlcnt s ctx.toNat + n) ∧
        s.didWork m p (statusWord n 0) (listKeys s ctx.toNat n) [kCtx ctx.toNat 0x88] t) ∧
    (∀ e n a, s.runs core.toNat ctx.toNat 0x3B m → streamHold [0x3A, 0x3C] p m s = none →
      firstCode [(0x40, !pz p 3 0x7FFFFFFF || !wordsZero p 4), (0x41, decide (kvStreams s ctx.toNat ≤ p.w0.toNat))] = none →
      s.streamIs w p.w0.toNat e →
      firstCode [(0x42, e.eng != clOf core.toNat), (0x44, decide (e.maxpg < p.w1.toNat + p.w2.toNat))] = none →
      n = (if p.w2 = 0 then e.maxpg - p.w1.toNat else p.w2.toNat) → a = streamAddr s ctx.toNat p.w0.toNat →
      s.listTakes ctx.toNat n → (∀ i < n, s.pageOpen w e (p.w1.toNat + i)) → (pb p 3 31 = true → s.mayWrite w (a + 16) 8) →
      ∃ t r, exec (.pgrels core ctx p) s = .next t ∧ r ≤ n ∧ getR t (kCtx ctx.toNat 0x88) = BitVec.ofNat 32 (kvFlcnt s ctx.toNat + r) ∧
        s.didWork m p (statusWord n 0) (listKeys s ctx.toNat n ++ pageKeys s w e (rangeFrom p.w1.toNat n) ++ keysOf s w.pid (a + 16) 8)
          [kCtx ctx.toNat 0x88] t)

/-- PGGATH and KVSCAN (06 R179-R186): decoded and granted their accesses, with nothing of their stream before them, they run to their ends. In memory
a gather touches the planes it names alone and it tells its pages; a scan touches its list alone and tells a number of pages, no more than it was
asked for. -/
def Obligations.PageReaders : Prop :=
  ∀ (core : BitVec 9) (ctx : BitVec 10) (p : Pay) (s : State) (m : EngCmd) (w : Who) (e : StreamEnt) (b : Nat),
    w = whoPage s (clOf core.toNat) ctx.toNat → s.streamIs w p.w0.toNat e → p.w0.toNat < kvStreams s ctx.toNat → e.eng = clOf core.toNat →
    (∀ (g : Gather) (pages K : List Nat), s.runs core.toNat ctx.toNat 0x3A m → streamHold [] p m s = none →
      (!pz p 1 0x7FF || !pz p 3 0x1FFF || !pz p 4 0x1FFF || !pz p 5 0x7FF || !pz p 6 0x1FFF || !pz p 7 0x1FFF || pf p 1 15 11 == 0 ||
        addrBad true 64 (pf p 3 31 13) || addrBad (pb p 1 16) 64 (pf p 4 31 13) || addrBad (pb p 1 16) 16 (pf p 5 31 11) ||
        addrBad (pb p 1 16) 64 (pf p 6 31 13) || addrBad (pb p 1 16) 64 (pf p 7 31 13)) = false → 0 < pf p 1 31 22 →
      (pb p 1 21 = false → pages = rangeFrom p.w2.toNat (pf p 1 31 22) ∧ p.w2.toNat + pf p 1 31 22 ≤ e.maxpg) →
      (pb p 1 21 = true → ∃ lb, shareOf s w (cmBase (clOf core.toNat)) cmSize = some lb ∧
        s.mayRead w (lb + pf p 3 31 13 * 64 + 4 * p.w2.toNat) (4 * pf p 1 31 22) ∧ pages = (rangeFrom 0 (pf p 1 31 22)).map fun i =>
          leAt (rawRead s w.pid (lb + pf p 3 31 13 * 64 + 4 * p.w2.toNat) (4 * pf p 1 31 22)) (4 * i) 4) →
      (if pb p 1 16 then shareOf s w (cmBase (clOf core.toNat)) cmSize else shareOf s w (spBase (16 * clOf core.toNat + pf p 1 20 17)) spSize)
        = some b →
      g = { parts := pf p 1 15 11, count := pf p 1 31 22, k := b + pf p 4 31 13 * 64, ks := b + pf p 5 31 11 * 16,
            v := b + pf p 6 31 13 * 64, r := b + pf p 7 31 13 * 64 } →
      K = g.places.flatMap (fun x => keysOf s w.pid x.1 x.2) → (∀ a n, (a, n) ∈ g.places → s.mayWrite w a n) →
      (∀ i ∈ pages, i < e.maxpg ∧ s.mayRead w (e.plbase + 32 * i) 32 ∧ (∀ k ∈ keysOf s w.pid (e.plbase + 32 * i) 32, k ∉ K) ∧
        ((pageOf (rawRead s w.pid (e.plbase + 32 * i) 32)).frame ≠ noFrame →
          s.mayRead w (frameAddr s ctx.toNat (pageOf (rawRead s w.pid (e.plbase + 32 * i) 32)).frame) 16896)) →
      ∃ t, exec (.pggath core ctx p) s = .next t ∧ s.didWork m p (statusWord (pf p 1 31 22) 0) K [] t) ∧
    (∀ v, s.runs core.toNat ctx.toNat 0x3C m → streamHold [0x38, 0x3B] p m s = none →
      v = { w with cls := 9, unit := e.smstack, die := some (stackDie s e.smstack) } →
      (!pz p 1 0x3FF || !pz p 2 0x1FFF || !pz p 3 0x1FFF || !wordsZero p 5 || addrBad true 64 (pf p 2 31 13) ||
        addrBad true 64 (pf p 3 31 13)) = false →
      pf p 1 31 22 ≤ 512 → pf p 1 21 15 ≤ 64 → 0 < pf p 1 14 10 → pf p 1 14 10 ≤ 16 → 0 < pf p 1 31 22 + pf p 1 21 15 →
      shareOf s v (cmBase (clOf core.toNat)) cmSize = some b →
      s.mayReadRows v (b + pf p 2 31 13 * 64) 512 (pf p 1 14 10) 512 →
      s.mayReadRows v e.smbase 144 (ceilDiv e.klen 64 - pf p 1 21 15) 144 →
      (∀ n ≤ pf p 1 31 22 + pf p 1 21 15, s.mayWrite v (b + pf p 3 31 13 * 64) (4 * n)) →
      ∃ t n fl, exec (.kvscan core ctx p) s = .next t ∧ n ≤ pf p 1 31 22 + pf p 1 21 15 ∧
        s.didWork m p (statusWord n fl) (keysOf s w.pid (b + pf p 3 31 13 * 64) (4 * n)) [] t)

/-- POUR_ROW and PAGE_SEAL (06 R169-R175): granted its accesses, the first row that came to a page engine leaves its queue; memory changes in its slot
of its page's frame, the page's entry and the stream's length alone; a page with no frame takes one from the list, and one that is then full waits for
its seal. A seal changes the page's summary and entry alone. With nothing to do neither changes anything. -/
def Obligations.PagesFill : Prop :=
  ∀ (cl : BitVec 5) (s : State),
    (takeFirst (fun r => r.engine s == cl.toNat) s.eng.pourRows = none → exec (.pourRow cl) s = .next s) ∧
    (takeFirst (fun q => q.cl == cl.toNat) s.eng.full = none → exec (.pageSeal cl) s = .next s) ∧
    (∀ r rest w st e pos x fr, takeFirst (fun r => r.engine s == cl.toNat) s.eng.pourRows = some (r, rest) → r.ctx < 1024 →
      w = whoPage s cl.toNat r.ctx → r.inRange s = true → st = r.stream s → s.streamIs w st e →
      pos = r.pos.getD (if r.isV then e.vlen else e.klen) → pos < e.maxpg * 64 → s.mayRead w (e.plbase + 32 * (pos / 64)) 32 →
      x = pageOf (rawRead s w.pid (e.plbase + 32 * (pos / 64)) 32) → x.isSealed = false →
      (x.frame = noFrame → 0 < kvFlcnt s r.ctx ∧
        s.mayRead (whoPage s (kvHome s r.ctx) r.ctx) (kvBase s r.ctx 0x78 + 4 * (kvFlcnt s r.ctx - 1)) 4) →
      fr = frameAddr s r.ctx (if x.frame = noFrame then leNat (rawRead s w.pid (kvBase s r.ctx 0x78 + 4 * (kvFlcnt s r.ctx - 1)) 4) else x.frame) →
      s.mayWrite w (e.plbase + 32 * (pos / 64)) 32 → s.mayWrite w (streamAddr s r.ctx st + (if r.isV then 20 else 16)) 4 →
      r.elems.length = 128 → r.scales.length = 4 →
      (r.isV = false → s.mayWrite w (fr + 128 * (pos % 64)) 128 ∧ s.mayWrite w (fr + 16384 + 4 * (pos % 64)) 4) →
      (r.isV = true → (∀ d < 128, refusal s w false true false (fr + 8192 + 64 * d + pos % 64) 1 = none) ∧
        errAt s true ((rangeFrom 0 128).flatMap fun d => keysOf s w.pid (fr + 8192 + 64 * d + pos % 64) 1) = none ∧
        s.mayWrite w (fr + 16640 + 4 * (pos % 64)) 4) →
      ∃ t, exec (.pourRow cl) s = .next t ∧
        t = { s with regs := t.regs, mem := t.mem, eng := { s.eng with pourRows := rest, full := t.eng.full }, jobs := t.jobs, hbm := t.hbm,
                     free := t.free, pwr := t.pwr, sec := t.sec, host := t.host } ∧ s.besides t ∧
        (∀ k, isWork k = false → k ≠ kCtx r.ctx 0x88 → getR t k = getR s k) ∧
        getR t (kCtx r.ctx 0x88) = (if x.frame = noFrame then getR s (kCtx r.ctx 0x88) - 1 else getR s (kCtx r.ctx 0x88)) ∧
        t.eng.full = s.eng.full ++ (if pageFull (markSlot x r.isV (pos % 64)) && !pageFull x
          then [{ cl := cl.toNat, ctx := r.ctx, stream := st, page := pos / 64 }] else []) ∧
        s.memBut (keysOf s w.pid (e.plbase + 32 * (pos / 64)) 32 ++ keysOf s w.pid (streamAddr s r.ctx st + (if r.isV then 20 else 16)) 4 ++
          (if r.isV then (rangeFrom 0 128).flatMap (fun d => keysOf s w.pid (fr + 8192 + 64 * d + pos % 64) 1) ++
              keysOf s w.pid (fr + 16640 + 4 * (pos % 64)) 4
            else keysOf s w.pid (fr + 128 * (pos % 64)) 128 ++ keysOf s w.pid (fr + 16384 + 4 * (pos % 64)) 4)) t) ∧
    (∀ q rest w e x fr, takeFirst (fun q => q.cl == cl.toNat) s.eng.full = some (q, rest) → q.ctx < 1024 → w = whoPage s cl.toNat q.ctx →
      s.streamIs w q.stream e → q.page < e.maxpg → s.mayRead w (e.plbase + 32 * q.page) 32 →
      x = pageOf (rawRead s w.pid (e.plbase + 32 * q.page) 32) → x.isSealed = false → pageFull x = true → x.frame ≠ noFrame →
      fr = frameAddr s q.ctx x.frame → s.mayRead w fr 8192 → s.mayRead w (fr + 16384) 256 → s.mayWrite w (e.smbase + 144 * q.page) 140 →
      s.mayWrite w (e.smbase + 144 * q.page + 140) 4 → s.mayWrite w (e.plbase + 32 * q.page) 32 →
      ∃ t, exec (.pageSeal cl) s = .next t ∧
        t = { s with regs := t.regs, mem := t.mem, eng := { s.eng with full := rest }, jobs := t.jobs, hbm := t.hbm, free := t.free
                     pwr := t.pwr, sec := t.sec, host := t.host } ∧ s.besides t ∧
        (∀ k, isWork k = false → getR t k = getR s k) ∧
        s.memBut (keysOf s w.pid (e.smbase + 144 * q.page) 140 ++ keysOf s w.pid (e.smbase + 144 * q.page + 140) 4 ++
          keysOf s w.pid (e.plbase + 32 * q.page) 32) t)

/-- GTROUTE (07 R190-R203): decoded and granted its accesses, its scores apart from what it writes, it runs to its end: its status word tells the choices
dispatched and dropped and its flags, the context's count of drops grows by those dropped, and memory changes in the token records, the lists of
experts and the counts alone; with DISP also in the rows and the counts of targets, whose entries, and the descriptors naming them, stand apart from
what it writes and from each other. -/
def Obligations.GateRoutes : Prop :=
  ∀ (core : BitVec 9) (ctx : BitVec 10) (p : Pay) (s : State) (m : EngCmd) (w : Who) (e : LayerEnt) (b rows : Nat) (K : List Nat)
    (r : Nat × Nat × Nat) (st : Word), w = whoGate s (clOf core.toNat) ctx.toNat → s.runs core.toNat ctx.toNat 0x30 m → firstCode (gtCodes s ctx.toNat p) = none →
    rows = pf p 0 31 19 → s.mayRead w (layerAddr s ctx.toNat (pf p 0 18 11)) 16 →
    layerBad (rawRead s w.pid (layerAddr s ctx.toNat (pf p 0 18 11)) 16) = false →
    e = layerOf (rawRead s w.pid (layerAddr s ctx.toNat (pf p 0 18 11)) 16) → shareOf s w (cmBase (clOf core.toNat)) cmSize = some b →
    s.mayReadRows w (b + pf p 1 31 13 * 64) (pf p 1 12 2 * 64) rows (4 * e.nexp) →
    s.mayWriteRows w (b + pf p 2 31 13 * 64) 144 rows 144 →
    (∀ x < e.nexp, s.mayWriteRows w (b + pf p 3 31 13 * 64 + 512 * x) 2 e.cap 2) → s.mayWrite w (b + pf p 4 31 13 * 64) (2 * e.nexp) →
    (∀ k ∈ rowKeys s w.pid (b + pf p 2 31 13 * 64) 144 rows 144, k ∈ K) →
    (∀ x < e.nexp, ∀ k ∈ rowKeys s w.pid (b + pf p 3 31 13 * 64 + 512 * x) 2 e.cap 2, k ∈ K) →
    (∀ k ∈ keysOf s w.pid (b + pf p 4 31 13 * 64) (2 * e.nexp), k ∈ K) →
    (∀ i < rows, ∀ k ∈ keysOf s w.pid (b + pf p 1 31 13 * 64 + i * (pf p 1 12 2 * 64)) (4 * e.nexp), k ∉ K) →
    r = routeAll e m.strict ((rangeFrom 0 rows).map fun i => (chunks 4 e.nexp (rawRead s w.pid (b + pf p 1 31 13 * 64 + i * (pf p 1 12 2 * 64))
      (4 * e.nexp))).map fun x => BitVec.ofNat 32 (leNat x)) (List.replicate e.nexp 0) →
    st = statusWord r.1 r.2.2 ||| BitVec.ofNat 32 (min r.2.1 255 * 256) →
    (pb p 0 10 = false → ∃ t, exec (.gtroute core ctx p) s = .next t ∧ s.didWork m p st K [kCtx ctx.toNat 0x9C] t ∧
      getR t (kCtx ctx.toNat 0x9C) = sat32Add (getR s (kCtx ctx.toNat 0x9C)) r.2.1) ∧
    (pb p 0 10 = true →
      (∀ x < e.nexp, s.mayRead w (b + pf p 5 31 13 * 64 + 32 * x) 32 ∧ ∀ k ∈ keysOf s w.pid (b + pf p 5 31 13 * 64 + 32 * x) 32, k ∉ K ∧
        ∀ d ∈ s.targets w p b e.nexp, k ∉ s.tgtKeys w d) →
      (∀ d ∈ s.targets w p b e.nexp, s.mayFill w p b rows e.cap K d) →
      (s.targets w p b e.nexp).Pairwise (fun d f => ∀ x y, shareOf s w (spBase (tgtCore d)) spSize = some x →
        shareOf s w (spBase (tgtCore f)) spSize = some y →
        ∀ k ∈ keysOf s w.pid (tgtEntry x d) 16, k ∉ keysOf s w.pid (tgtEntry y f) 16) →
      ∃ t, exec (.gtroute core ctx p) s = .next t ∧
        s.didWork m p st (K ++ (s.targets w p b e.nexp).flatMap (s.tgtKeys w)) [kCtx ctx.toNat 0x9C] t ∧
        getR t (kCtx ctx.toNat 0x9C) = sat32Add (getR s (kCtx ctx.toNat 0x9C)) r.2.1)

/-- COMBINE_ROW and CMBFIN (07 R204-R208): granted its accesses, the first row that came to a combine engine, times its choice's weight, is added into
its columns of its token's working row under EXACT, else of its token row, and leaves the queue; nothing else in memory changes. A finish runs to
its end and changes the working rows of its tokens, and their token rows unless it only clears, alone; what ROWS of its status word tells is a free
value (log 8). With no row a combine engine does nothing. -/
def Obligations.Combining : Prop :=
  (∀ (cl : BitVec 5) (s : State), takeFirst (fun r => r.dst == cl.toNat) s.eng.cmbRows = none → exec (.combineRow cl) s = .next s) ∧
  (∀ (cl : BitVec 5) (s : State) (r : CombineRow) (rest : List CombineRow) (w : Who) (d : RouteDesc) (b rb t a n : Nat) (vs : List Word),
    takeFirst (fun r => r.dst == cl.toNat) s.eng.cmbRows = some (r, rest) → r.ctx < 1024 → w = whoComb s cl.toNat r.ctx →
    shareOf s w (cmBase cl.toNat) cmSize = some b →
    (r.desc.isEmpty = true → s.mayRead w (b + r.rd) 32 ∧ d = descOf (rawRead s w.pid (b + r.rd) 32)) →
    (r.desc.isEmpty = false → d = descOf r.desc) → r.grp < d.nexp → shareOf s w (cmBase d.reccl) cmSize = some rb →
    s.mayRead w (rb + d.cnt + 2 * r.grp) 2 → r.row < leNat (rawRead s w.pid (rb + d.cnt + 2 * r.grp) 2) →
    s.mayRead w (rb + d.lst + 512 * r.grp + 2 * r.row) 2 → t = leNat (rawRead s w.pid (rb + d.lst + 512 * r.grp + 2 * r.row) 2) % 4096 →
    s.mayRead w (rb + d.rec_ + 144 * t + 16 + 8 * (leNat (rawRead s w.pid (rb + d.lst + 512 * r.grp + 2 * r.row) 2) / 4096)) 4 →
    vs = (mapFl (fpMul r.strict (BitVec.ofNat 32 (leNat (rawRead s w.pid (rb + d.rec_ + 144 * t + 16 +
      8 * (leNat (rawRead s w.pid (rb + d.lst + 512 * r.grp + 2 * r.row) 2) / 4096)) 4)))) r.data).1 →
    a = (if d.exact then b + d.waddr + t * d.wstr + 8 * r.col else b + d.taddr + t * d.tstr + 4 * r.col) →
    n = (if d.exact then 8 else 4) * r.data.length → s.mayRead w a n → s.mayWrite w a n →
    ∃ u, exec (.combineRow cl) s = .next u ∧
      u = { s with regs := u.regs, mem := u.mem, eng := { s.eng with cmbRows := u.eng.cmbRows, cmds := u.eng.cmds }, jobs := u.jobs, hbm := u.hbm
                   free := u.free, pwr := u.pwr, sec := u.sec, host := u.host } ∧ s.besides u ∧
      ((keysOf s w.pid a n).Nodup → rawRead u w.pid a n =
        (if d.exact then (List.zipWith (exactAdd d.xsh) vs (elemsOf 8 (rawRead s w.pid a n))).flatMap fun x => leBytes 8 x.1
        else wordBytes (zipFl (fpAdd r.strict) ((elemsOf 4 (rawRead s w.pid a n)).map (BitVec.ofNat 32)) vs).1)) ∧
      u.eng.cmbRows.map (fun x => { x with desc := [] }) = rest.map (fun x => { x with desc := [] }) ∧
      u.eng.cmds.map (fun x => { x with status := 0 }) = s.eng.cmds.map (fun x => { x with status := 0 }) ∧
      (∀ k, isWork k = false → getR u k = getR s k) ∧ s.memBut (keysOf s w.pid a n) u) ∧
  (∀ (core : BitVec 9) (ctx : BitVec 10) (p : Pay) (s : State) (m : EngCmd) (w : Who) (d : RouteDesc) (b c n : Nat),
    w = whoComb s (clOf core.toNat) ctx.toNat → s.runs core.toNat ctx.toNat 0x34 m →
    (decide (1 < pf p 0 12 11) || !pz p 0 0x7FF || !pz p 1 0xFFFF || pf p 1 23 16 == 0 || !wordsZero p 2 ||
      addrBad true 64 (pf p 0 31 13)) = false →
    shareOf s w (cmBase (clOf core.toNat)) cmSize = some b → s.mayRead w (b + pf p 0 31 13 * 64) 32 →
    d = descOf (rawRead s w.pid (b + pf p 0 31 13 * 64) 32) → c = 64 * pf p 1 31 24 → n = 64 * pf p 1 23 16 →
    s.mayReadRows w (b + d.waddr + 8 * c) d.wstr d.m (8 * n) → s.mayWriteRows w (b + d.waddr + 8 * c) d.wstr d.m (8 * n) →
    (pf p 0 12 11 = 0 → s.mayReadRows w (b + d.taddr + 4 * c) d.tstr d.m (4 * n) ∧ s.mayWriteRows w (b + d.taddr + 4 * c) d.tstr d.m (4 * n)) →
    ∃ t r fl, exec (.cmbfin core ctx p) s = .next t ∧ r < 65536 ∧
      s.didWork m p (statusWord r fl) (rowKeys s w.pid (b + d.waddr + 8 * c) d.wstr d.m (8 * n) ++
        (if pf p 0 12 11 = 0 then rowKeys s w.pid (b + d.taddr + 4 * c) d.tstr d.m (4 * n) else [])) [] t)

/-- DMCOPY, SPFENCE and CGSUBMIT (10 R319, R320, R329; 09 R273): a copy, from an address or through a weight reference, granted each of its blocks,
changes memory at its destination alone; where that lies apart from the source it puts the bytes there and tells whether they have the digest
asked for. A fence with nothing before it ends; a commit group whose image is legal is staged, and one that is not, or finds sixteen staged, has its
outcome word at once. -/
def Obligations.CoreDmaCommands : Prop :=
  ∀ (core : BitVec 9) (ctx : BitVec 10) (p : Pay) (s : State) (m : EngCmd) (w : Who) (b : Nat), w = whoDma s core.toNat ctx.toNat →
    (∀ src dst a n, s.runs core.toNat ctx.toNat 0x40 m → src = (if pb p 0 31 then p.w1.toNat + 2 ^ 32 * pf p 2 15 0 else pw64 p 1) →
      dst = pw64 p 3 → n = copyLen p →
      (!pz p 0 0x3FFFFFFF || (pb p 0 31 && !pz p 2 0xF0000) || src % 64 != 0 || dst % 64 != 0 || lenBad p) = false →
      (if pb p 0 31 then ∃ x k, tabFind (w.pid * 4096 + pf p 2 31 20) s.jobs.wptr = some (x, k) ∧ src + n ≤ k ∧ a = x + src else a = src) →
      (∀ o k, (o, k) ∈ pieces a n → s.mayRead w (a + o) k ∧ s.mayWrite w (dst + o) k) →
      (pb p 0 30 = true → shareOf s w (cmBase (clOf core.toNat)) cmSize = some b ∧ s.mayRead w (b + pf p 7 31 13 * 64) 32) →
      ∃ t r, exec (.dmcopy core ctx p) s = .next t ∧ s.didWork m p (BitVec.ofNat 32 (r * 2 ^ 24)) (keysOf s w.pid dst n) [] t ∧
        (pb p 0 30 = false → r = 0) ∧
        ((∀ x ∈ keysOf s w.pid dst n, x ∉ keysOf s w.pid a n) → (keysOf s w.pid dst n).Nodup → rawRead t w.pid dst n = rawRead s w.pid a n) ∧
        ((∀ x ∈ keysOf s w.pid dst n, x ∉ keysOf s w.pid a n) → pb p 0 30 = true → r = if sha3 (rawRead s w.pid a n) = rawRead t w.pid (b + pf p 7 31 13 * 64) 32 then 0 else 1)) ∧
    (s.runs core.toNat ctx.toNat 0x4A m → fenceHold m s = none → wordsZero p 0 = true →
      ∃ t, exec (.spfence core ctx p) s = .next t ∧ s.didWork m p 0 [] [] t) ∧
    (∀ ga oa hdr acts, s.runs core.toNat ctx.toNat 0x60 m → (!pz p 0 0x1FFF || !pz p 1 0x1FFF || !wordsZero p 2) = false →
      shareOf s w (cmBase (clOf core.toNat)) cmSize = some b → ga = b + 64 * pf p 0 31 13 → oa = b + 64 * pf p 1 31 13 →
      s.mayRead w ga 64 → hdr = rawRead s w.pid ga 64 →
      s.mayRead w (ga + 64) (if 1 ≤ leAt hdr 0 1 ∧ leAt hdr 0 1 ≤ 64 then 80 * leAt hdr 0 1 else 0) →
      acts = rawRead s w.pid (ga + 64) (if 1 ≤ leAt hdr 0 1 ∧ leAt hdr 0 1 ≤ 64 then 80 * leAt hdr 0 1 else 0) →
      s.mayWrite w oa 8 →
      (∀ g, parseGroup s w.pid ctx.toNat (.cg core.toNat oa) (hdr ++ acts) = some g → (groupsOf s w.pid).length < 16 →
        ∃ t, exec (.cgsubmit core ctx p) s = .next t ∧ t.hasDone m p 0 ∧
          { s with jobs := { s.jobs with groups := s.jobs.groups ++ [g] } }.hasSent [] 0 t) ∧
      ((parseGroup s w.pid ctx.toNat (.cg core.toNat oa) (hdr ++ acts) = none ∨ 16 ≤ (groupsOf s w.pid).length) →
        ∃ t, exec (.cgsubmit core ctx p) s = .next t ∧ s.didWork m p 0 (keysOf s w.pid oa 8) [] t ∧
          ((keysOf s w.pid oa 8).Nodup → (keysOf s w.pid oa 8).length = 8 → rawRead t w.pid oa 8 =
            2 :: (if (parseGroup s w.pid ctx.toNat (.cg core.toNat oa) (hdr ++ acts)).isSome then 0x8C else 0x88) :: 0 :: 0 ::
              leBytes 4 (leAt hdr 4 4))))

/-- SPCOPY and SPATOM (09 R256-R258, R268-R272, R275): decoded, not held back behind another digest copy, with a window that carries them and their local bytes granted, they send, or leave
waiting, one request for each piece between 256 B boundaries of the remote address, and await the responses; memory stays as it is. -/
def Obligations.SpanCommands : Prop :=
  ∀ (core : BitVec 9) (ctx : BitVec 10) (p : Pay) (s : State) (m : EngCmd) (w : Who) (src dst own win : Nat),
    w = whoDma s core.toNat ctx.toNat → src = pw64 p 1 → dst = pw64 p 3 → own = modNum s →
    (∀ rem loc n, s.runs core.toNat ctx.toNat 0x48 m → digestHold p m s = none → rem = (if pb p 0 30 then dst else src) → loc = (if pb p 0 30 then src else dst) →
      n = copyLen p →
      (pb p 0 31 || (pb p 0 29 && pb p 0 30) || !pz p 0 0x1FFFFFFF || src % 64 != 0 || dst % 64 != 0 || lenBad p) = false →
      gaMod rem ≠ own → gaMod loc = own → windowOf s w (if pb p 0 30 then 28 else 29) rem n = .ok win →
      (pb p 0 29 = true → ∃ b, shareOf s w (cmBase (clOf core.toNat)) cmSize = some b ∧
        refusal s w true false false (b + pf p 7 31 13 * 64) 32 = none) →
      (∀ o k, (o, k) ∈ pieces rem n → if pb p 0 30 then s.mayRead w (gaLocal loc + o) k else
        refusal s w false true false (gaLocal loc + o) k = none) →
      ∃ t, exec (.spcopy core ctx p) s = .next t ∧ t.hasDone m p 0 ∧
        s.hasSent [kPart w.pid 0x2000, kPart w.pid 0x2004] (pieces rem n).length t) ∧
    (∀ n, s.runs core.toNat ctx.toNat 0x49 m → n = p.w5.toNat →
      (pf p 0 31 30 == 3 || !pz p 0 0x3FFFFFFF || !wordsZero p 6 || n == 0 || n % 64 != 0 || src % (if pf p 0 31 30 = 2 then 8 else 4) != 0 ||
        dst % (if pf p 0 31 30 = 2 then 8 else 4) != 0 || gaMod src != own || gaMod dst == own) = false →
      windowOf s w 27 dst n = .ok win → (∀ o k, (o, k) ∈ pieces dst n → s.mayRead w (gaLocal src + o) k) →
      ∃ t, exec (.spatom core ctx p) s = .next t ∧ t.hasDone m p 0 ∧
        s.hasSent [kPart w.pid 0x2000, kPart w.pid 0x2004] (pieces dst n).length t)

/-- Control core accesses to global addresses (09 R274): of the module's own memory they act at once, a load giving the bytes read, a store
leaving the value, an addition leaving the sum; to another module they send one request. While the program waits for one, or may not
issue, nothing happens. -/
def Obligations.ControlCoreAccesses : Prop :=
  ∀ (core : BitVec 9) (ctx : BitVec 10) (ga : DWord) (log2n : BitVec 2) (val : DWord) (op : AddOp) (s : State) (w : Who) (n k a : Nat),
    w = whoCtl s core.toNat ctx.toNat → n = 2 ^ log2n.toNat → k = (if op = .iadd64 then 8 else 4) → a = gaLocal ga.toNat →
    (mayIssue s core.toNat ctx.toNat = false ∨ ccWaits s core.toNat ctx.toNat = true → exec (.ccRemoteLoad core ctx ga log2n) s = .next s ∧
      exec (.ccRemoteStore core ctx ga log2n val) s = .next s ∧ exec (.ccRemoteAdd core ctx op ga val) s = .next s) ∧
    (mayIssue s core.toNat ctx.toNat = true →
      (ga.toNat % n = 0 → gaMod ga.toNat = modNum s → s.mayRead w a n → ∃ t, exec (.ccRemoteLoad core ctx ga log2n) s = .next t ∧
        s.hasSent [] 0 t ∧ t.eng = { s.eng with loads := t.eng.loads } ∧
        tabFind (core.toNat * 1024 + ctx.toNat) t.eng.loads = some (BitVec.ofNat 64 (leNat (rawRead s w.pid a n)))) ∧
      (ga.toNat % n = 0 → gaMod ga.toNat = modNum s → s.mayWrite w a n → ∃ t, exec (.ccRemoteStore core ctx ga log2n val) s = .next t ∧
        s.onlyAccesses t ∧ s.memBut (keysOf s w.pid a n) t ∧
        ((keysOf s w.pid a n).Nodup → (keysOf s w.pid a n).length = n → rawRead t w.pid a n = leBytes n val.toNat)) ∧
      (ga.toNat % k = 0 → gaMod ga.toNat = modNum s → s.mayRead w a k → s.mayWrite w a k →
        ∃ t f, exec (.ccRemoteAdd core ctx op ga val) s = .next t ∧ (setR (kCtx ctx.toNat 0x4C) (getR t (kCtx ctx.toNat 0x4C)) s).onlyAccesses t ∧
        s.memBut (keysOf s w.pid a k) t ∧ f < 256 ∧ getR t (kCtx ctx.toNat 0x4C) = getR s (kCtx ctx.toNat 0x4C) ||| BitVec.ofNat 32 f ∧
        ((keysOf s w.pid a k).Nodup → (keysOf s w.pid a k).length = k → rawRead t w.pid a k =
          (addBytes (addOpc op) (bit (getR s (kCtx ctx.toNat 0x40)) 0) (rawRead s w.pid a k) (leBytes k val.toNat)).1)) ∧
      (gaMod ga.toNat ≠ modNum s →
        (∀ win, ga.toNat % n = 0 → windowOf s w 29 ga.toNat n = .ok win → ∃ t, exec (.ccRemoteLoad core ctx ga log2n) s = .next t ∧
          t.eng = s.eng ∧ s.hasSent [kPart w.pid 0x2000, kPart w.pid 0x2004] 1 t) ∧
        (∀ win, ga.toNat % n = 0 → windowOf s w 28 ga.toNat n = .ok win → ∃ t, exec (.ccRemoteStore core ctx ga log2n val) s = .next t ∧
          t.eng = s.eng ∧ s.hasSent [kPart w.pid 0x2000, kPart w.pid 0x2004] 1 t) ∧
        (∀ win, ga.toNat % k = 0 → windowOf s w 27 ga.toNat k = .ok win → ∃ t, exec (.ccRemoteAdd core ctx op ga val) s = .next t ∧
          t.eng = s.eng ∧ s.hasSent [kPart w.pid 0x2000, kPart w.pid 0x2004] 1 t)))

/-- RDPOST, RDMAX and RDC_TIMEOUT (13 R409-R411, R415, R417): a post joins its channel's queue; a maximum joins those of the current bucket, or of
the next one in place of an earlier one of its member; what is not accepted is dropped and counted; a timeout gives up a bucket that awaits a packet,
with reason 0xD5. -/
def Obligations.ReductionPosts : Prop :=
  (∀ (core : BitVec 9) (ctx : BitVec 10) (p : Pay) (s : State) (m : EngCmd) (k : Nat), k = pf p 0 12 9 → s.runs core.toNat ctx.toNat 0x50 m →
    rdcValid s k = true → rdcPid s k = ctxPid s ctx.toNat → k < 8 * xdies s → (redOf s k).posts.length < 64 →
    ∃ t q, exec (.rdpost core ctx p) s = .next t ∧ t.hasDone m p 0 ∧ t = { s with regs := t.regs, eng := t.eng, red := t.red } ∧
      q = { core := core.toNat, ctx := ctx.toNat, cseq := m.cseq, bd := pf p 0 31 13, step := p.w1.toNat, bseq := pf p 2 31 16, last := pb p 0 8,
            strict := m.strict, satm := m.satm, bad := !pz p 0 0xFF || !pz p 2 0xFFFF || !wordsZero p 3 } ∧
      redOf t k = { redOf s k with posts := (redOf s k).posts ++ [q] } ∧ (∀ j, j ≠ k → redOf t j = redOf s j) ∧
      getF t (kRdc k 0x20) 15 0 = getF s (kRdc k 0x20) 15 0 ∧ s.regsBut [kRdc k 0x20] t) ∧
  (∀ (q : RedPkt) (s : State) (k : Nat) (x : Maximum), k = q.ch.toNat →
    x = { member := q.member.toNat, smod := q.smod.toNat, spid := q.spid.toNat, sepoch := q.sepoch.toNat, step := q.step.toNat, bseq := q.bseq.toNat, cfg := q.cfg.toNat,
          a := BitVec.ofNat 32 (q.arg.toNat % 2 ^ 32), nf := q.arg.toNat / 2 ^ 32 % 256 != 0 } →
    (∀ b, s.redFor q b → (∀ y ∈ b.maxima, y.member ≠ q.member.toNat) → ∃ t, exec (.rdmax q) s = .next t ∧
      t = { s with red := t.red } ∧ redOf t k = { redOf s k with cur := some { b with maxima := b.maxima ++ [x] } } ∧
      (∀ j, j ≠ k → redOf t j = redOf s j)) ∧
    (rdcValid s k = true → redAccept s q = true → (∀ b, (redOf s k).cur = some b → forCur b q = false) → forNext s k q = true →
      ∃ t, exec (.rdmax q) s = .next t ∧ t = { s with red := t.red } ∧
      redOf t k = { redOf s k with next := (redOf s k).next.filter (fun y => y.member != q.member.toNat) ++ [x] } ∧
      (∀ j, j ≠ k → redOf t j = redOf s j)) ∧
    (rdcValid s k = true → redAccept s q = false → ∃ t, exec (.rdmax q) s = .next t ∧ t = { s with regs := t.regs } ∧
      getR t (kRdc k 0x2C) = sat32Add (getR s (kRdc k 0x2C)) 1 ∧ s.regsBut [kRdc k 0x2C] t) ∧
    (rdcValid s k = false → ∃ t, exec (.rdmax q) s = .next t ∧ t = { s with regs := t.regs } ∧
      getR t 0x100C = sat32Add (getR s 0x100C) 1 ∧ s.regsBut [0x100C] t)) ∧
  (∀ (ch : BitVec 4) (s : State), ((redOf s ch.toNat).cur = none → exec (.rdcTimeout ch) s = .next s) ∧
    (∀ b, (redOf s ch.toNat).cur = some b → awaitsPacket b = false → exec (.rdcTimeout ch) s = .next s) ∧
    (∀ b, (redOf s ch.toNat).cur = some b → awaitsPacket b = true → b.post.ctx < 1024 → ∃ t, exec (.rdcTimeout ch) s = .next t ∧ (redOf t ch.toNat).cur = none ∧
      (redOf t ch.toNat).inStep = false ∧ bit (getR t (kCtx b.post.ctx 0xD0)) 31 = true ∧
      (bit (getR s (kCtx b.post.ctx 0xD0)) 31 = false → getF t (kCtx b.post.ctx 0xD0) 23 16 = 0xD5)))

/-- The life of a bucket on a channel (13 R401-R406, R409, R412, R413): with its descriptor and members legal and its accesses granted, a post
becomes the current bucket with the early maxima of its members, its working area is zeroed and the channel expects the next; with all maxima held it
has run phase 2, with the bucket maximum and the exponent, and its own contributions may be in; with all counts in, the home has written where its
results go; with all results in, the post has its status word and the channel is free. Each leaves alone what it does not name. -/
def Obligations.Buckets : Prop :=
  ∀ (ch : BitVec 4) (s : State) (k : Nat) (w : Who) (q : Post), k = ch.toNat → w = whoRed s k q → q.core < 512 → q.ctx < 1024 →
    (∀ rest base d ms n self own early, (redOf s k).cur = none →
      takeFirst (mayStart s k) (redOf s k).posts = some (q, rest) → rdcLate s k q.step q.bseq = false →
      shareOf s w (cmBase (clOf q.core)) cmSize = some base → s.mayRead w (base + q.bd * 64) 64 → d = rawRead s w.pid (base + q.bd * 64) 64 →
      (!q.bad && !bdBad d) = true → n = rdcMembers s k → self = rdcSelf s k → s.mayRead w (rdcTable s k) (16 * n) →
      ms = (chunks 16 (16 * n) (rawRead s w.pid (rdcTable s k) (16 * n))).map membOf → membsBad s k d ms self = false →
      shSize (bdL d) n * 8 ≤ (getR s (kRdc k 0x18)).toNat → own = shardHi (bdL d) n self - shardLo (bdL d) n self →
      (own ≠ 0 → s.mayWrite w (rdcWork s k) (own * 8)) → s.mayRead w (bdSrc d) (bdSrcLen d) →
      (bdResid d = true → s.mayRead w (bdRes d) (4 * bdL d)) →
      early = (earlyFor q (redOf s k).next).filter (fun m => m.member != self && fromMember ms m.member m.smod m.spid m.sepoch) →
      (∀ m ∈ early, m.cfg = bdCfg d) →
      ∃ t a nf fl x c, exec (.bucketStart ch) s = .next t ∧
        x = ({ member := self, smod := modNum s, spid := rdcPid s k, sepoch := epochOf s (rdcPid s k), step := q.step, bseq := q.bseq, cfg := bdCfg d, a := a, nf := nf } : Maximum) ∧
        c = { post := q, desc := d, membs := ms, self := self, flags := fl, maxima := x :: early } ∧
        redOf t k = { posts := rest, inStep := true, next := [], cur := some c } ∧
        getR t (kRdc k 0x24) = BitVec.ofNat 32 q.step ∧ getF t (kRdc k 0x20) 15 0 = (if q.last then 0 else (q.bseq + 1) % 65536) ∧
        getF t (kRdc k 0x20) 31 30 = 1 ∧
        getR t (kRdc k 0x2C) = sat32Add (getR s (kRdc k 0x2C)) ((earlyFor q (redOf s k).next).length - early.length) ∧
        (own ≠ 0 → (keysOf s w.pid (rdcWork s k) (own * 8)).Nodup → rawRead t w.pid (rdcWork s k) (own * 8) = List.replicate (own * 8) 0) ∧
        s.redWorked k (if own = 0 then [] else keysOf s w.pid (rdcWork s k) (own * 8)) [kRdc k 0x20, kRdc k 0x24, kRdc k 0x2C] t) ∧
    (∀ b n l, (redOf s k).cur = some b → b.post = q → b.phase2 = false → b.maxima.length = b.membs.length → n = b.membs.length →
      l = rangeFrom (shardLo (bdL b.desc) n b.self) (shardHi (bdL b.desc) n b.self - shardLo (bdL b.desc) n b.self) →
      (b.maxima.any (·.nf) = true → ∃ t, exec (.bucketPhase2 ch) s = .next t ∧ s.redWorked k [] [] t ∧
        redOf t k = { redOf s k with cur := some { b with phase2 := true, m := qnan, nf := true, flags := b.flags ||| flNAN } }) ∧
      (b.maxima.any (·.nf) = false → s.mayRead w (bdSrc b.desc) (bdSrcLen b.desc) →
        (bdResid b.desc = true → s.mayRead w (bdRes b.desc) (4 * bdL b.desc) ∧ s.mayWrite w (bdRes b.desc) (4 * bdL b.desc)) →
        s.mayAdd w (rdcWork s k) (shardLo (bdL b.desc) n b.self) l → ∃ t c, exec (.bucketPhase2 ch) s = .next t ∧
        redOf t k = { redOf s k with cur := some c } ∧ c.phase2 = true ∧ c.nf = b.nf ∧
        c.m = BitVec.ofNat 32 (b.maxima.foldl (fun a x => max a (magBits x.a)) 0) ∧
        c.x = sharedExp (if bdWide b.desc then 46 else 18) c.m ∧
        s.redWorked k ((if bdResid b.desc then keysOf s w.pid (bdRes b.desc) (4 * bdL b.desc) else []) ++
          addKeys s w.pid (rdcWork s k) (shardLo (bdL b.desc) n b.self) l) [] t)) ∧
    (∀ b n lo cnt, (redOf s k).cur = some b → b.post = q → b.phase2 = true → b.homeDone = false → n = b.membs.length →
      (b.nf = true ∨ ∀ j < n, j = b.self ∨ (tabFind j b.counts).isSome = true) → lo = shardLo (bdL b.desc) n b.self →
      cnt = shardHi (bdL b.desc) n b.self - lo → (cnt ≠ 0 → b.nf = false → s.mayRead w (rdcWork s k) (8 * cnt)) →
      (cnt ≠ 0 → s.mayWrite w (bdDst b.desc + bdR b.desc * lo) (bdR b.desc * cnt)) →
      ∃ t fl, exec (.homeSumDone ch) s = .next t ∧
        redOf t k = { redOf s k with cur := some { b with homeDone := true, flags := fl } } ∧
        s.redWorked k (if cnt = 0 then [] else keysOf s w.pid (bdDst b.desc + bdR b.desc * lo) (bdR b.desc * cnt)) [] t) ∧
    (∀ b base, (redOf s k).cur = some b → b.post = q → allResults b = true → shareOf s w (cmBase (clOf q.core)) cmSize = some base →
      s.mayWrite w (base + q.bd * 64 + 36) 8 →
      ∃ t, exec (.bucketComplete ch) s = .next t ∧ redOf t k = { redOf s k with cur := none, inStep := !q.last } ∧
        t.eng.cmds = s.eng.cmds.map (fun x => if x.core == q.core && x.ctx == q.ctx && x.cseq == q.cseq then
          { x with status := statusWord b.rows b.flags } else x) ∧
        getR t (kRdc k 0x28) = sat32Add (getR s (kRdc k 0x28)) 1 ∧ getF t (kRdc k 0x20) 15 0 = (if q.last then 0 else (q.bseq + 1) % 65536) ∧
        { s with eng := { s.eng with cmds := t.eng.cmds } }.redWorked k (keysOf s w.pid (base + q.bd * 64 + 36) 8)
          [kRdc k 0x20, kRdc k 0x28] t)

/-- RDPART, RDPAIR, RDDONE and RDRES (13 R405, R414, R417): accepted for the current bucket, contributions inside the shard that come before their
member's count are added into their elements of the working area and counted for their member, a count that agrees with what arrived is kept, results inside the sender's shard land and are
counted. -/
def Obligations.ReductionPackets : Prop :=
  ∀ (q : RedPkt) (s : State) (b : Bucket) (k j n : Nat) (w : Who), k = q.ch.toNat → s.redFor q b → j = q.member.toNat → n = b.membs.length →
    w = whoRed s k b.post → b.post.core < 512 → b.post.ctx < 1024 →
    (∀ cs : List (Nat × Int), tabFind j b.counts = none → (∀ c ∈ cs, shardLo (bdL b.desc) n b.self ≤ c.1 ∧ c.1 < shardHi (bdL b.desc) n b.self) →
      s.mayAdd w (rdcWork s k) (shardLo (bdL b.desc) n b.self) (cs.map (·.1)) →
      (cs = (rangeFrom q.arg.toNat (seiElems (bdQ b.desc) q.data).length).zip (seiElems (bdQ b.desc) q.data) →
        ∃ t, exec (.rdpart q) s = .next t ∧ s.added w.pid (rdcWork s k) (shardLo (bdL b.desc) n b.self) cs t ∧ redOf t k = { redOf s k with cur := some { b with got := tabSet0 j (tab0 b.got j + cs.length) b.got } } ∧
          s.redWorked k (addKeys s w.pid (rdcWork s k) (shardLo (bdL b.desc) n b.self) (cs.map (·.1))) [] t) ∧
      (cs = pairsOf (bdQ b.desc) q.data →
        ∃ t, exec (.rdpair q) s = .next t ∧ s.added w.pid (rdcWork s k) (shardLo (bdL b.desc) n b.self) cs t ∧ redOf t k = { redOf s k with cur := some { b with got := tabSet0 j (tab0 b.got j + cs.length) b.got } } ∧
          s.redWorked k (addKeys s w.pid (rdcWork s k) (shardLo (bdL b.desc) n b.self) (cs.map (·.1))) [] t)) ∧
    (tab0 b.got j = q.arg.toNat → ∃ t c, exec (.rddone q) s = .next t ∧ t = { s with red := t.red } ∧
      redOf t k = { redOf s k with cur := some { b with counts := c } } ∧ tabFind j c = some q.arg.toNat ∧
      (∀ i, i ≠ j → tabFind i c = tabFind i b.counts) ∧ ∀ i, i ≠ k → redOf t i = redOf s i) ∧
    (shardLo (bdL b.desc) n j ≤ q.arg.toNat → q.arg.toNat + q.data.length / bdR b.desc ≤ shardHi (bdL b.desc) n j →
      s.mayWrite w (bdDst b.desc + bdR b.desc * q.arg.toNat) q.data.length →
      ∃ t, exec (.rdres q) s = .next t ∧ ((keysOf s w.pid (bdDst b.desc + bdR b.desc * q.arg.toNat) q.data.length).Nodup →
          rawRead t w.pid (bdDst b.desc + bdR b.desc * q.arg.toNat) q.data.length = q.data) ∧
        redOf t k = { redOf s k with cur := some { b with resGot := tabSet0 j (tab0 b.resGot j + q.data.length / bdR b.desc) b.resGot } } ∧
        s.redWorked k (keysOf s w.pid (bdDst b.desc + bdR b.desc * q.arg.toNat) q.data.length) [] t)

/-- STARVE_LIMIT, HBM_CREDIT_GRANT, IMB_WINDOW_END, PATROL_SCRUB and SCRUB_ZERO (08 R218, R232-R242; 12 R391): waits are counted and starvation
latched; a credit goes to the waiting master whose turn it is, and with none waiting the group's queue is a unit shorter; a window's imbalance is shown
and its counts start again; the patrol visits the next unit, and what it finds, or the unit is known to hold, is logged; a scrubbed unit is forgotten
and no longer pending. -/
def Obligations.MemoryUpkeep : Prop :=
  (∀ (ofCore : Bool) (unit : BitVec 9) (waited : Word) (s : State) (k : Nat), k = memBlock ofCore unit.toNat →
    ∃ t, exec (.starveLimit ofCore unit waited) s = .next t ∧ t = { s with regs := t.regs } ∧
    get64 t k = min (get64 s k + waited.toNat) (2 ^ 64 - 1) ∧
    (getR t (k + 0x14)).toNat = max (getR s (k + 0x14)).toNat waited.toNat ∧
    getR t (k + 0x10) = (if getF s (k + 0x18) 15 0 < waited.toNat then sat32Add (getR s (k + 0x10)) 1 else getR s (k + 0x10)) ∧
    bit (getR t (k + 0x18)) 16 = (bit (getR s (k + 0x18)) 16 || decide (getF s (k + 0x18) 15 0 < waited.toNat)) ∧
    getF t (k + 0x18) 15 0 = getF s (k + 0x18) 15 0 ∧ s.regsBut [k, k + 4, k + 0x10, k + 0x14, k + 0x18] t) ∧
  (∀ (g : BitVec 7) (s : State), (creditTurn s g.toNat = none → ∃ t, exec (.hbmCreditGrant g) s = .next t ∧
      t = { s with hbm := { s.hbm with occ := t.hbm.occ } } ∧ tab0 t.hbm.occ g.toNat = tab0 s.hbm.occ g.toNat - 1 ∧
      ∀ h, h ≠ g.toNat → tab0 t.hbm.occ h = tab0 s.hbm.occ h) ∧
    (∀ m, creditTurn s g.toNat = some m → ∃ t, exec (.hbmCreditGrant g) s = .next t ∧
      t = { s with hbm := { s.hbm with lastGrant := t.hbm.lastGrant, waits := t.hbm.waits } } ∧ tab0 t.hbm.lastGrant g.toNat = m ∧
      (∃ x ∈ s.hbm.waits, x.1 = g.toNat ∧ x.2.1 = m) ∧ ∀ x, x ∈ t.hbm.waits ↔ x ∈ s.hbm.waits ∧ ¬ (x.1 = g.toNat ∧ x.2.1 = m))) ∧
  (∀ (pid : BitVec 5) (s : State) (p : Nat) (gs : List Nat) (total : Nat), p = pid.toNat → gs = (partOf s p).gset →
    total = gs.foldl (fun a g => a + tab0 s.hbm.win (p * 96 + g)) 0 →
    ∃ t, exec (.imbWindowEnd pid) s = .next t ∧ t = { s with regs := t.regs, hbm := t.hbm } ∧
    (∀ g < 96, tab0 t.hbm.win (p * 96 + g) = 0) ∧ (∀ k, k / 96 ≠ p → tab0 t.hbm.win k = tab0 s.hbm.win k) ∧
    (∀ k, k ∈ t.hbm.hot ↔ (∃ x ∈ s.hbm.waits, x.2.2 = p ∧ k = p * 96 + x.1) ∨ (k ∈ s.hbm.hot ∧ k / 96 ≠ p)) ∧
    tab0 t.hbm.imbwin p = getF s (kPart p 0x260) 19 0 ∧
    t.hbm = { s.hbm with win := t.hbm.win, hot := t.hbm.hot, imbwin := t.hbm.imbwin } ∧ s.regsBut [kPart p 0x258, kPart p 0x25C] t ∧
    (total = 0 → t.regs = s.regs) ∧
    (total ≠ 0 → ∃ h ∈ gs, (∀ g ∈ gs, tab0 s.hbm.win (p * 96 + g) ≤ tab0 s.hbm.win (p * 96 + h)) ∧
      (h < 96 → getF t (kPart p 0x258) 30 24 = h ∧ bit (getR t (kPart p 0x258)) 31 = decide (p * 96 + h ∈ s.hbm.hot)) ∧
      getF t (kPart p 0x258) 15 0 = min 0xFFFF (tab0 s.hbm.win (p * 96 + h) * gs.length * 256 / total) ∧
      getF t (kPart p 0x25C) 15 0 =
        max (getF s (kPart p 0x25C) 15 0) (min 0xFFFF (tab0 s.hbm.win (p * 96 + h) * gs.length * 256 / total)))) ∧
  (∀ (g : BitVec 7) (find : PatrolFind) (s : State) (row u : Nat), row = tab0 s.hbm.patrol g.toNat → u = g.toNat * 50331648 + row →
    (svc s ≠ 3 ∨ groupsN s ≤ g.toNat → exec (.patrolScrub g find) s = .next s) ∧
    (svc s = 3 → g.toNat < groupsN s → ∃ t, exec (.patrolScrub g find) s = .next t ∧
      t = { s with regs := t.regs, hbm := t.hbm, host := t.host, sec := { s.sec with log := t.sec.log } } ∧
      tab0 t.hbm.patrol g.toNat = (row + 1) % 50331648 ∧
      t.hbm = { s.hbm with patrol := t.hbm.patrol, ue := t.hbm.ue, ce := t.hbm.ce } ∧
      (find = .clean → u ∉ s.hbm.ue → u ∉ s.hbm.ce →
        t.regs = s.regs ∧ t.hbm.ue = s.hbm.ue ∧ t.hbm.ce = s.hbm.ce ∧ t.sec.log = s.sec.log) ∧
      ((find = .corrected ∨ find = .clean ∧ u ∈ s.hbm.ce) → u ∉ s.hbm.ue → getR t 0x86C = sat32Add (getR s 0x86C) 1 ∧ t.hbm.ue = s.hbm.ue ∧
        t.hbm.ce = setDel u s.hbm.ce ∧ t.sec.log = s.sec.log ++ [(0xCE, u)]) ∧
      ((find = .uncorrectable ∨ u ∈ s.hbm.ue) → row < 50331648 → t.hbm.ce = s.hbm.ce ∧ getR t 0x870 = sat32Add (getR s 0x870) 1 ∧ t.hbm.ue = setIns u s.hbm.ue ∧
        t.sec.log = s.sec.log ++ [(0x68, u)] ∧ getF t (kSel (g.toNat / 8) 8) 25 0 = row ∧ bit (getR t (kSel (g.toNat / 8) 8)) 31 = true))) ∧
  (∀ (g : BitVec 7) (row : BitVec 26) (s : State) (u : Nat), u = g.toNat * 50331648 + row.toNat →
    (scrubTake g.toNat row.toNat s.hbm.scrub = none → exec (.scrubZero g row) s = .next s) ∧
    (∀ r, scrubTake g.toNat row.toNat s.hbm.scrub = some r → ∃ t, exec (.scrubZero g row) s = .next t ∧
      t = { s with regs := t.regs, mem := t.mem, hbm := { s.hbm with scrub := r, ue := setDel u s.hbm.ue, ce := setDel u s.hbm.ce } } ∧
      (∀ i < 256, tabFind (256 * u + i) t.mem = none) ∧ s.memBut (rangeFrom (256 * u) 256) t ∧
      (getR s 0x408).toNat + 2 ^ 32 * (getR s 0x40C).toNat - 1 = get64 t 0x408 ∧ s.regsBut [0x408, 0x40C] t))

/-- Span ports (09 R246, R250, R285; 16 R493): enabling trains a port; training ends with the port up, up at half width, which it keeps, or failed; an
enabled port can have its rate changed; disabling, and losing the link, take a port that was up down, count it, tell the partitions with windows on it
and start its link afresh; disabling ends a half width. A port the assembly lacks is left alone; before full service a write of its register is counted. -/
def Obligations.SpanPorts : Prop :=
  ∀ (port : PortId) (val : Word) (s : State) (P : Nat), P = portNo port →
    (portsN s ≤ P → exec (.portEnable port val) s = .next s ∧ exec (.portDisable port val) s = .next s) ∧
    (P < portsN s → (svc s ≠ 3 ∨ 1 < fld val 1 0) → ∃ t, exec (.portEnable port val) s = .next t ∧ exec (.portDisable port val) s = .next t ∧
      t = { s with regs := t.regs } ∧ getR t 0x10 = sat32Add (getR s 0x10) 1 ∧ s.regsBut [0x10] t) ∧
    (P < portsN s → svc s = 3 → fld val 1 0 ≤ 1 → ∃ t, exec (.portEnable port val) s = .next t ∧ t = { s with regs := t.regs } ∧
      getR t (kP P 0) = (val &&& 3#32) ||| 0x80000000#32 ∧
      portSt t P = (if bit (getR s (kP P 0)) 31 then portSt s P else 1) ∧ s.regsBut [kP P 0, kP P 4] t) ∧
    (P < portsN s → svc s = 3 → fld val 1 0 ≤ 1 → (bit (getR s (kP P 0)) 31 = false ∨ portUp s P = false) →
      ∃ t, exec (.portDisable port val) s = .next t ∧ t = { s with regs := t.regs, span := { s.span with links := t.span.links } } ∧
      getR t (kP P 0) = val &&& 3#32 ∧ (∀ Q, Q ≠ P → linkOf t Q = linkOf s Q) ∧
      linkOf t P = (if bit (getR s (kP P 0)) 31 then { linkOf s P with half := false } else linkOf s P) ∧ portSt t P = (if bit (getR s (kP P 0)) 31 then 0 else portSt s P) ∧ s.regsBut [kP P 0, kP P 4] t) ∧
    (P < portsN s → svc s = 3 → fld val 1 0 ≤ 1 → bit (getR s (kP P 0)) 31 = true → portUp s P = true →
      ∃ t, exec (.portDisable port val) s = .next t ∧ t = { s with regs := t.regs, span := t.span } ∧ getR t (kP P 0) = val &&& 3#32 ∧
      portSt t P = 0 ∧ getR t (kP P 12) = sat32Add (getR s (kP P 12)) 1 ∧ linkOf t P = { relink (linkOf s P) with half := false } ∧
      (∀ p < 32, (∃ n < 64, winOnPort s p n P = true) → bit (getR t (kPart p 0x1004)) 0 = true) ∧
      s.regsBut ([kP P 0, kP P 4, kP P 12, 0x400] ++ (rangeFrom 0 32).map fun p => kPart p 0x1004) t) ∧
    (portUp s P = false → exec (.linkDown port) s = .next s) ∧
    (portUp s P = true → ∃ t, exec (.linkDown port) s = .next t ∧ t = { s with regs := t.regs, span := t.span } ∧
      portSt t P = 4 ∧ getR t (kP P 12) = sat32Add (getR s (kP P 12)) 1 ∧ linkOf t P = relink (linkOf s P) ∧
      (∀ p < 32, (∃ n < 64, winOnPort s p n P = true) → bit (getR t (kPart p 0x1004)) 0 = true) ∧
      s.regsBut ([kP P 4, kP P 12, 0x400] ++ (rangeFrom 0 32).map fun p => kPart p 0x1004) t) ∧
    (∀ low high : Bool, (portsN s ≤ P ∨ bit (getR s (kP P 0)) 31 = false ∨ portSt s P ≠ 1 ∧ portSt s P ≠ 4 →
        exec (.portTrained port low high) s = .next s) ∧
      (P < portsN s → bit (getR s (kP P 0)) 31 = true → (portSt s P = 1 ∨ portSt s P = 4) → ∃ t, exec (.portTrained port low high) s = .next t ∧
        t = { s with regs := t.regs, span := t.span, jobs := { s.jobs with budgets := t.jobs.budgets }, free := t.free } ∧
        portSt t P = (if low || high then (if (linkOf s P).half || !(low && high) then 3 else 2) else 4) ∧
        ((low || high) = true → (linkOf t P).half = ((linkOf s P).half || !(low && high)) ∧ (linkOf t P).rate = getF s (kP P 0) 1 0) ∧
        (∀ Q < portsN s, Q ≠ P → portSt t Q = portSt s Q)))

/-- What a link receives (09 R249, R252, R282): an INIT grants credits; a MARKER is answered with an ECHO; an ECHO and its timeout bound a
capture; a NAK takes what is acknowledged off the list and replays the rest in order, and at the eighth replay of a sequence the port
goes down. Other links stay as they are. A port that is down receives nothing.
FLIT_RECEIVE (09 R247-R249): a flit whose check fails, or one ahead of its turn, is answered with a NAK; the one expected is taken, and its
successor expected; one received before is discarded. -/
def Obligations.SpanLinksAndFlits : Prop :=
  (∀ (port : PortId) (s : State) (P : Nat) (l : Link), P = portNo port → l = linkOf s P →
     (∀ (vc : BitVec 2) (n : BitVec 12), (portUp s P = false → exec (.init port vc n) s = .next s) ∧
       (portUp s P = true → ∃ t, exec (.init port vc n) s = .next t ∧ s.linkSent P t) ∧
       (portUp s P = true → l.txq = [] → (∀ x ∈ s.span.waits, x.port ≠ P) → ∃ t, exec (.init port vc n) s = .next t ∧ s.linkOnly P t ∧ t.span.out = s.span.out ∧
         linkOf t P = { l with credits := listSet vc.toNat (listGet 0 l.credits vc.toNat + n.toNat) l.credits })) ∧
     (∀ id : Byte, exec (.marker port id) s = .next (if portUp s P then { s with span := { s.span with out := s.span.out ++
       [.flit P (bareFlit (linkHdr id.toNat 0 0 0 ((l.txSeq + 4095) % 4096) 3 0))] } } else s)) ∧
     (∀ (id : Byte) (a : BitVec 12),
       (l.capId = some id.toNat → l.capEnd = none → l.capDone = false → ∃ t, exec (.echo port id a) s = .next t ∧ s.linkOnly P t ∧
         t.span.out = s.span.out ∧
         linkOf t P = { l with capEnd := some a.toNat, capIn := l.capIn.filter fun h => seqLe (fld h 11 0) a.toNat }) ∧
       (l.capId ≠ some id.toNat → exec (.echo port id a) s = .next s)) ∧
     (l.capId.isSome = true → l.capEnd = none → ∃ t, exec (.echoTimeout port) s = .next t ∧ s.linkOnly P t ∧ t.span.out = s.span.out ∧
       linkOf t P = { l with capDone := true }) ∧
     (l.capId = none → exec (.echoTimeout port) s = .next s) ∧
     (∀ seq : BitVec 12, let un := l.unacked.filter fun f => seqLe seq.toNat (flitSeq f)
       (portUp s P = false → exec (.nakReplay port seq) s = .next s) ∧
       (portUp s P = true → un = [] → ∃ t, exec (.nakReplay port seq) s = .next t ∧ s.linkOnly P t ∧ t.span.out = s.span.out ∧
         linkOf t P = { l with unacked := [] }) ∧
       (portUp s P = true → un ≠ [] → (l.repSeq ≠ seq.toNat ∨ l.replays < 7) → ∃ t, exec (.nakReplay port seq) s = .next t ∧
         (setR (kP P 8) (sat32Add (getR s (kP P 8)) 1) s).linkOnly P t ∧ t.span.out.length = s.span.out.length + un.length ∧
         linkOf t P = { l with unacked := un, freed := (linkOf t P).freed, repSeq := seq.toNat,
                               replays := if l.repSeq = seq.toNat ∧ l.replays ≠ 0 then l.replays + 1 else 1 }) ∧
       (portUp s P = true → un ≠ [] → l.repSeq = seq.toNat → 7 ≤ l.replays → ∃ t, exec (.nakReplay port seq) s = .next t ∧
         t = { s with regs := t.regs, span := t.span } ∧ portSt t P = 4))) ∧
(∀ (port : PortId) (f : Flit) (s : State) (P : Nat) (l : Link), P = portNo port → l = linkOf s P →
     (portUp s P = false → exec (.flitReceive port f) s = .next s) ∧
     (portUp s P = true → (f.slots.length ≠ 240 ∨ f.crc ≠ flitCrc f.hdr f.slots) → ∃ t, exec (.flitReceive port f) s = .next t ∧ s.linkOnly P t ∧
       linkOf t P = { l with naking := true, freed := (linkOf t P).freed } ∧ ∃ g, t.span.out = s.span.out ++ [.flit P g] ∧
       bit g.hdr 33 = true ∧ fld g.hdr 31 20 = l.rxSeq % 4096) ∧
     (portUp s P = true → f.slots.length = 240 → f.crc = flitCrc f.hdr f.slots → bit f.hdr 33 = false → fld f.hdr 19 16 = 0 →
       ∃ t, exec (.flitReceive port f) s = .next t ∧ s.linkSent P t ∧ (linkOf t P).replays = 0 ∧
       (flitSeq f = l.rxSeq → (linkOf t P).rxSeq = (l.rxSeq + 1) % 4096 ∧ (linkOf t P).naking = false ∧
         (linkOf t P).rxSlots = leftover 64 (l.rxSlots ++ f.slots)) ∧
       (flitSeq f ≠ l.rxSeq → (linkOf t P).rxSeq = l.rxSeq ∧ (linkOf t P).rxSlots = l.rxSlots ∧
         (linkOf t P).naking = (if seqLe (flitSeq f) l.rxSeq then l.naking else true))))

/-- Requests from peers (09 R253-R255, R262, R264, R284): one that is accepted, granted and without an uncorrectable place is performed, counted and
answered OK on the port it came by: a read with the bytes, a write with its bytes in place, an addition with the sums in place and its
flags. One that fails a check changes nothing, is counted and answered with the status of the first check that fails. -/
def Obligations.PeerRequests : Prop :=
  ∀ (port : PortId) (k : Pkt) (s : State) (P p a n : Nat) (w : Who) (ans : Nat → Nat → Nat → List Byte → Pkt),
    P = portNo port → p = k.dpid.toNat → a = k.addr.toNat → n = k.nbytes.toNat → w = whoSpan p P →
    (∀ opc st fl d, ans opc st fl d = { k with
        opc := BitVec.ofNat 8 opc, dmod := k.smod, smod := k.dmod, dpid := k.spid, spid := k.dpid, status := BitVec.ofNat 8 st,
        flags := BitVec.ofNat 8 fl, dcrc := (if d.isEmpty then 0 else BitVec.ofNat 32 (crc32c d)), data := d }) →
    (portUp s P = false → exec (.rd port k) s = .next s ∧ exec (.wr port k) s = .next s ∧ exec (.fadd port k) s = .next s ∧
      exec (.iadd32 port k) s = .next s ∧ exec (.iadd64 port k) s = .next s) ∧
    (portUp s P = true →
      (acceptErr s k false = none → s.mayRead w a n → ∃ t, exec (.rd port k) s = .next t ∧
        t = { s with regs := t.regs, hbm := t.hbm, free := t.free, pwr := t.pwr, sec := t.sec, host := t.host, jobs := t.jobs
                     span := { s.span with links := t.span.links, out := t.span.out } } ∧ s.besides t ∧
        .pkt P (ans 8 0 0 (rawRead s p a n)) ∈ t.span.out ∧ get64 t (kPart p 0x2008) = min (get64 s (kPart p 0x2008) + n) (2 ^ 64 - 1) ∧
        get64 t (kPart p 0x2000) = min (get64 s (kPart p 0x2000) + n) (2 ^ 64 - 1) ∧
        ∀ j, isTally j = false → j ∉ [kPart p 0x2000, kPart p 0x2004, kPart p 0x2008, kPart p 0x200C] → getR t j = getR s j) ∧
      (acceptErr s k true = none → s.mayWrite w a n → k.data.length = n → ∃ t, exec (.wr port k) s = .next t ∧
        t = { s with regs := t.regs, mem := t.mem, hbm := t.hbm, free := t.free, pwr := t.pwr, sec := t.sec, host := t.host, jobs := t.jobs
                     span := { s.span with links := t.span.links, out := t.span.out } } ∧ s.besides t ∧
        .pkt P (ans 9 0 0 []) ∈ t.span.out ∧ s.memBut (keysOf s p a n) t ∧ ((keysOf s p a n).Nodup → rawRead t p a n = k.data) ∧
        ∀ j, isTally j = false → j ∉ [kPart p 0x2008, kPart p 0x200C] → getR t j = getR s j) ∧
      (acceptErr s k true = none → s.mayRead w a n → s.mayWrite w a n → k.data.length = n → ∀ i opc,
        (i = .fadd port k ∧ opc = 3 ∧ n % 4 = 0 ∨ i = .iadd32 port k ∧ opc = 4 ∧ n % 4 = 0 ∨ i = .iadd64 port k ∧ opc = 5 ∧ n % 8 = 0) →
        ∃ t fl d, exec i s = .next t ∧ (d, fl) = addBytes opc k.strict (rawRead s p a n) k.data ∧
        t = { s with regs := t.regs, mem := t.mem, hbm := t.hbm, free := t.free, pwr := t.pwr, sec := t.sec, host := t.host, jobs := t.jobs
                     span := { s.span with links := t.span.links, out := t.span.out } } ∧ s.besides t ∧
        .pkt P (ans 9 0 fl []) ∈ t.span.out ∧ s.memBut (keysOf s p a n) t ∧ ((keysOf s p a n).Nodup → rawRead t p a n = d) ∧
        ∀ j, isTally j = false → j ∉ [kPart p 0x2008, kPart p 0x200C] → getR t j = getR s j) ∧
      (∀ st, acceptErr s k false = some st → ∃ t, exec (.rd port k) s = .next t ∧
        t = { s with regs := t.regs, span := { s.span with links := t.span.links, out := t.span.out } } ∧ .pkt P (ans 8 st 0 []) ∈ t.span.out ∧
        s.countedOnce (if st = 6 then 0x100C else kPart p 0x2010) t) ∧
      (acceptErr s k false = none → (refusal s w true false false a n).isSome = true → ∃ t, exec (.rd port k) s = .next t ∧
        t = { s with regs := t.regs, span := { s.span with links := t.span.links, out := t.span.out } } ∧ .pkt P (ans 8 3 0 []) ∈ t.span.out ∧
        s.countedOnce (kPart p 0x2010) t) ∧
      (acceptErr s k true = none → (refusal s w false true false a n).isSome = true → ∃ t, exec (.wr port k) s = .next t ∧
        t = { s with regs := t.regs, span := { s.span with links := t.span.links, out := t.span.out } } ∧ .pkt P (ans 9 3 0 []) ∈ t.span.out ∧
        s.countedOnce (kPart p 0x2010) t) ∧
      (∀ st, acceptErr s k true = some st → ∃ t, exec (.wr port k) s = .next t ∧
        t = { s with regs := t.regs, span := { s.span with links := t.span.links, out := t.span.out } } ∧ .pkt P (ans 9 st 0 []) ∈ t.span.out ∧
        s.countedOnce (if st = 6 then 0x100C else kPart p 0x2010) t))

/-- Responses and timers of the module's own requests (09 R254, R263, R268, R269): while none waits to be sent, an answer frees its tag and keeps
its flags; read data goes where its request wanted it, to memory or to the program; an answer to a retired request is counted; a request
with no answer in time is retired and faults its context with reason 0x75; its hold ends; a packet with a reserved opcode, or with a management code that
the device does not take, is counted. -/
def Obligations.SpanResponses : Prop :=
  ∀ (port : PortId) (k : Pkt) (s : State) (P : Nat) (t0 : Tag), P = portNo port →
    (portUp s P = false → exec (.rdrsp port k) s = .next s ∧ exec (.ack port k) s = .next s) ∧
    ((∀ x ∈ s.span.tags, x.tag ≠ k.tag.toNat) → exec (.rdrsp port k) s = .next s ∧ exec (.ack port k) s = .next s) ∧
    (portUp s P = true → s.span.tags.find? (fun x => x.tag == k.tag.toNat) = some t0 → t0.ctx < 1024 → t0.core < 512 →
      ((k.sepoch.toNat ≠ epochOf s t0.pid ∨ t0.use = .retired) → ∃ t, exec (.rdrsp port k) s = .next t ∧ exec (.ack port k) s = .next t ∧
        t = { s with regs := t.regs } ∧ getR t (kPart t0.pid 0x2014) = sat32Add (getR s (kPart t0.pid 0x2014)) 1 ∧
        s.regsBut [kPart t0.pid 0x2014] t) ∧
      (k.sepoch.toNat = epochOf s t0.pid → t0.use ≠ .retired → k.status = 0 → s.span.waits = [] →
        (∃ t, exec (.ack port k) s = .next t ∧ t = { s with regs := t.regs, eng := { s.eng with cmds := t.eng.cmds },
                                                            span := { s.span with tags := t.span.tags } } ∧
          t.span.tags = s.span.tags.filter (fun x => x.tag != t0.tag) ∧
          getR t (kCtx t0.ctx 0x4C) = getR s (kCtx t0.ctx 0x4C) ||| BitVec.ofNat 32 k.flags.toNat ∧ s.regsBut [kCtx t0.ctx 0x4C] t) ∧
        (t0.use = .load → crc32c k.data = k.dcrc.toNat → ∃ t, exec (.rdrsp port k) s = .next t ∧
          tabFind (t0.core * 1024 + t0.ctx) t.eng.loads = some (BitVec.ofNat 64 (leNat k.data)) ∧
          t = { s with regs := t.regs, free := t.free, eng := { s.eng with cmds := t.eng.cmds, loads := t.eng.loads },
                       jobs := { s.jobs with budgets := t.jobs.budgets }, span := { s.span with tags := t.span.tags } } ∧
          t.span.tags = s.span.tags.filter (fun x => x.tag != t0.tag)) ∧
        (∀ dst w, t0.use = .pull dst → crc32c k.data = k.dcrc.toNat → w = whoDma s t0.core t0.ctx → s.mayWrite w dst k.data.length →
          (∀ m ∈ s.eng.cmds, tagCmd t0 m = true → ∀ p, m.pay = some p → pb p 0 29 = false) →
          ∃ t, exec (.rdrsp port k) s = .next t ∧ s.memBut (keysOf s w.pid dst k.data.length) t ∧
          ((keysOf s w.pid dst k.data.length).Nodup → rawRead t w.pid dst k.data.length = k.data) ∧
          t.span = { s.span with tags := s.span.tags.filter fun x => x.tag != t0.tag } ∧
          ∀ j, isTally j = false → j ≠ kCtx t0.ctx 0x4C → getR t j = getR s j))) ∧
    (∀ tag : BitVec 16, (s.span.tags.find? (fun x => x.tag == tag.toNat && x.use != .retired) = none → exec (.spanReqTimeout tag) s = .next s) ∧
      (∀ x, s.span.tags.find? (fun x => x.tag == tag.toNat && x.use != .retired) = some x → x.ctx < 1024 → ∃ t,
        exec (.spanReqTimeout tag) s = .next t ∧ bit (getR t (kCtx x.ctx 0xD0)) 31 = true ∧
        (bit (getR s (kCtx x.ctx 0xD0)) 31 = false → getF t (kCtx x.ctx 0xD0) 23 16 = 0x75)) ∧
      ((∀ x ∈ s.span.tags, x.tag = tag.toNat → x.use ≠ .retired) → exec (.spanTagRelease tag) s = .next s) ∧
      (s.span.waits = [] → (∃ x ∈ s.span.tags, x.tag = tag.toNat ∧ x.use = .retired) → exec (.spanTagRelease tag) s =
        .next { s with span := { s.span with tags := s.span.tags.filter fun x => x.tag != tag.toNat } })) ∧
    (∀ (pid : BitVec 5) (win : BitVec 6), (∀ x ∈ s.span.waits, x.pid ≠ pid.toNat ∨ x.win ≠ win.toNat ∨ portUp s x.port = true) →
      exec (.windowPortTimeout pid win) s = .next s) ∧
    (∀ (pid : BitVec 5) (win : BitVec 6) (x : SpanWait), s.span.waits = [x] → x.pid = pid.toNat → x.win = win.toNat → portUp s x.port = false →
      x.tag.ctx < 1024 → ∃ t, exec (.windowPortTimeout pid win) s = .next t ∧ t.span.waits = [] ∧
      bit (getR t (kCtx x.tag.ctx 0xD0)) 31 = true ∧
      (bit (getR s (kCtx x.tag.ctx 0xD0)) 31 = false → getF t (kCtx x.tag.ctx 0xD0) 23 16 = 0x75)) ∧
    (∀ opc : Byte, (portUp s P = false ∨ knownOpc opc.toNat = true ∧ (opc.toNat < 0x20 ∨ managerOpc opc.toNat = true) → exec (.spanBadPacket port opc) s = .next s) ∧
      (portUp s P = true → knownOpc opc.toNat = false → ∃ t, exec (.spanBadPacket port opc) s = .next t ∧ t = { s with regs := t.regs } ∧
        getR t 0x100C = sat32Add (getR s 0x100C) 1 ∧ s.regsBut [0x100C] t) ∧
      (portUp s P = true → knownOpc opc.toNat = true → 0x20 ≤ opc.toNat → managerOpc opc.toNat = false → ∃ t,
        exec (.spanBadPacket port opc) s = .next t ∧ t = { s with regs := t.regs } ∧
        getR t 0x1010 = sat32Add (getR s 0x1010) 1 ∧ s.regsBut [0x1010] t))

/-- The fabric manager's messages (09 R277-R281): the announcement, ASSIGN taken or answered busy, stale windows from notices about peers, the
report, notices acknowledged and resent. A message outside a session or failing its check is discarded and counted.
SESS_FRAG (12 R366, R388): a fragment is kept until its message is whole; a whole first message that the manager's keys prove is answered, and
a whole second one establishes the session, with a key for each direction and the notices still owed sent in it; one that is not proved, or a
fragment that cannot be or has more than 248 bytes, is counted. Whether the keys prove it is not of this model (log 10). -/
def Obligations.ManagerMessagesAndSession : Prop :=
  (∀ (s : State) (seq : BitVec 16) (ok : Bool) (mn : BitVec 16) (gen : Word) (kind : PeerKind) (pid : BitVec 5) (ep : BitVec 16) (opc : Byte),
     (∀ port : PortId, (s.span.annPort && portUp s (portNo port)) = false → exec (.announceTimer port) s = .next s) ∧
     (∀ port : PortId, (s.span.annPort && portUp s (portNo port)) = true → ∃ t k, exec (.announceTimer port) s = .next t ∧
       t = { s with span := { s.span with links := t.span.links, out := t.span.out, seq := (s.span.seq + 1) % 65536 } } ∧
       .pkt (portNo port) k ∈ t.span.out ∧ k.opc = 0x20) ∧
     (anyPort s = none → ∀ i, i = .assign seq ok mn gen ∨ i = .peerNotice seq ok kind mn pid ep ∨ i = .query seq ok ∨ i = .noticeAck ok opc seq →
       exec i s = .next s) ∧
     (anyPort s ≠ none → (fmSess s = false ∨ ok = false) → ∃ t, t = { s with regs := t.regs } ∧ getR t 0x1010 = sat32Add (getR s 0x1010) 1 ∧
       s.regsBut [0x1010] t ∧ ∀ i, i = .assign seq ok mn gen ∨ i = .peerNotice seq ok kind mn pid ep ∨ i = .query seq ok ∨ i = .noticeAck ok opc seq →
       exec i s = .next t) ∧
     (anyPort s ≠ none → fmSess s = true → ok = true →
       (assignOk s mn.toNat = true → ∃ t, exec (.assign seq ok mn gen) s = .next t ∧ t = { s with regs := t.regs, span := t.span } ∧
         getR t 0x1000 = BitVec.ofNat 32 (2 ^ 31 + mn.toNat) ∧ getR t 0x1004 = gen ∧ s.regsBut [0x1000, 0x1004, 0x400] t) ∧
       (assignOk s mn.toNat = false → ∃ t, exec (.assign seq ok mn gen) s = .next t ∧ t = { s with regs := t.regs, span := t.span } ∧
         s.regsBut [0x400] t) ∧
       (s.span.waits = [] → ∃ t, exec (.peerNotice seq ok kind mn pid ep) s = .next t ∧ t = { s with regs := t.regs, span := t.span } ∧
         (∀ i < 32, ∀ n < 64, bit (getR t (kWin i n 0)) 30 =
           (bit (getR s (kWin i n 0)) 30 || noticeHits s kind mn.toNat pid.toNat ep.toNat i n)) ∧
         (∀ i < 32, (∃ n < 64, noticeHits s kind mn.toNat pid.toNat ep.toNat i n = true) → bit (getR t (kPart i 0x1004)) 2 = true) ∧
         s.regsBut (0x400 :: (rangeFrom 0 32).flatMap fun i => kPart i 0x1004 :: (rangeFrom 0 64).map fun n => kWin i n 0) t) ∧
       (∃ t k P, exec (.query seq ok) s = .next t ∧ t = { s with regs := t.regs, span := t.span } ∧ .pkt P k ∈ t.span.out ∧ k.opc = 0x28 ∧
         s.regsBut [0x400] t) ∧
       (∃ t, exec (.noticeAck ok opc seq) s = .next t ∧ t = { s with regs := t.regs, span := t.span } ∧
         t.span.notices = s.span.notices.filter (fun n => !(n.opc == opc.toNat && n.seq == seq.toNat)) ∧ s.regsBut [0x400] t)) ∧
     (∃ t, exec .noticeResend s = .next t ∧ t = { s with regs := t.regs, span := t.span } ∧ t.span.notices = s.span.notices ∧ s.regsBut [0x400] t)) ∧
(∀ (att i n : BitVec 16) (data : List Byte) (s : State),
     ((anyPort s = none ∨ s.sec.ready = false) → exec (.sessFrag att i n data) s = .next s) ∧
     (∀ P, anyPort s = some P → s.sec.ready = true →
       ((n.toNat ≤ i.toNat ∨ 248 < data.length) → ∃ t, exec (.sessFrag att i n data) s = .next t ∧ t = { s with regs := t.regs } ∧
         getR t 0x1010 = sat32Add (getR s 0x1010) 1 ∧ s.regsBut [0x1010] t) ∧
       (i.toNat < n.toNat → data.length ≤ 248 → ∀ f fr m, f = (if s.span.attempt = att.toNat then s.span.frags else []) →
         fr = tabIns i.toNat data (tabDrop i.toNat f) → m = (rangeFrom 0 n.toNat).flatMap (fun k => (tabFind k fr).getD []) →
         ((∃ k < n.toNat, tabFind k fr = none) → ∃ t, exec (.sessFrag att i n data) s = .next t ∧
           t = { s with span := { s.span with attempt := att.toNat, frags := fr, offer := t.span.offer, reply := t.span.reply
                                              offerKey := t.span.offerKey } } ∧
           (s.span.attempt = att.toNat → t.span.offer = s.span.offer ∧ t.span.reply = s.span.reply)) ∧
         ((∀ k < n.toNat, tabFind k fr ≠ none) →
           ((s.span.attempt ≠ att.toNat ∨ s.span.offer = []) → ∃ t, exec (.sessFrag att i n data) s = .next t ∧
             t = { s with regs := t.regs, span := t.span, free := t.free } ∧ t.span.frags = [] ∧
             (if s.sec.fmroot ≠ [] ∧ bit (getR s 0x400) 26 = false ∧ Config.managerOk s.sec.fmroot m = true then
               t.span.offer = m ∧ t.regs = s.regs
              else getR t 0x1010 = sat32Add (getR s 0x1010) 1 ∧ s.regsBut [0x1010] t)) ∧
           (s.span.attempt = att.toNat → s.span.offer ≠ [] → ∃ t, exec (.sessFrag att i n data) s = .next t ∧
             t = { s with regs := t.regs, span := t.span } ∧ t.span.frags = [] ∧ t.span.offer = [] ∧ t.span.reply = [] ∧
             (if Config.managerOk s.sec.fmroot (s.span.offer ++ s.span.reply ++ m) = true then
               s.regsBut [0x400] t ∧ (s.span.notices.length < 65535 → fmSess t = true ∧ t.span.sessTx = s.span.notices.length ∧
                 t.span.sessRx = 0 ∧ t.span.keyTx = Config.hkdf [] s.span.offerKey (1 :: (s.span.offer ++ s.span.reply)) ∧
                 t.span.keyRx = Config.hkdf [] s.span.offerKey (0 :: (s.span.offer ++ s.span.reply)))
              else getR t 0x1010 = sat32Add (getR s 0x1010) 1 ∧ s.regsBut [0x1010] t))))))

/-- The mailbox (18 R531-R533; 12 R364, R372): a GO while a request is with the RTP is discarded and counted; while the RTP restarts a request
stays with it; a code that is no request is answered 0xC0, and so are a request on a channel it may not use and, in recovery, PART_SEAL and PART_DESTROY; one of
the wrong length 0xC1. -/
def Obligations.MailboxFraming : Prop :=
  ∀ (fn : BitVec 6) (c : Byte) (body : List Byte) (ok : Bool) (s : State) (rows : List (Instr × Nat × Nat)),
    rows = [(.partCreate body, 0, 0x10), (.partSeal body, 0, 0x11), (.partDestroy body, 0, 0x12), (.getCerts fn body, fn.toNat, 0x20),
      (.getReport fn body, fn.toNat, 0x21), (.bkeySet fn body, fn.toNat, 0x22), (.fwWrite fn body, fn.toNat, 0x23),
      (.fwActivate fn body, fn.toNat, 0x24), (.svnCommit fn body ok, fn.toNat, 0x25), (.dbgChallenge fn body, fn.toNat, 0x26),
      (.dbgUnlock fn body, fn.toNat, 0x27), (.fmrootSet fn body, fn.toNat, 0x28), (.crashDump fn body, fn.toNat, 0x30),
      (.crashRead fn body, fn.toNat, 0x31), (.mbUnknownCode fn c body, fn.toNat, c.toNat)] → fn.toNat ≤ 32 →
    (∀ i f code, (i, f, code) ∈ rows →
      (mbBusy s f = true → ∃ t, exec i s = .next t ∧ t = { s with regs := t.regs } ∧
        getR t (accErrK f) = sat32Add (getR s (accErrK f)) 1 ∧ s.regsBut [accErrK f] t) ∧
      (mbBusy s f = false → (s.sec.ready || inRecovery s) = false → ∃ t, exec i s = .next t ∧
        t = { s with regs := t.regs, sec := { s.sec with mailBusy := s.sec.mailBusy ++ [(f, code)] } } ∧ mbBusy t f = true ∧
        getR t (kMb f 4) = BitVec.ofNat 32 (code * 2 ^ 24 + body.length) ∧ s.regsBut [kMb f 4, kMb f 8] t)) ∧
    (s.mbOpen fn.toNat → ∃ t, exec (.mbUnknownCode fn c body) s = .next t ∧ t.replied fn.toNat c.toNat 0xC0 [] ∧ s.mailOnly fn.toNat [] t) ∧
    (s.mbOpen fn.toNat → fn.toNat ≠ 0 → ∀ i code, (i, fn.toNat, code) ∈ rows → code ∈ [0x23, 0x24, 0x25, 0x26, 0x27, 0x28, 0x30, 0x31] →
      i ≠ .mbUnknownCode fn c body → ∃ t, exec i s = .next t ∧ t.replied fn.toNat code 0xC0 [] ∧ s.mailOnly fn.toNat [] t) ∧
    (s.mbOpen 0 → inRecovery s = true → ∀ i code, (i, code) ∈ [(Instr.partSeal body, 0x11), (.partDestroy body, 0x12)] →
      ∃ t, exec i s = .next t ∧ t.replied 0 code 0xC0 [] ∧ s.mailOnly 0 [] t) ∧
    (s.mbOpen 0 → inRecovery s = false → ∀ i code n, (i, code, n) ∈ [(Instr.partCreate body, 0x10, 136), (.partSeal body, 0x11, 1),
        (.partDestroy body, 0x12, 1), (.getCerts 0 body, 0x20, 0), (.getReport 0 body, 0x21, 33), (.fwActivate 0 body, 0x24, 0),
        (.svnCommit 0 body ok, 0x25, 0), (.dbgChallenge 0 body, 0x26, 0), (.dbgUnlock 0 body, 0x27, 3469), (.fmrootSet 0 body, 0x28, 32),
        (.crashDump 0 body, 0x30, 8), (.crashRead 0 body, 0x31, 8)] →
      body.length ≠ n → ∃ t, exec i s = .next t ∧ t.replied 0 code 0xC1 [] ∧ s.mailOnly 0 [] t)

/-- Identity and keys (12 R366, R372-R375, R378, R381): certificates and reports of the device, of a partition to the operator, of its own
partition to a tenant; a report has 256 bytes before its signatures; BKEY_SET in its state takes a sealed key of the running epoch;
FMROOT_SET keeps the manager's root. -/
def Obligations.IdentityRequests : Prop :=
  ∀ (fn : BitVec 6) (body : List Byte) (s : State) (f p : Nat), f = fn.toNat → p = f - 1 → s.mbOpen f →
    (body = [] → ∃ t, exec (.getCerts fn body) s = .next t ∧ t.replied f 0x20 0 ((certsOf s [0, 1, 2]).take 61696) ∧ s.mailOnly f [] t) ∧
    (f ≠ 0 → body.length = 32 → ∃ t, exec (.getReport fn body) s = .next t ∧ t.replied f 0x21 0 (signedReport s body (some p)) ∧
      s.mailOnly f [] t) ∧
    (f = 0 → body.length = 33 → ∃ t, exec (.getReport fn body) s = .next t ∧ s.mailOnly f [] t ∧
      (leAt body 32 1 = 0xFF → t.replied f 0x21 0 (signedReport s (body.take 32) none)) ∧
      (leAt body 32 1 ≤ 31 → t.replied f 0x21 0 (signedReport s (body.take 32) (some (leAt body 32 1)))) ∧
      (31 < leAt body 32 1 → leAt body 32 1 ≠ 0xFF → t.replied f 0x21 0xC1 [])) ∧
    (∀ pid, (report s body pid).length = 256) ∧
    (f ≠ 0 → inRecovery s = false → body.length = 1138 →
      (bit (getR s 0x400) 26 = true → ∃ t, exec (.bkeySet fn body) s = .next t ∧ t.replied f 0x22 0xC7 [] ∧ s.mailOnly f [] t) ∧
      (bit (getR s 0x400) 26 = false → (partState s p ≠ 2 ∨ conf s p ≠ 2) →
        ∃ t, exec (.bkeySet fn body) s = .next t ∧ t.replied f 0x22 0xC2 [] ∧ s.mailOnly f [] t) ∧
      (bit (getR s 0x400) 26 = false → partState s p = 2 → conf s p = 2 → ∀ ep kek, ep = (body.drop 1136).take 2 →
        kek = Config.hkdf (List.replicate 32 0) (Config.kemDecap s.sec.runDigest (body.take 1088))
          ([0x44, 0x58, 0x39, 0x2D, 0x42, 0x4B, 0x45, 0x59] ++ leBytes 1 p ++ ep ++ iddig) →
        ∃ t, exec (.bkeySet fn body) s = .next t ∧
        (match Config.gcmOpen kek (List.replicate 12 0) ep ((body.drop 1088).take 32) ((body.drop 1120).take 16) with
          | none => t.replied f 0x22 0xC3 [] ∧ s.mailOnly f [] t
          | some kb => if leNat ep = epochOf s p then
              t.replied f 0x22 0 [] ∧ conf t p = 3 ∧ partOf t p = { partOf s p with kb := kb, kbEpoch := epochOf s p, cnts := [0, 0, 0, 0] } ∧
              (∀ q, q ≠ p → partOf t q = partOf s q) ∧ { s with parts := t.parts }.mailOnly f [kPart p 0x80] t
            else t.replied f 0x22 0xC3 [] ∧ s.mailOnly f [] t))) ∧
    (f = 0 → inRecovery s = false → body.length = 32 → ∃ t, exec (.fmrootSet fn body) s = .next t ∧ t.replied f 0x28 0 [] ∧
      bit (getR t 0x400) 28 = true ∧ { s with sec := { s.sec with fmroot := body } }.mailOnly f [0x400] t)

/-- Firmware and debug access (12 R366, R370-R372, R394): FW_WRITE puts its bytes in the slot that is not running and nowhere else; FW_ACTIVATE
prefers that slot when it holds good firmware; SVN_COMMIT raises SVNMIN to the running SVN, or, when the burn fails, to a free value on the
way (log 8); a challenge gives a nonce, which serves one attempt to unlock. Whether a token is good rests on signatures (log 10).
Crash dumps (15 R464-R466): a dump goes to the crash area of the flash, and to the host when an address is given, and tells its records; it
has 64 bytes and 64 for each unit; a unit that has not answered is marked for the next dump; a read gives the bytes of the area. -/
def Obligations.FirmwareDebugAccessAndCrashDumps : Prop :=
  (∀ (fn : BitVec 6) (body : List Byte) (s : State), fn = 0 → s.mbOpen 0 →
     (∀ off n, off = leAt body 0 4 → n = leAt body 4 4 → 8 ≤ body.length →
       ((n = 0 ∨ 61440 < n ∨ body.length ≠ 8 + n ∨ 0x02000000 < off + n) →
         ∃ t, exec (.fwWrite fn body) s = .next t ∧ t.replied 0 0x23 0xC1 [] ∧ s.mailOnly 0 [] t) ∧
       (0 < n → n ≤ 61440 → body.length = 8 + n → off + n ≤ 0x02000000 → ∃ t, exec (.fwWrite fn body) s = .next t ∧ t.replied 0 0x23 0 [] ∧
         { s with sec := { s.sec with flash := t.sec.flash } }.mailOnly 0 [] t ∧
         (∀ i < n, tabFind (fwBase (otherSlot s) + off + i) t.sec.flash = body[8 + i]?) ∧
         (∀ a, (a < fwBase (otherSlot s) + off ∨ fwBase (otherSlot s) + off + n ≤ a) → tabFind a t.sec.flash = tabFind a s.sec.flash))) ∧
     (body = [] → ∃ t, exec (.fwActivate fn body) s = .next t ∧
       (if fwValid s (otherSlot s) then t.replied 0 0x24 0 [] ∧ { s with sec := { s.sec with pref := some (otherSlot s) } }.mailOnly 0 [] t
        else t.replied 0 0x24 0xC4 [] ∧ s.mailOnly 0 [] t)) ∧
     (body = [] → inRecovery s = false → ∀ new, new = max s.sec.svnMin (getF s 0x400 15 8) →
       (∃ t, exec (.svnCommit fn body true) s = .next t ∧ t.replied 0 0x25 0 (leBytes 2 new) ∧ getF t 0x400 7 0 = new % 256 ∧
         { s with sec := { s.sec with svnMin := new } }.mailOnly 0 [0x400] t) ∧
       (∃ t, exec (.svnCommit fn body false) s = .next t ∧ t.replied 0 0x25 0xC4 [] ∧ s.sec.svnMin ≤ t.sec.svnMin ∧ t.sec.svnMin ≤ new ∧
         { s with free := t.free, sec := { s.sec with svnMin := t.sec.svnMin } }.mailOnly 0 [0x400] t)) ∧
     (body = [] → inRecovery s = false →
       (bit (getR s 0x400) 26 = true → ∃ t, exec (.dbgChallenge fn body) s = .next t ∧ t.replied 0 0x26 0xC7 [] ∧ s.mailOnly 0 [] t) ∧
       (bit (getR s 0x400) 26 = false → ∃ t, exec (.dbgChallenge fn body) s = .next t ∧ t.replied 0 0x26 0 t.sec.nonce ∧ t.sec.nonce.length = 32 ∧
         { s with free := t.free, sec := { s.sec with nonce := t.sec.nonce } }.mailOnly 0 [] t)) ∧
     (body.length = 3469 → inRecovery s = false →
       ((∃ p < 32, partState s p ≠ 0) → ∃ t, exec (.dbgUnlock fn body) s = .next t ∧ t.replied 0 0x27 0xC5 [] ∧
         { s with sec := { s.sec with nonce := [] } }.mailOnly 0 [] t) ∧
       ((∀ p < 32, partState s p = 0) → ∃ t, exec (.dbgUnlock fn body) s = .next t ∧
         { s with sec := { s.sec with nonce := [] } }.mailOnly 0 [0x400] t ∧
         (if tokenOk s body then t.replied 0 0x27 0 [] ∧ bit (getR t 0x400) 31 = true
          else t.replied 0 0x27 0xC6 [] ∧ getR t 0x400 = getR s 0x400)))) ∧
(∀ (fn : BitVec 6) (body : List Byte) (cls : Byte) (unit : BitVec 12) (s : State),
     exec (.crashUnitTimeout cls unit) s = .next { s with sec := { s.sec with
       crashUnreach := (cls.toNat, unit.toNat) :: s.sec.crashUnreach.filter (· != (cls.toNat, unit.toNat)) } } ∧
     (fn = 0 → s.mbOpen 0 → inRecovery s = false → body.length = 8 →
       (∃ t d, exec (.crashDump fn body) s = .next t ∧ t.replied 0 0x30 0 (leBytes 4 (allUnits s).length) ∧ d = crashBytes s ∧
         d.length = 64 + 64 * (allUnits s).length ∧ t.sec.crashUnreach = [] ∧
         (∀ i < d.length, tabFind (crashArea + i) t.sec.flash = d[i]?) ∧
         (∀ a, (a < crashArea ∨ crashArea + d.length ≤ a) → tabFind a t.sec.flash = tabFind a s.sec.flash) ∧
         (leNat body = 0 → { s with free := t.free, sec := { s.sec with flash := t.sec.flash, crashUnreach := [] } }.mailOnly 0 [] t) ∧
         (leNat body ≠ 0 → .write 0 none (leNat body) false d ∈ t.host)) ∧
       (∀ off n, off = leAt body 0 4 → n = leAt body 4 4 → ∃ t, exec (.crashRead fn body) s = .next t ∧ s.mailOnly 0 [] t ∧
         (if n = 0 ∨ 61440 < n ∨ 2 ^ 20 < off + n then t.replied 0 0x31 0xC1 []
          else t.replied 0 0x31 0 (flashBytes s (crashArea + off) n)))))

/-- PART_CREATE and PART_SEAL (11 R331-R334, R338; 12 R377, R390): refused with the first code that applies and nothing else changed but the code
a seal shows; granted, a FREE partition is OPEN with its clusters on, its contexts its own, a new epoch and a new key; an OPEN one is
sealed with its share in force. Registers of other partitions stay as they are. -/
def Obligations.PartitionsBegin : Prop :=
  ∀ (body : List Byte) (s : State) (p : Nat) (clm : Word) (cls cs : List Nat) (cm envw : Nat), p = leAt body 0 1 → cm = leAt body 1 1 →
    envw = leAt body 2 2 → clm = BitVec.ofNat 32 (leAt body 4 4) → cls = (rangeFrom 0 32).filter (fun c => bit clm c) →
    cs = maskCtxs (body.drop 8) → s.mbOpen 0 → p < 32 →
    (body.length = 136 →
      (createCode s p cm envw cls cs ≠ 0 → ∃ t, exec (.partCreate body) s = .next t ∧
        t.replied 0 0x10 (createCode s p cm envw cls cs) [] ∧ s.mailOnly 0 [] t) ∧
      (createCode s p cm envw cls cs = 0 → ∃ t o f, exec (.partCreate body) s = .next t ∧ t.replied 0 0x10 0 [] ∧
        pointFor cls.length envw = some (o, f) ∧ partState t p = 1 ∧ clMask t p = clm ∧
        getR t (kPart p 8) = BitVec.ofNat 32 (envw * 2 ^ 16 + f) ∧ getR t (kPart p 0xC) = BitVec.ofNat 32 cs.length ∧
        cmode t p = cm ∧ conf t p = 0 ∧ epochOf t p = (epochOf s p + 1) % 65536 ∧ (partOf t p).mek = s.sec.mekSerial + 1 ∧
        (∀ c ∈ cs, ctxOwner t c = some p) ∧ (∀ c ∈ cls, clst t c = 0) ∧
        t = { s with regs := t.regs, mem := t.mem, eng := t.eng, parts := t.parts, sec := t.sec, hbm := t.hbm, host := s.host ++ [.msi 0 0] } ∧
        (∀ q < 32, q ≠ p → partOf t q = partOf s q ∧ ∀ o < 0x4000, getR t (kPart q o) = getR s (kPart q o)) ∧
        (∀ c < 1024, c ∉ cs → ∀ o < 256, getR t (kCtx c o) = getR s (kCtx c o)))) ∧
    (body.length = 1 → inRecovery s = false → ∀ u, u = (if partState s p = 1 then modPart p (fun x => { x with gset := newSet s p }) s else s) →
      (sealCode u p ≠ 0 → ∃ t, exec (.partSeal body) s = .next t ∧ t.replied 0 0x11 (sealCode u p) [] ∧
        getF t (kPart p 0) 15 8 = sealCode u p ∧ s.mailOnly 0 [kPart p 0] t) ∧
      (sealCode u p = 0 → ∃ t, exec (.partSeal body) s = .next t ∧ t.replied 0 0x11 0 [] ∧ partState t p = 2 ∧
        conf t p = confWait (cmode s p) ∧ partOf t p = { partOf s p with gset := newSet s p, inForce := true } ∧
        (∀ q < 32, q ≠ p → partOf t q = partOf s q) ∧ get64 t (kPart p 0x2428) = mainSize u p % 2 ^ 64 ∧
        (∀ k < 8, getR t (kPart p (0x90 + 4 * k)) = 0) ∧
        t = { s with regs := t.regs, parts := t.parts, sec := { s.sec with bodies := t.sec.bodies }, span := t.span, host := t.host } ∧
        s.regsBut (mbRegs 0 ++ [0x400, kPart p 0, kPart p 0x80, kPart p 0x2428, kPart p 0x242C] ++
          (rangeFrom 0 8).map fun k => kPart p (0x90 + 4 * k)) t))

/-- PART_DESTROY and its end (11 R335, R336; 12 R391): a FREE partition is refused with 0x9F; a sealed or open one is CLOSING while the request
stays with the RTP; a partition being reset closes afterwards; once drained it is FREE, its contexts, clusters and images no longer its own
and its keys gone, and the request returns. -/
def Obligations.PartitionsEnd : Prop :=
  (∀ (body : List Byte) (s : State) (p : Nat), p = leAt body 0 1 → s.mbOpen 0 → inRecovery s = false → p < 32 → body.length = 1 →
    (partState s p = 0 → ∃ t, exec (.partDestroy body) s = .next t ∧ t.replied 0 0x12 0x9F [] ∧ s.mailOnly 0 [] t) ∧
    (partState s p = 3 → ∃ t, exec (.partDestroy body) s = .next t ∧ mbBusy t 0 = true ∧
      t = { s with regs := t.regs, parts := t.parts, sec := { s.sec with mailBusy := s.sec.mailBusy ++ [(0, 0x12 + 256 * p)] } } ∧
      partOf t p = { partOf s p with destroyWaits := true } ∧ s.regsBut [kMb 0 4, kMb 0 8] t) ∧
    (partState s p = 1 ∨ partState s p = 2 → ∃ t, exec (.partDestroy body) s = .next t ∧ mbBusy t 0 = true ∧ partState t p = 4 ∧
      t.sec.mailBusy = s.sec.mailBusy ++ [(0, 0x12 + 256 * p)] ∧ (∀ d ∈ t.jobs.drains, d.pid ≠ p) ∧
      (∀ x ∈ t.eng.cmds, x ∈ s.eng.cmds ∧ x.ctx ∉ partCtxs s p) ∧ (∀ c ∈ partCtxs s p, (ringOf t c).stopped = true) ∧
      (∀ q < 32, q ≠ p → partState t q = partState s q))) ∧
  (∀ (pid : BitVec 5) (s : State) (p : Nat), p = pid.toNat →
    ((∀ x ∈ s.sec.mailBusy, x.2 ≠ 0x12 + 256 * p) → exec (.destroyTeardownDrained pid) s = .next s) ∧
    (partState s p ≠ 4 → exec (.destroyTeardownDrained pid) s = .next s) ∧
    (∀ fn c, s.sec.mailBusy.find? (fun x => x.2 == 0x12 + 256 * p) = some (fn, c) → fn ≤ 32 → partState s p = 4 →
      ∃ t, exec (.destroyTeardownDrained pid) s = .next t ∧ t.replied fn 0x12 0 [] ∧ partState t p = 0 ∧ clMask t p = 0 ∧ conf t p = 0 ∧
      (∀ c ∈ partCtxs s p, ctxOwner t c = none) ∧ (∀ c ∈ partCls s p, clst t c = 3) ∧ (∀ i ∈ t.jobs.images, i.pid ≠ p) ∧
      partOf t p = {} ∧ (∀ q < 32, q ≠ p → partState t q = partState s q ∧ partOf t q = partOf s q) ∧
      (∀ x ∈ t.sec.mailBusy, x ∈ s.sec.mailBusy ∧ x.2 ≠ 0x12 + 256 * p)))

/-- SPDM (12 R364, R369, R385): while the RTP does not run nothing is answered; version, capabilities and algorithms are settled in that order, which
the model takes from the protocol (PRESUMED, log 10); after them digests, certificates, signed challenges and signed measurements are
answered, and before them refused; measurements are one block, index 0x10, of the 256 report bytes. Nothing else changes. -/
def Obligations.SpdmMessages : Prop :=
  ∀ (fn : BitVec 6) (off len : BitVec 16) (nonce : List Byte) (s : State) (f : Nat) (chain : List Byte) (late : List (Instr × SpdmRsp × List Byte)),
    f = fn.toNat → chain = certChain s →
    late = [(.getDigests fn, .digests, sha3 chain), (.getCertificate fn off len, .certificate, (chain.drop off.toNat).take len.toNat),
      (.challenge fn nonce, .challengeAuth, signedMsg s (sha3 chain ++ nonce)),
      (.getMeasurements fn nonce, .measurements, signedMsg s ([0x01, 0x10] ++ report s nonce (if fn = 0 then none else some (fn.toNat - 1))))] →
    (s.sec.ready = false → ∀ i, i ∈ [Instr.getVersion fn, .getCapabilities fn, .negotiateAlgorithms fn] ++ late.map (·.1) → exec i s = .next s) ∧
    (s.sec.ready = true →
      (∀ i n r d, (i, n, r, d) ∈ [(Instr.getVersion fn, 1, SpdmRsp.version, [0x13]), (.getCapabilities fn, 2, .capabilities, []),
          (.negotiateAlgorithms fn, 3, .algorithms, spdmAlgs)] →
        (n ≤ spdmStage s f + 1 → ∃ t, exec i s = .next t ∧ spdmStage t f = n ∧ (∀ g, g ≠ f → spdmStage t g = spdmStage s g) ∧
          t = { s with sec := { s.sec with spdm := t.sec.spdm }, host := s.host ++ [.doe f r d] }) ∧
        (spdmStage s f + 1 < n → exec i s = .next { s with host := s.host ++ [.doe f .refused []] })) ∧
      (∀ i r d, (i, r, d) ∈ late → exec i s =
        .next { s with host := s.host ++ [if 3 ≤ spdmStage s f then .doe f r d else .doe f .refused []] }))

/-- A tenant's session (12 R366, R377-R379, R386, R398): the key exchange and its check lead the partition that awaits a session into one; key updates
and heartbeats answer within it; its end, a request that fails the session's own integrity check, or a missed heartbeat, records the cause and
awaits another, and in RUN_IDE resets the partition. Outside a session its requests are refused.
The IDE stream of a tenant (12 R377, R379, R387): in its session keys are programmed, key sets go and stop, and when all six sub-streams run
the partition is in RUN_IDE; a set without a key is refused; a failed integrity check while a set runs is counted, and in RUN_IDE resets
the partition. -/
def Obligations.TenantSessionsAndTheirStream : Prop :=
  (∀ (fn : BitVec 6) (x k n : List Byte) (ok : Bool) (s : State) (f p : Nat), f = fn.toNat → p = f - 1 → s.sec.ready = true → f ≤ 32 →
     (3 ≤ spdmStage s f → bit (getR s 0x400) 26 = false → f ≠ 0 → partState s p = 2 → conf s p = 4 →
       (∀ e b h, e = Config.keyExchange s.free x k → b = e.1 ++ e.2.1 → h = sha3 (x ++ k ++ n ++ b) → ∃ t, exec (.lwKex fn x k n) s = .next t ∧
         t = { s with parts := t.parts, free := s.free + 1, host := s.host ++ [.doe f .lwKex (b ++ signEd s h ++ signMl s h)] } ∧
         partOf t p = { partOf s p with kex := handshake e.2.2.1 e.2.2.2 } ∧ (∀ q, q ≠ p → partOf t q = partOf s q)) ∧
       ((partOf s p).kex ≠ [] → ok = true → ∃ t, exec (.finish fn ok) s = .next t ∧ conf t p = 5 ∧
         t = { s with regs := t.regs, parts := t.parts, host := s.host ++ [.doe f .finish []] } ∧
         partOf t p = { partOf s p with kex := [], sess := true } ∧ (∀ q, q ≠ p → partOf t q = partOf s q) ∧ s.regsBut [kPart p 0x80] t) ∧
       (((partOf s p).kex = [] ∨ ok = false) → ∃ t, exec (.finish fn ok) s = .next t ∧
         t = { s with parts := t.parts, host := s.host ++ [.doe f .refused []] } ∧ partOf t p = { partOf s p with kex := [] } ∧
         (∀ q, q ≠ p → partOf t q = partOf s q))) ∧
     (sessPid s f (fun c => c == 5 || c == 6) = none → exec (.sessionHeartbeatMiss fn) s = .next s ∧
       ∀ i, i ∈ [Instr.keyUpdate ⟨fn, ok⟩, .heartbeat ⟨fn, ok⟩, .endSession ⟨fn, ok⟩, .ideQuery ⟨fn, ok⟩] →
         exec i s = .next { s with host := s.host ++ [.doe f .refused []] }) ∧
     (f ≠ 0 → partState s p = 2 → (conf s p = 5 ∨ conf s p = 6) →
       exec (.keyUpdate ⟨fn, true⟩) s = .next { s with host := s.host ++ [.doe f .keyUpdate []] } ∧
       exec (.heartbeat ⟨fn, true⟩) s = .next { s with host := s.host ++ [.doe f .heartbeat []] } ∧
       (∀ i cause h, (i, cause, h) ∈ [(Instr.endSession ⟨fn, true⟩, 0xC9, s.host ++ [HostOut.doe f .endSession []]),
           (.sessionHeartbeatMiss fn, 0xCA, s.host), (.endSession ⟨fn, false⟩, 0xC9, s.host), (.keyUpdate ⟨fn, false⟩, 0xC9, s.host),
           (.heartbeat ⟨fn, false⟩, 0xC9, s.host), (.ideQuery ⟨fn, false⟩, 0xC9, s.host)] →
         ∃ t, exec i s = .next t ∧ s.sessEnds p cause h t))) ∧
(∀ (fn : BitVec 6) (ok : Bool) (sub : BitVec 3) (set : BitVec 1) (key : BitVec 256) (s : State) (f p j : Nat), f = fn.toNat → p = f - 1 →
     j = 2 * sub.toNat + set.toNat → s.sec.ready = true → f ≤ 32 →
     (sessPid s f (fun c => c == 5 || c == 6) = none → exec (.ideCheckFail fn) s = .next s ∧
       ∀ i, i ∈ [Instr.keyProg ⟨fn, ok⟩ sub set key, .kSetGo ⟨fn, ok⟩ sub set, .kSetStop ⟨fn, ok⟩ sub set] →
         exec i s = .next { s with host := s.host ++ [.doe f .refused []] }) ∧
     (f ≠ 0 → partState s p = 2 → (conf s p = 5 ∨ conf s p = 6) →
       (∀ i, i ∈ [Instr.keyProg ⟨fn, false⟩ sub set key, .kSetGo ⟨fn, false⟩ sub set, .kSetStop ⟨fn, false⟩ sub set] →
         ∃ t, exec i s = .next t ∧ s.sessEnds p 0xC9 s.host t) ∧
       exec (.ideQuery ⟨fn, true⟩) s = .next { s with host := s.host ++ [.doe f .ideQuery []] } ∧
       (∃ t, exec (.keyProg ⟨fn, true⟩ sub set key) s = .next t ∧ t = { s with parts := t.parts, host := s.host ++ [.doe f .ideAck []] } ∧
         tabFind j (partOf t p).keys = some key ∧ (∀ i, i ≠ j → tabFind i (partOf t p).keys = tabFind i (partOf s p).keys) ∧
         partOf t p = { partOf s p with keys := (partOf t p).keys } ∧ (∀ q, q ≠ p → partOf t q = partOf s q)) ∧
       (tabFind j (partOf s p).keys = none → exec (.kSetGo ⟨fn, true⟩ sub set) s = .next { s with host := s.host ++ [.doe f .refused []] }) ∧
       (∀ g, tabFind j (partOf s p).keys ≠ none → g = setIns j ((partOf s p).go.filter fun i => i / 2 != j / 2) →
         ∃ t, exec (.kSetGo ⟨fn, true⟩ sub set) s = .next t ∧ t = { s with regs := t.regs, parts := t.parts, host := s.host ++ [.doe f .ideAck []] } ∧
         partOf t p = { partOf s p with go := g } ∧ (∀ q, q ≠ p → partOf t q = partOf s q) ∧
         conf t p = (if conf s p = 5 ∧ g.length ≠ 6 then 5 else 6) ∧ s.regsBut [kPart p 0x80] t) ∧
       (∃ t, exec (.kSetStop ⟨fn, true⟩ sub set) s = .next t ∧ t = { s with parts := t.parts, host := s.host ++ [.doe f .ideAck []] } ∧
         partOf t p = { partOf s p with go := setDel j (partOf s p).go } ∧ (∀ q, q ≠ p → partOf t q = partOf s q)) ∧
       ((partOf s p).go = [] → exec (.ideCheckFail fn) s = .next s) ∧
       ((partOf s p).go ≠ [] → conf s p = 5 → ∃ t, exec (.ideCheckFail fn) s = .next t ∧ t = { s with regs := t.regs } ∧
         getR t (kPart p 0x8C) = sat32Add (getR s (kPart p 0x8C)) 1 ∧ s.regsBut [kPart p 0x8C] t) ∧
       ((partOf s p).go ≠ [] → conf s p = 6 → ∃ t, exec (.ideCheckFail fn) s = .next t ∧ partState t p = 3 ∧ getF t (kPart p 0x84) 7 0 = 0xC8)))

/-- Context resets (14 R426, R432, R433, R435): a reset asked for records itself, sets BUSY, stops the ring and drops what the context has in flight;
its end clears BUSY, lets the ring go on, gives up periods and budgets and signals the function; one that does not drain becomes a reset of
the partition, which its record's ESC tells. Where there is nothing to reset nothing changes. -/
def Obligations.ContextResets : Prop :=
  ∀ (ctx : BitVec 10) (s : State) (c : Nat), c = ctx.toNat →
    ((ctxOwner s c = none ∨ bit (getR s (kCtx c 0xEC)) 1 = true) → exec (.ctxRst ctx) s = .next s) ∧
    (∀ p, ctxOwner s c = some p → partState s p ≠ 2 → exec (.ctxRst ctx) s = .next s) ∧
    (∀ p, ctxOwner s c = some p → partState s p = 2 → bit (getR s (kCtx c 0xEC)) 1 = false → ∃ t, exec (.ctxRst ctx) s = .next t ∧
      bit (getR t (kCtx c 0xEC)) 1 = true ∧ (ringOf t c).stopped = true ∧ t.jobs.resetting = s.jobs.resetting ++ [(c, 0xE1)] ∧
      t.eng.cmds = s.eng.cmds.filter (fun x => x.ctx != c) ∧ t.eng.pourRows = s.eng.pourRows.filter (fun x => x.ctx != c) ∧
      getR t (kPart p 0x114) = sat32Add (getR s (kPart p 0x114)) 1 ∧ (∀ x ∈ t.span.tags, x.ctx = c → x.use = .retired) ∧
      (bit (getR s (kCtx c 0xD0)) 31 = false → bit (getR t (kCtx c 0xD0)) 31 = true ∧ getF t (kCtx c 0xD0) 30 29 = 2 ∧
        getF t (kCtx c 0xD0) 23 16 = 0xE1) ∧
      (∀ q < 32, partState t q = partState s q)) ∧
    ((∀ x ∈ s.jobs.resetting, x.1 ≠ c) → exec (.ctxResetDrained ctx) s = .next s ∧ exec (.ctxResetEscalate ctx) s = .next s) ∧
    (∀ cause, s.jobs.resetting.find? (fun x => x.1 == c) = some (c, cause) → ∃ t h, exec (.ctxResetDrained ctx) s = .next t ∧
      bit (getR t (kCtx c 0xEC)) 1 = false ∧ (ringOf t c).stopped = false ∧ t.jobs.resetting = s.jobs.resetting.filter (fun x => x.1 != c) ∧
      (∀ q ∈ t.jobs.periods, q.ctx ≠ c) ∧ (∀ b ∈ t.jobs.budgets, b.ctx ≠ c) ∧ t.host = h ++ [.msi (boundFn t c) 0]) ∧
    ((∃ x ∈ s.jobs.resetting, x.1 = c) → partState s (ctxPid s c) = 2 → ∃ t, exec (.ctxResetEscalate ctx) s = .next t ∧
      partState t (ctxPid s c) = 3 ∧ getF t (kPart (ctxPid s c) 0x84) 7 0 = 0xE3 ∧
      epochOf t (ctxPid s c) = (epochOf s (ctxPid s c) + 1) % 65536 ∧
      (ctxOwner s c = some (ctxPid s c) → bit (getR t (kCtx c 0xD0)) 28 = true))

/-- Partition resets (14 R432, R436, R437; 11 R336; 12 R378): a sealed partition goes into reset with the cause and the old epoch kept, a new epoch,
its rings stopped and its commands gone; drained it is sealed again under a new key with its keys, images and weight pointers gone and its
rings off; before that its domains may be reset. A partition in another state is left alone. -/
def Obligations.PartitionResets : Prop :=
  ∀ (pid : BitVec 5) (s : State) (p : Nat), p = pid.toNat →
    (partState s p ≠ 2 → exec (.rcvPrst pid) s = .next s) ∧
    (partState s p = 2 → ∃ t, exec (.rcvPrst pid) s = .next t ∧ partState t p = 3 ∧ epochOf t p = (epochOf s p + 1) % 65536 ∧
      getR t (kPart p 0x10C) = BitVec.ofNat 32 (0xE2 * 2 ^ 24 + epochOf s p) ∧ getF t (kPart p 0x84) 7 0 = 0xE2 ∧
      getR t (kPart p 0x110) = sat32Add (getR s (kPart p 0x110)) 1 ∧ (∀ c ∈ partCtxs s p, (ringOf t c).stopped = true) ∧
      (∀ x ∈ t.eng.cmds, x ∈ s.eng.cmds ∧ x.ctx ∉ partCtxs s p) ∧ (∀ d ∈ t.jobs.drains, d.pid ≠ p) ∧
      (∀ q < 32, q ≠ p → partState t q = partState s q ∧ epochOf t q = epochOf s q)) ∧
    (partState s p ≠ 3 → exec (.partResetDrained pid) s = .next s ∧ exec (.partResetDomainReset pid) s = .next s) ∧
    (partState s p = 3 → ∃ t, exec (.partResetDomainReset pid) s = .next t ∧
      t = { s with regs := t.regs, mem := t.mem, eng := t.eng, hbm := { s.hbm with sramUe := t.hbm.sramUe, sramCe := t.hbm.sramCe } } ∧ getR t (kPart p 0x12C) = 0 ∧
      s.regsBut [kPart p 0x12C] t ∧ (∀ x ∈ t.eng.cmds, x ∈ s.eng.cmds ∧ x.core / 16 ∉ partCls s p) ∧
      (∀ c ∈ partCls s p, ∀ i < cmSize, tabFind (cmBase c + i) t.mem = none)) ∧
    (partState s p = 3 → (partOf s p).destroyWaits = false → ∃ t, exec (.partResetDrained pid) s = .next t ∧ partState t p = 2 ∧
      conf t p = confWait (cmode s p) ∧ (partOf t p = { partOf s p with
        mek := s.sec.mekSerial + 1, kb := [], cnts := [0, 0, 0, 0], kex := [], sess := false, keys := [], go := [], rstCause := none }) ∧
      (∀ i ∈ t.jobs.images, i.pid ≠ p) ∧ (∀ j < 4096, tabFind (p * 4096 + j) t.jobs.wptr = none) ∧
      (∀ c ∈ partCtxs s p, sqEn t c = false ∧ cqEn t c = false ∧ bit (getR t (kCtx c 0xEC)) 1 = false ∧ ringOf t c = {}) ∧
      (∀ q < 32, q ≠ p → partState t q = partState s q ∧ partOf t q = partOf s q)) ∧
    (partState s p = 3 → (partOf s p).destroyWaits = true → ∃ t, exec (.partResetDrained pid) s = .next t ∧ partState t p = 4)

/-- Watchdogs and units that stop responding (14 R425, R429-R431): what names a context faults it with KIND 1 and 0xE0, or 0xE4; what does not is
counted and recorded for the partition, or entered in the device log. Queues that hold nothing, that are halted or wake, that have not been
without progress for the timeout, and that have fired since their last progress, fire nothing. Of control cores, memory queues and channel
groups the event itself says that they are stuck (log 108). -/
def Obligations.Watchdogs : Prop :=
  ∀ (cls : BitVec 4) (unit : BitVec 12) (core : BitVec 9) (ctx : BitVec 10) (pid : BitVec 5) (g : BitVec 7) (s : State) (c p : Nat), c = ctx.toNat →
    p = pid.toNat →
    ((tab0 s.hbm.occ g.toNat = 0 ∨ grpKey g.toNat ∈ s.dbg.quiet) → exec (.watchdogFire (.hbm g)) s = .next s) ∧
    (tab0 s.hbm.occ g.toNat ≠ 0 → grpKey g.toNat ∉ s.dbg.quiet → ∃ t, exec (.watchdogFire (.hbm g)) s = .next t ∧
      t.sec.log = s.sec.log ++ [(0xE0, g.toNat)] ∧ t.host = s.host ++ [.msi 0 0] ∧ t.regs = s.regs ∧ grpKey g.toNat ∈ t.dbg.quiet) ∧
    (headCmd s cls.toNat unit.toNat c = none → exec (.watchdogFire (.engine cls unit ctx)) s = .next s) ∧
    (∀ m k h, headCmd s cls.toNat unit.toNat c = some m → k = engKey cls.toNat unit.toNat c → h = headSig m →
      ((brkState s c = 2 ∨ isWaking s cls.toNat unit.toNat = true ∨ wdgDue s (ctxPid s c) k h = false) →
        exec (.watchdogFire (.engine cls unit ctx)) s = .next s) ∧
      (brkState s c ≠ 2 → isWaking s cls.toNat unit.toNat = false → wdgDue s (ctxPid s c) k h = true →
        ∃ t, exec (.watchdogFire (.engine cls unit ctx)) s = .next t ∧ bit (getR t (kCtx c 0xD0)) 31 = true ∧
        (bit (getR s (kCtx c 0xD0)) 31 = false → getF t (kCtx c 0xD0) 30 29 = 1 ∧ getF t (kCtx c 0xD0) 23 16 = 0xE0 ∧
          getF t (kCtx c 0xE4) 31 24 = envOpc m.env) ∧ ∀ q, wdgDue t q k h = false)) ∧
    (coreWatched s core.toNat c = true → ctlKey core.toNat c ∉ s.dbg.quiet → ∃ t, exec (.watchdogFire (.control core ctx)) s = .next t ∧
      bit (getR t (kCtx c 0xD0)) 31 = true ∧ ctlKey core.toNat c ∈ t.dbg.quiet) ∧
    ((coreWatched s core.toNat c = false ∨ ctlKey core.toNat c ∈ s.dbg.quiet) → exec (.watchdogFire (.control core ctx)) s = .next s) ∧
    (ownedBy s p c = true → memQKey unit.toNat c ∉ s.dbg.quiet → ∃ t, exec (.watchdogFire (.bank pid unit ctx)) s = .next t ∧
      getR t (kPart p 0x11C) = sat32Add (getR s (kPart p 0x11C)) 1 ∧ bit (getR t (kPart p 0x118)) 31 = true ∧
      s.regsBut [kPart p 0x118, kPart p 0x11C] t ∧ memQKey unit.toNat c ∈ t.dbg.quiet) ∧
    ((ownedBy s p c = false ∨ memQKey unit.toNat c ∈ s.dbg.quiet) → exec (.watchdogFire (.bank pid unit ctx)) s = .next s) ∧
    (∀ co : Option (BitVec 10), (stuckVc s p unit.toNat (co.map fun x => x.toNat) = none → exec (.watchdogFire (.span pid unit co)) s = .next s) ∧
      (stuckVc s p unit.toNat (co.map fun x => x.toNat) ≠ none → ∃ t, exec (.watchdogFire (.span pid unit co)) s = .next t ∧
        getR t (kPart p 0x11C) = sat32Add (getR s (kPart p 0x11C)) 1 ∧ bit (getR t (kPart p 0x118)) 31 = true ∧
        s.regsBut [kPart p 0x118, kPart p 0x11C] t)) ∧
    (ctxOwner s c = none → exec (.watchdogFire (.completion ctx)) s = .next s) ∧
    (∀ q, ctxOwner s c = some q → (((ringOf s c).resv = 0 ∨ wdgDue s q (compKey c) (compSig s c) = false) →
        exec (.watchdogFire (.completion ctx)) s = .next s) ∧
      ((ringOf s c).resv ≠ 0 → wdgDue s q (compKey c) (compSig s c) = true → ∃ t, exec (.watchdogFire (.completion ctx)) s = .next t ∧
        getR t (kPart q 0x11C) = sat32Add (getR s (kPart q 0x11C)) 1 ∧ bit (getR t (kPart q 0x118)) 31 = true ∧
        s.regsBut [kPart q 0x118, kPart q 0x11C] t ∧ ∀ r, wdgDue t r (compKey c) (compSig t c) = false)) ∧
    ((∀ m ∈ s.eng.cmds, headCmd s cls.toNat unit.toNat m.ctx ≠ some m) → ∃ t, exec (.unitUnresponsive cls unit) s = .next t ∧
      t = { s with sec := { s.sec with log := s.sec.log ++ [(0xE4, cls.toNat * 4096 + unit.toNat)] }, host := s.host ++ [.msi 0 0] }) ∧
    (∃ t, exec (.unitUnresponsive cls unit) s = .next t ∧ ∀ m ∈ s.eng.cmds, m.ctx < 1024 → headCmd s cls.toNat unit.toNat m.ctx = some m →
      bit (getR t (kCtx m.ctx 0xD0)) 31 = true)

/-- Halts (15 R443-R447): a request or an armed comparator that matches starts a context halting with its cause; drained, with halt records that may be written, it is halted, the places
and registers of the cores that run it kept and its function signalled; RESUME lets a halted context go on, STEP one instruction. Nothing else starts or ends a halt. -/
def Obligations.Halts : Prop :=
  ∀ (ctx : BitVec 10) (s : State) (c : Nat), c = ctx.toNat →
    ((mayHalt s c && brkState s c == 0) = false → exec (.haltreq ctx) s = .next s) ∧
    ((mayHalt s c && brkState s c == 0) = true → ∃ t, exec (.haltreq ctx) s = .next t ∧ t = { s with regs := t.regs } ∧
      getR t (kCtx c 0xFC) = BitVec.ofNat 32 (2 ^ 30 + 2 * 2 ^ 27) ∧ s.regsBut [kCtx c 0xFC] t) ∧
    (∀ (core : BitVec 9) (cmp : BitVec 1) (pc : Word) (hit : Bool), hit = (mayHalt s c && brkState s c == 0 && runsOn s core.toNat c &&
        bit (getR s (kCtx c 0xF0)) (31 - cmp.toNat) && getR s (kCtx c (0xF4 + 4 * cmp.toNat)) == pc) →
      (hit = false → exec (.breakpointMatch ctx core cmp pc) s = .next s) ∧
      (hit = true → ∃ t, exec (.breakpointMatch ctx core cmp pc) s = .next t ∧ t = { s with regs := t.regs } ∧
        getR t (kCtx c 0xFC) = BitVec.ofNat 32 (2 ^ 30 + cmp.toNat * 2 ^ 27 + core.toNat * 2 ^ 18) ∧ s.regsBut [kCtx c 0xFC] t)) ∧
    (brkState s c ≠ 2 → exec (.resume ctx) s = .next s ∧ exec (.step ctx) s = .next s) ∧
    (brkState s c = 2 → (∃ t, exec (.resume ctx) s = .next t ∧ brkState t c = 0 ∧ s.regsBut [kCtx c 0xFC] t ∧
        t = { s with regs := t.regs, dbg := { s.dbg with halting := s.dbg.halting.filter fun x => x.1 != c,
                                                          pcs := s.dbg.pcs.filter fun x => x.1 % 1024 != c } }) ∧
      (∃ t, exec (.step ctx) s = .next t ∧ t = { s with regs := t.regs, dbg := { s.dbg with steps := t.dbg.steps } } ∧
        (∀ n < 512, (n * 1024 + c ∈ t.dbg.steps ↔ runsOn s n c = true)) ∧ getR t (kCtx c 0xFC) = BitVec.ofNat 32 (2 ^ 30 + 3 * 2 ^ 27) ∧
        s.regsBut [kCtx c 0xFC] t)) ∧
    (∀ pcs : List (BitVec 9 × Word × List DWord),
      ((brkState s c ≠ 1 ∨ ∃ m ∈ s.eng.cmds, m.ctx = c) → exec (.haltDrained ctx pcs) s = .next s) ∧
      (brkState s c = 1 → (∀ m ∈ s.eng.cmds, m.ctx ≠ c) → 
        (∀ n pc regs, (n, pc, regs) ∈ pcs → runsOn s n.toNat c = true → ∃ b, s.memShare (whoCtl s n.toNat c) n.toNat false = some b ∧
          s.mayWrite (whoCtl s n.toNat c) (b + 64 * getF s (kCtx c 0x54) 31 17) 576) →
        ∃ t l, exec (.haltDrained ctx pcs) s = .next t ∧ brkState t c = 2 ∧ tab0 t.dbg.halting c = now s ∧
        t.host = s.host ++ List.replicate l (.msi 0 0) ++ [.msi (boundFn s c) 0] ∧
        ((pcs.map (·.1)).Nodup → ∀ n pc regs, (n, pc, regs) ∈ pcs → runsOn s n.toNat c = true →
          tabFind (n.toNat * 1024 + c) t.dbg.pcs = some (pc, regs))))

/-- Hang snapshots (15 R451-R455): a trigger asks for one unless one is being read out; the tick takes what was asked for, with its header and the
records of the scope's units, and shows it; the readout ends with the scope free and tells whether a unit did not answer. -/
def Obligations.Snapshots : Prop :=
  ∀ (scope : Option (BitVec 5)) (s : State) (k : Nat), k = scopeNo scope →
    (snapBusy s k = true → exec (.snpTrig scope) s = .next s) ∧
    (snapBusy s k = false → ∃ t, exec (.snpTrig scope) s = .next t ∧ t = { s with dbg := { s.dbg with snaps := t.dbg.snaps } } ∧
      snapOf t k = { snapOf s k with pending := true } ∧ ∀ j, j ≠ k → snapOf t j = snapOf s j) ∧
    (((snapOf s k).pending = false ∨ snapBusy s k = true) → exec (.snapshotTick scope) s = .next s) ∧
    ((snapOf s k).pending = true → snapBusy s k = false → ∃ t id, exec (.snapshotTick scope) s = .next t ∧
      id = (if k = 32 then (s.dbg.markid + 1) % 256 else 0) ∧
      t = { s with regs := t.regs, dbg := { s.dbg with snaps := t.dbg.snaps, markid := t.dbg.markid },
                   span := { s.span with links := t.span.links, out := t.span.out } } ∧
      (snapOf t k).pending = false ∧ (snapOf t k).recs =
        snapRec 0 255 0 none (now s) (id + (if k = 32 then 255 else k) * 2 ^ 8) (scopeUnits s k).length ::
          (scopeUnits s k).flatMap (unitRecs s (if k = 32 then none else some k) (scopeSees s k)) ∧ (∀ j, j ≠ k → snapOf t j = snapOf s j) ∧
      getR t (kSnp k 4) = BitVec.ofNat 32 (2 ^ 30 + id * 2 ^ 16) ∧ get64 t (kSnp k 0x18) = now s ∧ getR t (kSnp k 0x14) = 0 ∧
      s.regsBut [kSnp k 4, kSnp k 0x14, kSnp k 0x18, kSnp k 0x1C] t ∧ (k ≠ 32 → t.span = s.span)) ∧
    (∀ gone : List (Byte × BitVec 12),
      ((snapBusy s k = false ∨ k ≠ 32 ∧ partState s k = 3) → exec (.snapshotReadoutDone scope gone) s = .next s) ∧
      (snapBusy s k = true → (k = 32 ∨ partState s k ≠ 3) → ∃ t, exec (.snapshotReadoutDone scope gone) s = .next t ∧
        getF t (kSnp k 4) 31 30 = 2 ∧ snapOf t k = {} ∧ (∀ j, j ≠ k → snapOf t j = snapOf s j) ∧
        (gone ≠ [] → bit (getR t (kSnp k 4)) 29 = true) ∧ (gone = [] → k ≠ 32 → bit (getR t (kSnp k 4)) 29 = false) ∧
        (k = 32 → t.mem = s.mem)))

/-- Crema taps (15 R456, R457): a write with a reserved MASTER or FMT is discarded; arming a tap that is off sets its results to their reset values; while
armed only ARM changes. Dumps (15 R460-R463): an entry that may fire, of a context with a RUN, reads its source and waits to be written, once
for the RUN; a table that may not be read fires nothing. Written into the carve it advances the carve; one that does not fit sets OVF; one that the
region check refuses leaves the carve (log 77); each signals. -/
def Obligations.TapsAndDumps : Prop :=
  (∀ (ofCore : Bool) (unit : BitVec 9) (tap : BitVec 2) (val : Word) (s : State) (k : Nat), k = kTap ofCore unit.toNat tap.toNat →
    (crmOk val = false → exec (.crmArm ofCore unit tap val) s = .next s ∧ exec (.crmDisarm ofCore unit tap val) s = .next s) ∧
    (crmOk val = true → bit (getR s k) 31 = false →
      (∃ t, exec (.crmArm ofCore unit tap val) s = .next t ∧ t = { s with regs := t.regs } ∧
        getR t k = (val ||| 0x80000000#32) &&& 0xFFF803FF#32 ∧ (∀ i, 3 ≤ i → i < 15 → getR t (k + 4 * i) = regReset (k + 4 * i)) ∧
        s.regsBut (k :: (rangeFrom 3 12).map fun i => k + 4 * i) t) ∧
      (∃ t, exec (.crmDisarm ofCore unit tap val) s = .next t ∧ t = { s with regs := t.regs } ∧ getR t k = val &&& 0x7FF803FF#32 ∧
        s.regsBut [k] t)) ∧
    (crmOk val = true → bit (getR s k) 31 = true →
      (∃ t, exec (.crmArm ofCore unit tap val) s = .next t ∧ t = { s with regs := t.regs } ∧ getR t k = getR s k ∧ s.regsBut [k] t) ∧
      (∃ t, exec (.crmDisarm ofCore unit tap val) s = .next t ∧ t = { s with regs := t.regs } ∧ getR t k = getR s k &&& 0x7FFFFFFF#32 ∧
        s.regsBut [k] t))) ∧
  (∀ (pid : BitVec 5) (entry : BitVec 6) (s : State) (p i at_ c : Nat) (e : List Byte), p = pid.toNat → i = entry.toNat →
    at_ = dumpEntryAt s p i → e = rawRead s p at_ 64 → c = leAt e 32 2 →
    ((dumpArmed s p i = false ∨ refusal s (whoTable p) true false false at_ 64 ≠ none) → exec (.dumpFire pid entry) s = .next s) ∧
    (dumpArmed s p i = true → s.mayRead (whoTable p) at_ 64 → (dumpMay s p i e = false ∨ runningRun s c = none) →
      ∃ t, exec (.dumpFire pid entry) s = .next t ∧ s.onlyAccesses t ∧ t.mem = s.mem) ∧
    (∀ x, dumpArmed s p i = true → s.mayRead (whoTable p) at_ 64 → dumpMay s p i e = true → runningRun s c = some x →
      ∃ t d, exec (.dumpFire pid entry) s = .next t ∧
      t.dbg.dumps = s.dbg.dumps ++ [d] ∧ c * 2048 + p * 64 + i ∈ t.dbg.fired ∧ d.pid = p ∧ d.entry = i ∧ d.ctx = c ∧ d.dcl = leAt e 38 1 ∧
      d.dsem = leAt e 39 1 ∧ d.data.take 16 = e.take 16 ∧ t.mem = s.mem ∧ bit (getR t (kPart p 0x1D8)) 30 = true ∧
      (s.mayRead (whoDump p c) (leAt e 16 8) (leAt e 24 8) → d.data.drop 64 = rawRead s p (leAt e 16 8) (leAt e 24 8) ∧ d.data[47]? = some 0) ∧
      (refusal s (whoDump p c) true false false (leAt e 16 8) (leAt e 24 8) ≠ none → d.data.length = 64 ∧ d.data[47]? = some 1))) ∧
  (∀ (pid : BitVec 5) (s : State) (p : Nat), p = pid.toNat →
    (s.dbg.dumps.find? (fun d => d.pid == p) = none → exec (.dumpComplete pid) s = .next s) ∧
    (∀ d wr n a w, s.dbg.dumps.find? (fun d => d.pid == p) = some d → d.ctx < 1024 → wr = getF s (kPart p 0x1D4) 26 0 → n = d.data.length / 64 →
      a = getF s (kPart p 0x1C4) 15 0 * 2 ^ 32 + 64 * wr → w = whoDump p d.ctx → ∃ t, exec (.dumpComplete pid) s = .next t ∧
      semOf t d.ctx d.dcl d.dsem = semOf s d.ctx d.dcl d.dsem + 1 ∧
      t.dbg.dumps = s.dbg.dumps.filter (fun x => !(x.pid == p && x.ctx == d.ctx && x.entry == d.entry)) ∧
      (2 ^ 26 < wr + n → bit (getR t (kPart p 0x1D8)) 31 = true ∧ t.mem = s.mem) ∧
      (wr + n ≤ 2 ^ 26 → refusal s w false true false a d.data.length ≠ none → getF t (kPart p 0x1D4) 26 0 = wr ∧
        getF t (kPart p 0x1D8) 15 0 = getF s (kPart p 0x1D8) 15 0 ∧ t.mem = s.mem) ∧
      (wr + n ≤ 2 ^ 26 → s.mayWrite w a d.data.length → getF t (kPart p 0x1D4) 26 0 = wr + n ∧
        getF t (kPart p 0x1D8) 15 0 = min (getF s (kPart p 0x1D8) 15 0 + 1) 0xFFFF ∧
        s.memBut (keysOf s p a d.data.length) t)))

/-- Resets of the host link (10 R287, 14 R432, 17 R514, 18 R533): FLR of a VF resets its mailbox and the sealed partition it serves; FLR of
the PF resets every sealed partition and leaves the RTP and the module number; PERST# while the module runs frees every partition, takes
the links down and keeps the security block, the module number, the epochs and the power block; otherwise it only holds the link down. -/
def Obligations.FunctionResets : Prop :=
  (∀ (v : BitVec 6) (s : State), 1 ≤ v.toNat → v.toNat ≤ 32 → ∃ t, exec (.flrVf v) s = .next t ∧
    (∀ k ∈ mbRegs v.toNat, getR t k = 0) ∧ t.sec.bodies = tabDrop v.toNat s.sec.bodies ∧
    (partState s (v.toNat - 1) ≠ 2 → t = { s with regs := t.regs, sec := t.sec } ∧ s.regsBut (kMb v.toNat 0 :: mbRegs v.toNat) t) ∧
    (partState s (v.toNat - 1) = 2 → getF t (kPart (v.toNat - 1) 0x84) 7 0 = 0xE2 ∧
      epochOf t (v.toNat - 1) = (epochOf s (v.toNat - 1) + 1) % 65536) ∧
    (∀ p < 32, partState t p = if p + 1 = v.toNat ∧ partState s p = 2 then 3 else partState s p)) ∧
  (∀ s : State, ∃ t, exec .flrPf s = .next t ∧ (∀ k ∈ mbRegs 0, getR t k = 0) ∧ t.sec.bodies = tabDrop 0 s.sec.bodies ∧
    t.sec.ready = s.sec.ready ∧ t.sec.hasImage = s.sec.hasImage ∧ t.sec.runDigest = s.sec.runDigest ∧
    getR t 0x1000 = getR s 0x1000 ∧ getR t 0x1004 = getR s 0x1004 ∧
    (∀ p < 32, partState t p = if partState s p = 2 then 3 else partState s p) ∧
    (∀ p < 32, partState s p = 2 → getF t (kPart p 0x84) 7 0 = 0xE2)) ∧
  (∀ s : State, s.pwr.pwrgd = false ∨ s.pwr.perst = true →
    exec .perstAssert s = .next { s with pwr := { s.pwr with perst := true, pfReady := false } }) ∧
  (∀ s : State, s.pwr.pwrgd = true → s.pwr.perst = false → ∃ t, exec .perstAssert s = .next t ∧ t.jobs = {} ∧ t.red = [] ∧
    t.latch = [] ∧ t.span.links = [] ∧ t.span.tags = [] ∧ t.span.waits = [] ∧ t.sec.mailBusy = [] ∧ t.sec.bodies = [] ∧
    t.pwr = { s.pwr with perst := true, pfReady := false } ∧ (∀ p < 32, partState t p = 0) ∧
    (∀ k, 0x100 ≤ k → k < 0x130 → k ∉ [0x118, 0x120, 0x124] → getR t k = getR s k) ∧
    (∀ k ∈ [0x404, 0x1000, 0x1004], getR t k = getR s k) ∧ (∀ p < 32, epochOf t p = epochOf s p) ∧
    (∀ k, keptOnPerst k = false → getR t k = regReset k))
end

