-- ==== Sys2Proof/Laws/Tab.lean ====
section
/-! SUPPORT. Laws of sparse tables: what a lookup finds after each operation, and that each operation keeps the canonical
form. -/

namespace Sys2Proof.Machine

theorem tabFind_tabDrop_self {α : Type} (k : Nat) (t : List (Nat × α)) : tabFind k (tabDrop k t) = none := by
  induction t with
  | nil => rfl
  | cons x r ih =>
    obtain ⟨a, v⟩ := x
    by_cases h : a = k <;> simp [tabDrop, tabFind, h, ih]

theorem tabFind_tabDrop_ne {α : Type} {k j : Nat} (h : k ≠ j) (t : List (Nat × α)) : tabFind k (tabDrop j t) = tabFind k t := by
  induction t with
  | nil => rfl
  | cons x r ih =>
    obtain ⟨a, v⟩ := x
    by_cases ha : a = j
    · subst ha; simp [tabDrop, tabFind, ih, Ne.symm h]
    · simp [tabDrop, tabFind, ha, ih]

theorem tabFind_tabIns_self {α : Type} (k : Nat) (v : α) (t : List (Nat × α)) (h : tabFind k t = none) :
    tabFind k (tabIns k v t) = some v := by
  induction t with
  | nil => simp [tabIns, tabFind]
  | cons x r ih =>
    obtain ⟨a, w⟩ := x
    by_cases hk : k < a
    · simp [tabIns, tabFind, hk]
    · by_cases ha : a = k
      · simp [tabFind, ha] at h
      · simp only [tabFind, ha, if_false] at h
        simp [tabIns, tabFind, hk, ha, ih h]

theorem tabFind_tabIns_ne {α : Type} {k j : Nat} (v : α) (h : k ≠ j) (t : List (Nat × α)) :
    tabFind k (tabIns j v t) = tabFind k t := by
  induction t with
  | nil => simp [tabIns, tabFind, Ne.symm h]
  | cons x r ih =>
    obtain ⟨a, w⟩ := x
    by_cases hk : j < a
    · simp [tabIns, tabFind, hk, Ne.symm h]
    · simp [tabIns, tabFind, hk, ih]

/-- A lookup of the key just written. -/
theorem tabFind_tabPut_self {α : Type} (d : Nat → α → Bool) (k : Nat) (v : α) (t : List (Nat × α)) :
    tabFind k (tabPut d k v t) = if d k v then none else some v := by
  unfold tabPut
  split
  · exact tabFind_tabDrop_self k t
  · exact tabFind_tabIns_self k v _ (tabFind_tabDrop_self k t)

/-- A lookup of another key. -/
theorem tabFind_tabPut_ne {α : Type} (d : Nat → α → Bool) {k j : Nat} (v : α) (h : k ≠ j) (t : List (Nat × α)) :
    tabFind k (tabPut d j v t) = tabFind k t := by
  unfold tabPut
  split
  · exact tabFind_tabDrop_ne h t
  · rw [tabFind_tabIns_ne v h, tabFind_tabDrop_ne h]

theorem tabFind_tabClear {α : Type} (lo hi k : Nat) (t : List (Nat × α)) :
    tabFind k (tabClear lo hi t) = if lo ≤ k ∧ k < hi then none else tabFind k t := by
  induction t with
  | nil => simp [tabClear, tabFind]
  | cons x r ih =>
    obtain ⟨a, v⟩ := x
    by_cases h : lo ≤ a ∧ a < hi
    · by_cases hk : a = k
      · subst hk; simp [tabClear, h, ih]
      · simp [tabClear, tabFind, h, ih, hk]
    · by_cases hk : a = k
      · subst hk; simp [tabClear, tabFind, h]
      · simp [tabClear, tabFind, h, ih, hk]

/-- Every listed pair satisfies a property that the head of a canonical table bounds: keys above `b`, no default. -/
theorem tabWf_cons {α : Type} (d : Nat → α → Bool) (k : Nat) (v : α) (r : List (Nat × α)) :
    tabWf d ((k, v) :: r) = true ↔ d k v = false ∧ (∀ x ∈ r, k < x.1) ∧ tabWf d r = true := by
  induction r generalizing k v with
  | nil => simp [tabWf]
  | cons x r ih =>
    obtain ⟨a, w⟩ := x
    constructor
    · intro h
      have h2 : d k v = false ∧ k < a ∧ tabWf d ((a, w) :: r) = true := by
        rw [tabWf] at h
        simpa [and_assoc] using h
      refine ⟨h2.1, ?_, h2.2.2⟩
      intro y hy
      rcases List.mem_cons.1 hy with rfl | hy
      · exact h2.2.1
      · exact Nat.lt_trans h2.2.1 (((ih a w).1 h2.2.2).2.1 y hy)
    · rintro ⟨h1, h2, h3⟩
      rw [tabWf]
      simp [h1, h2 (a, w) (by simp), h3]

theorem tabWf_filter {α : Type} (d : Nat → α → Bool) (p : Nat × α → Bool) (t : List (Nat × α)) (h : tabWf d t = true) :
    tabWf d (t.filter p) = true := by
  induction t with
  | nil => rfl
  | cons x r ih =>
    obtain ⟨a, v⟩ := x
    rw [tabWf_cons] at h
    by_cases hp : p (a, v) = true
    · rw [List.filter_cons_of_pos hp, tabWf_cons]
      exact ⟨h.1, fun y hy => h.2.1 y (List.mem_filter.1 hy).1, ih h.2.2⟩
    · rw [List.filter_cons_of_neg hp]; exact ih h.2.2

theorem tabDrop_eq {α : Type} (k : Nat) (t : List (Nat × α)) : tabDrop k t = t.filter fun x => x.1 != k := by
  induction t with
  | nil => rfl
  | cons x r ih => obtain ⟨a, v⟩ := x; by_cases h : a = k <;> simp [tabDrop, h, ih]

theorem tabClear_eq {α : Type} (lo hi : Nat) (t : List (Nat × α)) :
    tabClear lo hi t = t.filter fun x => !(decide (lo ≤ x.1) && decide (x.1 < hi)) := by
  induction t with
  | nil => rfl
  | cons x r ih =>
    obtain ⟨a, v⟩ := x
    by_cases h : lo ≤ a ∧ a < hi
    · simp [tabClear, h, ih]
    · rw [tabClear, if_neg h, ih, List.filter_cons_of_pos]
      by_cases h1 : lo ≤ a <;> simp_all

theorem tabWf_tabDrop {α : Type} (d : Nat → α → Bool) (k : Nat) (t : List (Nat × α)) (h : tabWf d t = true) :
    tabWf d (tabDrop k t) = true := by
  rw [tabDrop_eq]; exact tabWf_filter d _ t h

theorem tabWf_tabClear {α : Type} (d : Nat → α → Bool) (lo hi : Nat) (t : List (Nat × α)) (h : tabWf d t = true) :
    tabWf d (tabClear lo hi t) = true := by
  rw [tabClear_eq]; exact tabWf_filter d _ t h

theorem mem_tabIns {α : Type} (k : Nat) (v : α) (t : List (Nat × α)) (x : Nat × α) :
    x ∈ tabIns k v t ↔ x = (k, v) ∨ x ∈ t := by
  induction t with
  | nil => simp [tabIns]
  | cons y r ih =>
    obtain ⟨a, w⟩ := y
    by_cases h : k < a
    · simp [tabIns, h]
    · simp only [tabIns, h, if_false, List.mem_cons, ih]; exact or_left_comm

theorem tabWf_tabIns {α : Type} (d : Nat → α → Bool) (k : Nat) (v : α) (t : List (Nat × α)) (hd : d k v = false)
    (hn : ∀ x ∈ t, x.1 ≠ k) (h : tabWf d t = true) : tabWf d (tabIns k v t) = true := by
  induction t with
  | nil => simp [tabIns, tabWf, hd]
  | cons y r ih =>
    obtain ⟨a, w⟩ := y
    have h' := (tabWf_cons d a w r).1 h
    by_cases hk : k < a
    · rw [tabIns, if_pos hk, tabWf_cons]
      refine ⟨hd, fun x hx => ?_, h⟩
      rcases List.mem_cons.1 hx with rfl | hx
      · exact hk
      · exact Nat.lt_trans hk (h'.2.1 x hx)
    · rw [tabIns, if_neg hk, tabWf_cons]
      refine ⟨h'.1, fun x hx => ?_, ih (fun x hx => hn x (List.mem_cons_of_mem _ hx)) h'.2.2⟩
      rcases (mem_tabIns k v r x).1 hx with rfl | hx
      · have := hn (a, w) (by simp)
        simp only at this ⊢; omega
      · exact h'.2.1 x hx

/-- A write keeps the canonical form. -/
theorem tabWf_tabPut {α : Type} (d : Nat → α → Bool) (k : Nat) (v : α) (t : List (Nat × α)) (h : tabWf d t = true) :
    tabWf d (tabPut d k v t) = true := by
  unfold tabPut
  split
  · exact tabWf_tabDrop d k t h
  · rename_i hd
    refine tabWf_tabIns d k v _ (by simpa using hd) ?_ (tabWf_tabDrop d k t h)
    intro x hx
    rw [tabDrop_eq] at hx
    simpa using (List.mem_filter.1 hx).2

/-! Fields of a word -/

theorem fld_lt {w : Nat} (x : BitVec w) (hi lo : Nat) : fld x hi lo < 2 ^ (hi + 1 - lo) :=
  Nat.mod_lt _ (Nat.two_pow_pos _)

theorem bit_eq_testBit {w : Nat} (x : BitVec w) (i : Nat) : bit x i = x.toNat.testBit i := rfl

end Sys2Proof.Machine
end

