-- ==== Sys2Proof/Laws/Ops.lean ====
section
/-! SUPPORT. Laws of registers and memory: what a read gives after each write, and that every write keeps the canonical form. -/

namespace Sys2Proof.Machine

/-! Registers -/

theorem regIsReset_iff (k : Nat) (v : Word) : regIsReset k v = true ↔ v = regReset k := by simp [regIsReset]

/-- A register just written reads as the value written. -/
@[simp] theorem getR_setR_self (k : Nat) (v : Word) (s : State) : getR (setR k v s) k = v := by
  unfold getR setR
  rw [tabFind_tabPut_self]
  by_cases h : regIsReset k v = true
  · simp [h, ((regIsReset_iff k v).1 h).symm]
  · simp [h]

/-- Another register reads as before. -/
theorem getR_setR_ne {k j : Nat} (v : Word) (s : State) (h : j ≠ k) : getR (setR k v s) j = getR s j := by
  unfold getR setR
  rw [tabFind_tabPut_ne _ _ h]

theorem getR_setR (k j : Nat) (v : Word) (s : State) : getR (setR k v s) j = if j = k then v else getR s j := by
  by_cases h : j = k
  · subst h; simp
  · simp [h, getR_setR_ne]

theorem getR_congr {s t : State} (h : s.regs = t.regs) (k : Nat) : getR s k = getR t k := by unfold getR; rw [h]

@[simp] theorem getR_rstR_self (k : Nat) (s : State) : getR (rstR k s) k = regReset k := by simp [rstR]
theorem getR_rstR_ne {k j : Nat} (s : State) (h : j ≠ k) : getR (rstR k s) j = getR s j := getR_setR_ne _ _ h

theorem getR_rstRange (lo hi k : Nat) (s : State) :
    getR (rstRange lo hi s) k = if lo ≤ k ∧ k < hi then regReset k else getR s k := by
  unfold getR rstRange
  rw [tabFind_tabClear]
  split <;> simp

/-- A write of a whole register leaves the registers' canonical form. -/
theorem wf_setR (k : Nat) (v : Word) (s : State) (h : Regs.wf s.regs = true) : Regs.wf (setR k v s).regs = true :=
  tabWf_tabPut _ k v _ h

/-! Fields -/

theorem two_pow_sub_one_testBit (n i : Nat) : (2 ^ n - 1).testBit i = decide (i < n) := Nat.testBit_two_pow_sub_one n i

/-- Bit `i` of a field. -/
theorem fld_testBit (x : Word) (hi lo i : Nat) : (fld x hi lo).testBit i = (decide (i < hi + 1 - lo) && x.getLsbD (lo + i)) := by
  unfold fld
  rw [Nat.testBit_mod_two_pow, Nat.testBit_shiftRight]
  rfl

/-- Bit `i` of a word whose field has been replaced. -/
theorem putFld_getLsbD (x : Word) (hi lo v i : Nat) (hh : hi < 32) :
    (putFld x hi lo v).getLsbD i =
      if lo ≤ i ∧ i ≤ hi then v.testBit (i - lo) else x.getLsbD i := by
  by_cases hi32 : i < 32
  · unfold putFld
    rw [BitVec.getLsbD_or, BitVec.getLsbD_and, BitVec.getLsbD_not]
    simp only [BitVec.getLsbD_ofNat, Nat.testBit_shiftLeft, Nat.testBit_two_pow_sub_one, Nat.testBit_mod_two_pow, hi32, decide_true,
      Bool.true_and]
    by_cases h1 : lo ≤ i
    · by_cases h2 : i ≤ hi
      · have h3 : i - lo < hi + 1 - lo := by omega
        simp [h1, h2, h3]
      · have h3 : ¬ (i - lo < hi + 1 - lo) := by omega
        simp [h1, h2, h3]
    · have : ¬ (i ≥ lo) := by omega
      simp [h1]
  · have h : ¬ (lo ≤ i ∧ i ≤ hi) := by omega
    rw [if_neg h, BitVec.getLsbD_of_ge _ _ (by omega), BitVec.getLsbD_of_ge _ _ (by omega)]

/-- A field just replaced reads as the value written. -/
theorem fld_putFld_self (x : Word) (hi lo v : Nat) (hh : hi < 32) :
    fld (putFld x hi lo v) hi lo = v % 2 ^ (hi + 1 - lo) := by
  apply Nat.eq_of_testBit_eq
  intro i
  rw [fld_testBit, putFld_getLsbD _ _ _ _ _ hh, Nat.testBit_mod_two_pow]
  by_cases h : i < hi + 1 - lo
  · have : lo ≤ lo + i ∧ lo + i ≤ hi := by omega
    simp [h, this]
  · simp [h]

/-- A field apart from the one replaced reads as before. -/
theorem fld_putFld_ne (x : Word) (hi lo v h2 l2 : Nat) (hh : hi < 32) (hd : h2 < lo ∨ hi < l2) :
    fld (putFld x hi lo v) h2 l2 = fld x h2 l2 := by
  apply Nat.eq_of_testBit_eq
  intro i
  rw [fld_testBit, fld_testBit, putFld_getLsbD _ _ _ _ _ hh]
  by_cases h : i < h2 + 1 - l2
  · have : ¬ (lo ≤ l2 + i ∧ l2 + i ≤ hi) := by omega
    simp [h, this]
  · simp [h]

/-- A bit apart from the field replaced. -/
theorem bit_putFld_ne (x : Word) (hi lo v i : Nat) (hh : hi < 32) (hd : i < lo ∨ hi < i) :
    bit (putFld x hi lo v) i = bit x i := by
  unfold bit
  rw [putFld_getLsbD _ _ _ _ _ hh, if_neg (by omega)]

theorem bit_putFld_self (x : Word) (b v : Nat) (hh : b < 32) : bit (putFld x b b v) b = v.testBit 0 := by
  unfold bit
  rw [putFld_getLsbD _ _ _ _ _ hh, if_pos (by omega), Nat.sub_self]

@[simp] theorem getR_setF_self (k hi lo v : Nat) (s : State) : getR (setF k hi lo v s) k = putFld (getR s k) hi lo v := by
  simp [setF]
theorem getR_setF_ne {k j : Nat} (hi lo v : Nat) (s : State) (h : j ≠ k) : getR (setF k hi lo v s) j = getR s j :=
  getR_setR_ne _ _ h
@[simp] theorem getR_setN_self (k v : Nat) (s : State) : getR (setN k v s) k = BitVec.ofNat 32 v := by simp [setN]
theorem getR_setN_ne {k j : Nat} (v : Nat) (s : State) (h : j ≠ k) : getR (setN k v s) j = getR s j := getR_setR_ne _ _ h
@[simp] theorem getR_orR_self (k v : Nat) (s : State) : getR (orR k v s) k = getR s k ||| BitVec.ofNat 32 v := by simp [orR]
theorem getR_orR_ne {k j : Nat} (v : Nat) (s : State) (h : j ≠ k) : getR (orR k v s) j = getR s j := getR_setR_ne _ _ h
@[simp] theorem getR_andnR_self (k v : Nat) (s : State) : getR (andnR k v s) k = getR s k &&& ~~~(BitVec.ofNat 32 v) := by
  simp [andnR]
theorem getR_andnR_ne {k j : Nat} (v : Nat) (s : State) (h : j ≠ k) : getR (andnR k v s) j = getR s j := getR_setR_ne _ _ h
@[simp] theorem getR_inc32_self (k n : Nat) (s : State) : getR (inc32 k n s) k = sat32Add (getR s k) n := by simp [inc32]
theorem getR_inc32_ne {k j : Nat} (n : Nat) (s : State) (h : j ≠ k) : getR (inc32 k n s) j = getR s j := getR_setR_ne _ _ h
theorem getR_inc16_ne {k j : Nat} (n : Nat) (s : State) (h : j ≠ k) : getR (inc16 k n s) j = getR s j := getR_setR_ne _ _ h
theorem getR_set64_ne {k j : Nat} (v : Nat) (s : State) (h : j ≠ k) (h4 : j ≠ k + 4) : getR (set64 k v s) j = getR s j := by
  unfold set64; rw [getR_setN_ne _ _ h4, getR_setN_ne _ _ h]
theorem getR_inc64_ne {k j : Nat} (n : Nat) (s : State) (h : j ≠ k) (h4 : j ≠ k + 4) : getR (inc64 k n s) j = getR s j :=
  getR_set64_ne _ _ h h4

/-- A 64-bit quantity just stored reads back modulo 2^64. -/
theorem get64_set64_self (k v : Nat) (s : State) : get64 (set64 k v s) k = v % 2 ^ 64 := by
  unfold get64 set64
  rw [getR_setN_ne _ _ (by omega), getR_setN_self, getR_setN_self, BitVec.toNat_ofNat, BitVec.toNat_ofNat]
  omega

/-- A field just set reads back. -/
theorem getF_setF_self (k hi lo v : Nat) (s : State) (hh : hi < 32) : getF (setF k hi lo v s) k hi lo = v % 2 ^ (hi + 1 - lo) := by
  unfold getF; rw [getR_setF_self, fld_putFld_self _ _ _ _ hh]
/-- A field of the same register apart from it. -/
theorem getF_setF_apart (k hi lo v h2 l2 : Nat) (s : State) (hh : hi < 32) (hd : h2 < lo ∨ hi < l2) :
    getF (setF k hi lo v s) k h2 l2 = getF s k h2 l2 := by
  unfold getF; rw [getR_setF_self, fld_putFld_ne _ _ _ _ _ _ hh hd]
theorem getF_setF_ne {k j : Nat} (hi lo v h2 l2 : Nat) (s : State) (h : j ≠ k) :
    getF (setF k hi lo v s) j h2 l2 = getF s j h2 l2 := by unfold getF; rw [getR_setF_ne _ _ _ _ h]

/-! Memory -/

/-- A byte just written reads as written, whatever unlisted bytes read as. -/
theorem memByte_memPut_self (mek k : Nat) (b : Byte) (s : State) : memByte mek (memPut k b s) k = b := by
  unfold memByte memPut
  rw [tabFind_tabPut_self]
  by_cases h : memIsDef k b = true
  · simp only [h, if_true]
    simp only [memIsDef, Bool.and_eq_true, decide_eq_true_eq, beq_iff_eq] at h
    have hk : keyIsHbm k = false := by simp only [keyIsHbm, decide_eq_false_iff_not]; omega
    simp [hk, h.2]
  · simp [h]

/-- Every other byte reads as before. -/
theorem memByte_memPut_ne (mek : Nat) {k j : Nat} (b : Byte) (s : State) (h : j ≠ k) :
    memByte mek (memPut k b s) j = memByte mek s j := by
  unfold memByte memPut
  rw [tabFind_tabPut_ne _ _ h]

/-- A byte that is in none of the places written reads as before. -/
theorem memByte_memPuts_not_mem (mek : Nat) (ks : List Nat) (bs : List Byte) (s : State) (j : Nat) (h : j ∉ ks) :
    memByte mek (memPuts ks bs s) j = memByte mek s j := by
  induction ks generalizing bs s with
  | nil => rfl
  | cons k r ih =>
    cases bs with
    | nil => rfl
    | cons b t =>
      have h' : j ≠ k ∧ j ∉ r := by simpa using h
      have : memPuts (k :: r) (b :: t) s = memPuts r t (memPut k b s) := rfl
      rw [this, ih _ _ h'.2, memByte_memPut_ne _ _ _ h'.1]

/-- Bytes written at distinct places read back in order. -/
theorem memByte_memPuts_map (mek : Nat) (ks : List Nat) (bs : List Byte) (s : State) (hl : ks.length = bs.length) (hn : ks.Nodup) :
    ks.map (memByte mek (memPuts ks bs s)) = bs := by
  induction ks generalizing bs s with
  | nil => cases bs <;> simp_all
  | cons k r ih =>
    cases bs with
    | nil => simp at hl
    | cons b t =>
      have hn' := List.nodup_cons.1 hn
      have : memPuts (k :: r) (b :: t) s = memPuts r t (memPut k b s) := rfl
      rw [this, List.map_cons, memByte_memPuts_not_mem _ _ _ _ _ hn'.1, memByte_memPut_self,
        ih t _ (by simpa using hl) hn'.2]

/-- A write of a byte keeps memory's canonical form. -/
theorem wf_memPut (k : Nat) (b : Byte) (s : State) (h : Memory.wf s.mem = true) : Memory.wf (memPut k b s).mem = true :=
  tabWf_tabPut _ k b _ h

/-! Repetition -/

/-- A property that each application keeps is kept by `each`. -/
theorem each_keeps {α : Type} (P : State → Prop) (l : List α) (f : α → State → State) (s : State) (h : P s)
    (hf : ∀ x ∈ l, ∀ t, P t → P (f x t)) : P (each l f s) := by
  unfold each
  induction l generalizing s with
  | nil => exact h
  | cons x r ih =>
    exact ih (f x s) (hf x (by simp) s h) (fun y hy => hf y (List.mem_cons_of_mem _ hy))

@[simp] theorem each_nil {α : Type} (f : α → State → State) (s : State) : each [] f s = s := rfl
@[simp] theorem each_cons {α : Type} (x : α) (r : List α) (f : α → State → State) (s : State) :
    each (x :: r) f s = each r f (f x s) := rfl

theorem memPuts_keeps (P : State → Prop) (ks : List Nat) (bs : List Byte) (s : State) (h : P s)
    (hf : ∀ k b t, P t → P (memPut k b t)) : P (memPuts ks bs s) := by
  induction ks generalizing bs s with
  | nil => exact h
  | cons k r ih =>
    cases bs with
    | nil => exact h
    | cons b t => exact ih t (memPut k b s) (hf k b s h)

theorem wf_memPuts (ks : List Nat) (bs : List Byte) (s : State) (h : Memory.wf s.mem = true) :
    Memory.wf (memPuts ks bs s).mem = true :=
  memPuts_keeps (fun t => Memory.wf t.mem = true) ks bs s h fun k b t ht => wf_memPut k b t ht

theorem wf_memForget (lo hi : Nat) (s : State) (h : Memory.wf s.mem = true) : Memory.wf (memForget lo hi s).mem = true :=
  tabWf_tabClear _ lo hi _ h

end Sys2Proof.Machine
end

