-- ==== Sys2Proof/Laws/State.lean ====
section
/-! SUPPORT. What each base update leaves as it was, field by field of State. -/

namespace Sys2Proof.Machine

@[simp] theorem setR_assy (k : Nat) (v : Word) (s : State) : (setR k v s).assy = s.assy := rfl
@[simp] theorem setR_latch (k : Nat) (v : Word) (s : State) : (setR k v s).latch = s.latch := rfl
@[simp] theorem setR_mem (k : Nat) (v : Word) (s : State) : (setR k v s).mem = s.mem := rfl
@[simp] theorem setR_eng (k : Nat) (v : Word) (s : State) : (setR k v s).eng = s.eng := rfl
@[simp] theorem setR_jobs (k : Nat) (v : Word) (s : State) : (setR k v s).jobs = s.jobs := rfl
@[simp] theorem setR_parts (k : Nat) (v : Word) (s : State) : (setR k v s).parts = s.parts := rfl
@[simp] theorem setR_span (k : Nat) (v : Word) (s : State) : (setR k v s).span = s.span := rfl
@[simp] theorem setR_red (k : Nat) (v : Word) (s : State) : (setR k v s).red = s.red := rfl
@[simp] theorem setR_sec (k : Nat) (v : Word) (s : State) : (setR k v s).sec = s.sec := rfl
@[simp] theorem setR_pwr (k : Nat) (v : Word) (s : State) : (setR k v s).pwr = s.pwr := rfl
@[simp] theorem setR_dbg (k : Nat) (v : Word) (s : State) : (setR k v s).dbg = s.dbg := rfl
@[simp] theorem setR_time (k : Nat) (v : Word) (s : State) : (setR k v s).time = s.time := rfl
@[simp] theorem setR_hbm (k : Nat) (v : Word) (s : State) : (setR k v s).hbm = s.hbm := rfl
@[simp] theorem setR_host (k : Nat) (v : Word) (s : State) : (setR k v s).host = s.host := rfl
@[simp] theorem setR_bus (k : Nat) (v : Word) (s : State) : (setR k v s).bus = s.bus := rfl
@[simp] theorem setR_free (k : Nat) (v : Word) (s : State) : (setR k v s).free = s.free := rfl
@[simp] theorem setR_pending (k : Nat) (v : Word) (s : State) : (setR k v s).pending = s.pending := rfl

@[simp] theorem setF_assy (k hi lo v : Nat) (s : State) : (setF k hi lo v s).assy = s.assy := rfl
@[simp] theorem setF_latch (k hi lo v : Nat) (s : State) : (setF k hi lo v s).latch = s.latch := rfl
@[simp] theorem setF_mem (k hi lo v : Nat) (s : State) : (setF k hi lo v s).mem = s.mem := rfl
@[simp] theorem setF_eng (k hi lo v : Nat) (s : State) : (setF k hi lo v s).eng = s.eng := rfl
@[simp] theorem setF_jobs (k hi lo v : Nat) (s : State) : (setF k hi lo v s).jobs = s.jobs := rfl
@[simp] theorem setF_parts (k hi lo v : Nat) (s : State) : (setF k hi lo v s).parts = s.parts := rfl
@[simp] theorem setF_span (k hi lo v : Nat) (s : State) : (setF k hi lo v s).span = s.span := rfl
@[simp] theorem setF_red (k hi lo v : Nat) (s : State) : (setF k hi lo v s).red = s.red := rfl
@[simp] theorem setF_sec (k hi lo v : Nat) (s : State) : (setF k hi lo v s).sec = s.sec := rfl
@[simp] theorem setF_pwr (k hi lo v : Nat) (s : State) : (setF k hi lo v s).pwr = s.pwr := rfl
@[simp] theorem setF_dbg (k hi lo v : Nat) (s : State) : (setF k hi lo v s).dbg = s.dbg := rfl
@[simp] theorem setF_time (k hi lo v : Nat) (s : State) : (setF k hi lo v s).time = s.time := rfl
@[simp] theorem setF_hbm (k hi lo v : Nat) (s : State) : (setF k hi lo v s).hbm = s.hbm := rfl
@[simp] theorem setF_host (k hi lo v : Nat) (s : State) : (setF k hi lo v s).host = s.host := rfl
@[simp] theorem setF_bus (k hi lo v : Nat) (s : State) : (setF k hi lo v s).bus = s.bus := rfl
@[simp] theorem setF_free (k hi lo v : Nat) (s : State) : (setF k hi lo v s).free = s.free := rfl
@[simp] theorem setF_pending (k hi lo v : Nat) (s : State) : (setF k hi lo v s).pending = s.pending := rfl

@[simp] theorem setN_assy (k v : Nat) (s : State) : (setN k v s).assy = s.assy := rfl
@[simp] theorem setN_latch (k v : Nat) (s : State) : (setN k v s).latch = s.latch := rfl
@[simp] theorem setN_mem (k v : Nat) (s : State) : (setN k v s).mem = s.mem := rfl
@[simp] theorem setN_eng (k v : Nat) (s : State) : (setN k v s).eng = s.eng := rfl
@[simp] theorem setN_jobs (k v : Nat) (s : State) : (setN k v s).jobs = s.jobs := rfl
@[simp] theorem setN_parts (k v : Nat) (s : State) : (setN k v s).parts = s.parts := rfl
@[simp] theorem setN_span (k v : Nat) (s : State) : (setN k v s).span = s.span := rfl
@[simp] theorem setN_red (k v : Nat) (s : State) : (setN k v s).red = s.red := rfl
@[simp] theorem setN_sec (k v : Nat) (s : State) : (setN k v s).sec = s.sec := rfl
@[simp] theorem setN_pwr (k v : Nat) (s : State) : (setN k v s).pwr = s.pwr := rfl
@[simp] theorem setN_dbg (k v : Nat) (s : State) : (setN k v s).dbg = s.dbg := rfl
@[simp] theorem setN_time (k v : Nat) (s : State) : (setN k v s).time = s.time := rfl
@[simp] theorem setN_hbm (k v : Nat) (s : State) : (setN k v s).hbm = s.hbm := rfl
@[simp] theorem setN_host (k v : Nat) (s : State) : (setN k v s).host = s.host := rfl
@[simp] theorem setN_bus (k v : Nat) (s : State) : (setN k v s).bus = s.bus := rfl
@[simp] theorem setN_free (k v : Nat) (s : State) : (setN k v s).free = s.free := rfl
@[simp] theorem setN_pending (k v : Nat) (s : State) : (setN k v s).pending = s.pending := rfl

@[simp] theorem orR_assy (k v : Nat) (s : State) : (orR k v s).assy = s.assy := rfl
@[simp] theorem orR_latch (k v : Nat) (s : State) : (orR k v s).latch = s.latch := rfl
@[simp] theorem orR_mem (k v : Nat) (s : State) : (orR k v s).mem = s.mem := rfl
@[simp] theorem orR_eng (k v : Nat) (s : State) : (orR k v s).eng = s.eng := rfl
@[simp] theorem orR_jobs (k v : Nat) (s : State) : (orR k v s).jobs = s.jobs := rfl
@[simp] theorem orR_parts (k v : Nat) (s : State) : (orR k v s).parts = s.parts := rfl
@[simp] theorem orR_span (k v : Nat) (s : State) : (orR k v s).span = s.span := rfl
@[simp] theorem orR_red (k v : Nat) (s : State) : (orR k v s).red = s.red := rfl
@[simp] theorem orR_sec (k v : Nat) (s : State) : (orR k v s).sec = s.sec := rfl
@[simp] theorem orR_pwr (k v : Nat) (s : State) : (orR k v s).pwr = s.pwr := rfl
@[simp] theorem orR_dbg (k v : Nat) (s : State) : (orR k v s).dbg = s.dbg := rfl
@[simp] theorem orR_time (k v : Nat) (s : State) : (orR k v s).time = s.time := rfl
@[simp] theorem orR_hbm (k v : Nat) (s : State) : (orR k v s).hbm = s.hbm := rfl
@[simp] theorem orR_host (k v : Nat) (s : State) : (orR k v s).host = s.host := rfl
@[simp] theorem orR_bus (k v : Nat) (s : State) : (orR k v s).bus = s.bus := rfl
@[simp] theorem orR_free (k v : Nat) (s : State) : (orR k v s).free = s.free := rfl
@[simp] theorem orR_pending (k v : Nat) (s : State) : (orR k v s).pending = s.pending := rfl

@[simp] theorem andnR_assy (k v : Nat) (s : State) : (andnR k v s).assy = s.assy := rfl
@[simp] theorem andnR_latch (k v : Nat) (s : State) : (andnR k v s).latch = s.latch := rfl
@[simp] theorem andnR_mem (k v : Nat) (s : State) : (andnR k v s).mem = s.mem := rfl
@[simp] theorem andnR_eng (k v : Nat) (s : State) : (andnR k v s).eng = s.eng := rfl
@[simp] theorem andnR_jobs (k v : Nat) (s : State) : (andnR k v s).jobs = s.jobs := rfl
@[simp] theorem andnR_parts (k v : Nat) (s : State) : (andnR k v s).parts = s.parts := rfl
@[simp] theorem andnR_span (k v : Nat) (s : State) : (andnR k v s).span = s.span := rfl
@[simp] theorem andnR_red (k v : Nat) (s : State) : (andnR k v s).red = s.red := rfl
@[simp] theorem andnR_sec (k v : Nat) (s : State) : (andnR k v s).sec = s.sec := rfl
@[simp] theorem andnR_pwr (k v : Nat) (s : State) : (andnR k v s).pwr = s.pwr := rfl
@[simp] theorem andnR_dbg (k v : Nat) (s : State) : (andnR k v s).dbg = s.dbg := rfl
@[simp] theorem andnR_time (k v : Nat) (s : State) : (andnR k v s).time = s.time := rfl
@[simp] theorem andnR_hbm (k v : Nat) (s : State) : (andnR k v s).hbm = s.hbm := rfl
@[simp] theorem andnR_host (k v : Nat) (s : State) : (andnR k v s).host = s.host := rfl
@[simp] theorem andnR_bus (k v : Nat) (s : State) : (andnR k v s).bus = s.bus := rfl
@[simp] theorem andnR_free (k v : Nat) (s : State) : (andnR k v s).free = s.free := rfl
@[simp] theorem andnR_pending (k v : Nat) (s : State) : (andnR k v s).pending = s.pending := rfl

@[simp] theorem rstR_assy (k : Nat) (s : State) : (rstR k s).assy = s.assy := rfl
@[simp] theorem rstR_latch (k : Nat) (s : State) : (rstR k s).latch = s.latch := rfl
@[simp] theorem rstR_mem (k : Nat) (s : State) : (rstR k s).mem = s.mem := rfl
@[simp] theorem rstR_eng (k : Nat) (s : State) : (rstR k s).eng = s.eng := rfl
@[simp] theorem rstR_jobs (k : Nat) (s : State) : (rstR k s).jobs = s.jobs := rfl
@[simp] theorem rstR_parts (k : Nat) (s : State) : (rstR k s).parts = s.parts := rfl
@[simp] theorem rstR_span (k : Nat) (s : State) : (rstR k s).span = s.span := rfl
@[simp] theorem rstR_red (k : Nat) (s : State) : (rstR k s).red = s.red := rfl
@[simp] theorem rstR_sec (k : Nat) (s : State) : (rstR k s).sec = s.sec := rfl
@[simp] theorem rstR_pwr (k : Nat) (s : State) : (rstR k s).pwr = s.pwr := rfl
@[simp] theorem rstR_dbg (k : Nat) (s : State) : (rstR k s).dbg = s.dbg := rfl
@[simp] theorem rstR_time (k : Nat) (s : State) : (rstR k s).time = s.time := rfl
@[simp] theorem rstR_hbm (k : Nat) (s : State) : (rstR k s).hbm = s.hbm := rfl
@[simp] theorem rstR_host (k : Nat) (s : State) : (rstR k s).host = s.host := rfl
@[simp] theorem rstR_bus (k : Nat) (s : State) : (rstR k s).bus = s.bus := rfl
@[simp] theorem rstR_free (k : Nat) (s : State) : (rstR k s).free = s.free := rfl
@[simp] theorem rstR_pending (k : Nat) (s : State) : (rstR k s).pending = s.pending := rfl

@[simp] theorem inc32_assy (k n : Nat) (s : State) : (inc32 k n s).assy = s.assy := rfl
@[simp] theorem inc32_latch (k n : Nat) (s : State) : (inc32 k n s).latch = s.latch := rfl
@[simp] theorem inc32_mem (k n : Nat) (s : State) : (inc32 k n s).mem = s.mem := rfl
@[simp] theorem inc32_eng (k n : Nat) (s : State) : (inc32 k n s).eng = s.eng := rfl
@[simp] theorem inc32_jobs (k n : Nat) (s : State) : (inc32 k n s).jobs = s.jobs := rfl
@[simp] theorem inc32_parts (k n : Nat) (s : State) : (inc32 k n s).parts = s.parts := rfl
@[simp] theorem inc32_span (k n : Nat) (s : State) : (inc32 k n s).span = s.span := rfl
@[simp] theorem inc32_red (k n : Nat) (s : State) : (inc32 k n s).red = s.red := rfl
@[simp] theorem inc32_sec (k n : Nat) (s : State) : (inc32 k n s).sec = s.sec := rfl
@[simp] theorem inc32_pwr (k n : Nat) (s : State) : (inc32 k n s).pwr = s.pwr := rfl
@[simp] theorem inc32_dbg (k n : Nat) (s : State) : (inc32 k n s).dbg = s.dbg := rfl
@[simp] theorem inc32_time (k n : Nat) (s : State) : (inc32 k n s).time = s.time := rfl
@[simp] theorem inc32_hbm (k n : Nat) (s : State) : (inc32 k n s).hbm = s.hbm := rfl
@[simp] theorem inc32_host (k n : Nat) (s : State) : (inc32 k n s).host = s.host := rfl
@[simp] theorem inc32_bus (k n : Nat) (s : State) : (inc32 k n s).bus = s.bus := rfl
@[simp] theorem inc32_free (k n : Nat) (s : State) : (inc32 k n s).free = s.free := rfl
@[simp] theorem inc32_pending (k n : Nat) (s : State) : (inc32 k n s).pending = s.pending := rfl

@[simp] theorem inc16_assy (k n : Nat) (s : State) : (inc16 k n s).assy = s.assy := rfl
@[simp] theorem inc16_latch (k n : Nat) (s : State) : (inc16 k n s).latch = s.latch := rfl
@[simp] theorem inc16_mem (k n : Nat) (s : State) : (inc16 k n s).mem = s.mem := rfl
@[simp] theorem inc16_eng (k n : Nat) (s : State) : (inc16 k n s).eng = s.eng := rfl
@[simp] theorem inc16_jobs (k n : Nat) (s : State) : (inc16 k n s).jobs = s.jobs := rfl
@[simp] theorem inc16_parts (k n : Nat) (s : State) : (inc16 k n s).parts = s.parts := rfl
@[simp] theorem inc16_span (k n : Nat) (s : State) : (inc16 k n s).span = s.span := rfl
@[simp] theorem inc16_red (k n : Nat) (s : State) : (inc16 k n s).red = s.red := rfl
@[simp] theorem inc16_sec (k n : Nat) (s : State) : (inc16 k n s).sec = s.sec := rfl
@[simp] theorem inc16_pwr (k n : Nat) (s : State) : (inc16 k n s).pwr = s.pwr := rfl
@[simp] theorem inc16_dbg (k n : Nat) (s : State) : (inc16 k n s).dbg = s.dbg := rfl
@[simp] theorem inc16_time (k n : Nat) (s : State) : (inc16 k n s).time = s.time := rfl
@[simp] theorem inc16_hbm (k n : Nat) (s : State) : (inc16 k n s).hbm = s.hbm := rfl
@[simp] theorem inc16_host (k n : Nat) (s : State) : (inc16 k n s).host = s.host := rfl
@[simp] theorem inc16_bus (k n : Nat) (s : State) : (inc16 k n s).bus = s.bus := rfl
@[simp] theorem inc16_free (k n : Nat) (s : State) : (inc16 k n s).free = s.free := rfl
@[simp] theorem inc16_pending (k n : Nat) (s : State) : (inc16 k n s).pending = s.pending := rfl

@[simp] theorem set64_assy (k v : Nat) (s : State) : (set64 k v s).assy = s.assy := rfl
@[simp] theorem set64_latch (k v : Nat) (s : State) : (set64 k v s).latch = s.latch := rfl
@[simp] theorem set64_mem (k v : Nat) (s : State) : (set64 k v s).mem = s.mem := rfl
@[simp] theorem set64_eng (k v : Nat) (s : State) : (set64 k v s).eng = s.eng := rfl
@[simp] theorem set64_jobs (k v : Nat) (s : State) : (set64 k v s).jobs = s.jobs := rfl
@[simp] theorem set64_parts (k v : Nat) (s : State) : (set64 k v s).parts = s.parts := rfl
@[simp] theorem set64_span (k v : Nat) (s : State) : (set64 k v s).span = s.span := rfl
@[simp] theorem set64_red (k v : Nat) (s : State) : (set64 k v s).red = s.red := rfl
@[simp] theorem set64_sec (k v : Nat) (s : State) : (set64 k v s).sec = s.sec := rfl
@[simp] theorem set64_pwr (k v : Nat) (s : State) : (set64 k v s).pwr = s.pwr := rfl
@[simp] theorem set64_dbg (k v : Nat) (s : State) : (set64 k v s).dbg = s.dbg := rfl
@[simp] theorem set64_time (k v : Nat) (s : State) : (set64 k v s).time = s.time := rfl
@[simp] theorem set64_hbm (k v : Nat) (s : State) : (set64 k v s).hbm = s.hbm := rfl
@[simp] theorem set64_host (k v : Nat) (s : State) : (set64 k v s).host = s.host := rfl
@[simp] theorem set64_bus (k v : Nat) (s : State) : (set64 k v s).bus = s.bus := rfl
@[simp] theorem set64_free (k v : Nat) (s : State) : (set64 k v s).free = s.free := rfl
@[simp] theorem set64_pending (k v : Nat) (s : State) : (set64 k v s).pending = s.pending := rfl

@[simp] theorem inc64_assy (k n : Nat) (s : State) : (inc64 k n s).assy = s.assy := rfl
@[simp] theorem inc64_latch (k n : Nat) (s : State) : (inc64 k n s).latch = s.latch := rfl
@[simp] theorem inc64_mem (k n : Nat) (s : State) : (inc64 k n s).mem = s.mem := rfl
@[simp] theorem inc64_eng (k n : Nat) (s : State) : (inc64 k n s).eng = s.eng := rfl
@[simp] theorem inc64_jobs (k n : Nat) (s : State) : (inc64 k n s).jobs = s.jobs := rfl
@[simp] theorem inc64_parts (k n : Nat) (s : State) : (inc64 k n s).parts = s.parts := rfl
@[simp] theorem inc64_span (k n : Nat) (s : State) : (inc64 k n s).span = s.span := rfl
@[simp] theorem inc64_red (k n : Nat) (s : State) : (inc64 k n s).red = s.red := rfl
@[simp] theorem inc64_sec (k n : Nat) (s : State) : (inc64 k n s).sec = s.sec := rfl
@[simp] theorem inc64_pwr (k n : Nat) (s : State) : (inc64 k n s).pwr = s.pwr := rfl
@[simp] theorem inc64_dbg (k n : Nat) (s : State) : (inc64 k n s).dbg = s.dbg := rfl
@[simp] theorem inc64_time (k n : Nat) (s : State) : (inc64 k n s).time = s.time := rfl
@[simp] theorem inc64_hbm (k n : Nat) (s : State) : (inc64 k n s).hbm = s.hbm := rfl
@[simp] theorem inc64_host (k n : Nat) (s : State) : (inc64 k n s).host = s.host := rfl
@[simp] theorem inc64_bus (k n : Nat) (s : State) : (inc64 k n s).bus = s.bus := rfl
@[simp] theorem inc64_free (k n : Nat) (s : State) : (inc64 k n s).free = s.free := rfl
@[simp] theorem inc64_pending (k n : Nat) (s : State) : (inc64 k n s).pending = s.pending := rfl

@[simp] theorem rstRange_assy (lo hi : Nat) (s : State) : (rstRange lo hi s).assy = s.assy := rfl
@[simp] theorem rstRange_latch (lo hi : Nat) (s : State) : (rstRange lo hi s).latch = s.latch := rfl
@[simp] theorem rstRange_mem (lo hi : Nat) (s : State) : (rstRange lo hi s).mem = s.mem := rfl
@[simp] theorem rstRange_eng (lo hi : Nat) (s : State) : (rstRange lo hi s).eng = s.eng := rfl
@[simp] theorem rstRange_jobs (lo hi : Nat) (s : State) : (rstRange lo hi s).jobs = s.jobs := rfl
@[simp] theorem rstRange_parts (lo hi : Nat) (s : State) : (rstRange lo hi s).parts = s.parts := rfl
@[simp] theorem rstRange_span (lo hi : Nat) (s : State) : (rstRange lo hi s).span = s.span := rfl
@[simp] theorem rstRange_red (lo hi : Nat) (s : State) : (rstRange lo hi s).red = s.red := rfl
@[simp] theorem rstRange_sec (lo hi : Nat) (s : State) : (rstRange lo hi s).sec = s.sec := rfl
@[simp] theorem rstRange_pwr (lo hi : Nat) (s : State) : (rstRange lo hi s).pwr = s.pwr := rfl
@[simp] theorem rstRange_dbg (lo hi : Nat) (s : State) : (rstRange lo hi s).dbg = s.dbg := rfl
@[simp] theorem rstRange_time (lo hi : Nat) (s : State) : (rstRange lo hi s).time = s.time := rfl
@[simp] theorem rstRange_hbm (lo hi : Nat) (s : State) : (rstRange lo hi s).hbm = s.hbm := rfl
@[simp] theorem rstRange_host (lo hi : Nat) (s : State) : (rstRange lo hi s).host = s.host := rfl
@[simp] theorem rstRange_bus (lo hi : Nat) (s : State) : (rstRange lo hi s).bus = s.bus := rfl
@[simp] theorem rstRange_free (lo hi : Nat) (s : State) : (rstRange lo hi s).free = s.free := rfl
@[simp] theorem rstRange_pending (lo hi : Nat) (s : State) : (rstRange lo hi s).pending = s.pending := rfl

@[simp] theorem setPart_assy (p : Nat) (v : Part) (s : State) : (setPart p v s).assy = s.assy := rfl
@[simp] theorem setPart_regs (p : Nat) (v : Part) (s : State) : (setPart p v s).regs = s.regs := rfl
@[simp] theorem setPart_latch (p : Nat) (v : Part) (s : State) : (setPart p v s).latch = s.latch := rfl
@[simp] theorem setPart_mem (p : Nat) (v : Part) (s : State) : (setPart p v s).mem = s.mem := rfl
@[simp] theorem setPart_eng (p : Nat) (v : Part) (s : State) : (setPart p v s).eng = s.eng := rfl
@[simp] theorem setPart_jobs (p : Nat) (v : Part) (s : State) : (setPart p v s).jobs = s.jobs := rfl
@[simp] theorem setPart_span (p : Nat) (v : Part) (s : State) : (setPart p v s).span = s.span := rfl
@[simp] theorem setPart_red (p : Nat) (v : Part) (s : State) : (setPart p v s).red = s.red := rfl
@[simp] theorem setPart_sec (p : Nat) (v : Part) (s : State) : (setPart p v s).sec = s.sec := rfl
@[simp] theorem setPart_pwr (p : Nat) (v : Part) (s : State) : (setPart p v s).pwr = s.pwr := rfl
@[simp] theorem setPart_dbg (p : Nat) (v : Part) (s : State) : (setPart p v s).dbg = s.dbg := rfl
@[simp] theorem setPart_time (p : Nat) (v : Part) (s : State) : (setPart p v s).time = s.time := rfl
@[simp] theorem setPart_hbm (p : Nat) (v : Part) (s : State) : (setPart p v s).hbm = s.hbm := rfl
@[simp] theorem setPart_host (p : Nat) (v : Part) (s : State) : (setPart p v s).host = s.host := rfl
@[simp] theorem setPart_bus (p : Nat) (v : Part) (s : State) : (setPart p v s).bus = s.bus := rfl
@[simp] theorem setPart_free (p : Nat) (v : Part) (s : State) : (setPart p v s).free = s.free := rfl
@[simp] theorem setPart_pending (p : Nat) (v : Part) (s : State) : (setPart p v s).pending = s.pending := rfl

@[simp] theorem modPart_assy (p : Nat) (f : Part → Part) (s : State) : (modPart p f s).assy = s.assy := rfl
@[simp] theorem modPart_regs (p : Nat) (f : Part → Part) (s : State) : (modPart p f s).regs = s.regs := rfl
@[simp] theorem modPart_latch (p : Nat) (f : Part → Part) (s : State) : (modPart p f s).latch = s.latch := rfl
@[simp] theorem modPart_mem (p : Nat) (f : Part → Part) (s : State) : (modPart p f s).mem = s.mem := rfl
@[simp] theorem modPart_eng (p : Nat) (f : Part → Part) (s : State) : (modPart p f s).eng = s.eng := rfl
@[simp] theorem modPart_jobs (p : Nat) (f : Part → Part) (s : State) : (modPart p f s).jobs = s.jobs := rfl
@[simp] theorem modPart_span (p : Nat) (f : Part → Part) (s : State) : (modPart p f s).span = s.span := rfl
@[simp] theorem modPart_red (p : Nat) (f : Part → Part) (s : State) : (modPart p f s).red = s.red := rfl
@[simp] theorem modPart_sec (p : Nat) (f : Part → Part) (s : State) : (modPart p f s).sec = s.sec := rfl
@[simp] theorem modPart_pwr (p : Nat) (f : Part → Part) (s : State) : (modPart p f s).pwr = s.pwr := rfl
@[simp] theorem modPart_dbg (p : Nat) (f : Part → Part) (s : State) : (modPart p f s).dbg = s.dbg := rfl
@[simp] theorem modPart_time (p : Nat) (f : Part → Part) (s : State) : (modPart p f s).time = s.time := rfl
@[simp] theorem modPart_hbm (p : Nat) (f : Part → Part) (s : State) : (modPart p f s).hbm = s.hbm := rfl
@[simp] theorem modPart_host (p : Nat) (f : Part → Part) (s : State) : (modPart p f s).host = s.host := rfl
@[simp] theorem modPart_bus (p : Nat) (f : Part → Part) (s : State) : (modPart p f s).bus = s.bus := rfl
@[simp] theorem modPart_free (p : Nat) (f : Part → Part) (s : State) : (modPart p f s).free = s.free := rfl
@[simp] theorem modPart_pending (p : Nat) (f : Part → Part) (s : State) : (modPart p f s).pending = s.pending := rfl

@[simp] theorem modRing_assy (c : Nat) (f : Ring → Ring) (s : State) : (modRing c f s).assy = s.assy := rfl
@[simp] theorem modRing_regs (c : Nat) (f : Ring → Ring) (s : State) : (modRing c f s).regs = s.regs := rfl
@[simp] theorem modRing_latch (c : Nat) (f : Ring → Ring) (s : State) : (modRing c f s).latch = s.latch := rfl
@[simp] theorem modRing_mem (c : Nat) (f : Ring → Ring) (s : State) : (modRing c f s).mem = s.mem := rfl
@[simp] theorem modRing_eng (c : Nat) (f : Ring → Ring) (s : State) : (modRing c f s).eng = s.eng := rfl
@[simp] theorem modRing_parts (c : Nat) (f : Ring → Ring) (s : State) : (modRing c f s).parts = s.parts := rfl
@[simp] theorem modRing_span (c : Nat) (f : Ring → Ring) (s : State) : (modRing c f s).span = s.span := rfl
@[simp] theorem modRing_red (c : Nat) (f : Ring → Ring) (s : State) : (modRing c f s).red = s.red := rfl
@[simp] theorem modRing_sec (c : Nat) (f : Ring → Ring) (s : State) : (modRing c f s).sec = s.sec := rfl
@[simp] theorem modRing_pwr (c : Nat) (f : Ring → Ring) (s : State) : (modRing c f s).pwr = s.pwr := rfl
@[simp] theorem modRing_dbg (c : Nat) (f : Ring → Ring) (s : State) : (modRing c f s).dbg = s.dbg := rfl
@[simp] theorem modRing_time (c : Nat) (f : Ring → Ring) (s : State) : (modRing c f s).time = s.time := rfl
@[simp] theorem modRing_hbm (c : Nat) (f : Ring → Ring) (s : State) : (modRing c f s).hbm = s.hbm := rfl
@[simp] theorem modRing_host (c : Nat) (f : Ring → Ring) (s : State) : (modRing c f s).host = s.host := rfl
@[simp] theorem modRing_bus (c : Nat) (f : Ring → Ring) (s : State) : (modRing c f s).bus = s.bus := rfl
@[simp] theorem modRing_free (c : Nat) (f : Ring → Ring) (s : State) : (modRing c f s).free = s.free := rfl
@[simp] theorem modRing_pending (c : Nat) (f : Ring → Ring) (s : State) : (modRing c f s).pending = s.pending := rfl

@[simp] theorem modLink_assy (p : Nat) (f : Link → Link) (s : State) : (modLink p f s).assy = s.assy := rfl
@[simp] theorem modLink_regs (p : Nat) (f : Link → Link) (s : State) : (modLink p f s).regs = s.regs := rfl
@[simp] theorem modLink_latch (p : Nat) (f : Link → Link) (s : State) : (modLink p f s).latch = s.latch := rfl
@[simp] theorem modLink_mem (p : Nat) (f : Link → Link) (s : State) : (modLink p f s).mem = s.mem := rfl
@[simp] theorem modLink_eng (p : Nat) (f : Link → Link) (s : State) : (modLink p f s).eng = s.eng := rfl
@[simp] theorem modLink_jobs (p : Nat) (f : Link → Link) (s : State) : (modLink p f s).jobs = s.jobs := rfl
@[simp] theorem modLink_parts (p : Nat) (f : Link → Link) (s : State) : (modLink p f s).parts = s.parts := rfl
@[simp] theorem modLink_red (p : Nat) (f : Link → Link) (s : State) : (modLink p f s).red = s.red := rfl
@[simp] theorem modLink_sec (p : Nat) (f : Link → Link) (s : State) : (modLink p f s).sec = s.sec := rfl
@[simp] theorem modLink_pwr (p : Nat) (f : Link → Link) (s : State) : (modLink p f s).pwr = s.pwr := rfl
@[simp] theorem modLink_dbg (p : Nat) (f : Link → Link) (s : State) : (modLink p f s).dbg = s.dbg := rfl
@[simp] theorem modLink_time (p : Nat) (f : Link → Link) (s : State) : (modLink p f s).time = s.time := rfl
@[simp] theorem modLink_hbm (p : Nat) (f : Link → Link) (s : State) : (modLink p f s).hbm = s.hbm := rfl
@[simp] theorem modLink_host (p : Nat) (f : Link → Link) (s : State) : (modLink p f s).host = s.host := rfl
@[simp] theorem modLink_bus (p : Nat) (f : Link → Link) (s : State) : (modLink p f s).bus = s.bus := rfl
@[simp] theorem modLink_free (p : Nat) (f : Link → Link) (s : State) : (modLink p f s).free = s.free := rfl
@[simp] theorem modLink_pending (p : Nat) (f : Link → Link) (s : State) : (modLink p f s).pending = s.pending := rfl

@[simp] theorem setRed_assy (k : Nat) (v : RedCh) (s : State) : (setRed k v s).assy = s.assy := rfl
@[simp] theorem setRed_regs (k : Nat) (v : RedCh) (s : State) : (setRed k v s).regs = s.regs := rfl
@[simp] theorem setRed_latch (k : Nat) (v : RedCh) (s : State) : (setRed k v s).latch = s.latch := rfl
@[simp] theorem setRed_mem (k : Nat) (v : RedCh) (s : State) : (setRed k v s).mem = s.mem := rfl
@[simp] theorem setRed_eng (k : Nat) (v : RedCh) (s : State) : (setRed k v s).eng = s.eng := rfl
@[simp] theorem setRed_jobs (k : Nat) (v : RedCh) (s : State) : (setRed k v s).jobs = s.jobs := rfl
@[simp] theorem setRed_parts (k : Nat) (v : RedCh) (s : State) : (setRed k v s).parts = s.parts := rfl
@[simp] theorem setRed_span (k : Nat) (v : RedCh) (s : State) : (setRed k v s).span = s.span := rfl
@[simp] theorem setRed_sec (k : Nat) (v : RedCh) (s : State) : (setRed k v s).sec = s.sec := rfl
@[simp] theorem setRed_pwr (k : Nat) (v : RedCh) (s : State) : (setRed k v s).pwr = s.pwr := rfl
@[simp] theorem setRed_dbg (k : Nat) (v : RedCh) (s : State) : (setRed k v s).dbg = s.dbg := rfl
@[simp] theorem setRed_time (k : Nat) (v : RedCh) (s : State) : (setRed k v s).time = s.time := rfl
@[simp] theorem setRed_hbm (k : Nat) (v : RedCh) (s : State) : (setRed k v s).hbm = s.hbm := rfl
@[simp] theorem setRed_host (k : Nat) (v : RedCh) (s : State) : (setRed k v s).host = s.host := rfl
@[simp] theorem setRed_bus (k : Nat) (v : RedCh) (s : State) : (setRed k v s).bus = s.bus := rfl
@[simp] theorem setRed_free (k : Nat) (v : RedCh) (s : State) : (setRed k v s).free = s.free := rfl
@[simp] theorem setRed_pending (k : Nat) (v : RedCh) (s : State) : (setRed k v s).pending = s.pending := rfl

@[simp] theorem semSignal_assy (c cl n : Nat) (s : State) : (semSignal c cl n s).assy = s.assy := rfl
@[simp] theorem semSignal_regs (c cl n : Nat) (s : State) : (semSignal c cl n s).regs = s.regs := rfl
@[simp] theorem semSignal_latch (c cl n : Nat) (s : State) : (semSignal c cl n s).latch = s.latch := rfl
@[simp] theorem semSignal_mem (c cl n : Nat) (s : State) : (semSignal c cl n s).mem = s.mem := rfl
@[simp] theorem semSignal_jobs (c cl n : Nat) (s : State) : (semSignal c cl n s).jobs = s.jobs := rfl
@[simp] theorem semSignal_parts (c cl n : Nat) (s : State) : (semSignal c cl n s).parts = s.parts := rfl
@[simp] theorem semSignal_span (c cl n : Nat) (s : State) : (semSignal c cl n s).span = s.span := rfl
@[simp] theorem semSignal_red (c cl n : Nat) (s : State) : (semSignal c cl n s).red = s.red := rfl
@[simp] theorem semSignal_sec (c cl n : Nat) (s : State) : (semSignal c cl n s).sec = s.sec := rfl
@[simp] theorem semSignal_pwr (c cl n : Nat) (s : State) : (semSignal c cl n s).pwr = s.pwr := rfl
@[simp] theorem semSignal_dbg (c cl n : Nat) (s : State) : (semSignal c cl n s).dbg = s.dbg := rfl
@[simp] theorem semSignal_time (c cl n : Nat) (s : State) : (semSignal c cl n s).time = s.time := rfl
@[simp] theorem semSignal_hbm (c cl n : Nat) (s : State) : (semSignal c cl n s).hbm = s.hbm := rfl
@[simp] theorem semSignal_host (c cl n : Nat) (s : State) : (semSignal c cl n s).host = s.host := rfl
@[simp] theorem semSignal_bus (c cl n : Nat) (s : State) : (semSignal c cl n s).bus = s.bus := rfl
@[simp] theorem semSignal_free (c cl n : Nat) (s : State) : (semSignal c cl n s).free = s.free := rfl
@[simp] theorem semSignal_pending (c cl n : Nat) (s : State) : (semSignal c cl n s).pending = s.pending := rfl

@[simp] theorem semZero_assy (c : Nat) (s : State) : (semZero c s).assy = s.assy := rfl
@[simp] theorem semZero_regs (c : Nat) (s : State) : (semZero c s).regs = s.regs := rfl
@[simp] theorem semZero_latch (c : Nat) (s : State) : (semZero c s).latch = s.latch := rfl
@[simp] theorem semZero_mem (c : Nat) (s : State) : (semZero c s).mem = s.mem := rfl
@[simp] theorem semZero_jobs (c : Nat) (s : State) : (semZero c s).jobs = s.jobs := rfl
@[simp] theorem semZero_parts (c : Nat) (s : State) : (semZero c s).parts = s.parts := rfl
@[simp] theorem semZero_span (c : Nat) (s : State) : (semZero c s).span = s.span := rfl
@[simp] theorem semZero_red (c : Nat) (s : State) : (semZero c s).red = s.red := rfl
@[simp] theorem semZero_sec (c : Nat) (s : State) : (semZero c s).sec = s.sec := rfl
@[simp] theorem semZero_pwr (c : Nat) (s : State) : (semZero c s).pwr = s.pwr := rfl
@[simp] theorem semZero_dbg (c : Nat) (s : State) : (semZero c s).dbg = s.dbg := rfl
@[simp] theorem semZero_time (c : Nat) (s : State) : (semZero c s).time = s.time := rfl
@[simp] theorem semZero_hbm (c : Nat) (s : State) : (semZero c s).hbm = s.hbm := rfl
@[simp] theorem semZero_host (c : Nat) (s : State) : (semZero c s).host = s.host := rfl
@[simp] theorem semZero_bus (c : Nat) (s : State) : (semZero c s).bus = s.bus := rfl
@[simp] theorem semZero_free (c : Nat) (s : State) : (semZero c s).free = s.free := rfl
@[simp] theorem semZero_pending (c : Nat) (s : State) : (semZero c s).pending = s.pending := rfl

@[simp] theorem setPartState_assy (p v : Nat) (s : State) : (setPartState p v s).assy = s.assy := rfl
@[simp] theorem setPartState_latch (p v : Nat) (s : State) : (setPartState p v s).latch = s.latch := rfl
@[simp] theorem setPartState_mem (p v : Nat) (s : State) : (setPartState p v s).mem = s.mem := rfl
@[simp] theorem setPartState_eng (p v : Nat) (s : State) : (setPartState p v s).eng = s.eng := rfl
@[simp] theorem setPartState_jobs (p v : Nat) (s : State) : (setPartState p v s).jobs = s.jobs := rfl
@[simp] theorem setPartState_parts (p v : Nat) (s : State) : (setPartState p v s).parts = s.parts := rfl
@[simp] theorem setPartState_span (p v : Nat) (s : State) : (setPartState p v s).span = s.span := rfl
@[simp] theorem setPartState_red (p v : Nat) (s : State) : (setPartState p v s).red = s.red := rfl
@[simp] theorem setPartState_sec (p v : Nat) (s : State) : (setPartState p v s).sec = s.sec := rfl
@[simp] theorem setPartState_pwr (p v : Nat) (s : State) : (setPartState p v s).pwr = s.pwr := rfl
@[simp] theorem setPartState_dbg (p v : Nat) (s : State) : (setPartState p v s).dbg = s.dbg := rfl
@[simp] theorem setPartState_time (p v : Nat) (s : State) : (setPartState p v s).time = s.time := rfl
@[simp] theorem setPartState_hbm (p v : Nat) (s : State) : (setPartState p v s).hbm = s.hbm := rfl
@[simp] theorem setPartState_host (p v : Nat) (s : State) : (setPartState p v s).host = s.host := rfl
@[simp] theorem setPartState_bus (p v : Nat) (s : State) : (setPartState p v s).bus = s.bus := rfl
@[simp] theorem setPartState_free (p v : Nat) (s : State) : (setPartState p v s).free = s.free := rfl
@[simp] theorem setPartState_pending (p v : Nat) (s : State) : (setPartState p v s).pending = s.pending := rfl

@[simp] theorem setClst_assy (c v : Nat) (s : State) : (setClst c v s).assy = s.assy := rfl
@[simp] theorem setClst_latch (c v : Nat) (s : State) : (setClst c v s).latch = s.latch := rfl
@[simp] theorem setClst_mem (c v : Nat) (s : State) : (setClst c v s).mem = s.mem := rfl
@[simp] theorem setClst_eng (c v : Nat) (s : State) : (setClst c v s).eng = s.eng := rfl
@[simp] theorem setClst_jobs (c v : Nat) (s : State) : (setClst c v s).jobs = s.jobs := rfl
@[simp] theorem setClst_parts (c v : Nat) (s : State) : (setClst c v s).parts = s.parts := rfl
@[simp] theorem setClst_span (c v : Nat) (s : State) : (setClst c v s).span = s.span := rfl
@[simp] theorem setClst_red (c v : Nat) (s : State) : (setClst c v s).red = s.red := rfl
@[simp] theorem setClst_sec (c v : Nat) (s : State) : (setClst c v s).sec = s.sec := rfl
@[simp] theorem setClst_pwr (c v : Nat) (s : State) : (setClst c v s).pwr = s.pwr := rfl
@[simp] theorem setClst_dbg (c v : Nat) (s : State) : (setClst c v s).dbg = s.dbg := rfl
@[simp] theorem setClst_time (c v : Nat) (s : State) : (setClst c v s).time = s.time := rfl
@[simp] theorem setClst_hbm (c v : Nat) (s : State) : (setClst c v s).hbm = s.hbm := rfl
@[simp] theorem setClst_host (c v : Nat) (s : State) : (setClst c v s).host = s.host := rfl
@[simp] theorem setClst_bus (c v : Nat) (s : State) : (setClst c v s).bus = s.bus := rfl
@[simp] theorem setClst_free (c v : Nat) (s : State) : (setClst c v s).free = s.free := rfl
@[simp] theorem setClst_pending (c v : Nat) (s : State) : (setClst c v s).pending = s.pending := rfl

@[simp] theorem hostWrite_assy (fn : Nat) (own : Option Nat) (addr : Nat) (r : Bool) (d : List Byte) (s : State) : (hostWrite fn own addr r d s).assy = s.assy := rfl
@[simp] theorem hostWrite_latch (fn : Nat) (own : Option Nat) (addr : Nat) (r : Bool) (d : List Byte) (s : State) : (hostWrite fn own addr r d s).latch = s.latch := rfl
@[simp] theorem hostWrite_mem (fn : Nat) (own : Option Nat) (addr : Nat) (r : Bool) (d : List Byte) (s : State) : (hostWrite fn own addr r d s).mem = s.mem := rfl
@[simp] theorem hostWrite_eng (fn : Nat) (own : Option Nat) (addr : Nat) (r : Bool) (d : List Byte) (s : State) : (hostWrite fn own addr r d s).eng = s.eng := rfl
@[simp] theorem hostWrite_jobs (fn : Nat) (own : Option Nat) (addr : Nat) (r : Bool) (d : List Byte) (s : State) : (hostWrite fn own addr r d s).jobs = s.jobs := rfl
@[simp] theorem hostWrite_parts (fn : Nat) (own : Option Nat) (addr : Nat) (r : Bool) (d : List Byte) (s : State) : (hostWrite fn own addr r d s).parts = s.parts := rfl
@[simp] theorem hostWrite_span (fn : Nat) (own : Option Nat) (addr : Nat) (r : Bool) (d : List Byte) (s : State) : (hostWrite fn own addr r d s).span = s.span := rfl
@[simp] theorem hostWrite_red (fn : Nat) (own : Option Nat) (addr : Nat) (r : Bool) (d : List Byte) (s : State) : (hostWrite fn own addr r d s).red = s.red := rfl
@[simp] theorem hostWrite_sec (fn : Nat) (own : Option Nat) (addr : Nat) (r : Bool) (d : List Byte) (s : State) : (hostWrite fn own addr r d s).sec = s.sec := rfl
@[simp] theorem hostWrite_pwr (fn : Nat) (own : Option Nat) (addr : Nat) (r : Bool) (d : List Byte) (s : State) : (hostWrite fn own addr r d s).pwr = s.pwr := rfl
@[simp] theorem hostWrite_dbg (fn : Nat) (own : Option Nat) (addr : Nat) (r : Bool) (d : List Byte) (s : State) : (hostWrite fn own addr r d s).dbg = s.dbg := rfl
@[simp] theorem hostWrite_time (fn : Nat) (own : Option Nat) (addr : Nat) (r : Bool) (d : List Byte) (s : State) : (hostWrite fn own addr r d s).time = s.time := rfl
@[simp] theorem hostWrite_hbm (fn : Nat) (own : Option Nat) (addr : Nat) (r : Bool) (d : List Byte) (s : State) : (hostWrite fn own addr r d s).hbm = s.hbm := rfl
@[simp] theorem hostWrite_bus (fn : Nat) (own : Option Nat) (addr : Nat) (r : Bool) (d : List Byte) (s : State) : (hostWrite fn own addr r d s).bus = s.bus := rfl
@[simp] theorem hostWrite_free (fn : Nat) (own : Option Nat) (addr : Nat) (r : Bool) (d : List Byte) (s : State) : (hostWrite fn own addr r d s).free = s.free := rfl
@[simp] theorem hostWrite_pending (fn : Nat) (own : Option Nat) (addr : Nat) (r : Bool) (d : List Byte) (s : State) : (hostWrite fn own addr r d s).pending = s.pending := rfl

@[simp] theorem hostRead_assy (c addr n : Nat) (s : State) : (hostRead c addr n s).assy = s.assy := rfl
@[simp] theorem hostRead_latch (c addr n : Nat) (s : State) : (hostRead c addr n s).latch = s.latch := rfl
@[simp] theorem hostRead_mem (c addr n : Nat) (s : State) : (hostRead c addr n s).mem = s.mem := rfl
@[simp] theorem hostRead_eng (c addr n : Nat) (s : State) : (hostRead c addr n s).eng = s.eng := rfl
@[simp] theorem hostRead_jobs (c addr n : Nat) (s : State) : (hostRead c addr n s).jobs = s.jobs := rfl
@[simp] theorem hostRead_parts (c addr n : Nat) (s : State) : (hostRead c addr n s).parts = s.parts := rfl
@[simp] theorem hostRead_span (c addr n : Nat) (s : State) : (hostRead c addr n s).span = s.span := rfl
@[simp] theorem hostRead_red (c addr n : Nat) (s : State) : (hostRead c addr n s).red = s.red := rfl
@[simp] theorem hostRead_sec (c addr n : Nat) (s : State) : (hostRead c addr n s).sec = s.sec := rfl
@[simp] theorem hostRead_pwr (c addr n : Nat) (s : State) : (hostRead c addr n s).pwr = s.pwr := rfl
@[simp] theorem hostRead_dbg (c addr n : Nat) (s : State) : (hostRead c addr n s).dbg = s.dbg := rfl
@[simp] theorem hostRead_time (c addr n : Nat) (s : State) : (hostRead c addr n s).time = s.time := rfl
@[simp] theorem hostRead_hbm (c addr n : Nat) (s : State) : (hostRead c addr n s).hbm = s.hbm := rfl
@[simp] theorem hostRead_bus (c addr n : Nat) (s : State) : (hostRead c addr n s).bus = s.bus := rfl
@[simp] theorem hostRead_free (c addr n : Nat) (s : State) : (hostRead c addr n s).free = s.free := rfl
@[simp] theorem hostRead_pending (c addr n : Nat) (s : State) : (hostRead c addr n s).pending = s.pending := rfl

@[simp] theorem msi_assy (fn vec : Nat) (s : State) : (msi fn vec s).assy = s.assy := rfl
@[simp] theorem msi_regs (fn vec : Nat) (s : State) : (msi fn vec s).regs = s.regs := rfl
@[simp] theorem msi_latch (fn vec : Nat) (s : State) : (msi fn vec s).latch = s.latch := rfl
@[simp] theorem msi_mem (fn vec : Nat) (s : State) : (msi fn vec s).mem = s.mem := rfl
@[simp] theorem msi_eng (fn vec : Nat) (s : State) : (msi fn vec s).eng = s.eng := rfl
@[simp] theorem msi_jobs (fn vec : Nat) (s : State) : (msi fn vec s).jobs = s.jobs := rfl
@[simp] theorem msi_parts (fn vec : Nat) (s : State) : (msi fn vec s).parts = s.parts := rfl
@[simp] theorem msi_span (fn vec : Nat) (s : State) : (msi fn vec s).span = s.span := rfl
@[simp] theorem msi_red (fn vec : Nat) (s : State) : (msi fn vec s).red = s.red := rfl
@[simp] theorem msi_sec (fn vec : Nat) (s : State) : (msi fn vec s).sec = s.sec := rfl
@[simp] theorem msi_pwr (fn vec : Nat) (s : State) : (msi fn vec s).pwr = s.pwr := rfl
@[simp] theorem msi_dbg (fn vec : Nat) (s : State) : (msi fn vec s).dbg = s.dbg := rfl
@[simp] theorem msi_time (fn vec : Nat) (s : State) : (msi fn vec s).time = s.time := rfl
@[simp] theorem msi_hbm (fn vec : Nat) (s : State) : (msi fn vec s).hbm = s.hbm := rfl
@[simp] theorem msi_bus (fn vec : Nat) (s : State) : (msi fn vec s).bus = s.bus := rfl
@[simp] theorem msi_free (fn vec : Nat) (s : State) : (msi fn vec s).free = s.free := rfl
@[simp] theorem msi_pending (fn vec : Nat) (s : State) : (msi fn vec s).pending = s.pending := rfl

@[simp] theorem vec0_assy (fn : Nat) (s : State) : (vec0 fn s).assy = s.assy := rfl
@[simp] theorem vec0_regs (fn : Nat) (s : State) : (vec0 fn s).regs = s.regs := rfl
@[simp] theorem vec0_latch (fn : Nat) (s : State) : (vec0 fn s).latch = s.latch := rfl
@[simp] theorem vec0_mem (fn : Nat) (s : State) : (vec0 fn s).mem = s.mem := rfl
@[simp] theorem vec0_eng (fn : Nat) (s : State) : (vec0 fn s).eng = s.eng := rfl
@[simp] theorem vec0_jobs (fn : Nat) (s : State) : (vec0 fn s).jobs = s.jobs := rfl
@[simp] theorem vec0_parts (fn : Nat) (s : State) : (vec0 fn s).parts = s.parts := rfl
@[simp] theorem vec0_span (fn : Nat) (s : State) : (vec0 fn s).span = s.span := rfl
@[simp] theorem vec0_red (fn : Nat) (s : State) : (vec0 fn s).red = s.red := rfl
@[simp] theorem vec0_sec (fn : Nat) (s : State) : (vec0 fn s).sec = s.sec := rfl
@[simp] theorem vec0_pwr (fn : Nat) (s : State) : (vec0 fn s).pwr = s.pwr := rfl
@[simp] theorem vec0_dbg (fn : Nat) (s : State) : (vec0 fn s).dbg = s.dbg := rfl
@[simp] theorem vec0_time (fn : Nat) (s : State) : (vec0 fn s).time = s.time := rfl
@[simp] theorem vec0_hbm (fn : Nat) (s : State) : (vec0 fn s).hbm = s.hbm := rfl
@[simp] theorem vec0_bus (fn : Nat) (s : State) : (vec0 fn s).bus = s.bus := rfl
@[simp] theorem vec0_free (fn : Nat) (s : State) : (vec0 fn s).free = s.free := rfl
@[simp] theorem vec0_pending (fn : Nat) (s : State) : (vec0 fn s).pending = s.pending := rfl

@[simp] theorem devLog_assy (kind arg : Nat) (s : State) : (devLog kind arg s).assy = s.assy := rfl
@[simp] theorem devLog_regs (kind arg : Nat) (s : State) : (devLog kind arg s).regs = s.regs := rfl
@[simp] theorem devLog_latch (kind arg : Nat) (s : State) : (devLog kind arg s).latch = s.latch := rfl
@[simp] theorem devLog_mem (kind arg : Nat) (s : State) : (devLog kind arg s).mem = s.mem := rfl
@[simp] theorem devLog_eng (kind arg : Nat) (s : State) : (devLog kind arg s).eng = s.eng := rfl
@[simp] theorem devLog_jobs (kind arg : Nat) (s : State) : (devLog kind arg s).jobs = s.jobs := rfl
@[simp] theorem devLog_parts (kind arg : Nat) (s : State) : (devLog kind arg s).parts = s.parts := rfl
@[simp] theorem devLog_span (kind arg : Nat) (s : State) : (devLog kind arg s).span = s.span := rfl
@[simp] theorem devLog_red (kind arg : Nat) (s : State) : (devLog kind arg s).red = s.red := rfl
@[simp] theorem devLog_pwr (kind arg : Nat) (s : State) : (devLog kind arg s).pwr = s.pwr := rfl
@[simp] theorem devLog_dbg (kind arg : Nat) (s : State) : (devLog kind arg s).dbg = s.dbg := rfl
@[simp] theorem devLog_time (kind arg : Nat) (s : State) : (devLog kind arg s).time = s.time := rfl
@[simp] theorem devLog_hbm (kind arg : Nat) (s : State) : (devLog kind arg s).hbm = s.hbm := rfl
@[simp] theorem devLog_bus (kind arg : Nat) (s : State) : (devLog kind arg s).bus = s.bus := rfl
@[simp] theorem devLog_free (kind arg : Nat) (s : State) : (devLog kind arg s).free = s.free := rfl
@[simp] theorem devLog_pending (kind arg : Nat) (s : State) : (devLog kind arg s).pending = s.pending := rfl

@[simp] theorem bumpFree_assy (s : State) : (bumpFree s).assy = s.assy := rfl
@[simp] theorem bumpFree_regs (s : State) : (bumpFree s).regs = s.regs := rfl
@[simp] theorem bumpFree_latch (s : State) : (bumpFree s).latch = s.latch := rfl
@[simp] theorem bumpFree_mem (s : State) : (bumpFree s).mem = s.mem := rfl
@[simp] theorem bumpFree_eng (s : State) : (bumpFree s).eng = s.eng := rfl
@[simp] theorem bumpFree_jobs (s : State) : (bumpFree s).jobs = s.jobs := rfl
@[simp] theorem bumpFree_parts (s : State) : (bumpFree s).parts = s.parts := rfl
@[simp] theorem bumpFree_span (s : State) : (bumpFree s).span = s.span := rfl
@[simp] theorem bumpFree_red (s : State) : (bumpFree s).red = s.red := rfl
@[simp] theorem bumpFree_sec (s : State) : (bumpFree s).sec = s.sec := rfl
@[simp] theorem bumpFree_pwr (s : State) : (bumpFree s).pwr = s.pwr := rfl
@[simp] theorem bumpFree_dbg (s : State) : (bumpFree s).dbg = s.dbg := rfl
@[simp] theorem bumpFree_time (s : State) : (bumpFree s).time = s.time := rfl
@[simp] theorem bumpFree_hbm (s : State) : (bumpFree s).hbm = s.hbm := rfl
@[simp] theorem bumpFree_host (s : State) : (bumpFree s).host = s.host := rfl
@[simp] theorem bumpFree_bus (s : State) : (bumpFree s).bus = s.bus := rfl
@[simp] theorem bumpFree_pending (s : State) : (bumpFree s).pending = s.pending := rfl

@[simp] theorem noteStamp_assy (r : Nat) (s : State) : (noteStamp r s).assy = s.assy := rfl
@[simp] theorem noteStamp_regs (r : Nat) (s : State) : (noteStamp r s).regs = s.regs := rfl
@[simp] theorem noteStamp_latch (r : Nat) (s : State) : (noteStamp r s).latch = s.latch := rfl
@[simp] theorem noteStamp_mem (r : Nat) (s : State) : (noteStamp r s).mem = s.mem := rfl
@[simp] theorem noteStamp_eng (r : Nat) (s : State) : (noteStamp r s).eng = s.eng := rfl
@[simp] theorem noteStamp_jobs (r : Nat) (s : State) : (noteStamp r s).jobs = s.jobs := rfl
@[simp] theorem noteStamp_parts (r : Nat) (s : State) : (noteStamp r s).parts = s.parts := rfl
@[simp] theorem noteStamp_span (r : Nat) (s : State) : (noteStamp r s).span = s.span := rfl
@[simp] theorem noteStamp_red (r : Nat) (s : State) : (noteStamp r s).red = s.red := rfl
@[simp] theorem noteStamp_sec (r : Nat) (s : State) : (noteStamp r s).sec = s.sec := rfl
@[simp] theorem noteStamp_pwr (r : Nat) (s : State) : (noteStamp r s).pwr = s.pwr := rfl
@[simp] theorem noteStamp_dbg (r : Nat) (s : State) : (noteStamp r s).dbg = s.dbg := rfl
@[simp] theorem noteStamp_hbm (r : Nat) (s : State) : (noteStamp r s).hbm = s.hbm := rfl
@[simp] theorem noteStamp_host (r : Nat) (s : State) : (noteStamp r s).host = s.host := rfl
@[simp] theorem noteStamp_bus (r : Nat) (s : State) : (noteStamp r s).bus = s.bus := rfl
@[simp] theorem noteStamp_pending (r : Nat) (s : State) : (noteStamp r s).pending = s.pending := rfl

@[simp] theorem memPut_assy (k : Nat) (b : Byte) (s : State) : (memPut k b s).assy = s.assy := rfl
@[simp] theorem memPut_regs (k : Nat) (b : Byte) (s : State) : (memPut k b s).regs = s.regs := rfl
@[simp] theorem memPut_latch (k : Nat) (b : Byte) (s : State) : (memPut k b s).latch = s.latch := rfl
@[simp] theorem memPut_eng (k : Nat) (b : Byte) (s : State) : (memPut k b s).eng = s.eng := rfl
@[simp] theorem memPut_jobs (k : Nat) (b : Byte) (s : State) : (memPut k b s).jobs = s.jobs := rfl
@[simp] theorem memPut_parts (k : Nat) (b : Byte) (s : State) : (memPut k b s).parts = s.parts := rfl
@[simp] theorem memPut_span (k : Nat) (b : Byte) (s : State) : (memPut k b s).span = s.span := rfl
@[simp] theorem memPut_red (k : Nat) (b : Byte) (s : State) : (memPut k b s).red = s.red := rfl
@[simp] theorem memPut_sec (k : Nat) (b : Byte) (s : State) : (memPut k b s).sec = s.sec := rfl
@[simp] theorem memPut_pwr (k : Nat) (b : Byte) (s : State) : (memPut k b s).pwr = s.pwr := rfl
@[simp] theorem memPut_dbg (k : Nat) (b : Byte) (s : State) : (memPut k b s).dbg = s.dbg := rfl
@[simp] theorem memPut_time (k : Nat) (b : Byte) (s : State) : (memPut k b s).time = s.time := rfl
@[simp] theorem memPut_hbm (k : Nat) (b : Byte) (s : State) : (memPut k b s).hbm = s.hbm := rfl
@[simp] theorem memPut_host (k : Nat) (b : Byte) (s : State) : (memPut k b s).host = s.host := rfl
@[simp] theorem memPut_bus (k : Nat) (b : Byte) (s : State) : (memPut k b s).bus = s.bus := rfl
@[simp] theorem memPut_free (k : Nat) (b : Byte) (s : State) : (memPut k b s).free = s.free := rfl
@[simp] theorem memPut_pending (k : Nat) (b : Byte) (s : State) : (memPut k b s).pending = s.pending := rfl

@[simp] theorem memForget_assy (lo hi : Nat) (s : State) : (memForget lo hi s).assy = s.assy := rfl
@[simp] theorem memForget_regs (lo hi : Nat) (s : State) : (memForget lo hi s).regs = s.regs := rfl
@[simp] theorem memForget_latch (lo hi : Nat) (s : State) : (memForget lo hi s).latch = s.latch := rfl
@[simp] theorem memForget_eng (lo hi : Nat) (s : State) : (memForget lo hi s).eng = s.eng := rfl
@[simp] theorem memForget_jobs (lo hi : Nat) (s : State) : (memForget lo hi s).jobs = s.jobs := rfl
@[simp] theorem memForget_parts (lo hi : Nat) (s : State) : (memForget lo hi s).parts = s.parts := rfl
@[simp] theorem memForget_span (lo hi : Nat) (s : State) : (memForget lo hi s).span = s.span := rfl
@[simp] theorem memForget_red (lo hi : Nat) (s : State) : (memForget lo hi s).red = s.red := rfl
@[simp] theorem memForget_sec (lo hi : Nat) (s : State) : (memForget lo hi s).sec = s.sec := rfl
@[simp] theorem memForget_pwr (lo hi : Nat) (s : State) : (memForget lo hi s).pwr = s.pwr := rfl
@[simp] theorem memForget_dbg (lo hi : Nat) (s : State) : (memForget lo hi s).dbg = s.dbg := rfl
@[simp] theorem memForget_time (lo hi : Nat) (s : State) : (memForget lo hi s).time = s.time := rfl
@[simp] theorem memForget_hbm (lo hi : Nat) (s : State) : (memForget lo hi s).hbm = s.hbm := rfl
@[simp] theorem memForget_host (lo hi : Nat) (s : State) : (memForget lo hi s).host = s.host := rfl
@[simp] theorem memForget_bus (lo hi : Nat) (s : State) : (memForget lo hi s).bus = s.bus := rfl
@[simp] theorem memForget_free (lo hi : Nat) (s : State) : (memForget lo hi s).free = s.free := rfl
@[simp] theorem memForget_pending (lo hi : Nat) (s : State) : (memForget lo hi s).pending = s.pending := rfl

end Sys2Proof.Machine
end

