-- ==== Sys2Proof/Laws/Frame.lean ====
section
/-! SUPPORT. Frames: what shared operations leave alone, what a memory access may advance, and that accesses granted stay granted. -/

namespace Sys2Proof.Machine
theorem getR_setF (k j hi lo v : Nat) (s : State) : getR (setF k hi lo v s) j = if j = k then putFld (getR s k) hi lo v else getR s j := by
  unfold setF; rw [getR_setR]
theorem getR_setN (k j v : Nat) (s : State) : getR (setN k v s) j = if j = k then BitVec.ofNat 32 v else getR s j := by
  unfold setN; rw [getR_setR]
theorem getR_andnR (k j v : Nat) (s : State) : getR (andnR k v s) j = if j = k then getR s k &&& ~~~(BitVec.ofNat 32 v) else getR s j := by
  unfold andnR; rw [getR_setR]
theorem getR_orR (k j v : Nat) (s : State) : getR (orR k v s) j = if j = k then getR s k ||| BitVec.ofNat 32 v else getR s j := by
  unfold orR; rw [getR_setR]
theorem getR_inc32 (k j v : Nat) (s : State) : getR (inc32 k v s) j = if j = k then sat32Add (getR s k) v else getR s j := by
  unfold inc32; rw [getR_setR]
theorem getR_rstR (k j : Nat) (s : State) : getR (rstR k s) j = if j = k then regReset k else getR s j := by
  unfold rstR; rw [getR_setR]
theorem getR_of_regs {s t : State} (h : t.regs = s.regs) (k : Nat) : getR t k = getR s k := by unfold getR; rw [h]
@[simp] theorem getR_mk (s : State) (k : Nat) (a l m e j p sp r se pw d ti h ho b f pe) :
    getR (State.mk a s.regs l m e j p sp r se pw d ti h ho b f pe) k = getR s k := rfl
@[simp] theorem modPwr_assy (f : Power → Power) (s : State) : (modPwr f s).assy = s.assy := rfl
@[simp] theorem modPwr_regs (f : Power → Power) (s : State) : (modPwr f s).regs = s.regs := rfl
@[simp] theorem modPwr_latch (f : Power → Power) (s : State) : (modPwr f s).latch = s.latch := rfl
@[simp] theorem modPwr_mem (f : Power → Power) (s : State) : (modPwr f s).mem = s.mem := rfl
@[simp] theorem modPwr_eng (f : Power → Power) (s : State) : (modPwr f s).eng = s.eng := rfl
@[simp] theorem modPwr_jobs (f : Power → Power) (s : State) : (modPwr f s).jobs = s.jobs := rfl
@[simp] theorem modPwr_parts (f : Power → Power) (s : State) : (modPwr f s).parts = s.parts := rfl
@[simp] theorem modPwr_span (f : Power → Power) (s : State) : (modPwr f s).span = s.span := rfl
@[simp] theorem modPwr_red (f : Power → Power) (s : State) : (modPwr f s).red = s.red := rfl
@[simp] theorem modPwr_sec (f : Power → Power) (s : State) : (modPwr f s).sec = s.sec := rfl
@[simp] theorem modPwr_pwr (f : Power → Power) (s : State) : (modPwr f s).pwr = f s.pwr := rfl
@[simp] theorem modPwr_dbg (f : Power → Power) (s : State) : (modPwr f s).dbg = s.dbg := rfl
@[simp] theorem modPwr_time (f : Power → Power) (s : State) : (modPwr f s).time = s.time := rfl
@[simp] theorem modPwr_hbm (f : Power → Power) (s : State) : (modPwr f s).hbm = s.hbm := rfl
@[simp] theorem modPwr_host (f : Power → Power) (s : State) : (modPwr f s).host = s.host := rfl
@[simp] theorem modPwr_bus (f : Power → Power) (s : State) : (modPwr f s).bus = s.bus := rfl
@[simp] theorem modPwr_free (f : Power → Power) (s : State) : (modPwr f s).free = s.free := rfl
@[simp] theorem modPwr_pending (f : Power → Power) (s : State) : (modPwr f s).pending = s.pending := rfl
@[simp] theorem modSec_assy (f : Sec → Sec) (s : State) : (modSec f s).assy = s.assy := rfl
@[simp] theorem modSec_regs (f : Sec → Sec) (s : State) : (modSec f s).regs = s.regs := rfl
@[simp] theorem modSec_latch (f : Sec → Sec) (s : State) : (modSec f s).latch = s.latch := rfl
@[simp] theorem modSec_mem (f : Sec → Sec) (s : State) : (modSec f s).mem = s.mem := rfl
@[simp] theorem modSec_eng (f : Sec → Sec) (s : State) : (modSec f s).eng = s.eng := rfl
@[simp] theorem modSec_jobs (f : Sec → Sec) (s : State) : (modSec f s).jobs = s.jobs := rfl
@[simp] theorem modSec_parts (f : Sec → Sec) (s : State) : (modSec f s).parts = s.parts := rfl
@[simp] theorem modSec_span (f : Sec → Sec) (s : State) : (modSec f s).span = s.span := rfl
@[simp] theorem modSec_red (f : Sec → Sec) (s : State) : (modSec f s).red = s.red := rfl
@[simp] theorem modSec_sec (f : Sec → Sec) (s : State) : (modSec f s).sec = f s.sec := rfl
@[simp] theorem modSec_pwr (f : Sec → Sec) (s : State) : (modSec f s).pwr = s.pwr := rfl
@[simp] theorem modSec_dbg (f : Sec → Sec) (s : State) : (modSec f s).dbg = s.dbg := rfl
@[simp] theorem modSec_time (f : Sec → Sec) (s : State) : (modSec f s).time = s.time := rfl
@[simp] theorem modSec_hbm (f : Sec → Sec) (s : State) : (modSec f s).hbm = s.hbm := rfl
@[simp] theorem modSec_host (f : Sec → Sec) (s : State) : (modSec f s).host = s.host := rfl
@[simp] theorem modSec_bus (f : Sec → Sec) (s : State) : (modSec f s).bus = s.bus := rfl
@[simp] theorem modSec_free (f : Sec → Sec) (s : State) : (modSec f s).free = s.free := rfl
@[simp] theorem modSec_pending (f : Sec → Sec) (s : State) : (modSec f s).pending = s.pending := rfl
@[simp] theorem getR_modPwr (f) (s : State) (k : Nat) : getR (modPwr f s) k = getR s k := rfl
@[simp] theorem getR_modSec (f) (s : State) (k : Nat) : getR (modSec f s) k = getR s k := rfl
@[simp] theorem getR_bumpFree (s : State) (k : Nat) : getR (bumpFree s) k = getR s k := rfl
@[simp] theorem getR_msi (a b) (s : State) (k : Nat) : getR (msi a b s) k = getR s k := rfl
@[simp] theorem getR_vec0 (a) (s : State) (k : Nat) : getR (vec0 a s) k = getR s k := rfl
@[simp] theorem getR_setPart (a b) (s : State) (k : Nat) : getR (setPart a b s) k = getR s k := rfl
@[simp] theorem getR_modPart (a b) (s : State) (k : Nat) : getR (modPart a b s) k = getR s k := rfl
@[simp] theorem getR_modRing (a b) (s : State) (k : Nat) : getR (modRing a b s) k = getR s k := rfl
@[simp] theorem getR_modLink (a b) (s : State) (k : Nat) : getR (modLink a b s) k = getR s k := rfl
@[simp] theorem getR_setRed (a b) (s : State) (k : Nat) : getR (setRed a b s) k = getR s k := rfl
def RF (s t : State) : Prop := ∃ r f, t = { s with regs := r, free := f }
theorem RF.rfl' {s : State} : RF s s := ⟨s.regs, s.free, rfl⟩
theorem RF.trans {s t u : State} (h : RF s t) (g : RF t u) : RF s u := by
  obtain ⟨r, f, rfl⟩ := h; obtain ⟨r', f', rfl⟩ := g; exact ⟨r', f', rfl⟩
theorem RF.each {α} (l : List α) (f : α → State → State) (s : State) (h : ∀ x u, RF u (f x u)) : RF s (each l f s) :=
  each_keeps (RF s) l f s RF.rfl' fun x _ t ht => ht.trans (h x t)
theorem RF.eq {s t : State} (h : RF s t) : t = { s with regs := t.regs, free := t.free } := by
  obtain ⟨r, f, rfl⟩ := h; rfl
def RO (s t : State) : Prop := ∃ r, t = { s with regs := r }
theorem RO.rfl' {s : State} : RO s s := ⟨s.regs, rfl⟩
theorem RO.trans {s t u : State} (h : RO s t) (g : RO t u) : RO s u := by
  obtain ⟨r, rfl⟩ := h; obtain ⟨r', rfl⟩ := g; exact ⟨r', rfl⟩
theorem RO.each {α} (l : List α) (f : α → State → State) (s : State) (h : ∀ x u, RO u (f x u)) : RO s (each l f s) :=
  each_keeps (RO s) l f s RO.rfl' fun x _ t ht => ht.trans (h x t)
theorem RO.eq {s t : State} (h : RO s t) : t = { s with regs := t.regs } := by
  obtain ⟨r, rfl⟩ := h; rfl
theorem RO.setR {k : Nat} {v : Word} {s : State} : RO s (setR k v s) := ⟨_, rfl⟩
theorem RO.setF {k hi lo v : Nat} {s : State} : RO s (setF k hi lo v s) := ⟨_, rfl⟩
/-- the register value after each over keys -/
theorem each_getR_other {α} (l : List α) (f : α → State → State) (s : State) (k : Nat)
    (h : ∀ x ∈ l, ∀ u, getR (f x u) k = getR u k) : getR (each l f s) k = getR s k := by
  induction l generalizing s with
  | nil => rfl
  | cons x r ih =>
    show getR (each r f (f x s)) k = _
    rw [ih (f x s) (fun y hy => h y (List.mem_cons_of_mem _ hy)), h x (List.mem_cons_self ..)]
/-- something established at x and kept by the others -/
theorem each_at {α} (P : State → Prop) (l : List α) (f : α → State → State) (s : State) (x : α) (hx : x ∈ l)
    (h1 : ∀ u, P (f x u)) (h2 : ∀ y ∈ l, ∀ u, P u → P (f y u)) : P (each l f s) := by
  induction l generalizing s with
  | nil => cases hx
  | cons y r ih =>
    show P (each r f (f y s))
    rcases List.mem_cons.1 hx with rfl | hx
    · exact each_keeps P r f _ (h1 s) fun z hz u hu => h2 z (List.mem_cons_of_mem _ hz) u hu
    · exact ih (f y s) hx fun z hz => h2 z (List.mem_cons_of_mem _ hz)
theorem mem_rangeFrom {a n k : Nat} : k ∈ rangeFrom a n ↔ a ≤ k ∧ k < a + n := by
  induction n generalizing a with
  | zero => simp [rangeFrom]
  | succ n ih => simp [rangeFrom, ih]; omega

theorem tabFind_filter_key {α : Type} (p : Nat → Bool) (k : Nat) (t : List (Nat × α)) :
    tabFind k (t.filter fun x => p x.1) = if p k then tabFind k t else none := by
  induction t with
  | nil => simp [tabFind]
  | cons x r ih =>
    obtain ⟨j, v⟩ := x
    by_cases h : p j = true
    · simp only [List.filter, h, tabFind]
      by_cases e : j = k
      · subst e; simp [h]
      · simp [e, ih]
    · simp only [List.filter, h, tabFind]
      by_cases e : j = k
      · subst e; simp [h, ih]
      · simp [e, ih]
theorem getR_keepRegs (p : Nat → Bool) (s : State) (k : Nat) : getR (keepRegs p s) k = if p k then getR s k else regReset k := by
  show (tabFind k (s.regs.filter fun x => p x.1)).getD _ = _
  rw [tabFind_filter_key]; unfold getR; split <;> rfl
theorem getR_vinLost (s : State) (k : Nat) (h : k ≠ 0x110) (h2 : k ≠ 0x408) (h3 : k ≠ 0x40C) :
    getR (vinLost s) k = if keptOnVinLoss k then getR s k else regReset k := by
  have : getR (vinLost s) k = getR (keepRegs keptOnVinLoss s) k := by
    unfold vinLost set64; simp only [getR_setN, h, h2, h3, if_false]; rfl
  rw [this, getR_keepRegs]
theorem kept_part (p : Nat) (hp : p < 32) : keptOnVinLoss (kPart p 0) = false ∧ regReset (kPart p 0) = 0 ∧ keptOnVinLoss (kPart p 0x1000) = true := by
  have : ∀ p < 32, keptOnVinLoss (kPart p 0) = false ∧ regReset (kPart p 0) = 0 ∧ keptOnVinLoss (kPart p 0x1000) = true := by decide
  exact this p hp

/-- Only the Span fabric and the session bit of SEC_STATE may have changed. -/
def Noted (s u : State) : Prop := (∃ sp r, u = { s with span := sp, regs := r }) ∧ ∀ k, k ≠ 0x400 → getR u k = getR s k
theorem Noted.refl (s : State) : Noted s s := ⟨⟨s.span, s.regs, rfl⟩, fun _ _ => rfl⟩
theorem Noted.trans {s t u : State} (h : Noted s t) (g : Noted t u) : Noted s u := by
  obtain ⟨⟨a, b, rfl⟩, h2⟩ := h
  obtain ⟨⟨a', b', rfl⟩, g2⟩ := g
  exact ⟨⟨a', b', rfl⟩, fun k hk => (g2 k hk).trans (h2 k hk)⟩
theorem Noted.span (s : State) (x : Span) : Noted s { s with span := x } := ⟨⟨x, s.regs, rfl⟩, fun _ _ => rfl⟩
theorem Noted.ite {c : Prop} [Decidable c] {s a b : State} (h : Noted s a) (g : Noted s b) : Noted s (if c then a else b) := by
  split
  · exact h
  · exact g
theorem noted_pump (P n : Nat) (s : State) : Noted s (pump P n s) := by
  induction n generalizing s with
  | zero => exact Noted.refl s
  | succ n ih =>
    unfold pump
    dsimp only
    split
    · split
      · refine Noted.trans ?_ (ih _)
        exact Noted.trans (t := modLink P _ s) (Noted.span s _) (Noted.span _ _)
      · exact Noted.refl s
    · exact Noted.refl s
theorem noted_sendMgmt (P opc : Nat) (pl : List Byte) (s : State) : Noted s (sendMgmt P opc pl s) := by
  unfold sendMgmt sendPkt sendSlots pumpAll
  refine Noted.trans ?_ (noted_pump _ _ _)
  exact Noted.trans (Noted.span s _) (Noted.span _ _)
theorem noted_announce (P : Nat) (s : State) : Noted s (announce P s) := by
  unfold announce
  exact Noted.trans (Noted.span s _) (noted_sendMgmt _ _ _ _)
theorem noted_endFmSess (s : State) : Noted s (endFmSess s) := by
  unfold endFmSess
  refine Noted.ite ?_ (Noted.refl s)
  refine ⟨⟨_, _, rfl⟩, fun k hk => ?_⟩
  show getR (setF 0x400 27 27 0 s) k = _
  simp [getR_setF, hk]
theorem noted_sessCheck (s : State) : Noted s (sessCheck s) := by
  unfold sessCheck
  refine Noted.ite ?_ (Noted.refl s)
  split
  · exact (noted_endFmSess s).trans (noted_announce _ _)
  · exact noted_endFmSess s
theorem noted_sendSess (opc seq : Nat) (b : List Byte) (s : State) : Noted s (sendSess opc seq b s) := by
  unfold sendSess
  dsimp only
  split
  · refine Noted.ite ?_ (Noted.refl s)
    unfold sessSent
    exact ((noted_sendMgmt _ _ _ s).trans (Noted.span _ _)).trans (noted_sessCheck _)
  · exact Noted.refl s
theorem noted_notice (opc : Nat) (b : List Byte) (s : State) : Noted s (notice opc b s) := by
  unfold notice nextSeq
  dsimp only
  exact (Noted.span s _).trans ((Noted.span _ _).trans (noted_sendSess _ _ _ _))
theorem noted_down (p e c : Nat) (s : State) : Noted s (noticeDown p e c s) := noted_notice _ _ _
theorem noted_up (p : Nat) (s : State) : Noted s (noticeUp p s) := noted_notice _ _ _
theorem noted_port (p : Nat) (s : State) : Noted s (noticePort p s) := noted_notice _ _ _
theorem noted_allDown (c : Nat) (s : State) : Noted s (allDown c s) :=
  each_keeps (Noted s) _ _ _ (Noted.refl s) fun _ _ _ h => h.trans (noted_down _ _ _ _)


theorem besides_refl (s : State) : s.besides s :=
  ⟨rfl, rfl, ⟨[], by simp, by simp⟩, fun _ h => h, fun _ h => h, fun _ h => h, fun _ h => h, rfl⟩
theorem besides_trans {s t u : State} (h : s.besides t) (g : t.besides u) : s.besides u := by
  obtain ⟨h1, h2, ⟨l, h3, h4⟩, h5, h6, h7, h8, h9⟩ := h
  obtain ⟨g1, g2, ⟨m, g3, g4⟩, g5, g6, g7, g8, g9⟩ := g
  refine ⟨by rw [g1, h1], by rw [g2, h2], ⟨l ++ m, by rw [g3, h3, List.append_assoc], ?_⟩, fun x hx => h5 x (g5 x hx), fun x hx => h6 x (g6 x hx),
    fun x hx => h7 x (g7 x hx), fun x hx => h8 x (g8 x hx), by rw [g9, h9]⟩
  rw [g4, h4, List.append_assoc, List.replicate_append_replicate, List.length_append]
def OA (s t : State) : Prop := s.onlyAccesses t
theorem OA.rfl' {s : State} : OA s s := ⟨rfl, besides_refl s, fun _ _ => rfl⟩
theorem OA.trans {s t u : State} (h : OA s t) (g : OA t u) : OA s u := by
  obtain ⟨h1, h2, h3⟩ := h
  obtain ⟨g1, g2, g3⟩ := g
  refine ⟨?_, besides_trans h2 g2, fun k hk => (g3 k hk).trans (h3 k hk)⟩
  rw [g1, h1]
/-- Only the bookkeeping of HBM has changed, as accesses change it. -/
theorem OA.hbm {s : State} (x : Hbm) (h1 : ∀ u, u ∈ x.ue → u ∈ s.hbm.ue) (h2 : ∀ u, u ∈ x.ce → u ∈ s.hbm.ce)
    (h3 : ∀ u, u ∈ x.sramUe → u ∈ s.hbm.sramUe) (h4 : ∀ u, u ∈ x.sramCe → u ∈ s.hbm.sramCe)
    (h5 : x = { s.hbm with ue := x.ue, ce := x.ce, sramUe := x.sramUe, sramCe := x.sramCe, win := x.win, occ := x.occ, waits := x.waits, hot := x.hot }) :
    OA s { s with hbm := x } :=
  ⟨rfl, ⟨rfl, rfl, ⟨[], by simp, by simp⟩, h1, h2, h3, h4, h5⟩, fun _ _ => rfl⟩
theorem OA.devLog {s : State} (a b : Nat) : OA s (devLog a b s) :=
  ⟨rfl, ⟨rfl, rfl, ⟨[(a, b)], rfl, rfl⟩, fun _ h => h, fun _ h => h, fun _ h => h, fun _ h => h, rfl⟩, fun _ _ => rfl⟩
theorem OA.early {s : State} (x : List Nat) : OA s { s with pwr := { s.pwr with early := x } } :=
  ⟨rfl, ⟨rfl, rfl, ⟨[], by simp, by simp⟩, fun _ h => h, fun _ h => h, fun _ h => h, fun _ h => h, rfl⟩, fun _ _ => rfl⟩
theorem OA.each {α} (l : List α) (f : α → State → State) (s : State) (h : ∀ x ∈ l, ∀ u, OA u (f x u)) : OA s (each l f s) :=
  each_keeps (OA s) l f s OA.rfl' fun x hx t ht => ht.trans (h x hx t)
theorem OA.setR {s : State} {k : Nat} (v : Word) (h : isTally k = true) : OA s (setR k v s) := by
  refine ⟨rfl, ⟨rfl, rfl, ⟨[], by simp, by simp⟩, fun _ h => h, fun _ h => h, fun _ h => h, fun _ h => h, rfl⟩, fun j hj => ?_⟩
  rw [getR_setR, if_neg (by rintro rfl; simp [h] at hj)]
theorem OA.set64 {s : State} {k : Nat} (v : Nat) (h : isTally k = true) (h2 : isTally (k + 4) = true) : OA s (set64 k v s) :=
  OA.trans (OA.setR _ h) (OA.setR _ h2)
theorem OA.inc64 {s : State} {k : Nat} (v : Nat) (h : isTally k = true) (h2 : isTally (k + 4) = true) : OA s (inc64 k v s) :=
  OA.set64 _ h h2
theorem OA.setF {s : State} {k : Nat} (hi lo v : Nat) (h : isTally k = true) : OA s (setF k hi lo v s) := OA.setR _ h
theorem OA.bumpFree {s : State} : OA s (bumpFree s) :=
  ⟨rfl, ⟨rfl, rfl, ⟨[], by simp, by simp⟩, fun _ h => h, fun _ h => h, fun _ h => h, fun _ h => h, rfl⟩, fun _ _ => rfl⟩
theorem OA.mem {s : State} (m) : OA s { s with mem := m } :=
  ⟨rfl, ⟨rfl, rfl, ⟨[], by simp, by simp⟩, fun _ h => h, fun _ h => h, fun _ h => h, fun _ h => h, rfl⟩, fun _ _ => rfl⟩
theorem OA.memPuts {s : State} (ks bs) : OA s (memPuts ks bs s) :=
  memPuts_keeps (OA s) ks bs s OA.rfl' fun _ _ _ h => h.trans (OA.mem _)
theorem OA.charge {s : State} (a b c d) : OA s (charge a b c d s) := by
  unfold Sys2Proof.Machine.charge; split
  · exact ⟨rfl, ⟨rfl, rfl, ⟨[], by simp, by simp⟩, fun _ h => h, fun _ h => h, fun _ h => h, fun _ h => h, rfl⟩, fun _ _ => rfl⟩
  · exact OA.rfl'
theorem OA.ite {c : Prop} [Decidable c] {s a b : State} (h : OA s a) (g : OA s b) : OA s (if c then a else b) := by
  split
  · exact h
  · exact g
theorem pairLink_le (a b : Nat) : pairLink a b ≤ 5 := by unfold pairLink; split <;> omega
theorem tally_die (i : Nat) (h : i < 10) : isTally (0x810 + 8 * i) = true ∧ isTally (0x810 + 8 * i + 4) = true := by
  have : ∀ i < 10, isTally (0x810 + 8 * i) = true ∧ isTally (0x810 + 8 * i + 4) = true := by decide
  exact this i h
theorem OA.crossDies {s : State} (a d n) (h : a < 6) : OA s (crossDies a d n s) := by
  unfold Sys2Proof.Machine.crossDies
  refine OA.ite OA.rfl' (OA.ite ?_ ?_)
  · have := tally_die _ (show pairLink a d < 10 by have := pairLink_le a d; omega)
    exact OA.inc64 _ this.1 this.2
  · dsimp only
    refine OA.ite ?_ ?_
    · have := tally_die (6 + 2 * (a - 4) + d % 2) (by omega)
      exact OA.inc64 _ this.1 this.2
    · refine OA.trans (t := Sys2Proof.Machine.inc64 (0x810 + 8 * pairLink (2 * (a - 4) + freeN s % 2) d) n (Sys2Proof.Machine.bumpFree s)) (OA.trans (t := Sys2Proof.Machine.bumpFree s) OA.bumpFree ?_) ?_
      · have := tally_die (pairLink (2 * (a - 4) + freeN s % 2) d) (by have := pairLink_le (2 * (a - 4) + freeN s % 2) d; omega)
        exact OA.inc64 _ this.1 this.2
      · have := tally_die (6 + 2 * (a - 4) + freeN s % 2) (by omega)
        exact OA.inc64 _ this.1 this.2
/-- A master's core is one of 512, its cluster one of 32, its partition one of 32, its place one of the six dies. -/
def Who.ok (w : Who) : Prop := w.pid < 32 ∧ (∀ d, w.die = some d → d < 6) ∧ match w.m with
  | .ctl n => n < 512 | .feed n => n < 512 | .drain n => n < 512 | .vec n => n < 512 | .dma n => n < 512
  | .gate c => c < 32 | .comb c => c < 32 | .page c => c < 32 | .spanIn p => p < 32 | .hostDma p => p < 32
theorem Who.ok_die (w : Who) (h : w.ok) : w.place < 6 := by
  have hm : w.m.die w.unit < 6 := by
    have h := h.2.2; unfold Master.die
    split <;> rename_i e <;> rw [e] at h <;> simp only at h <;> omega
  unfold Who.place
  cases e : w.die with
  | none => exact hm
  | some d => exact h.2.1 d e
theorem tally_part (p o : Nat) (hp : p < 32) (h : o = 0x120 ∨ o = 0x240 ∨ o = 0x244 ∨ o = 0x250) : isTally (kPart p o) = true := by
  unfold isTally kPart
  simp only [Bool.or_eq_true, decide_eq_true_eq]
  omega
theorem OA.queueUnit {s : State} (w : Who) (g c : Nat) : OA s (queueUnit w g c s) := by
  unfold Sys2Proof.Machine.queueUnit
  dsimp only
  split
  · exact OA.hbm _ (fun _ h => h) (fun _ h => h) (fun _ h => h) (fun _ h => h) rfl
  · exact OA.hbm _ (fun _ h => h) (fun _ h => h) (fun _ h => h) (fun _ h => h) rfl
theorem OA.fillFirst {s : State} (u : Nat) : OA s (fillFirst u s) := by
  unfold Sys2Proof.Machine.fillFirst
  exact OA.ite (OA.trans (OA.early _) (OA.setF _ _ _ (by decide))) OA.rfl'
theorem OA.countUnits {s : State} (w : Who) (wr ks) (h : w.ok) : OA s (countUnits w wr ks s) := by
  unfold Sys2Proof.Machine.countUnits countDies
  refine OA.trans (OA.each _ _ _ ?_) (OA.each _ _ _ ?_)
  · rintro ⟨u, n⟩ hx t
    dsimp only
    have a1 : OA t (Sys2Proof.Machine.queueUnit w (u / 50331648) (if wr && n < 256 then 2 else 1)
        (Sys2Proof.Machine.inc64 (kPart w.pid 0x240) (if wr && n < 256 then 2 else 1) (Sys2Proof.Machine.fillFirst u t))) :=
      (OA.fillFirst _).trans ((OA.inc64 _ (tally_part _ _ h.1 (by omega)) (tally_part _ 0x244 h.1 (by omega))).trans (OA.queueUnit _ _ _))
    generalize Sys2Proof.Machine.queueUnit w (u / 50331648) (if wr && n < 256 then 2 else 1)
        (Sys2Proof.Machine.inc64 (kPart w.pid 0x240) (if wr && n < 256 then 2 else 1) (Sys2Proof.Machine.fillFirst u t)) = t1 at *
    have a2 : OA t1 (if w.cls = 15 ∨ w.allOnly = true then t1 else Sys2Proof.Machine.charge w.ctx 11 (u / 50331648) (if wr && n < 256 then 2 else 1) t1) := OA.ite OA.rfl' (OA.charge _ _ _ _)
    generalize (if w.cls = 15 ∨ w.allOnly = true then t1 else Sys2Proof.Machine.charge w.ctx 11 (u / 50331648) (if wr && n < 256 then 2 else 1) t1) = t2 at *
    exact (a1.trans a2).trans (OA.hbm _ (fun _ h => h) (fun _ h => h) (fun _ h => h) (fun _ h => h) rfl)
  · intro d hd t; exact OA.crossDies _ _ _ (w.ok_die h)
theorem mem_setDel {k j : Nat} {l : List Nat} (h : j ∈ setDel k l) : j ∈ l := by
  induction l with
  | nil => exact h
  | cons x r ih =>
    unfold setDel at h; split at h
    · exact List.mem_cons_of_mem _ (ih h)
    · rcases List.mem_cons.1 h with rfl | h
      · exact List.mem_cons_self ..
      · exact List.mem_cons_of_mem _ (ih h)
theorem mem_foldl_setDel {α} (us : List α) (g : α → Nat) (l : List Nat) (j : Nat) (h : j ∈ us.foldl (fun t u => setDel (g u) t) l) : j ∈ l := by
  induction us generalizing l with
  | nil => exact h
  | cons u r ih => exact mem_setDel (ih _ h)
theorem OA.errClear {s : State} (ks) : OA s (errClear ks s) :=
  OA.hbm _ (fun u hu => mem_foldl_setDel _ (fun x : Nat × Nat => x.1) s.hbm.ue u hu) (fun u hu => mem_foldl_setDel _ (fun x : Nat × Nat => x.1) s.hbm.ce u hu)
    (fun u hu => mem_foldl_setDel _ (fun x : Nat × Nat => x.1) s.hbm.sramUe u hu) (fun u hu => mem_foldl_setDel _ (fun x : Nat × Nat => x.1) s.hbm.sramCe u hu) rfl
theorem OA.inc32 {s : State} {k : Nat} (v : Nat) (h : isTally k = true) : OA s (inc32 k v s) := OA.setR _ h
theorem tally_sel (x : Nat) : isTally (kSel (x % 16) 0) = true := by
  unfold isTally kSel
  simp only [Bool.or_eq_true, decide_eq_true_eq]
  omega
theorem OA.noteCe {s : State} (u p : Nat) (h : p < 32) : OA s (noteCe u (some p) s) := by
  unfold Sys2Proof.Machine.noteCe
  refine (OA.inc32 (k := kPart p 0x250) 1 (tally_part _ _ h (by omega))).trans ?_
  refine OA.trans (OA.hbm { s.hbm with ce := setDel u s.hbm.ce } (fun _ h => h) (fun _ h => mem_setDel h) (fun _ h => h) (fun _ h => h) rfl) ?_
  exact (OA.inc32 _ (tally_sel _)).trans ((OA.inc32 _ (by decide)).trans (OA.devLog _ _))
theorem OA.noteWord {s : State} (w p : Nat) (h : p < 32) : OA s (noteWord w p s) := by
  unfold Sys2Proof.Machine.noteWord
  refine OA.trans (OA.hbm { s.hbm with sramCe := setDel w s.hbm.sramCe } (fun _ h => h) (fun _ h => h) (fun _ h => h) (fun _ h => mem_setDel h) rfl) ?_
  exact (OA.inc32 _ (tally_part _ _ h (by omega))).trans (OA.devLog _ _)
theorem OA.mend {s : State} (p : Nat) (wr ks) (h : p < 32) : OA s (mend p wr ks s) := by
  unfold Sys2Proof.Machine.mend
  refine OA.ite OA.rfl' (OA.trans (OA.each _ _ _ ?_) (OA.each _ _ _ ?_))
  · rintro ⟨w, n⟩ _ t; exact OA.ite (OA.noteWord _ _ h) OA.rfl'
  · rintro ⟨u, n⟩ _ t; exact OA.ite (OA.noteCe _ _ h) OA.rfl'
theorem OA.tookBytes {s : State} (w : Who) (ks) (h : w.ok) : OA s (tookBytes w ks s) := (OA.mend _ _ _ h.1).trans (OA.countUnits _ _ _ h)
theorem OA.cremaElem {s : State} {k : Nat} (v) (h : ∀ o, 0x0C ≤ o → o < 0x40 → isTally (k + o) = true) : OA s (cremaElem k v s) := by
  unfold Sys2Proof.Machine.cremaElem
  dsimp only
  have a0 : OA s (Sys2Proof.Machine.inc32 (k + 0x0C) 1 s) := OA.inc32 _ (h _ (by omega) (by omega))
  generalize Sys2Proof.Machine.inc32 (k + 0x0C) 1 s = s1 at *
  refine a0.trans ?_
  split
  · exact OA.inc32 _ (h _ (by omega) (by omega))
  · exact OA.inc32 _ (h _ (by omega) (by omega))
  · rename_i n m e
    have key : ∀ a b : State, OA a b → OA a (Sys2Proof.Machine.set64 (k + 0x28) (fp64Add (get64 (Sys2Proof.Machine.set64 (k + 0x20) (fp64Add (get64 b (k + 0x20)) (.fin n m e)) b) (k + 0x28)) (ofFp64 (fp64Round false (m * m) (2 * e)))) (Sys2Proof.Machine.set64 (k + 0x20) (fp64Add (get64 b (k + 0x20)) (.fin n m e)) b)) := by
      intro a b hab
      have h1 : isTally (k + 0x20 + 4) = true := by rw [Nat.add_assoc]; exact h 0x24 (by omega) (by omega)
      have h2 : isTally (k + 0x28 + 4) = true := by rw [Nat.add_assoc]; exact h 0x2C (by omega) (by omega)
      exact hab.trans (OA.trans (OA.set64 _ (h 0x20 (by omega) (by omega)) h1) (OA.set64 _ (h 0x28 (by omega) (by omega)) h2))
    apply key
    have b1 : OA s1 (if totKey (fp32Of (.fin n m e)) < totKey (getR s1 (k + 0x18)) then Sys2Proof.Machine.setR (k + 0x18) (fp32Of (.fin n m e)) s1 else s1) :=
      OA.ite (OA.setR _ (h _ (by omega) (by omega))) OA.rfl'
    refine b1.trans (OA.ite (OA.setR _ (h _ (by omega) (by omega))) OA.rfl')
theorem OA.cremaWrite {s : State} {k : Nat} (o bs) (h : ∀ o, 0x0C ≤ o → o < 0x40 → isTally (k + o) = true) : OA s (cremaWrite k o bs s) := by
  unfold Sys2Proof.Machine.cremaWrite
  refine OA.ite OA.rfl' ?_
  dsimp only
  have a1 := OA.inc32 (s := s) 1 (h 0x38 (by omega) (by omega))
  generalize Sys2Proof.Machine.inc32 (k + 0x38) 1 s = s1 at *
  have a2 := OA.set64 (s := s1) (csumSpan (get64 s1 (k + 0x30)) (o - getF s (k + 4) 24 6 * 64) bs) (h 0x30 (by omega) (by omega)) (by rw [Nat.add_assoc]; exact h _ (by omega) (by omega))
  generalize Sys2Proof.Machine.set64 (k + 0x30) (csumSpan (get64 s1 (k + 0x30)) (o - getF s (k + 4) 24 6 * 64) bs) s1 = s2 at *
  refine (a1.trans a2).trans (OA.ite (OA.inc32 _ (h _ (by omega) (by omega))) (OA.each _ _ _ fun i _ u => OA.cremaElem _ h))
theorem OA.cremaTap {s : State} {k : Nat} (a b c o bs) (h : ∀ o, 0x0C ≤ o → o < 0x40 → isTally (k + o) = true) : OA s (cremaTap k a b c o bs s) := by
  unfold Sys2Proof.Machine.cremaTap
  refine OA.ite ?_ OA.rfl'
  dsimp only
  exact OA.ite (OA.cremaWrite _ _ h) OA.rfl'
theorem tally_core (n t : Nat) (hn : n < 512) (ht : t < 4) : ∀ o, 0x0C ≤ o → o < 0x40 → isTally (kCore n (0x200 + 0x40 * t) + o) = true := by
  intro o h1 h2; unfold isTally kCore
  simp only [Bool.or_eq_true, decide_eq_true_eq]
  right; omega
theorem tally_cl (n t : Nat) (hn : n < 32) (ht : t < 4) : ∀ o, 0x0C ≤ o → o < 0x40 → isTally (kCl n (0x100 + 0x40 * t) + o) = true := by
  intro o h1 h2; unfold isTally kCl
  simp only [Bool.or_eq_true, decide_eq_true_eq]
  left; right; omega
theorem OA.cremaObserve {s : State} (a b c d bs) : OA s (cremaObserve a b c d bs s) := by
  unfold Sys2Proof.Machine.cremaObserve
  split
  · rename_i h
    unfold spBase at h
    dsimp only
    refine OA.each _ _ _ fun t ht u => OA.cremaTap _ _ _ _ _ (tally_core _ _ (by unfold spSize; omega) (by simp [mem_rangeFrom] at ht; exact ht))
  · split
    · rename_i h
      unfold cmBase at h
      dsimp only
      refine OA.each _ _ _ fun t ht u => OA.cremaTap _ _ _ _ _ (tally_cl _ _ (by omega) (by simp [mem_rangeFrom] at ht; exact ht))
    · exact OA.rfl'
theorem OA.landBytes {s : State} (w a bs) (h : w.ok) : OA s (landBytes w a bs s) := by
  unfold Sys2Proof.Machine.landBytes
  dsimp only
  generalize keysOf s w.pid a bs.length = ks
  have : OA s (Sys2Proof.Machine.countUnits w true ks (Sys2Proof.Machine.errClear ks (Sys2Proof.Machine.memPuts ks bs (Sys2Proof.Machine.mend w.pid true ks s)))) :=
    (OA.mend _ _ _ h.1).trans ((OA.memPuts _ _).trans ((OA.errClear _).trans (OA.countUnits _ _ _ h)))
  split
  · exact this.trans (OA.cremaObserve _ _ _ _ _)
  · exact this

/-- What access checks read is as before, and no error is new. -/
def Same (s t : State) : Prop :=
  (∀ k, isWork k = false → getR t k = getR s k) ∧ t.parts = s.parts ∧ (∀ u, u ∈ t.hbm.ue → u ∈ s.hbm.ue) ∧
  (∀ u, u ∈ t.hbm.sramUe → u ∈ s.hbm.sramUe) ∧ ∀ u, u ∈ t.hbm.netErr → u ∈ s.hbm.netErr
theorem tally_of_work {k : Nat} (h : isWork k = false) : isTally k = false := by
  unfold isWork at h; simp only [Bool.or_eq_false_iff] at h; exact h.1.1
theorem besides_netErr {s t : State} (h : s.besides t) : t.hbm.netErr = s.hbm.netErr := by rw [h.2.2.2.2.2.2.2]
theorem OA.same {s t : State} (h : OA s t) : Same s t :=
  ⟨fun k hk => h.2.2 k (tally_of_work hk), by rw [h.1], h.2.1.2.2.2.1, h.2.1.2.2.2.2.2.1, fun u hu => by rw [besides_netErr h.2.1] at hu; exact hu⟩
/-! what access checks read -/
theorem Same.getR {s t : State} (h : Same s t) {k : Nat} (hk : isWork k = false) : getR t k = getR s k := h.1 k hk
theorem Same.getF {s t : State} (h : Same s t) {k : Nat} (hi lo) (hk : isWork k = false) : getF t k hi lo = getF s k hi lo := by
  unfold Sys2Proof.Machine.getF; rw [h.getR hk]
theorem Same.parts {s t : State} (h : Same s t) : t.parts = s.parts := h.2.1
theorem Same.partOf {s t : State} (h : Same s t) (p) : partOf t p = partOf s p := by unfold Sys2Proof.Machine.partOf; rw [h.parts]
theorem tally_share (p o : Nat) (_ : p < 32) (h1 : 0x2404 ≤ o) (h2 : o ≤ 0x2424) : isWork (kPart p o) = false := by
  unfold isWork isTally kPart
  simp only [Bool.or_eq_false_iff, decide_eq_false_iff_not]; omega
theorem Same.locate {s t : State} (h : Same s t) (p a) (hp : p < 32) : locate t p a = locate s p a := by
  have e : ∀ o, 0x2404 ≤ o → o ≤ 0x2424 → Sys2Proof.Machine.getR t (kPart p o) = Sys2Proof.Machine.getR s (kPart p o) := fun o h1 h2 => h.getR (tally_share p o hp h1 h2)
  have e4 : Sys2Proof.Machine.getR t (kPart p 0x2404 + 4) = Sys2Proof.Machine.getR s (kPart p 0x2404 + 4) := e 0x2408 (by omega) (by omega)
  unfold Sys2Proof.Machine.locate mainSize pinSize shareKey shareRows sharePin Sys2Proof.Machine.getF get64
  rw [h.partOf, e _ (by omega) (by omega), e _ (by omega) (by omega), e _ (by omega) (by omega), e _ (by omega) (by omega), e _ (by omega) (by omega), e4]
theorem tally_rgn (w : Who) (h : w.ok) (n o : Nat) (hn : n < 16) (ho : o < 16) : isWork (w.m.setBase + 16 * n + o) = false := by
  unfold Who.ok at h
  unfold Master.setBase
  cases e : w.m <;> rw [e] at h <;> simp only at h ⊢ <;> unfold isWork isTally <;> (try unfold kCore) <;> (try unfold kCl) <;> (try unfold kPart) <;>
    simp only [Bool.or_eq_false_iff, decide_eq_false_iff_not] <;> omega
theorem any_congr' {α} {p q : α → Bool} {l : List α} (h : ∀ x ∈ l, p x = q x) : l.any p = l.any q := by
  induction l with
  | nil => rfl
  | cons x r ih => simp only [List.any_cons]; rw [h x (List.mem_cons_self ..), ih fun y hy => h y (List.mem_cons_of_mem _ hy)]
theorem find_congr' {α} {p q : α → Bool} {l : List α} (h : ∀ x ∈ l, p x = q x) : l.find? p = l.find? q := by
  induction l with
  | nil => rfl
  | cons x r ih => simp only [List.find?_cons]; rw [h x (List.mem_cons_self ..), ih fun y hy => h y (List.mem_cons_of_mem _ hy)]
theorem Same.rgn {s t : State} (h : Same s t) (w : Who) (hw : w.ok) (n : Nat) (hn : n < 16) :
    rgnBase t w.m.setBase n = rgnBase s w.m.setBase n ∧ rgnLim t w.m.setBase n = rgnLim s w.m.setBase n ∧
    Sys2Proof.Machine.getR t (w.m.setBase + 16 * n) = Sys2Proof.Machine.getR s (w.m.setBase + 16 * n) := by
  have e : ∀ o < 16, Sys2Proof.Machine.getR t (w.m.setBase + 16 * n + o) = Sys2Proof.Machine.getR s (w.m.setBase + 16 * n + o) :=
    fun o ho => h.getR (tally_rgn w hw n o hn ho)
  unfold rgnBase rgnLim Sys2Proof.Machine.getF
  refine ⟨?_, ?_, e 0 (by omega)⟩
  · rw [e 4 (by omega), e 12 (by omega)]
  · rw [e 8 (by omega), e 12 (by omega)]
theorem Same.granted {s t : State} (h : Same s t) (w : Who) (hw : w.ok) (b g) : granted t w b g = granted s w b g := by
  unfold Sys2Proof.Machine.granted
  apply any_congr'
  intro n hn
  have hn : n < 16 := by simp [mem_rangeFrom] at hn; exact hn
  obtain ⟨e1, e2, e3⟩ := h.rgn w hw n hn
  unfold rgnApplies
  dsimp only
  rw [e1, e2, e3]
theorem Same.firstHole {s t : State} (h : Same s t) (p) (hp : p < 32) (l) : firstHole t p l = firstHole s p l := by
  induction l with
  | nil => rfl
  | cons g r ih => unfold Sys2Proof.Machine.firstHole; rw [h.locate _ _ hp, ih]
theorem Same.refusal {s t : State} (h : Same s t) (w : Who) (hw : w.ok) (a b c d n) : refusal t w a b c d n = refusal s w a b c d n := by
  unfold Sys2Proof.Machine.refusal
  simp only [h.firstHole w.pid hw.1, h.granted w hw]
theorem Same.keysOf {s t : State} (h : Same s t) (p) (hp : p < 32) (a n) : keysOf t p a n = keysOf s p a n := by
  unfold Sys2Proof.Machine.keysOf
  simp only [h.locate p _ hp]
theorem Same.badBlock {s t : State} (h : Same s t) (wr : Bool) (b : List Nat) (e : badBlock s wr b = none) : badBlock t wr b = none := by
  unfold Sys2Proof.Machine.badBlock at *
  dsimp only at *
  split at e
  · cases e
  · rename_i h1
    split at e
    · cases e
    · rename_i h2
      split at e
      · cases e
      · rename_i h3
        rw [if_neg, if_neg, if_neg]
        · intro g; apply h3; simp only [List.contains_iff_mem] at g ⊢; exact h.2.2.2.2 _ g
        · intro g; apply h2
          rw [Bool.and_eq_true] at g ⊢
          refine ⟨g.1, ?_⟩
          obtain ⟨x, hx, h4⟩ := List.any_eq_true.1 g.2
          refine List.any_eq_true.2 ⟨x, hx, ?_⟩
          rw [Bool.and_eq_true, List.contains_iff_mem] at h4 ⊢
          exact ⟨h4.1, h.2.2.2.1 _ h4.2⟩
        · intro g; apply h1
          rw [Bool.and_eq_true, List.contains_iff_mem] at g ⊢
          exact ⟨g.1, h.2.2.1 _ g.2⟩
theorem firstBad_none {f g : List Nat → Option Nat} (h : ∀ b, f b = none → g b = none) (l : List (List Nat)) (n m : Nat) (e : firstBad f n l = none) :
    firstBad g m l = none := by
  induction l generalizing n m with
  | nil => rfl
  | cons b r ih =>
    unfold firstBad at e ⊢
    split at e
    · cases e
    · rename_i hb
      rw [h b hb]; exact ih _ _ e
theorem Same.errAt {s t : State} (h : Same s t) (wr : Bool) (ks) (e : errAt s wr ks = none) : errAt t wr ks = none :=
  firstBad_none (fun b => h.badBlock wr b) _ _ _ e
theorem Same.mayRead {s t : State} (h : Same s t) (w : Who) (hw : w.ok) (a n) (hr : s.mayRead w a n) : t.mayRead w a n :=
  ⟨by rw [h.refusal w hw]; exact hr.1, by rw [h.keysOf _ hw.1]; exact h.errAt _ _ hr.2⟩
theorem Same.mayWrite {s t : State} (h : Same s t) (w : Who) (hw : w.ok) (a n) (hr : s.mayWrite w a n) : t.mayWrite w a n :=
  ⟨by rw [h.refusal w hw]; exact hr.1, by rw [h.keysOf _ hw.1]; exact h.errAt _ _ hr.2⟩

theorem each_mem {α} (l : List α) (f : α → State → State) (s : State) (h : ∀ x ∈ l, ∀ u, (f x u).mem = u.mem) : (each l f s).mem = s.mem :=
  each_keeps (fun t => t.mem = s.mem) l f s rfl fun x hx t ht => (h x hx t).trans ht
theorem countUnits_mem (w wr ks) (s : State) : (countUnits w wr ks s).mem = s.mem := by
  unfold countUnits
  have hd : ∀ u : State, (countDies w ks u).mem = u.mem := by
    intro u; unfold countDies; dsimp only
    rw [each_mem]
    intro d _ u; unfold crossDies; split
    · rfl
    · split
      · rfl
      · dsimp only; split <;> rfl
  rw [hd, each_mem]
  rintro ⟨u, n⟩ _ t
  dsimp only
  have hf : (fillFirst u t).mem = t.mem := by unfold fillFirst; split <;> rfl
  have hq : ∀ (g c : Nat) (v : State), (queueUnit w g c v).mem = v.mem := by intro g c v; unfold queueUnit; dsimp only; split <;> rfl
  split
  · rw [hq]; exact hf
  · unfold charge; split
    · dsimp only; rw [hq]; exact hf
    · rw [hq]; exact hf
theorem mend_mem (p wr ks) (s : State) : (mend p wr ks s).mem = s.mem := by
  unfold mend
  split
  · rfl
  · rw [each_mem, each_mem]
    · rintro ⟨w, n⟩ _ u; dsimp only; split <;> rfl
    · rintro ⟨w, n⟩ _ u; dsimp only; split <;> rfl
theorem tookBytes_mem (w ks) (s : State) : (tookBytes w ks s).mem = s.mem := by unfold tookBytes; rw [countUnits_mem, mend_mem]
theorem memPuts_mem {s t : State} (h : s.mem = t.mem) (ks bs) : (memPuts ks bs s).mem = (memPuts ks bs t).mem := by
  unfold memPuts
  generalize ks.zip bs = l
  induction l generalizing s t with
  | nil => exact h
  | cons x r ih =>
    refine ih ?_
    show tabPut memIsDef x.1 x.2 s.mem = tabPut memIsDef x.1 x.2 t.mem
    rw [h]
theorem cremaObserve_mem (a b c d bs) (s : State) : (cremaObserve a b c d bs s).mem = s.mem := by
  have hel : ∀ k v (u : State), (cremaElem k v u).mem = u.mem := by
    intro k v u; unfold cremaElem; dsimp only; split
    · rfl
    · rfl
    · split <;> split <;> rfl
  have hw : ∀ k o bs (u : State), (cremaWrite k o bs u).mem = u.mem := by
    intro k o bs u; unfold cremaWrite; dsimp only; split
    · rfl
    · split
      · rfl
      · rw [each_mem]
        · rfl
        · intro x _ v; exact hel _ _ _
  have ht : ∀ k a b c o bs (u : State), (cremaTap k a b c o bs u).mem = u.mem := by
    intro k a b c o bs u; unfold cremaTap; dsimp only; split
    · split
      · exact hw _ _ _ _
      · rfl
    · rfl
  unfold cremaObserve
  split
  · rw [each_mem]; intro x _ u; exact ht _ _ _ _ _ _ _
  · split
    · rw [each_mem]; intro x _ u; exact ht _ _ _ _ _ _ _
    · rfl
theorem landBytes_mem (w a bs) (s : State) : (landBytes w a bs s).mem = (memPuts (keysOf s w.pid a bs.length) bs s).mem := by
  unfold landBytes; dsimp only; split
  · rw [cremaObserve_mem, countUnits_mem]; exact memPuts_mem (mend_mem _ _ _ _) _ _
  · rw [countUnits_mem]; exact memPuts_mem (mend_mem _ _ _ _) _ _
theorem memByte_of_mem {s t : State} (h : t.mem = s.mem) (m k) : memByte m t k = memByte m s k := by unfold memByte; rw [h]
theorem readE_run {s t : State} (w : Who) (hw : w.ok) (a n) (hr : s.mayRead w a n) (h : Same s t) :
    ∃ u, readE w a n t = .ok ((keysOf s w.pid a n).map (memByte (partOf s w.pid).mek t)) u ∧ OA t u ∧ u.mem = t.mem := by
  have h' := h.mayRead w hw a n hr
  refine ⟨tookBytes w (keysOf t w.pid a n) t, ?_, OA.tookBytes _ _ hw, tookBytes_mem _ _ _⟩
  unfold readE
  rw [h'.1]; dsimp only; rw [h'.2]; dsimp only
  rw [h.keysOf _ hw.1, h.partOf]
theorem writeE_run {s t : State} (w : Who) (hw : w.ok) (a : Nat) (bs : List Byte) (hr : s.mayWrite w a bs.length) (h : Same s t) :
    ∃ u, writeE w a bs t = .ok () u ∧ OA t u ∧ u.mem = (memPuts (keysOf s w.pid a bs.length) bs t).mem := by
  have h' := h.mayWrite w hw a bs.length hr
  refine ⟨landBytes w a bs t, ?_, OA.landBytes _ _ _ hw, ?_⟩
  · unfold writeE
    rw [h'.1]; dsimp only; rw [h'.2]
  · rw [landBytes_mem, h.keysOf _ hw.1]
theorem granules_nil (a : Nat) : granules a 0 = [] := by simp [granules]
theorem keysOf_nil (s : State) (p a : Nat) : keysOf s p a 0 = [] := by simp [keysOf, granules]
theorem find_map_congr {α β} {p q : α → Bool} {f g : α → β} {l : List α} (h : ∀ x ∈ l, p x = q x ∧ f x = g x) :
    (l.find? p).map f = (l.find? q).map g := by
  rw [find_congr' fun x hx => (h x hx).1]
  cases e : l.find? q with
  | none => rfl
  | some x => simp only [Option.map_some]; rw [(h x (List.mem_of_find?_eq_some e)).2]
theorem Same.shareOf {s t : State} (h : Same s t) (w : Who) (hw : w.ok) (lo size) : shareOf t w lo size = shareOf s w lo size := by
  unfold Sys2Proof.Machine.shareOf
  apply find_map_congr
  intro n hn
  obtain ⟨e1, e2, e3⟩ := h.rgn w hw n (by have := mem_rangeFrom.1 hn; omega)
  rw [e1, e3]; exact ⟨rfl, rfl⟩
theorem shareE_run {s t : State} (w : Who) (hw : w.ok) (lo size wr b) (hs : shareOf s w lo size = some b) (h : Same s t) :
    shareE w lo size wr t = .ok b t := by
  unfold shareE; rw [h.shareOf w hw, hs]

theorem ringOf_modRing (c d : Nat) (f : Ring → Ring) (s : State) : ringOf (modRing c f s) d = if d = c then f (ringOf s c) else ringOf s d := by
  show (tabFind d (tabPut (fun _ x => x == {}) c (f (ringOf s c)) s.jobs.rings)).getD {} = _
  split
  · rename_i h; subst h; rw [tabFind_tabPut_self]; split
    · rename_i h; simp at h; simp [h]
    · rfl
  · rename_i h; rw [tabFind_tabPut_ne _ _ h]; rfl
theorem getF_setF_own (k hi lo v : Nat) (s : State) (_ : lo ≤ hi) (h2 : hi < 32) : getF (setF k hi lo v s) k hi lo = v % 2 ^ (hi + 1 - lo) := by
  unfold getF; rw [getR_setF, if_pos rfl, fld_putFld_self _ _ _ _ (by omega)]
theorem partCtxs_of (s t : State) (p : Nat) (h : t.regs = s.regs) : partCtxs t p = partCtxs s p := by unfold partCtxs; rw [h]
theorem filterMap_tabDrop {β : Type} (g : Nat × Word → Option β) (k : Nat) (l : List (Nat × Word)) (h : ∀ v, g (k, v) = none) :
   (tabDrop k l).filterMap g = l.filterMap g := by
  induction l with
  | nil => rfl
  | cons x r ih =>
    obtain ⟨a, v⟩ := x
    by_cases e : a = k
    · subst e; simp [tabDrop, h, ih]
    · simp [tabDrop, e, List.filterMap_cons, ih]
theorem filterMap_tabIns {β : Type} (g : Nat × Word → Option β) (k : Nat) (v : Word) (l : List (Nat × Word)) (h : ∀ v, g (k, v) = none) :
   (tabIns k v l).filterMap g = l.filterMap g := by
  induction l with
  | nil => simp [tabIns, h]
  | cons x r ih =>
    obtain ⟨a, w⟩ := x
    by_cases e : k < a
    · simp [tabIns, e, List.filterMap_cons, h]
    · simp [tabIns, e, List.filterMap_cons, ih]
theorem partCtxs_setR (k : Nat) (v : Word) (s : State) (p : Nat) (h : k % 256 ≠ 0xA0) : partCtxs (setR k v s) p = partCtxs s p := by
  unfold partCtxs setR tabPut
  dsimp only
  split
  · apply filterMap_tabDrop; intro v; simp [h]
  · rw [filterMap_tabIns, filterMap_tabDrop]
    all_goals (intro v; simp [h])
theorem homeFn_setR (k : Nat) (v : Word) (s : State) (c : Nat) (h : k % 256 ≠ 0xA0) : homeFn (setR k v s) c = homeFn s c := by
  have hk : kCtx c 0xA0 ≠ k := by rintro rfl; apply h; unfold kCtx; omega
  unfold homeFn ctxOwner getF
  rw [getR_setR, if_neg hk]
  split <;> rename_i e
  · rw [partCtxs_setR _ _ _ _ h]; rfl
  · rfl
theorem kctx_inj (c : Nat) (a b : Nat) : (kCtx c a = kCtx c b) = (a = b) := by unfold kCtx; simp
theorem kctx_16 (c a : Nat) : (kCtx c a = 16) = False := by unfold kCtx; simp; omega
theorem k16_ctx (c a : Nat) : (16 = kCtx c a) = False := by unfold kCtx; simp; omega

theorem findSub_modSub (c q d r : Nat) (f : Sub → Sub) (s : State) (hf : ∀ x, (f x).ctx = x.ctx ∧ (f x).seq = x.seq) :
    findSub (modSub c q f s) d r = if d = c ∧ r = q then (findSub s c q).map f else findSub s d r := by
  unfold findSub modSub
  dsimp only
  generalize s.jobs.subs = l
  induction l with
  | nil => simp [mapFirst]
  | cons x l ih =>
    unfold mapFirst
    by_cases hx : x.ctx = c ∧ x.seq = q
    · have h1 : (x.ctx == c && x.seq == q) = true := by simp [hx.1, hx.2]
      simp only [h1, if_true, List.find?_cons, (hf x).1, (hf x).2]
      by_cases hd : d = c ∧ r = q
      · obtain ⟨rfl, rfl⟩ := hd; simp [hx.1, hx.2]
      · have h2 : (x.ctx == d && x.seq == r) = false := by
          simp only [hx.1, hx.2, Bool.and_eq_false_iff, beq_eq_false_iff_ne]; omega
        simp only [h2, hd, if_false]
    · have h1 : (x.ctx == c && x.seq == q) = false := by simpa using hx
      simp only [h1, Bool.false_eq_true, if_false, List.find?_cons]
      by_cases hd : d = c ∧ r = q
      · obtain ⟨rfl, rfl⟩ := hd; simp [h1] at ih ⊢; exact ih
      · simp only [hd, if_false] at ih ⊢
        by_cases h2 : (x.ctx == d && x.seq == r) = true
        · simp [h2]
        · simp only [Bool.not_eq_true] at h2; simp only [h2]; exact ih
theorem subNow_modSub (c q : Nat) (x : Sub) (f : Sub → Sub) (s : State) (h : findSub s c q = some x) (hf : ∀ x, (f x).ctx = x.ctx ∧ (f x).seq = x.seq) :
    s.subNow c q (f x) (modSub c q f s) := by
  refine ⟨by rw [findSub_modSub _ _ _ _ _ _ hf]; simp [h], fun d r hd => ?_⟩
  rw [findSub_modSub _ _ _ _ _ _ hf, if_neg (by omega)]
theorem subNow_of {s t : State} {c q : Nat} {x : Sub} {u : State} (h : s.subNow c q x t) (e : u.jobs.subs = t.jobs.subs) : s.subNow c q x u := by
  have : ∀ d r, findSub u d r = findSub t d r := by intro d r; unfold findSub; rw [e]
  exact ⟨by rw [this]; exact h.1, fun d r hd => by rw [this]; exact h.2 d r hd⟩
theorem subNow_from {s s' t : State} {c q : Nat} {x : Sub} (h : s'.subNow c q x t) (e : s'.jobs.subs = s.jobs.subs) : s.subNow c q x t := by
  have : ∀ d r, findSub s' d r = findSub s d r := by intro d r; unfold findSub; rw [e]
  exact ⟨h.1, fun d r hd => by rw [h.2 d r hd, this]⟩
theorem subNow_finish {s : State} {c q : Nat} {x : Sub} (h : findSub s c q = some x) (st rs : Nat) :
    s.subNow c q { x with st := .done, status := st, reason := rs, time := stampOf s 32 } (finishSub c q st rs s) :=
  subNow_of (subNow_modSub c q x (fun x => { x with st := .done, status := st, reason := rs, time := stampOf s 32 }) s h fun _ => ⟨rfl, rfl⟩)
    rfl
theorem ready_some {s : State} {c q o : Nat} {x : Sub} (h : ready s c q o = some x) : findSub s c q = some x ∧ x.opc = o ∧ x.st = .fetched ∧ canGo s x = true := by
  unfold ready at h; rw [Option.filter_eq_some_iff] at h; simp at h; exact ⟨h.1, h.2.1.1, h.2.1.2, h.2.2⟩
end Sys2Proof.Machine
end

