-- ==== Sys2Proof/Laws/Sound.lean ====
section
/-! SUPPORT. Every operation keeps a sound state sound: the canonical forms of memory and registers and the AO phase;
and leaves the queue as it was. This file has
the base operations and the engine computations; the files beside it go on through the model's files. -/

namespace Sys2Proof.Machine

/-- A sound state whose queue is `q`. -/
def State.Ok (q : List Instr) (s : State) : Prop := s.Sound ∧ s.pending = q

variable {qq : List Instr}

theorem sound_mem {s : State} (h : s.Ok qq) : tabWf memIsDef s.mem = true := h.1.1
theorem sound_regs {s : State} (h : s.Ok qq) : tabWf regIsReset s.regs = true := h.1.2.1
theorem sound_phase {s : State} (h : s.Ok qq) : s.time.phase < 12 := h.1.2.2
theorem sound_pending {s : State} (h : s.Ok qq) : s.pending = qq := h.2

/-- What a sound state is, field by field. -/
theorem sound_of {s : State} (h1 : tabWf memIsDef s.mem = true) (h2 : tabWf regIsReset s.regs = true) (h3 : s.time.phase < 12)
    (h4 : s.pending = qq) : s.Ok qq := ⟨⟨h1, h2, h3⟩, h4⟩

/-- A state is sound when the three parts are those of a sound state. -/
theorem sound_same {s t : State} (h : s.Ok qq) (h1 : t.mem = s.mem) (h2 : t.regs = s.regs) (h3 : t.time.phase = s.time.phase)
    (h4 : t.pending = s.pending) : t.Ok qq := by
  unfold State.Ok State.Sound at *; rw [h1, h2, h3, h4]; exact h

theorem sound_mk' {assy : BitVec 2} {regs latch : List (Nat × Word)} {mem : List Host.Cell} {eng : Engines} {jobs : Jobs}
    {parts : List (Nat × Part)} {span : Span} {red : List (Nat × RedCh)} {sec : Sec} {pwr : Power} {dbg : Debug} {time : Time}
    {hbm : Hbm} {host : List HostOut} {bus : Bus} {free : Nat} {pending : List Instr} (h1 : tabWf memIsDef mem = true)
    (h2 : tabWf regIsReset regs = true) (h3 : time.phase < 12) (h4 : pending = qq) :
    (State.mk assy regs latch mem eng jobs parts span red sec pwr dbg time hbm host bus free pending).Ok qq := ⟨⟨h1, h2, h3⟩, h4⟩

theorem sound_ite {c : Prop} [Decidable c] {a b : State} (ha : a.Ok qq) (hb : b.Ok qq) : (if c then a else b).Ok qq := by
  split
  · exact ha
  · exact hb

theorem setR_sound {s : State} (k : Nat) (v : Word) (h : s.Ok qq) : (setR k v s).Ok qq :=
  ⟨⟨h.1.1, wf_setR k v s h.1.2.1, h.1.2.2⟩, h.2⟩
theorem setF_sound {s : State} (k hi lo v : Nat) (h : s.Ok qq) : (setF k hi lo v s).Ok qq := setR_sound _ _ h
theorem setN_sound {s : State} (k v : Nat) (h : s.Ok qq) : (setN k v s).Ok qq := setR_sound _ _ h
theorem orR_sound {s : State} (k v : Nat) (h : s.Ok qq) : (orR k v s).Ok qq := setR_sound _ _ h
theorem andnR_sound {s : State} (k v : Nat) (h : s.Ok qq) : (andnR k v s).Ok qq := setR_sound _ _ h
theorem rstR_sound {s : State} (k : Nat) (h : s.Ok qq) : (rstR k s).Ok qq := setR_sound _ _ h
theorem inc32_sound {s : State} (k n : Nat) (h : s.Ok qq) : (inc32 k n s).Ok qq := setR_sound _ _ h
theorem inc16_sound {s : State} (k n : Nat) (h : s.Ok qq) : (inc16 k n s).Ok qq := setR_sound _ _ h
theorem set64_sound {s : State} (k v : Nat) (h : s.Ok qq) : (set64 k v s).Ok qq := setR_sound _ _ (setR_sound _ _ h)
theorem inc64_sound {s : State} (k n : Nat) (h : s.Ok qq) : (inc64 k n s).Ok qq := set64_sound _ _ h

theorem each_sound {α : Type} {s : State} (l : List α) (f : α → State → State) (h : s.Ok qq)
    (hf : ∀ x t, t.Ok qq → (f x t).Ok qq) : (each l f s).Ok qq := each_keeps (State.Ok qq) l f s h fun x _ t ht => hf x t ht

theorem foldl_sound {α : Type} {s : State} (l : List α) (f : State → α → State) (h : s.Ok qq)
    (hf : ∀ t x, t.Ok qq → (f t x).Ok qq) : (l.foldl f s).Ok qq := by
  induction l generalizing s with
  | nil => exact h
  | cons x r ih => exact ih (hf s x h)

theorem comp_sound {f g : State → State} {s : State} (hf : ∀ t, t.Ok qq → (f t).Ok qq) (hg : (g s).Ok qq) : ((f ∘ g) s).Ok qq :=
  hf _ hg

theorem fst_sound {β : Type} {x : State × β} {a : State} {b : β} (e : x = (a, b)) (h : x.1.Ok qq) : a.Ok qq := by
  subst e; exact h

theorem fst_ite {β : Type} {c : Prop} [Decidable c] {x y : State × β} (hx : x.1.Ok qq) (hy : y.1.Ok qq) :
    (if c then x else y).1.Ok qq := by
  split
  · exact hx
  · exact hy

theorem fst_mk {β : Type} {s : State} {b : β} (h : s.Ok qq) : (s, b).1.Ok qq := h

theorem some_sound {x : Option State} {a : State} (e : x = some a) (h : ∀ t, x = some t → t.Ok qq) : a.Ok qq := h a e

theorem foldl_fst_sound {α β : Type} {p : State × β} (l : List α) (f : State × β → α → State × β) (h : p.1.Ok qq)
    (hf : ∀ q x, q.1.Ok qq → (f q x).1.Ok qq) : (l.foldl f p).1.Ok qq := by
  induction l generalizing p with
  | nil => exact h
  | cons x r ih => exact ih (hf p x h)

theorem rstRange_sound {s : State} (lo hi : Nat) (h : s.Ok qq) : (rstRange lo hi s).Ok qq :=
  ⟨⟨h.1.1, tabWf_tabClear _ lo hi _ h.1.2.1, h.1.2.2⟩, h.2⟩
theorem memPut_sound {s : State} (k : Nat) (b : Byte) (h : s.Ok qq) : (memPut k b s).Ok qq :=
  ⟨⟨wf_memPut k b s h.1.1, h.1.2.1, h.1.2.2⟩, h.2⟩
theorem memPuts_sound {s : State} (ks : List Nat) (bs : List Byte) (h : s.Ok qq) : (memPuts ks bs s).Ok qq :=
  memPuts_keeps (State.Ok qq) ks bs s h fun k b _ ht => memPut_sound k b ht
theorem memForget_sound {s : State} (lo hi : Nat) (h : s.Ok qq) : (memForget lo hi s).Ok qq :=
  ⟨⟨wf_memForget lo hi s h.1.1, h.1.2.1, h.1.2.2⟩, h.2⟩
/-! Computations -/

/-- The state an engine's computation ends in. -/
def endOf {α : Type} (r : EStateM.Result Flt State α) : State := match r with | .ok _ t => t | .error _ t => t

/-- A computation that ends in a sound state when it starts in one, whether it stops or not. -/
def Keeps {α : Type} (x : EStateM Flt State α) : Prop :=
  ∀ (qq : List Instr) (s : State), s.Ok qq → (endOf (x s)).Ok qq

theorem Keeps.ok {α : Type} {x : EStateM Flt State α} (h : Keeps x) {s t : State} {a : α} (hs : s.Ok qq) (e : x s = .ok a t) :
    t.Ok qq := by have := h qq s hs; rw [e] at this; exact this
theorem Keeps.error {α : Type} {x : EStateM Flt State α} (h : Keeps x) {s t : State} {f : Flt} (hs : s.Ok qq)
    (e : x s = .error f t) : t.Ok qq := by have := h qq s hs; rw [e] at this; exact this

theorem keeps_pure {α : Type} (a : α) : Keeps (pure a : EStateM Flt State α) := fun _ _ h => h
theorem keeps_bind {α β : Type} {x : EStateM Flt State α} {f : α → EStateM Flt State β} (hx : Keeps x)
    (hf : ∀ a, Keeps (f a)) : Keeps (x >>= f) := by
  intro qq s hs
  show (endOf (EStateM.bind x f s)).Ok qq
  unfold EStateM.bind
  cases e : x s with
  | ok a t => exact hf a qq t (hx.ok hs e)
  | error g t => exact hx.error hs e
theorem keeps_map {α β : Type} {x : EStateM Flt State α} (f : α → β) (hx : Keeps x) : Keeps (f <$> x) := by
  intro qq s hs
  show (endOf (EStateM.map f x s)).Ok qq
  unfold EStateM.map
  cases e : x s with
  | ok a t => exact hx.ok hs e
  | error g t => exact hx.error hs e
theorem keeps_ite {α : Type} {c : Prop} [Decidable c] {x y : EStateM Flt State α} (hx : Keeps x) (hy : Keeps y) :
    Keeps (if c then x else y) := by
  split
  · exact hx
  · exact hy

end Sys2Proof.Machine
end

