-- ==== Sys2Proof/Laws/SoundOps.lean ====
section
/-! SUPPORT. The operations of Machine/Ops.lean keep a sound state sound. -/

namespace Sys2Proof.Machine

variable {qq : List Instr}

theorem rstRs_sound (ks : List Nat) {s : State} (h : s.Ok qq) : (rstRs ks s).Ok qq := by
  unfold rstRs
  repeat' (first
      | with_reducible assumption | with_reducible intro _ | with_reducible apply rstR_sound
      | with_reducible apply each_sound)

theorem setPart_sound (p : Nat) (v : Part) {s : State} (h : s.Ok qq) : (setPart p v s).Ok qq := by
  unfold setPart
  repeat' (first
      | with_reducible assumption | with_reducible intro _ | with_reducible apply sound_ite | split
      | with_reducible apply sound_mk' | with_reducible apply @sound_mem qq | with_reducible apply @sound_regs qq
      | with_reducible apply @sound_phase qq | with_reducible apply sound_pending)

theorem modPart_sound (p : Nat) (f : Part → Part) {s : State} (h : s.Ok qq) : (modPart p f s).Ok qq := by
  unfold modPart
  repeat' (first
      | with_reducible assumption | with_reducible intro _ | with_reducible apply setPart_sound)

theorem modRing_sound (c : Nat) (f : Ring → Ring) {s : State} (h : s.Ok qq) : (modRing c f s).Ok qq := by
  unfold modRing
  repeat' (first
      | with_reducible assumption | with_reducible intro _ | with_reducible apply sound_ite | split
      | with_reducible apply sound_mk' | with_reducible apply @sound_mem qq | with_reducible apply @sound_regs qq
      | with_reducible apply @sound_phase qq | with_reducible apply sound_pending)

theorem modLink_sound (p : Nat) (f : Link → Link) {s : State} (h : s.Ok qq) : (modLink p f s).Ok qq := by
  unfold modLink
  repeat' (first
      | with_reducible assumption | with_reducible intro _ | with_reducible apply sound_ite | split
      | with_reducible apply sound_mk' | with_reducible apply @sound_mem qq | with_reducible apply @sound_regs qq
      | with_reducible apply @sound_phase qq | with_reducible apply sound_pending)

theorem setRed_sound (k : Nat) (v : RedCh) {s : State} (h : s.Ok qq) : (setRed k v s).Ok qq := by
  unfold setRed
  repeat' (first
      | with_reducible assumption | with_reducible intro _ | with_reducible apply sound_ite | split
      | with_reducible apply sound_mk' | with_reducible apply @sound_mem qq | with_reducible apply @sound_regs qq
      | with_reducible apply @sound_phase qq | with_reducible apply sound_pending)

theorem semSignal_sound (ctx : Nat) (cl : Nat) (sem : Nat) {s : State} (h : s.Ok qq) : (semSignal ctx cl sem s).Ok qq := by
  unfold semSignal
  repeat' (first
      | with_reducible assumption | with_reducible intro _ | with_reducible apply sound_ite | split
      | with_reducible apply sound_mk' | with_reducible apply @sound_mem qq | with_reducible apply @sound_regs qq
      | with_reducible apply @sound_phase qq | with_reducible apply sound_pending)

theorem semZero_sound (ctx : Nat) {s : State} (h : s.Ok qq) : (semZero ctx s).Ok qq := by
  unfold semZero
  repeat' (first
      | with_reducible assumption | with_reducible intro _ | with_reducible apply sound_ite | split
      | with_reducible apply sound_mk' | with_reducible apply @sound_mem qq | with_reducible apply @sound_regs qq
      | with_reducible apply @sound_phase qq | with_reducible apply sound_pending)

theorem setPartState_sound (p : Nat) (v : Nat) {s : State} (h : s.Ok qq) : (setPartState p v s).Ok qq := by
  unfold setPartState
  repeat' (first
      | with_reducible assumption | with_reducible intro _ | with_reducible apply setF_sound)

theorem charge_sound (c : Nat) (cls : Nat) (unit : Nat) (n : Nat) {s : State} (h : s.Ok qq) : (charge c cls unit n s).Ok qq := by
  unfold charge
  repeat' (first
      | with_reducible assumption | with_reducible intro _ | with_reducible apply sound_ite | split
      | with_reducible apply sound_mk' | with_reducible apply @sound_mem qq | with_reducible apply @sound_regs qq
      | with_reducible apply @sound_phase qq | with_reducible apply sound_pending)

theorem hostWrite_sound (fn : Nat) (own : Option Nat) (addr : Nat) (relaxed : Bool) (d : List Byte) {s : State} (h : s.Ok qq) : (hostWrite fn own addr relaxed d s).Ok qq := by
  unfold hostWrite
  repeat' (first
      | with_reducible assumption | with_reducible intro _ | with_reducible apply inc64_sound | with_reducible apply sound_ite
      | split | with_reducible apply sound_mk' | with_reducible apply @sound_mem qq | with_reducible apply @sound_regs qq
      | with_reducible apply @sound_phase qq | with_reducible apply sound_pending)

theorem hostRead_sound (c : Nat) (addr : Nat) (n : Nat) {s : State} (h : s.Ok qq) : (hostRead c addr n s).Ok qq := by
  unfold hostRead
  repeat' (first
      | with_reducible assumption | with_reducible intro _ | with_reducible apply inc64_sound | with_reducible apply sound_ite
      | split | with_reducible apply sound_mk' | with_reducible apply @sound_mem qq | with_reducible apply @sound_regs qq
      | with_reducible apply @sound_phase qq | with_reducible apply sound_pending)

theorem msi_sound (fn : Nat) (vec : Nat) {s : State} (h : s.Ok qq) : (msi fn vec s).Ok qq := by
  unfold msi
  repeat' (first
      | with_reducible assumption | with_reducible intro _ | with_reducible apply sound_ite | split
      | with_reducible apply sound_mk' | with_reducible apply @sound_mem qq | with_reducible apply @sound_regs qq
      | with_reducible apply @sound_phase qq | with_reducible apply sound_pending)

theorem vec0_sound (fn : Nat) {s : State} (h : s.Ok qq) : (vec0 fn s).Ok qq := by
  unfold vec0
  repeat' (first
      | with_reducible assumption | with_reducible intro _ | with_reducible apply msi_sound)

theorem devLog_sound (kind : Nat) (arg : Nat) {s : State} (h : s.Ok qq) : (devLog kind arg s).Ok qq := by
  unfold devLog
  repeat' (first
      | with_reducible assumption | with_reducible intro _ | with_reducible apply vec0_sound | with_reducible apply sound_ite
      | split | with_reducible apply sound_mk' | with_reducible apply @sound_mem qq | with_reducible apply @sound_regs qq
      | with_reducible apply @sound_phase qq | with_reducible apply sound_pending)

theorem bumpFree_sound  {s : State} (h : s.Ok qq) : (bumpFree s).Ok qq := by
  unfold bumpFree
  repeat' (first
      | with_reducible assumption | with_reducible intro _ | with_reducible apply sound_ite | split
      | with_reducible apply sound_mk' | with_reducible apply @sound_mem qq | with_reducible apply @sound_regs qq
      | with_reducible apply @sound_phase qq | with_reducible apply sound_pending)

theorem setClst_sound (c : Nat) (v : Nat) {s : State} (h : s.Ok qq) : (setClst c v s).Ok qq := by
  unfold setClst
  repeat' (first
      | with_reducible assumption | with_reducible intro _ | with_reducible apply setF_sound)

theorem noteStamp_sound (r : Nat) {s : State} (h : s.Ok qq) : (noteStamp r s).Ok qq := by
  unfold noteStamp
  repeat' (first
      | with_reducible assumption | with_reducible intro _ | with_reducible apply bumpFree_sound
      | with_reducible apply sound_ite | split | with_reducible apply sound_mk' | with_reducible apply @sound_mem qq
      | with_reducible apply @sound_regs qq | with_reducible apply @sound_phase qq | with_reducible apply sound_pending)

end Sys2Proof.Machine
end

