-- ==== Sys2Proof/Laws/SoundCrema.lean ====
section
/-! SUPPORT. The operations of Machine/Crema.lean keep a sound state sound. -/

namespace Sys2Proof.Machine

variable {qq : List Instr}

theorem cremaElem_sound (k : Nat) (v : FV) {s : State} (h : s.Ok qq) : (cremaElem k v s).Ok qq := by
  unfold cremaElem
  repeat' (first
      | with_reducible assumption | with_reducible intro _ | with_reducible apply setR_sound
      | with_reducible apply inc32_sound | with_reducible apply set64_sound | with_reducible apply sound_ite | split)

theorem cremaWrite_sound (k : Nat) (o : Nat) (bs : List Byte) {s : State} (h : s.Ok qq) : (cremaWrite k o bs s).Ok qq := by
  unfold cremaWrite
  repeat' (first
      | with_reducible assumption | with_reducible intro _ | with_reducible apply inc32_sound
      | with_reducible apply set64_sound | with_reducible apply each_sound | with_reducible apply cremaElem_sound
      | with_reducible apply sound_ite)

theorem cremaTap_sound (k : Nat) (mst : Nat) (ctx : Nat) (lc : Option Nat) (o : Nat) (bs : List Byte) {s : State} (h : s.Ok qq) : (cremaTap k mst ctx lc o bs s).Ok qq := by
  unfold cremaTap
  repeat' (first
      | with_reducible assumption | with_reducible intro _ | with_reducible apply cremaWrite_sound
      | with_reducible apply sound_ite)

theorem cremaObserve_sound (mst : Nat) (ctx : Nat) (lc : Option Nat) (a : Nat) (bs : List Byte) {s : State} (h : s.Ok qq) : (cremaObserve mst ctx lc a bs s).Ok qq := by
  unfold cremaObserve
  repeat' (first
      | with_reducible assumption | with_reducible intro _ | with_reducible apply each_sound
      | with_reducible apply cremaTap_sound | with_reducible apply sound_ite)

end Sys2Proof.Machine
end

