-- ==== Sys2Proof/Laws/SoundAccess.lean ====
section
/-! SUPPORT. The operations of Machine/Access.lean keep a sound state sound. -/

namespace Sys2Proof.Machine

variable {qq : List Instr}

theorem upd_keeps (f : State → State) (hf : ∀ (qq : List Instr) s, s.Ok qq → (f s).Ok qq) : Keeps (upd f) := fun qq s h => hf qq s h

theorem look_keeps {α : Type} (f : State → α) : Keeps (look f) := fun _ _ h => h

theorem stop_keeps {α : Type} (f : Flt) : Keeps (stop f : Eng α) := fun _ _ h => h

theorem eachM_keeps {α : Type} (l : List α) (f : α → Eng Unit) (hf : ∀ x, Keeps (f x)) : Keeps (eachM l f) := by
  induction l with
  | nil => exact keeps_pure ()
  | cons x r ih => exact keeps_bind (hf x) fun _ => ih

theorem gatherM_keeps {α β : Type} (l : List α) (f : α → Eng β) (hf : ∀ x, Keeps (f x)) : Keeps (gatherM l f) := by
  induction l with
  | nil => exact keeps_pure _
  | cons x r ih => exact keeps_bind (hf x) fun _ => keeps_bind ih fun _ => keeps_pure _

theorem foldE_keeps {α β : Type} (l : List α) (b : β) (f : β → α → Eng β) (hf : ∀ y x, Keeps (f y x)) : Keeps (foldE l b f) := by
  induction l generalizing b with
  | nil => exact keeps_pure _
  | cons x r ih => exact keeps_bind (hf b x) fun y => ih y

theorem errClear_sound (ks : List Nat) {s : State} (h : s.Ok qq) : (errClear ks s).Ok qq := by
  unfold errClear
  repeat' (first
      | with_reducible assumption | with_reducible intro _ | with_reducible apply foldl_sound
      | with_reducible apply foldl_fst_sound | with_reducible apply sound_ite | split | with_reducible apply sound_mk'
      | with_reducible apply @sound_mem qq | with_reducible apply @sound_regs qq | with_reducible apply @sound_phase qq
      | with_reducible apply sound_pending | dsimp only)

theorem crossDies_sound (a : Nat) (d : Nat) (n : Nat) {s : State} (h : s.Ok qq) : (crossDies a d n s).Ok qq := by
  unfold crossDies
  repeat' (first
      | with_reducible assumption | with_reducible intro _ | with_reducible apply inc64_sound
      | with_reducible apply bumpFree_sound | with_reducible apply sound_ite)

theorem countDies_sound (w : Who) (ks : List Nat) {s : State} (h : s.Ok qq) : (countDies w ks s).Ok qq := by
  unfold countDies
  repeat' (first
      | with_reducible assumption | with_reducible intro _ | with_reducible apply each_sound
      | with_reducible apply crossDies_sound | dsimp only)

theorem queueUnit_sound (w : Who) (g : Nat) (c : Nat) {s : State} (h : s.Ok qq) : (queueUnit w g c s).Ok qq := by
  unfold queueUnit
  repeat' (first
      | with_reducible assumption | with_reducible intro _ | with_reducible apply sound_ite | split
      | with_reducible apply sound_mk' | with_reducible apply @sound_mem qq | with_reducible apply @sound_regs qq
      | with_reducible apply @sound_phase qq | with_reducible apply sound_pending | dsimp only)

theorem fillFirst_sound (u : Nat) {s : State} (h : s.Ok qq) : (fillFirst u s).Ok qq := by
  unfold fillFirst
  repeat' (first
      | with_reducible assumption | with_reducible intro _ | with_reducible apply setF_sound | with_reducible apply sound_ite
      | split | with_reducible apply sound_mk' | with_reducible apply @sound_mem qq | with_reducible apply @sound_regs qq
      | with_reducible apply @sound_phase qq | with_reducible apply sound_pending)

theorem countUnits_sound (w : Who) (wr : Bool) (ks : List Nat) {s : State} (h : s.Ok qq) : (countUnits w wr ks s).Ok qq := by
  unfold countUnits
  repeat' (first
      | with_reducible assumption | with_reducible intro _ | with_reducible apply countDies_sound
      | with_reducible apply each_sound | with_reducible apply queueUnit_sound | with_reducible apply inc64_sound
      | with_reducible apply fillFirst_sound | with_reducible apply charge_sound | with_reducible apply sound_ite | split
      | with_reducible apply sound_mk' | with_reducible apply @sound_mem qq | with_reducible apply @sound_regs qq
      | with_reducible apply @sound_phase qq | with_reducible apply sound_pending | dsimp only)

theorem noteUe_sound (patrol : Bool) (u : Nat) (own : Option Nat) {s : State} (h : s.Ok qq) : (noteUe patrol u own s).Ok qq := by
  unfold noteUe
  repeat' (first
      | with_reducible assumption | with_reducible intro _ | with_reducible apply setN_sound
      | with_reducible apply inc32_sound | with_reducible apply sound_ite | split)

theorem errNoted_sound (p : Nat) (x : Nat × Nat × List Nat) {s : State} (h : s.Ok qq) : (errNoted p x s).Ok qq := by
  unfold errNoted
  repeat' (first
      | with_reducible assumption | with_reducible intro _ | with_reducible apply noteUe_sound
      | with_reducible apply inc32_sound | with_reducible apply sound_ite | split | with_reducible apply sound_mk'
      | with_reducible apply @sound_mem qq | with_reducible apply @sound_regs qq | with_reducible apply @sound_phase qq
      | with_reducible apply sound_pending | dsimp only)

theorem noteCe_sound (u : Nat) (own : Option Nat) {s : State} (h : s.Ok qq) : (noteCe u own s).Ok qq := by
  unfold noteCe
  repeat' (first
      | with_reducible assumption | with_reducible intro _ | with_reducible apply inc32_sound
      | with_reducible apply devLog_sound | with_reducible apply sound_ite | split | with_reducible apply sound_mk'
      | with_reducible apply @sound_mem qq | with_reducible apply @sound_regs qq | with_reducible apply @sound_phase qq
      | with_reducible apply sound_pending | dsimp only)

theorem noteWord_sound (w : Nat) (p : Nat) {s : State} (h : s.Ok qq) : (noteWord w p s).Ok qq := by
  unfold noteWord
  repeat' (first
      | with_reducible assumption | with_reducible intro _ | with_reducible apply devLog_sound
      | with_reducible apply inc32_sound | with_reducible apply sound_ite | split | with_reducible apply sound_mk'
      | with_reducible apply @sound_mem qq | with_reducible apply @sound_regs qq | with_reducible apply @sound_phase qq
      | with_reducible apply sound_pending)

theorem mend_sound (p : Nat) (wr : Bool) (ks : List Nat) {s : State} (h : s.Ok qq) : (mend p wr ks s).Ok qq := by
  unfold mend
  repeat' (first
      | with_reducible assumption | with_reducible intro _ | with_reducible apply each_sound
      | with_reducible apply noteCe_sound | with_reducible apply noteWord_sound | with_reducible apply sound_ite)

theorem tookBytes_sound (w : Who) (ks : List Nat) {s : State} (h : s.Ok qq) : (tookBytes w ks s).Ok qq := by
  unfold tookBytes
  repeat' (first
      | with_reducible assumption | with_reducible intro _ | with_reducible apply countUnits_sound
      | with_reducible apply mend_sound)

theorem readE_keeps (w : Who) (a n : Nat) : Keeps (readE w a n) := by
  intro qq s h
  unfold readE
  try dsimp only
  repeat' split
  all_goals first
    | exact h
    | exact errNoted_sound _ _ (tookBytes_sound _ _ h)
    | exact tookBytes_sound _ _ h

theorem landBytes_sound (w : Who) (a : Nat) (bs : List Byte) {s : State} (h : s.Ok qq) : (landBytes w a bs s).Ok qq := by
  unfold landBytes
  repeat' (first
      | with_reducible assumption | with_reducible intro _ | with_reducible apply countUnits_sound
      | with_reducible apply errClear_sound | with_reducible apply memPuts_sound | with_reducible apply mend_sound
      | with_reducible apply cremaObserve_sound | with_reducible apply sound_ite | split | dsimp only)

theorem landSure_sound (w : Who) (a : Nat) (bs : List Byte) {s : State} (h : s.Ok qq) : (landSure w a bs s).Ok qq := by
  unfold landSure
  repeat' (first
      | with_reducible assumption | with_reducible intro _ | with_reducible apply landBytes_sound
      | with_reducible apply each_sound | with_reducible apply devLog_sound | with_reducible apply inc32_sound
      | with_reducible apply sound_ite | split | with_reducible apply sound_mk' | with_reducible apply @sound_mem qq
      | with_reducible apply @sound_regs qq | with_reducible apply @sound_phase qq | with_reducible apply sound_pending
      | dsimp only)

theorem writeE_keeps (w : Who) (a : Nat) (bs : List Byte) : Keeps (writeE w a bs) := by
  intro qq s h
  unfold writeE
  try dsimp only
  repeat' split
  all_goals first
    | exact h
    | exact errNoted_sound _ _ (landBytes_sound _ _ _ h)
    | exact landBytes_sound _ _ _ h

theorem rmwE_keeps (w : Who) (a n : Nat) (f : List Byte → List Byte) : Keeps (rmwE w a n f) := by
  intro qq s h
  unfold rmwE
  try dsimp only
  repeat' split
  all_goals first
    | exact h
    | exact errNoted_sound _ _ h
    | exact landBytes_sound _ _ _ (mend_sound _ _ _ h)

theorem rawWrite_sound (p : Nat) (a : Nat) (bs : List Byte) {s : State} (h : s.Ok qq) : (rawWrite p a bs s).Ok qq := by
  unfold rawWrite
  repeat' (first
      | with_reducible assumption | with_reducible intro _ | with_reducible apply errClear_sound
      | with_reducible apply memPuts_sound | dsimp only)

theorem shareE_keeps (w : Who) (lo size : Nat) (wr : Bool) : Keeps (shareE w lo size wr) := by
  intro qq s h
  unfold shareE
  try dsimp only
  repeat' split
  all_goals first
    | exact h

theorem spShare_keeps (w : Who) (core : Nat) (wr : Bool) : Keeps (spShare w core wr) := by
  unfold spShare
  repeat' (first
      | with_reducible assumption | with_reducible exact keeps_pure _ | with_reducible intro _
      | with_reducible apply keeps_bind | with_reducible apply keeps_map | with_reducible apply shareE_keeps)

theorem cmShare_keeps (w : Who) (cl : Nat) (wr : Bool) : Keeps (cmShare w cl wr) := by
  unfold cmShare
  repeat' (first
      | with_reducible assumption | with_reducible exact keeps_pure _ | with_reducible intro _
      | with_reducible apply keeps_bind | with_reducible apply keeps_map | with_reducible apply shareE_keeps)

theorem accShare_keeps (w : Who) (core : Nat) (a : Nat) (wr : Bool) : Keeps (accShare w core a wr) := by
  unfold accShare
  repeat' (first
      | with_reducible assumption | with_reducible exact keeps_pure _ | with_reducible intro _
      | with_reducible apply keeps_bind | with_reducible apply keeps_map | with_reducible apply shareE_keeps)

theorem guardE_keeps (b : Bool) (f : Flt) : Keeps (guardE b f) := by
  unfold guardE
  repeat' (first
      | with_reducible assumption | with_reducible exact keeps_pure _ | with_reducible intro _
      | with_reducible apply keeps_bind | with_reducible apply keeps_map | with_reducible apply stop_keeps
      | with_reducible apply keeps_ite)

theorem checkE_keeps (w : Who) (rd wr : Bool) (a n : Nat) : Keeps (checkE w rd wr a n) := by
  intro qq s h
  unfold checkE
  try dsimp only
  repeat' split
  all_goals first
    | exact h

end Sys2Proof.Machine
end

