-- ==== Sys2Proof/Laws/SoundFlags.lean ====
section
/-! SUPPORT. The operations of Machine/Flags.lean keep a sound state sound. -/

namespace Sys2Proof.Machine

variable {qq : List Instr}

theorem decodeE_keeps (w : Who) (l : List (Nat × Bool)) : Keeps (decodeE w l) := by
  unfold decodeE
  repeat' (first
      | with_reducible assumption | with_reducible exact keeps_pure _ | with_reducible intro _
      | with_reducible apply keeps_bind | with_reducible apply keeps_map | with_reducible apply stop_keeps
      | with_reducible apply keeps_ite | split)

theorem stickFlags_sound (c : Nat) (st : Word) {s : State} (h : s.Ok qq) : (stickFlags c st s).Ok qq := by
  unfold stickFlags
  repeat' (first
      | with_reducible assumption | with_reducible intro _ | with_reducible apply orR_sound)

theorem readElems_keeps (w : Who) (fmt : Nat) (a : Nat) (n : Nat) : Keeps (readElems w fmt a n) := by
  unfold readElems
  repeat' (first
      | with_reducible assumption | with_reducible exact keeps_pure _ | with_reducible intro _
      | with_reducible apply keeps_bind | with_reducible apply keeps_map | with_reducible apply readE_keeps)

theorem readWords_keeps (w : Who) (a : Nat) (n : Nat) : Keeps (readWords w a n) := by
  unfold readWords
  repeat' (first
      | with_reducible assumption | with_reducible exact keeps_pure _ | with_reducible intro _
      | with_reducible apply keeps_bind | with_reducible apply keeps_map | with_reducible apply readE_keeps)

theorem readScales_keeps (w : Who) (lay : Nat) (a : Nat) (n : Nat) : Keeps (readScales w lay a n) := by
  unfold readScales
  repeat' (first
      | with_reducible assumption | with_reducible exact keeps_pure _ | with_reducible intro _
      | with_reducible apply keeps_bind | with_reducible apply keeps_map | with_reducible apply readE_keeps
      | with_reducible apply keeps_ite)

theorem writeRow_keeps (w : Who) (fmt : Nat) (a : Nat) (sa : Nat) (r : List Nat × List Nat × Nat) : Keeps (writeRow w fmt a sa r) := by
  unfold writeRow
  repeat' (first
      | with_reducible assumption | with_reducible exact keeps_pure _ | with_reducible intro _
      | with_reducible apply keeps_bind | with_reducible apply keeps_map | with_reducible apply writeE_keeps
      | with_reducible apply keeps_ite)

theorem outRow_keeps (w : Who) (o : OutForm) (m : Nat) (i : Nat) (ws : List Word) : Keeps (outRow w o m i ws) := by
  unfold outRow
  repeat' (first
      | with_reducible assumption | with_reducible exact keeps_pure _ | with_reducible intro _
      | with_reducible apply keeps_bind | with_reducible apply keeps_map | with_reducible apply writeRow_keeps)

theorem memBase_keeps (w : Who) (core : Nat) (cluster : Bool) (wr : Bool) : Keeps (memBase w core cluster wr) := by
  unfold memBase
  repeat' (first
      | with_reducible assumption | with_reducible exact keeps_pure _ | with_reducible intro _
      | with_reducible apply keeps_bind | with_reducible apply keeps_map | with_reducible apply spShare_keeps
      | with_reducible apply cmShare_keeps | with_reducible apply keeps_ite)

end Sys2Proof.Machine
end

