-- ==== Sys2Proof/Laws/SoundRings.lean ====
section
/-! SUPPORT. The operations of Machine/Rings.lean keep a sound state sound. -/

namespace Sys2Proof.Machine

variable {qq : List Instr}

theorem stopRing_sound (c : Nat) (code : Nat) {s : State} (h : s.Ok qq) : (stopRing c code s).Ok qq := by
  unfold stopRing
  repeat' (first
      | with_reducible assumption | with_reducible intro _ | with_reducible apply setF_sound)

theorem showInflight_sound (c : Nat) {s : State} (h : s.Ok qq) : (showInflight c s).Ok qq := by
  unfold showInflight
  repeat' (first
      | with_reducible assumption | with_reducible intro _ | with_reducible apply setF_sound)

theorem modSub_sound (c : Nat) (seq : Nat) (f : Sub → Sub) {s : State} (h : s.Ok qq) : (modSub c seq f s).Ok qq := by
  unfold modSub
  repeat' (first
      | with_reducible assumption | with_reducible intro _ | with_reducible apply sound_ite | split
      | with_reducible apply sound_mk' | with_reducible apply @sound_mem qq | with_reducible apply @sound_regs qq
      | with_reducible apply @sound_phase qq | with_reducible apply sound_pending)

theorem finishSub_sound (c : Nat) (seq : Nat) (status : Nat) (reason : Nat) {s : State} (h : s.Ok qq) : (finishSub c seq status reason s).Ok qq := by
  unfold finishSub
  repeat' (first
      | with_reducible assumption | with_reducible intro _ | with_reducible apply noteStamp_sound
      | with_reducible apply modSub_sound | split | with_reducible apply sound_mk' | with_reducible apply @sound_mem qq
      | with_reducible apply @sound_regs qq | with_reducible apply @sound_phase qq | with_reducible apply sound_pending
      | exact (by decide : (0 : Nat) < 12))

theorem setCnt_sound (p : Nat) (sid : Nat) (v : Nat) {s : State} (h : s.Ok qq) : (setCnt p sid v s).Ok qq := by
  unfold setCnt
  repeat' (first
      | with_reducible assumption | with_reducible intro _ | with_reducible apply modPart_sound)

theorem writeSealed_sound (c : Nat) (p : Nat) (sid : Nat) (addr : Nat) (relaxed : Bool) (d : List Byte) {s : State} (h : s.Ok qq) : (writeSealed c p sid addr relaxed d s).Ok qq := by
  unfold writeSealed
  repeat' (first
      | with_reducible assumption | with_reducible intro _ | with_reducible apply setCnt_sound
      | with_reducible apply hostWrite_sound | dsimp only)

theorem hostData_sound (c : Nat) (sid : Nat) (addr : Nat) (d : List Byte) {s : State} (h : s.Ok qq) : (hostData c sid addr d s).Ok qq := by
  unfold hostData
  repeat' (first
      | with_reducible assumption | with_reducible intro _ | with_reducible apply writeSealed_sound
      | with_reducible apply hostWrite_sound | with_reducible apply foldl_sound | with_reducible apply foldl_fst_sound
      | with_reducible apply sound_ite | dsimp only)

theorem cqIrq_sound (c : Nat) (irq : Bool) {s : State} (h : s.Ok qq) : (cqIrq c irq s).Ok qq := by
  unfold cqIrq
  repeat' (first
      | with_reducible assumption | with_reducible intro _ | with_reducible apply modRing_sound
      | with_reducible apply msi_sound | with_reducible apply sound_ite)

theorem writeEntry_sound (x : Sub) {s : State} (h : s.Ok qq) : (writeEntry x s).Ok qq := by
  unfold writeEntry
  repeat' (first
      | with_reducible assumption | with_reducible intro _ | with_reducible apply writeSealed_sound
      | with_reducible apply hostWrite_sound | with_reducible apply setF_sound | with_reducible apply cqIrq_sound
      | with_reducible apply sound_ite | dsimp only)

theorem countMiss_sound (x : Sub) {s : State} (h : s.Ok qq) : (countMiss x s).Ok qq := by
  unfold countMiss
  repeat' (first
      | with_reducible assumption | with_reducible intro _ | with_reducible apply inc32_sound
      | with_reducible apply sound_ite | split)

theorem completeSub_sound (x : Sub) {s : State} (h : s.Ok qq) : (completeSub x s).Ok qq := by
  unfold completeSub
  repeat' (first
      | with_reducible assumption | with_reducible intro _ | with_reducible apply hostData_sound
      | with_reducible apply countMiss_sound | with_reducible apply writeEntry_sound | with_reducible apply modRing_sound
      | with_reducible apply showInflight_sound | with_reducible apply foldl_sound | with_reducible apply foldl_fst_sound
      | with_reducible apply sound_ite | split | with_reducible apply sound_mk' | with_reducible apply @sound_mem qq
      | with_reducible apply @sound_regs qq | with_reducible apply @sound_phase qq | with_reducible apply sound_pending
      | dsimp only)

theorem completeReset_sound (c : Nat) (cause : Nat) {s : State} (h : s.Ok qq) : (completeReset c cause s).Ok qq := by
  unfold completeReset
  repeat' (first
      | with_reducible assumption | with_reducible intro _ | with_reducible apply each_sound
      | with_reducible apply completeSub_sound | with_reducible apply noteStamp_sound | with_reducible apply sound_ite | split
      | with_reducible apply sound_mk' | with_reducible apply @sound_mem qq | with_reducible apply @sound_regs qq
      | with_reducible apply @sound_phase qq | with_reducible apply sound_pending | exact (by decide : (0 : Nat) < 12))

end Sys2Proof.Machine
end

