-- ==== Sys2Proof/Laws/SoundLinks.lean ====
section
/-! SUPPORT. The operations of Machine/Links.lean keep a sound state sound. -/

namespace Sys2Proof.Machine

variable {qq : List Instr}

theorem setPortSt_sound (P : Nat) (v : Nat) {s : State} (h : s.Ok qq) : (setPortSt P v s).Ok qq := by
  unfold setPortSt
  repeat' (first
      | with_reducible assumption | with_reducible intro _ | with_reducible apply setF_sound)

theorem pump_sound (P n : Nat) {s : State} (h : s.Ok qq) : (pump P n s).Ok qq := by
  induction n generalizing s with
  | zero => exact h
  | succ n ih =>
    unfold pump
    repeat' (first
      | with_reducible assumption | with_reducible apply ih | with_reducible apply modLink_sound | split
      | with_reducible apply sound_mk' | with_reducible apply sound_mem | with_reducible apply sound_regs
      | with_reducible apply sound_phase | with_reducible apply sound_pending)

theorem pumpAll_sound (P : Nat) {s : State} (h : s.Ok qq) : (pumpAll P s).Ok qq := by
  unfold pumpAll
  repeat' (first
      | with_reducible assumption | with_reducible intro _ | with_reducible apply pump_sound)

theorem sendSlots_sound (P : Nat) (vc : Nat) (bs : List Byte) {s : State} (h : s.Ok qq) : (sendSlots P vc bs s).Ok qq := by
  unfold sendSlots
  repeat' (first
      | with_reducible assumption | with_reducible intro _ | with_reducible apply pumpAll_sound
      | with_reducible apply modLink_sound | split | with_reducible apply sound_mk' | with_reducible apply @sound_mem qq
      | with_reducible apply @sound_regs qq | with_reducible apply @sound_phase qq | with_reducible apply sound_pending
      | dsimp only)

theorem dropQueued_sound (p : Nat) (vc : Nat → Bool) {s : State} (h : s.Ok qq) : (dropQueued p vc s).Ok qq := by
  unfold dropQueued
  repeat' (first
      | with_reducible assumption | with_reducible intro _ | with_reducible apply each_sound
      | with_reducible apply modLink_sound | with_reducible apply sound_ite | split | with_reducible apply sound_mk'
      | with_reducible apply @sound_mem qq | with_reducible apply @sound_regs qq | with_reducible apply @sound_phase qq
      | with_reducible apply sound_pending | dsimp only)

theorem sendPkt_sound (P : Nat) (vc : Nat) (k : Pkt) {s : State} (h : s.Ok qq) : (sendPkt P vc k s).Ok qq := by
  unfold sendPkt
  repeat' (first
      | with_reducible assumption | with_reducible intro _ | with_reducible apply sendSlots_sound
      | with_reducible apply sound_ite | split | with_reducible apply sound_mk' | with_reducible apply @sound_mem qq
      | with_reducible apply @sound_regs qq | with_reducible apply @sound_phase qq | with_reducible apply sound_pending)

theorem sendMgmt_sound (P : Nat) (opc : Nat) (payload : List Byte) {s : State} (h : s.Ok qq) : (sendMgmt P opc payload s).Ok qq := by
  unfold sendMgmt
  repeat' (first
      | with_reducible assumption | with_reducible intro _ | with_reducible apply sendPkt_sound)

theorem nextSeq_sound  {s : State} (h : s.Ok qq) : (nextSeq s).Ok qq := by
  unfold nextSeq
  repeat' (first
      | with_reducible assumption | with_reducible intro _ | with_reducible apply sound_ite | split
      | with_reducible apply sound_mk' | with_reducible apply @sound_mem qq | with_reducible apply @sound_regs qq
      | with_reducible apply @sound_phase qq | with_reducible apply sound_pending)

theorem announce_sound (P : Nat) {s : State} (h : s.Ok qq) : (announce P s).Ok qq := by
  unfold announce
  repeat' (first
      | with_reducible assumption | with_reducible intro _ | with_reducible apply sendMgmt_sound
      | with_reducible apply nextSeq_sound)

theorem endFmSess_sound{s : State} (h : s.Ok qq) : (endFmSess s).Ok qq := by
  unfold endFmSess
  repeat' (first
      | with_reducible assumption | with_reducible intro _ | with_reducible apply setF_sound | with_reducible apply sound_ite
      | split | with_reducible apply sound_mk' | with_reducible apply @sound_mem qq | with_reducible apply @sound_regs qq
      | with_reducible apply @sound_phase qq | with_reducible apply sound_pending)

theorem sessCheck_sound  {s : State} (h : s.Ok qq) : (sessCheck s).Ok qq := by
  unfold sessCheck
  repeat' (first
      | with_reducible assumption | with_reducible intro _ | with_reducible apply announce_sound
      | with_reducible apply endFmSess_sound | with_reducible apply sound_ite | split)

theorem sessSent_sound  {s : State} (h : s.Ok qq) : (sessSent s).Ok qq := by
  unfold sessSent
  repeat' (first
      | with_reducible assumption | with_reducible intro _ | with_reducible apply sessCheck_sound
      | with_reducible apply sound_ite | split | with_reducible apply sound_mk' | with_reducible apply @sound_mem qq
      | with_reducible apply @sound_regs qq | with_reducible apply @sound_phase qq | with_reducible apply sound_pending)

theorem sendSess_sound (opc : Nat) (seq : Nat) (body : List Byte) {s : State} (h : s.Ok qq) : (sendSess opc seq body s).Ok qq := by
  unfold sendSess
  repeat' (first
      | with_reducible assumption | with_reducible intro _ | with_reducible apply sendMgmt_sound
      | with_reducible apply sessSent_sound | with_reducible apply sound_ite | split)

theorem notice_sound (opc : Nat) (body : List Byte) {s : State} (h : s.Ok qq) : (notice opc body s).Ok qq := by
  unfold notice
  repeat' (first
      | with_reducible assumption | with_reducible intro _ | with_reducible apply nextSeq_sound
      | with_reducible apply sendSess_sound | with_reducible apply sound_ite | split | with_reducible apply sound_mk'
      | with_reducible apply @sound_mem qq | with_reducible apply @sound_regs qq | with_reducible apply @sound_phase qq
      | with_reducible apply sound_pending)

theorem noticeDown_sound (p : Nat) (epoch : Nat) (cause : Nat) {s : State} (h : s.Ok qq) : (noticeDown p epoch cause s).Ok qq := by
  unfold noticeDown
  repeat' (first
      | with_reducible assumption | with_reducible intro _ | with_reducible apply notice_sound)

theorem noticeUp_sound (p : Nat) {s : State} (h : s.Ok qq) : (noticeUp p s).Ok qq := by
  unfold noticeUp
  repeat' (first
      | with_reducible assumption | with_reducible intro _ | with_reducible apply notice_sound)

theorem noticePort_sound (P : Nat) {s : State} (h : s.Ok qq) : (noticePort P s).Ok qq := by
  unfold noticePort
  repeat' (first
      | with_reducible assumption | with_reducible intro _ | with_reducible apply notice_sound)

end Sys2Proof.Machine
end

