-- ==== Sys2Proof/Laws/SoundRecover.lean ====
section
/-! SUPPORT. The operations of Machine/Recover.lean keep a sound state sound. -/

namespace Sys2Proof.Machine

variable {qq : List Instr}

theorem recordFault_sound (c : Nat) (kind : Nat) (esc : Bool) (f : Flt) (opc : Nat) (cseq : Nat) {s : State} (h : s.Ok qq) : (recordFault c kind esc f opc cseq s).Ok qq := by
  unfold recordFault
  repeat' (first
      | with_reducible assumption | with_reducible intro _ | with_reducible apply inc32_sound
      | with_reducible apply noteStamp_sound | with_reducible apply setN_sound | with_reducible apply vec0_sound
      | with_reducible apply sound_ite | dsimp only)

theorem groupOutcome_sound (g : Group) (status : Nat) (reason : Nat) (idx : Nat) {s : State} (h : s.Ok qq) : (groupOutcome g status reason idx s).Ok qq := by
  unfold groupOutcome
  repeat' (first
      | with_reducible assumption | with_reducible intro _ | with_reducible apply modSub_sound
      | with_reducible apply finishSub_sound | with_reducible apply landSure_sound | with_reducible apply sound_ite | split
      | with_reducible apply sound_mk' | with_reducible apply @sound_mem qq | with_reducible apply @sound_regs qq
      | with_reducible apply @sound_phase qq | with_reducible apply sound_pending)

theorem abortGroups_sound (p : Group → Bool) {s : State} (h : s.Ok qq) : (abortGroups p s).Ok qq := by
  unfold abortGroups
  repeat' (first
      | with_reducible assumption | with_reducible intro _ | with_reducible apply each_sound
      | with_reducible apply groupOutcome_sound | with_reducible apply sound_ite | split | with_reducible apply sound_mk'
      | with_reducible apply @sound_mem qq | with_reducible apply @sound_regs qq | with_reducible apply @sound_phase qq
      | with_reducible apply sound_pending)

theorem showRdc_sound (k : Nat) {s : State} (h : s.Ok qq) : (showRdc k s).Ok qq := by
  unfold showRdc
  repeat' (first
      | with_reducible assumption | with_reducible intro _ | with_reducible apply setF_sound | with_reducible apply sound_ite
      | dsimp only)

theorem redAbandon_sound (k : Nat) (c : Nat) {s : State} (h : s.Ok qq) : (redAbandon k c s).Ok qq := by
  unfold redAbandon
  repeat' (first
      | with_reducible assumption | with_reducible intro _ | with_reducible apply setRed_sound
      | with_reducible apply showRdc_sound | with_reducible apply setF_sound | with_reducible apply sound_ite | split
      | with_reducible apply sound_mk' | with_reducible apply @sound_mem qq | with_reducible apply @sound_regs qq
      | with_reducible apply @sound_phase qq | with_reducible apply sound_pending | dsimp only)

theorem leaveCores_sound (c : Nat) {s : State} (h : s.Ok qq) : (leaveCores c s).Ok qq := by
  unfold leaveCores
  repeat' (first
      | with_reducible assumption | with_reducible intro _ | with_reducible apply each_sound | with_reducible apply setR_sound
      | with_reducible apply sound_ite | split | with_reducible apply sound_mk' | with_reducible apply @sound_mem qq
      | with_reducible apply @sound_regs qq | with_reducible apply @sound_phase qq | with_reducible apply sound_pending
      | dsimp only)

theorem showCmb_sound  {s : State} (h : s.Ok qq) : (showCmb s).Ok qq := by
  unfold showCmb
  repeat' (first
      | with_reducible assumption | with_reducible intro _ | with_reducible apply setF_sound
      | with_reducible apply each_sound | with_reducible apply sound_ite)

theorem showF_sound (k : Nat) (hi : Nat) (v : Nat) {s : State} (h : s.Ok qq) : (showF k hi v s).Ok qq := by
  unfold showF
  repeat' (first
      | with_reducible assumption | with_reducible intro _ | with_reducible apply setF_sound | with_reducible apply sound_ite)

theorem showCore_sound (n : Nat) {s : State} (h : s.Ok qq) : (showCore n s).Ok qq := by
  unfold showCore
  repeat' (first
      | with_reducible assumption | with_reducible intro _ | with_reducible apply showF_sound)

theorem showCl_sound (c : Nat) {s : State} (h : s.Ok qq) : (showCl c s).Ok qq := by
  unfold showCl
  repeat' (first
      | with_reducible assumption | with_reducible intro _ | with_reducible apply showF_sound)

theorem leaveEngines_sound{s : State} (h : s.Ok qq) : (leaveEngines s).Ok qq := by
  unfold leaveEngines
  repeat' (first
      | with_reducible assumption | with_reducible intro _ | with_reducible apply showCmb_sound
      | with_reducible apply each_sound | with_reducible apply showCl_sound | with_reducible apply showCore_sound)

theorem showDump_sound (p : Nat) {s : State} (h : s.Ok qq) : (showDump p s).Ok qq := by
  unfold showDump
  repeat' (first
      | with_reducible assumption | with_reducible intro _ | with_reducible apply setF_sound | with_reducible apply sound_ite)

theorem dropCtx_sound (c : Nat) {s : State} (h : s.Ok qq) : (dropCtx c s).Ok qq := by
  unfold dropCtx
  repeat' (first
      | with_reducible assumption | with_reducible intro _ | with_reducible apply each_sound
      | with_reducible apply redAbandon_sound | with_reducible apply abortGroups_sound | with_reducible apply setF_sound
      | with_reducible apply showDump_sound | with_reducible apply semZero_sound | with_reducible apply leaveEngines_sound
      | with_reducible apply leaveCores_sound | with_reducible apply sound_ite | split | with_reducible apply sound_mk'
      | with_reducible apply @sound_mem qq | with_reducible apply @sound_regs qq | with_reducible apply @sound_phase qq
      | with_reducible apply sound_pending | dsimp only)

theorem startCtxReset_sound (c : Nat) (cause : Nat) {s : State} (h : s.Ok qq) : (startCtxReset c cause s).Ok qq := by
  unfold startCtxReset
  repeat' (first
      | with_reducible assumption | with_reducible intro _ | with_reducible apply setF_sound
      | with_reducible apply inc32_sound | with_reducible apply modRing_sound | with_reducible apply dropCtx_sound
      | with_reducible apply sound_ite | split | with_reducible apply sound_mk' | with_reducible apply @sound_mem qq
      | with_reducible apply @sound_regs qq | with_reducible apply @sound_phase qq | with_reducible apply sound_pending)

theorem closeJobs_sound (c : Nat) {s : State} (h : s.Ok qq) : (closeJobs c s).Ok qq := by
  unfold closeJobs
  repeat' (first
      | with_reducible assumption | with_reducible intro _ | with_reducible apply sound_ite | split
      | with_reducible apply sound_mk' | with_reducible apply @sound_mem qq | with_reducible apply @sound_regs qq
      | with_reducible apply @sound_phase qq | with_reducible apply sound_pending)

theorem finishCtxReset_sound (c : Nat) {s : State} (h : s.Ok qq) : (finishCtxReset c s).Ok qq := by
  unfold finishCtxReset
  repeat' (first
      | with_reducible assumption | with_reducible intro _ | with_reducible apply setF_sound
      | with_reducible apply modRing_sound | with_reducible apply vec0_sound | with_reducible apply completeReset_sound
      | with_reducible apply closeJobs_sound | with_reducible apply sound_ite | split | with_reducible apply sound_mk'
      | with_reducible apply @sound_mem qq | with_reducible apply @sound_regs qq | with_reducible apply @sound_phase qq
      | with_reducible apply sound_pending)

theorem startPartReset_sound (p : Nat) (cause : Nat) (esc : Option Nat) {s : State} (h : s.Ok qq) : (startPartReset p cause esc s).Ok qq := by
  unfold startPartReset
  repeat' (first
      | with_reducible assumption | with_reducible intro _ | with_reducible apply setPartState_sound
      | with_reducible apply setN_sound | with_reducible apply inc32_sound | with_reducible apply bumpFree_sound
      | with_reducible apply dropQueued_sound | with_reducible apply setF_sound | with_reducible apply noticeDown_sound
      | with_reducible apply modPart_sound | with_reducible apply each_sound | with_reducible apply recordFault_sound
      | with_reducible apply modRing_sound | with_reducible apply dropCtx_sound | with_reducible apply sound_ite | split
      | with_reducible apply sound_mk' | with_reducible apply @sound_mem qq | with_reducible apply @sound_regs qq
      | with_reducible apply @sound_phase qq | with_reducible apply sound_pending | dsimp only)

theorem faultCtx_sound (c : Nat) (kind : Nat) (f : Flt) (opc : Nat) (cseq : Nat) {s : State} (h : s.Ok qq) : (faultCtx c kind f opc cseq s).Ok qq := by
  unfold faultCtx
  repeat' (first
      | with_reducible assumption | with_reducible intro _ | with_reducible apply recordFault_sound
      | with_reducible apply startPartReset_sound | with_reducible apply startCtxReset_sound | with_reducible apply sound_ite
      | split)

theorem zeroClusters_sound (cls : List Nat) {s : State} (h : s.Ok qq) : (zeroClusters cls s).Ok qq := by
  unfold zeroClusters
  repeat' (first
      | with_reducible assumption | with_reducible intro _ | with_reducible apply each_sound
      | with_reducible apply memForget_sound | with_reducible apply sound_ite | split | with_reducible apply sound_mk'
      | with_reducible apply @sound_mem qq | with_reducible apply @sound_regs qq | with_reducible apply @sound_phase qq
      | with_reducible apply sound_pending | dsimp only)

theorem forgetShare_sound (p : Nat) {s : State} (h : s.Ok qq) : (forgetShare p s).Ok qq := by
  unfold forgetShare
  repeat' (first
      | with_reducible assumption | with_reducible intro _ | with_reducible apply sound_ite | split
      | with_reducible apply sound_mk' | with_reducible apply @sound_mem qq | with_reducible apply @sound_regs qq
      | with_reducible apply @sound_phase qq | with_reducible apply sound_pending | with_reducible apply tabWf_filter)

theorem newMek_sound (p : Nat) {s : State} (h : s.Ok qq) : (newMek p s).Ok qq := by
  unfold newMek
  repeat' (first
      | with_reducible assumption | with_reducible intro _ | with_reducible apply inc32_sound
      | with_reducible apply modPart_sound | with_reducible apply forgetShare_sound | with_reducible apply sound_ite | split
      | with_reducible apply sound_mk' | with_reducible apply @sound_mem qq | with_reducible apply @sound_regs qq
      | with_reducible apply @sound_phase qq | with_reducible apply sound_pending)

theorem unbindAll_sound (p : Nat) {s : State} (h : s.Ok qq) : (unbindAll p s).Ok qq := by
  unfold unbindAll
  repeat' (first
      | with_reducible assumption | with_reducible intro _ | with_reducible apply rstRs_sound
      | with_reducible apply sound_ite | split | with_reducible apply sound_mk' | with_reducible apply @sound_mem qq
      | with_reducible apply @sound_regs qq | with_reducible apply @sound_phase qq | with_reducible apply sound_pending)

theorem emptyWptr_sound (p : Nat) {s : State} (h : s.Ok qq) : (emptyWptr p s).Ok qq := by
  unfold emptyWptr
  repeat' (first
      | with_reducible assumption | with_reducible intro _ | with_reducible apply sound_ite | split
      | with_reducible apply sound_mk' | with_reducible apply @sound_mem qq | with_reducible apply @sound_regs qq
      | with_reducible apply @sound_phase qq | with_reducible apply sound_pending)

theorem resetLedger_sound (p : Nat) {s : State} (h : s.Ok qq) : (resetLedger p s).Ok qq := by
  unfold resetLedger
  repeat' (first
      | with_reducible assumption | with_reducible intro _ | with_reducible apply rstRs_sound)

theorem dropKeys_sound (p : Nat) {s : State} (h : s.Ok qq) : (dropKeys p s).Ok qq := by
  unfold dropKeys
  repeat' (first
      | with_reducible assumption | with_reducible intro _ | with_reducible apply modPart_sound)

theorem ringsOff_sound (cause : Nat) (c : Nat) {s : State} (h : s.Ok qq) : (ringsOff cause c s).Ok qq := by
  unfold ringsOff
  repeat' (first
      | with_reducible assumption | with_reducible intro _ | with_reducible apply setF_sound
      | with_reducible apply modRing_sound | with_reducible apply completeReset_sound | with_reducible apply closeJobs_sound)

theorem clearSfu_sound (c : Nat) {s : State} (h : s.Ok qq) : (clearSfu c s).Ok qq := by
  unfold clearSfu
  repeat' (first
      | with_reducible assumption | with_reducible intro _ | with_reducible apply setF_sound)

theorem windowsOff_sound (p : Nat) {s : State} (h : s.Ok qq) : (windowsOff p s).Ok qq := by
  unfold windowsOff
  repeat' (first
      | with_reducible assumption | with_reducible intro _ | with_reducible apply dropQueued_sound
      | with_reducible apply each_sound | with_reducible apply setF_sound)

theorem forgetLoad_sound (p : Nat) {s : State} (h : s.Ok qq) : (forgetLoad p s).Ok qq := by
  unfold forgetLoad
  repeat' (first
      | with_reducible assumption | with_reducible intro _ | with_reducible apply sound_ite | split
      | with_reducible apply sound_mk' | with_reducible apply @sound_mem qq | with_reducible apply @sound_regs qq
      | with_reducible apply @sound_phase qq | with_reducible apply sound_pending)

theorem scrubLater_sound (p : Nat) {s : State} (h : s.Ok qq) : (scrubLater p s).Ok qq := by
  unfold scrubLater
  repeat' (first
      | with_reducible assumption | with_reducible intro _ | with_reducible apply set64_sound
      | with_reducible apply foldl_sound | with_reducible apply foldl_fst_sound | with_reducible apply sound_ite | split
      | with_reducible apply sound_mk' | with_reducible apply @sound_mem qq | with_reducible apply @sound_regs qq
      | with_reducible apply @sound_phase qq | with_reducible apply sound_pending | dsimp only)

theorem releaseCh_sound (p : Nat) {s : State} (h : s.Ok qq) : (releaseCh p s).Ok qq := by
  unfold releaseCh
  repeat' (first
      | with_reducible assumption | with_reducible intro _ | with_reducible apply each_sound
      | with_reducible apply setRed_sound | with_reducible apply setR_sound | with_reducible apply setF_sound
      | with_reducible apply sound_ite)

theorem freePart_sound (p : Nat) {s : State} (h : s.Ok qq) : (freePart p s).Ok qq := by
  unfold freePart
  repeat' (first
      | with_reducible assumption | with_reducible intro _ | with_reducible apply each_sound
      | with_reducible apply setClst_sound | with_reducible apply setF_sound | with_reducible apply setN_sound
      | with_reducible apply dropKeys_sound | with_reducible apply setPartState_sound | with_reducible apply modPart_sound
      | dsimp only)

theorem finishDestroy_sound (p : Nat) {s : State} (h : s.Ok qq) : (finishDestroy p s).Ok qq := by
  unfold finishDestroy
  repeat' (first
      | with_reducible assumption | with_reducible intro _ | with_reducible apply windowsOff_sound
      | with_reducible apply each_sound | with_reducible apply ringsOff_sound | with_reducible apply forgetLoad_sound
      | with_reducible apply forgetShare_sound | with_reducible apply zeroClusters_sound
      | with_reducible apply emptyWptr_sound | with_reducible apply unbindAll_sound | with_reducible apply scrubLater_sound
      | with_reducible apply abortGroups_sound | with_reducible apply clearSfu_sound | with_reducible apply setR_sound
      | with_reducible apply freePart_sound | with_reducible apply releaseCh_sound | with_reducible apply comp_sound
      | with_reducible apply sound_ite | dsimp only)

theorem startDestroy_sound (p : Nat) (cause : Nat) {s : State} (h : s.Ok qq) : (startDestroy p cause s).Ok qq := by
  unfold startDestroy
  repeat' (first
      | with_reducible assumption | with_reducible intro _ | with_reducible apply each_sound
      | with_reducible apply modRing_sound | with_reducible apply setPartState_sound | with_reducible apply noticeDown_sound
      | with_reducible apply dropCtx_sound | with_reducible apply sound_ite | split | with_reducible apply sound_mk'
      | with_reducible apply @sound_mem qq | with_reducible apply @sound_regs qq | with_reducible apply @sound_phase qq
      | with_reducible apply sound_pending)

theorem finishPartReset_sound (p : Nat) {s : State} (h : s.Ok qq) : (finishPartReset p s).Ok qq := by
  unfold finishPartReset
  repeat' (first
      | with_reducible assumption | with_reducible intro _ | with_reducible apply abortGroups_sound
      | with_reducible apply each_sound | with_reducible apply ringsOff_sound | with_reducible apply newMek_sound
      | with_reducible apply zeroClusters_sound | with_reducible apply clearSfu_sound | with_reducible apply resetLedger_sound
      | with_reducible apply dropKeys_sound | with_reducible apply emptyWptr_sound | with_reducible apply unbindAll_sound
      | with_reducible apply setF_sound | with_reducible apply setR_sound | with_reducible apply setPartState_sound
      | with_reducible apply modPart_sound | with_reducible apply noticeUp_sound | with_reducible apply startDestroy_sound
      | with_reducible apply sound_ite | split | with_reducible apply sound_mk' | with_reducible apply @sound_mem qq
      | with_reducible apply @sound_regs qq | with_reducible apply @sound_phase qq | with_reducible apply sound_pending
      | dsimp only)

end Sys2Proof.Machine
end

