-- ==== Sys2Proof/Laws/SoundService.lean ====
section
/-! SUPPORT. The operations of Machine/Service.lean keep a sound state sound. -/

namespace Sys2Proof.Machine

variable {qq : List Instr}

theorem accrueUnit_sound (ns : Nat) (c : Nat) (d : Nat × Nat × Nat × Nat) {s : State} (h : s.Ok qq) : (accrueUnit ns c d s).Ok qq := by
  unfold accrueUnit
  repeat' (first
      | with_reducible assumption | with_reducible intro _ | with_reducible apply sound_ite | split
      | with_reducible apply sound_mk' | with_reducible apply @sound_mem qq | with_reducible apply @sound_regs qq
      | with_reducible apply @sound_phase qq | with_reducible apply sound_pending | dsimp only)

theorem accrue_sound (ns : Nat) {s : State} (h : s.Ok qq) : (accrue ns s).Ok qq := by
  unfold accrue
  repeat' (first
      | with_reducible assumption | with_reducible intro _ | with_reducible apply each_sound
      | with_reducible apply accrueUnit_sound | with_reducible apply sound_ite | split)

end Sys2Proof.Machine
end

