-- ==== Sys2Proof/Laws/SoundWatch.lean ====
section
/-! SUPPORT. The operations of Machine/Watch.lean keep a sound state sound. -/

namespace Sys2Proof.Machine

variable {qq : List Instr}

theorem tickWatch_sound{s : State} (h : s.Ok qq) : (tickWatch s).Ok qq := by
  unfold tickWatch
  repeat' (first
      | with_reducible assumption | with_reducible intro _ | with_reducible apply bumpFree_sound
      | with_reducible apply sound_ite | split | with_reducible apply sound_mk' | with_reducible apply @sound_mem qq
      | with_reducible apply @sound_regs qq | with_reducible apply @sound_phase qq | with_reducible apply sound_pending
      | dsimp only)

theorem wdgSilent_sound (k : Nat) (g : Nat) {s : State} (h : s.Ok qq) : (wdgSilent k g s).Ok qq := by
  unfold wdgSilent
  repeat' (first
      | with_reducible assumption | with_reducible intro _ | with_reducible apply sound_ite | split
      | with_reducible apply sound_mk' | with_reducible apply @sound_mem qq | with_reducible apply @sound_regs qq
      | with_reducible apply @sound_phase qq | with_reducible apply sound_pending)

theorem beQuiet_sound (k : Nat) {s : State} (h : s.Ok qq) : (beQuiet k s).Ok qq := by
  unfold beQuiet
  repeat' (first
      | with_reducible assumption | with_reducible intro _ | with_reducible apply sound_ite | split
      | with_reducible apply sound_mk' | with_reducible apply @sound_mem qq | with_reducible apply @sound_regs qq
      | with_reducible apply @sound_phase qq | with_reducible apply sound_pending)

end Sys2Proof.Machine
end

