-- ==== Sys2Proof/Laws/SoundMailbox.lean ====
section
/-! SUPPORT. The operations of Machine/Mailbox.lean keep a sound state sound. -/

namespace Sys2Proof.Machine

variable {qq : List Instr}

theorem mbReply_sound (fn : Nat) (code : Nat) (status : Nat) (reply : List Byte) {s : State} (h : s.Ok qq) : (mbReply fn code status reply s).Ok qq := by
  unfold mbReply
  repeat' (first
      | with_reducible assumption | with_reducible intro _ | with_reducible apply setN_sound
      | with_reducible apply vec0_sound | with_reducible apply sound_ite | split | with_reducible apply sound_mk'
      | with_reducible apply @sound_mem qq | with_reducible apply @sound_regs qq | with_reducible apply @sound_phase qq
      | with_reducible apply sound_pending)

theorem mbGo_sound (fn : Nat) (code : Nat) (len : Nat) {s : State} (h : s.Ok qq) : (mbGo fn code len s).Ok qq := by
  unfold mbGo
  repeat' (first
      | with_reducible assumption | with_reducible intro _ | with_reducible apply setF_sound
      | with_reducible apply setN_sound)

theorem accErr_sound (fn : Nat) {s : State} (h : s.Ok qq) : (accErr fn s).Ok qq := by
  unfold accErr
  repeat' (first
      | with_reducible assumption | with_reducible intro _ | with_reducible apply inc32_sound)

theorem mbPend_sound (fn : Nat) (code : Nat) {s : State} (h : s.Ok qq) : (mbPend fn code s).Ok qq := by
  unfold mbPend
  repeat' (first
      | with_reducible assumption | with_reducible intro _ | with_reducible apply sound_ite | split
      | with_reducible apply sound_mk' | with_reducible apply @sound_mem qq | with_reducible apply @sound_regs qq
      | with_reducible apply @sound_phase qq | with_reducible apply sound_pending)

theorem takeRequest_sound (fn : Nat) (code : Nat) (body : List Byte) (f : State → State) (hf : ∀ t, t.Ok qq → (f t).Ok qq) {s : State} (h : s.Ok qq) : (takeRequest fn code body f s).Ok qq := by
  unfold takeRequest
  repeat' (first
      | with_reducible assumption | with_reducible intro _ | with_reducible apply hf | with_reducible apply mbGo_sound
      | with_reducible apply accErr_sound | with_reducible apply mbPend_sound | with_reducible apply sound_ite)

theorem request_sound (fn : Nat) (code : Nat) (body : List Byte) (f : State → State × Nat × List Byte) (hf : ∀ t, t.Ok qq → (f t).1.Ok qq) {s : State} (h : s.Ok qq) : (request fn code body f s).Ok qq := by
  unfold request
  repeat' (first
      | with_reducible assumption | with_reducible intro _ | with_reducible apply hf
      | refine fst_sound (by with_reducible assumption) ?_ | with_reducible apply mbReply_sound
      | with_reducible apply takeRequest_sound)

theorem mbReset_sound (fn : Nat) {s : State} (h : s.Ok qq) : (mbReset fn s).Ok qq := by
  unfold mbReset
  repeat' (first
      | with_reducible assumption | with_reducible intro _ | with_reducible apply rstRs_sound
      | with_reducible apply sound_ite | split | with_reducible apply sound_mk' | with_reducible apply @sound_mem qq
      | with_reducible apply @sound_regs qq | with_reducible apply @sound_phase qq | with_reducible apply sound_pending)

end Sys2Proof.Machine
end

