-- ==== Sys2Proof/Laws/SoundPower.lean ====
section
/-! SUPPORT. The operations of Machine/Power.lean keep a sound state sound. -/

namespace Sys2Proof.Machine

variable {qq : List Instr}

theorem modPwr_sound (f : Power → Power) {s : State} (h : s.Ok qq) : (modPwr f s).Ok qq := by
  unfold modPwr
  repeat' (first
      | with_reducible assumption | with_reducible intro _ | with_reducible apply sound_ite | split
      | with_reducible apply sound_mk' | with_reducible apply @sound_mem qq | with_reducible apply @sound_regs qq
      | with_reducible apply @sound_phase qq | with_reducible apply sound_pending)

theorem modSec_sound (f : Sec → Sec) {s : State} (h : s.Ok qq) : (modSec f s).Ok qq := by
  unfold modSec
  repeat' (first
      | with_reducible assumption | with_reducible intro _ | with_reducible apply sound_ite | split
      | with_reducible apply sound_mk' | with_reducible apply @sound_mem qq | with_reducible apply @sound_regs qq
      | with_reducible apply @sound_phase qq | with_reducible apply sound_pending)

theorem setSvc_sound (v : Nat) {s : State} (h : s.Ok qq) : (setSvc v s).Ok qq := by
  unfold setSvc
  repeat' (first
      | with_reducible assumption | with_reducible intro _ | with_reducible apply setF_sound)

theorem setCause_sound (v : Nat) {s : State} (h : s.Ok qq) : (setCause v s).Ok qq := by
  unfold setCause
  repeat' (first
      | with_reducible assumption | with_reducible intro _ | with_reducible apply setF_sound)

theorem pwrEvt_sound (b : Nat) {s : State} (h : s.Ok qq) : (pwrEvt b s).Ok qq := by
  unfold pwrEvt
  repeat' (first
      | with_reducible assumption | with_reducible intro _ | with_reducible apply orR_sound)

theorem keepRegs_sound (p : Nat → Bool) {s : State} (h : s.Ok qq) : (keepRegs p s).Ok qq := by
  unfold keepRegs
  repeat' (first
      | with_reducible assumption | with_reducible intro _ | with_reducible apply sound_ite | split
      | with_reducible apply sound_mk' | with_reducible apply @sound_mem qq | with_reducible apply @sound_regs qq
      | with_reducible apply @sound_phase qq | with_reducible apply sound_pending | with_reducible apply tabWf_filter)

theorem vinLost_sound{s : State} (h : s.Ok qq) : (vinLost s).Ok qq := by
  unfold vinLost
  repeat' (first
      | with_reducible assumption | with_reducible intro _ | with_reducible apply keepRegs_sound
      | with_reducible apply setN_sound | with_reducible apply set64_sound | with_reducible apply sound_ite | split
      | with_reducible apply sound_mk' | with_reducible apply @sound_mem qq | with_reducible apply @sound_regs qq
      | with_reducible apply @sound_phase qq | with_reducible apply sound_pending | with_reducible apply tabWf_filter
      | with_reducible apply tabWf_tabClear | with_reducible apply tabWf_tabPut | exact (rfl : tabWf memIsDef [] = true)
      | dsimp only)

theorem emergency_sound (cause : Nat) {s : State} (h : s.Ok qq) : (emergency cause s).Ok qq := by
  unfold emergency
  repeat' (first
      | with_reducible assumption | with_reducible intro _ | with_reducible apply modPwr_sound
      | with_reducible apply setSvc_sound | with_reducible apply setCause_sound | with_reducible apply pwrEvt_sound
      | with_reducible apply vinLost_sound | with_reducible apply sound_ite)

theorem tryBringUp_sound  {s : State} (h : s.Ok qq) : (tryBringUp s).Ok qq := by
  unfold tryBringUp
  repeat' (first
      | with_reducible assumption | with_reducible intro _ | with_reducible apply modPwr_sound
      | with_reducible apply setSvc_sound | with_reducible apply sound_ite)

theorem doVauxUp_sound (straps : Nat) {s : State} (h : s.Ok qq) : (doVauxUp straps s).Ok qq := by
  unfold doVauxUp
  repeat' (first
      | with_reducible assumption | with_reducible intro _ | with_reducible apply setF_sound
      | with_reducible apply setN_sound | with_reducible apply each_sound | with_reducible apply bumpFree_sound
      | with_reducible apply modPwr_sound | with_reducible apply sound_ite | split | with_reducible apply sound_mk'
      | with_reducible apply @sound_mem qq | with_reducible apply @sound_regs qq | with_reducible apply @sound_phase qq
      | with_reducible apply sound_pending | with_reducible apply tabWf_filter | with_reducible apply tabWf_tabClear
      | with_reducible apply tabWf_tabPut | exact (by decide : (0 : Nat) < 12))

theorem runImage_sound (b : Bool) {s : State} (h : s.Ok qq) : (runImage b s).Ok qq := by
  unfold runImage
  repeat' (first
      | with_reducible assumption | with_reducible intro _ | with_reducible apply setF_sound
      | with_reducible apply modSec_sound)

theorem enterRecovery_sound (code : Nat) {s : State} (h : s.Ok qq) : (enterRecovery code s).Ok qq := by
  unfold enterRecovery
  repeat' (first
      | with_reducible assumption | with_reducible intro _ | with_reducible apply setF_sound
      | with_reducible apply modSec_sound | with_reducible apply setSvc_sound | with_reducible apply sound_ite)

theorem replyC7_sound  {s : State} (h : s.Ok qq) : (replyC7 s).Ok qq := by
  unfold replyC7
  repeat' (first
      | with_reducible assumption | with_reducible intro _ | with_reducible apply each_sound
      | with_reducible apply mbReply_sound | with_reducible apply modSec_sound | with_reducible apply sound_ite | split
      | with_reducible apply sound_mk' | with_reducible apply @sound_mem qq | with_reducible apply @sound_regs qq
      | with_reducible apply @sound_phase qq | with_reducible apply sound_pending)

theorem doBoot_sound {s : State} (h : s.Ok qq) : (doBoot s).Ok qq := by
  unfold doBoot
  repeat' (first
      | with_reducible assumption | with_reducible intro _ | with_reducible apply runImage_sound
      | with_reducible apply enterRecovery_sound | with_reducible apply bumpFree_sound | with_reducible apply tryBringUp_sound | with_reducible apply replyC7_sound
      | with_reducible apply sound_ite | split | dsimp only)

theorem doVauxLost_sound {s : State} (h0 : s.Ok qq) : (doVauxLost s).Ok qq := by
  refine sound_mk' rfl ?_ (by decide) (sound_pending h0)
  have : peakW s = 2900 ∨ peakW s = 3050 ∨ peakW s = 3250 ∨ peakW s = 3500 := by
    unfold peakW; split <;> simp
  rcases this with h | h | h | h <;> rw [h] <;> decide

theorem doModEnRise_sound  {s : State} (h : s.Ok qq) : (doModEnRise s).Ok qq := by
  unfold doModEnRise
  repeat' (first
      | with_reducible assumption | with_reducible intro _ | with_reducible apply modPwr_sound
      | with_reducible apply tryBringUp_sound)

theorem doVinEnters_sound  {s : State} (h : s.Ok qq) : (doVinEnters s).Ok qq := by
  unfold doVinEnters
  repeat' (first
      | with_reducible assumption | with_reducible intro _ | with_reducible apply modPwr_sound
      | with_reducible apply tryBringUp_sound | with_reducible apply sound_ite)

theorem doRailGood_sound  {s : State} (h : s.Ok qq) : (doRailGood s).Ok qq := by
  unfold doRailGood
  repeat' (first
      | with_reducible assumption | with_reducible intro _ | with_reducible apply each_sound
      | with_reducible apply setClst_sound | with_reducible apply modPwr_sound | with_reducible apply sound_ite)

theorem doRailTimeout_sound  {s : State} (h : s.Ok qq) : (doRailTimeout s).Ok qq := by
  unfold doRailTimeout
  repeat' (first
      | with_reducible assumption | with_reducible intro _ | with_reducible apply modPwr_sound
      | with_reducible apply setSvc_sound | with_reducible apply setCause_sound | with_reducible apply vinLost_sound
      | with_reducible apply sound_ite)

theorem allDown_sound (cause : Nat) {s : State} (h : s.Ok qq) : (allDown cause s).Ok qq := by
  unfold allDown
  repeat' (first
      | with_reducible assumption | with_reducible intro _ | with_reducible apply each_sound
      | with_reducible apply noticeDown_sound)

theorem doModEnFall_sound  {s : State} (h : s.Ok qq) : (doModEnFall s).Ok qq := by
  unfold doModEnFall
  repeat' (first
      | with_reducible assumption | with_reducible intro _ | with_reducible apply modPwr_sound
      | with_reducible apply setSvc_sound | with_reducible apply setCause_sound | with_reducible apply vinLost_sound
      | with_reducible apply allDown_sound | with_reducible apply sound_ite)

theorem doTempCritical_sound (n : Nat) {s : State} (h : s.Ok qq) : (doTempCritical n s).Ok qq := by
  unfold doTempCritical
  repeat' (first
      | with_reducible assumption | with_reducible intro _ | with_reducible apply emergency_sound
      | with_reducible apply sound_ite)

theorem setRatio_sound (v : Nat) {s : State} (h : s.Ok qq) : (setRatio v s).Ok qq := by
  unfold setRatio
  repeat' (first
      | with_reducible assumption | with_reducible intro _ | with_reducible apply setF_sound
      | with_reducible apply each_sound | with_reducible apply vec0_sound | with_reducible apply modPwr_sound
      | with_reducible apply pwrEvt_sound | with_reducible apply sound_ite)

theorem doFastSource_sound (src : FastSrc) {s : State} (h : s.Ok qq) : (doFastSource src s).Ok qq := by
  unfold doFastSource
  repeat' (first
      | with_reducible assumption | with_reducible intro _ | with_reducible apply orR_sound
      | with_reducible apply setRatio_sound)

theorem doPcapSample_sound (vin : Nat) (iin : Nat) (pin : Nat) {s : State} (h : s.Ok qq) : (doPcapSample vin iin pin s).Ok qq := by
  unfold doPcapSample
  repeat' (first
      | with_reducible assumption | with_reducible intro _ | with_reducible apply setN_sound | with_reducible apply orR_sound
      | with_reducible apply andnR_sound | with_reducible apply modPwr_sound | with_reducible apply sound_ite)

theorem doRatioStep_sound  {s : State} (h : s.Ok qq) : (doRatioStep s).Ok qq := by
  unfold doRatioStep
  repeat' (first
      | with_reducible assumption | with_reducible intro _ | with_reducible apply setRatio_sound
      | with_reducible apply sound_ite)

theorem doFloorTimeout_sound  {s : State} (h : s.Ok qq) : (doFloorTimeout s).Ok qq := by
  unfold doFloorTimeout
  repeat' (first
      | with_reducible assumption | with_reducible intro _ | with_reducible apply emergency_sound
      | with_reducible apply sound_ite)

theorem doSensorUpdate_sound (ts : List (BitVec 16)) {s : State} (h : s.Ok qq) : (doSensorUpdate ts s).Ok qq := by
  unfold doSensorUpdate
  repeat' (first
      | with_reducible assumption | with_reducible intro _ | with_reducible apply setR_sound | with_reducible apply orR_sound
      | with_reducible apply andnR_sound | with_reducible apply each_sound | with_reducible apply sound_ite)

theorem doPerst_sound{s : State} (h : s.Ok qq) : (doPerst s).Ok qq := by
  unfold doPerst
  repeat' (first
      | with_reducible assumption | with_reducible intro _ | with_reducible apply allDown_sound
      | with_reducible apply each_sound | with_reducible apply finishDestroy_sound | with_reducible apply setPartState_sound
      | with_reducible apply keepRegs_sound | with_reducible apply modPwr_sound | with_reducible apply sound_ite | split
      | with_reducible apply sound_mk' | with_reducible apply @sound_mem qq | with_reducible apply @sound_regs qq
      | with_reducible apply @sound_phase qq | with_reducible apply sound_pending | dsimp only)

theorem doPfReady_sound {s : State} (h : s.Ok qq) : (doPfReady s).Ok qq := by
  unfold doPfReady
  split
  · exact bumpFree_sound (modPwr_sound _ h)
  · exact modPwr_sound _ h

theorem doDripTest_sound (ok : Bool) {s : State} (h : s.Ok qq) : (doDripTest ok s).Ok qq := by
  unfold doDripTest
  repeat' (first
      | with_reducible assumption | with_reducible intro _ | with_reducible apply each_sound
      | with_reducible apply setClst_sound | with_reducible apply modPwr_sound | with_reducible apply setSvc_sound
      | with_reducible apply setCause_sound | with_reducible apply pwrEvt_sound | with_reducible apply sound_ite)

theorem doFullTest_sound (cl : Bool) (hbm : Bool) {s : State} (h : s.Ok qq) : (doFullTest cl hbm s).Ok qq := by
  unfold doFullTest
  repeat' (first
      | with_reducible assumption | with_reducible intro _ | with_reducible apply setF_sound
      | with_reducible apply modPwr_sound | with_reducible apply setSvc_sound | with_reducible apply setCause_sound
      | with_reducible apply pwrEvt_sound | with_reducible apply sound_ite | split | with_reducible apply sound_mk'
      | with_reducible apply @sound_mem qq | with_reducible apply @sound_regs qq | with_reducible apply @sound_phase qq
      | with_reducible apply sound_pending | dsimp only)

theorem doFill_sound (g : Nat) {s : State} (h : s.Ok qq) : (doFill g s).Ok qq := by
  unfold doFill
  repeat' (first
      | with_reducible assumption | with_reducible intro _ | with_reducible apply setF_sound
      | with_reducible apply modPwr_sound | with_reducible apply sound_ite | split | with_reducible apply sound_mk'
      | with_reducible apply @sound_mem qq | with_reducible apply @sound_regs qq | with_reducible apply @sound_phase qq
      | with_reducible apply sound_pending | dsimp only)

theorem doGate_sound (c : Nat) {s : State} (h : s.Ok qq) : (doGate c s).Ok qq := by
  unfold doGate
  repeat' (first
      | with_reducible assumption | with_reducible intro _ | with_reducible apply setClst_sound
      | with_reducible apply sound_ite)

theorem doOff_sound (c : Nat) {s : State} (h : s.Ok qq) : (doOff c s).Ok qq := by
  unfold doOff
  repeat' (first
      | with_reducible assumption | with_reducible intro _ | with_reducible apply setClst_sound
      | with_reducible apply sound_ite)

theorem doWake_sound (c : Nat) {s : State} (h : s.Ok qq) : (doWake c s).Ok qq := by
  unfold doWake
  repeat' (first
      | with_reducible assumption | with_reducible intro _ | with_reducible apply modPwr_sound
      | with_reducible apply sound_ite)

theorem wakeAll_sound (cls : List Nat) {s : State} (h : s.Ok qq) : (wakeAll cls s).Ok qq := by
  unfold wakeAll
  repeat' (first
      | with_reducible assumption | with_reducible intro _ | with_reducible apply each_sound
      | with_reducible apply doWake_sound)

theorem doWakeDone_sound (c : Nat) {s : State} (h : s.Ok qq) : (doWakeDone c s).Ok qq := by
  unfold doWakeDone
  repeat' (first
      | with_reducible assumption | with_reducible intro _ | with_reducible apply setClst_sound
      | with_reducible apply zeroClusters_sound | with_reducible apply modPwr_sound | with_reducible apply sound_ite)

theorem hbmTick_sound (ns : Nat) {s : State} (h : s.Ok qq) : (hbmTick ns s).Ok qq := by
  unfold hbmTick
  repeat' (first
      | with_reducible assumption | with_reducible intro _ | with_reducible apply each_sound
      | with_reducible apply inc64_sound | with_reducible apply sound_ite | split | with_reducible apply sound_mk'
      | with_reducible apply @sound_mem qq | with_reducible apply @sound_regs qq | with_reducible apply @sound_phase qq
      | with_reducible apply sound_pending | dsimp only)

theorem doTick_sound {s : State} (h : s.Ok qq) : (doTick s).Ok qq := by
  have hp := sound_phase h
  unfold doTick
  repeat' (first
      | with_reducible assumption | with_reducible intro _ | with_reducible apply inc64_sound | with_reducible apply tickWatch_sound
      | with_reducible apply accrue_sound | with_reducible apply hbmTick_sound
      | with_reducible apply each_sound | with_reducible apply sound_ite | split | with_reducible apply sound_mk'
      | with_reducible apply sound_mem | with_reducible apply sound_regs | with_reducible apply sound_pending
      | (dsimp only; omega))

theorem doRtpRestart_sound  {s : State} (h : s.Ok qq) : (doRtpRestart s).Ok qq := by
  unfold doRtpRestart
  repeat' (first
      | with_reducible assumption | with_reducible intro _ | with_reducible apply inc32_sound
      | with_reducible apply endFmSess_sound | with_reducible apply modSec_sound | with_reducible apply spdm_sound
      | with_reducible apply sound_ite | split | with_reducible apply sound_mk' | with_reducible apply @sound_mem qq
      | with_reducible apply @sound_regs qq | with_reducible apply @sound_phase qq | with_reducible apply sound_pending)

theorem smbGive_sound (v : Nat) {s : State} (h : s.Ok qq) : (smbGive v s).Ok qq := by
  unfold smbGive
  repeat' (first
      | with_reducible assumption | with_reducible intro _ | with_reducible apply sound_ite | split
      | with_reducible apply sound_mk' | with_reducible apply @sound_mem qq | with_reducible apply @sound_regs qq
      | with_reducible apply @sound_phase qq | with_reducible apply sound_pending)

theorem tapGive_sound (v : Word) {s : State} (h : s.Ok qq) : (tapGive v s).Ok qq := by
  unfold tapGive
  repeat' (first
      | with_reducible assumption | with_reducible intro _ | with_reducible apply sound_ite | split
      | with_reducible apply sound_mk' | with_reducible apply @sound_mem qq | with_reducible apply @sound_regs qq
      | with_reducible apply @sound_phase qq | with_reducible apply sound_pending)

end Sys2Proof.Machine
end

