-- ==== Sys2Proof/Laws/SoundSubmit.lean ====
section
/-! SUPPORT. The operations of Machine/Submit.lean keep a sound state sound. -/

namespace Sys2Proof.Machine

variable {qq : List Instr}

theorem writeSqCfg_sound (fn : Nat) (c : Nat) (v : Word) {s : State} (h : s.Ok qq) : (writeSqCfg fn c v s).Ok qq := by
  unfold writeSqCfg
  repeat' (first
      | with_reducible assumption | with_reducible intro _ | with_reducible apply setR_sound
      | with_reducible apply setF_sound | with_reducible apply modRing_sound | with_reducible apply accErr_sound
      | with_reducible apply sound_ite)

theorem writeCqCfg_sound (fn : Nat) (c : Nat) (v : Word) {s : State} (h : s.Ok qq) : (writeCqCfg fn c v s).Ok qq := by
  unfold writeCqCfg
  repeat' (first
      | with_reducible assumption | with_reducible intro _ | with_reducible apply accErr_sound
      | with_reducible apply setR_sound | with_reducible apply modRing_sound | with_reducible apply sound_ite | split
      | with_reducible apply sound_mk' | with_reducible apply @sound_mem qq | with_reducible apply @sound_regs qq
      | with_reducible apply @sound_phase qq | with_reducible apply sound_pending | dsimp only)

theorem writeCrec_sound (fn : Nat) (c : Nat) (v : Word) {s : State} (h : s.Ok qq) : (writeCrec fn c v s).Ok qq := by
  unfold writeCrec
  repeat' (first
      | with_reducible assumption | with_reducible intro _ | with_reducible apply setR_sound
      | with_reducible apply accErr_sound | with_reducible apply sound_ite)

theorem doCrecWrite_sound (fn : Nat) (c : Nat) (v : Word) {s : State} (h : s.Ok qq) : (doCrecWrite fn c v s).Ok qq := by
  unfold doCrecWrite
  repeat' (first
      | with_reducible assumption | with_reducible intro _ | with_reducible apply writeCrec_sound
      | with_reducible apply sound_ite)

theorem doSqTail_sound (fn : Nat) (c : Nat) (v : Nat) {s : State} (h : s.Ok qq) : (doSqTail fn c v s).Ok qq := by
  unfold doSqTail
  repeat' (first
      | with_reducible assumption | with_reducible intro _ | with_reducible apply inc32_sound
      | with_reducible apply modRing_sound | with_reducible apply stopRing_sound | with_reducible apply sound_ite)

theorem doCqHead_sound (fn : Nat) (c : Nat) (v : Nat) {s : State} (h : s.Ok qq) : (doCqHead fn c v s).Ok qq := by
  unfold doCqHead
  repeat' (first
      | with_reducible assumption | with_reducible intro _ | with_reducible apply inc32_sound
      | with_reducible apply modRing_sound | with_reducible apply stopRing_sound | with_reducible apply sound_ite)

theorem authFail_sound (p : Nat) {s : State} (h : s.Ok qq) : (authFail p s).Ok qq := by
  unfold authFail
  repeat' (first
      | with_reducible assumption | with_reducible intro _ | with_reducible apply inc32_sound)

theorem holdRun_sound (x : Sub) {s : State} (h : s.Ok qq) : (holdRun x s).Ok qq := by
  unfold holdRun
  repeat' (first
      | with_reducible assumption | with_reducible intro _ | with_reducible apply inc32_sound
      | with_reducible apply modSub_sound)

theorem addSub_sound (c : Nat) (v1 : Bool) (ent : List Byte) {s : State} (h : s.Ok qq) : (addSub c v1 ent s).Ok qq := by
  unfold addSub
  repeat' (first
      | with_reducible assumption | with_reducible intro _ | with_reducible apply setF_sound
      | with_reducible apply setN_sound | with_reducible apply modRing_sound | with_reducible apply showInflight_sound
      | with_reducible apply finishSub_sound | with_reducible apply holdRun_sound | with_reducible apply sound_ite | split
      | with_reducible apply sound_mk' | with_reducible apply @sound_mem qq | with_reducible apply @sound_regs qq
      | with_reducible apply @sound_phase qq | with_reducible apply sound_pending)

theorem doSqFetch_sound (c : Nat) (e : List Byte) {s : State} (h : s.Ok qq) : (doSqFetch c e s).Ok qq := by
  unfold doSqFetch
  repeat' (first
      | with_reducible assumption | with_reducible intro _ | with_reducible apply hostRead_sound
      | with_reducible apply addSub_sound | with_reducible apply setCnt_sound | with_reducible apply authFail_sound
      | with_reducible apply stopRing_sound | with_reducible apply sound_ite | split | dsimp only)

theorem openRecs_sound (p k n : Nat) (d : List Byte) {s : State} (h : s.Ok qq) : (openRecs p k n d s).2.2.Ok qq := by
  induction k generalizing n d s with
  | zero => exact h
  | succ k ih =>
    unfold openRecs
    dsimp only
    split
    · exact authFail_sound _ h
    · exact ih _ _ (setCnt_sound _ _ _ h)

theorem takeInput_some {c addr n : Nat} {d a : List Byte} {b : Bool} {s t : State} (h : s.Ok qq)
    (e : takeInput c addr n d s = some (a, b, t)) : t.Ok qq := by
  have h1 : (if d.isEmpty then s else hostRead c addr d.length s).Ok qq := sound_ite h (hostRead_sound _ _ _ h)
  unfold takeInput at e
  dsimp only at e
  generalize (if d.isEmpty then s else hostRead c addr d.length s) = u at e h1
  split at e
  · split at e
    · rw [Option.some.injEq] at e
      have := openRecs_sound (ctxPid s c) (ceilDiv n 4096) n d h1
      rw [e] at this
      exact this
    · exact absurd e (by simp)
  · split at e
    · simp only [Option.some.injEq, Prod.mk.injEq] at e
      rw [← e.2.2]; exact h1
    · exact absurd e (by simp)

theorem lateInput_sound (c : Nat) (seq : Nat) (opc : Nat) (d : List Byte) {s : State} (h : s.Ok qq) : (lateInput c seq opc d s).Ok qq := by
  unfold lateInput
  repeat' (first
      | with_reducible assumption | with_reducible intro _ | refine takeInput_some ?_ (by with_reducible assumption)
      | with_reducible apply sound_ite | split)

theorem subFault_sound (x : Sub) (f : Flt) {s : State} (h : s.Ok qq) : (subFault x f s).Ok qq := by
  unfold subFault
  repeat' (first
      | with_reducible assumption | with_reducible intro _ | with_reducible apply finishSub_sound
      | with_reducible apply faultCtx_sound)

theorem doReadFail_sound (c : Nat) (use : HostReadUse) (err : HostReadErr) {s : State} (h : s.Ok qq) : (doReadFail c use err s).Ok qq := by
  unfold doReadFail
  repeat' (first
      | with_reducible assumption | with_reducible intro _ | with_reducible apply stopRing_sound
      | with_reducible apply finishSub_sound | with_reducible apply authFail_sound | with_reducible apply sound_ite | split)

theorem doComplete_sound (c : Nat) (seq : Nat) {s : State} (h : s.Ok qq) : (doComplete c seq s).Ok qq := by
  unfold doComplete
  repeat' (first
      | with_reducible assumption | with_reducible intro _ | with_reducible apply completeSub_sound
      | with_reducible apply sound_ite | split)

theorem doModTimer_sound (c : Nat) {s : State} (h : s.Ok qq) : (doModTimer c s).Ok qq := by
  unfold doModTimer
  repeat' (first
      | with_reducible assumption | with_reducible intro _ | with_reducible apply modRing_sound
      | with_reducible apply msi_sound | with_reducible apply sound_ite)

theorem doNop_sound (c : Nat) (seq : Nat) {s : State} (h : s.Ok qq) : (doNop c seq s).Ok qq := by
  unfold doNop
  repeat' (first
      | with_reducible assumption | with_reducible intro _ | with_reducible apply finishSub_sound
      | with_reducible apply sound_ite | split)

theorem doCopyin_sound (c : Nat) (seq : Nat) (d : List Byte) {s : State} (h : s.Ok qq) : (doCopyin c seq d s).Ok qq := by
  unfold doCopyin
  repeat' (first
      | with_reducible assumption | with_reducible intro _ | with_reducible apply lateInput_sound
      | refine takeInput_some ?_ (by with_reducible assumption) | with_reducible apply writeE_keeps
      | with_reducible apply subFault_sound | with_reducible apply finishSub_sound
      | refine Keeps.ok ?_ ?_ (by with_reducible assumption) | refine Keeps.error ?_ ?_ (by with_reducible assumption)
      | with_reducible exact keeps_pure _ | with_reducible apply keeps_bind | with_reducible apply keeps_ite
      | with_reducible apply keeps_map | with_reducible apply sound_ite | split)

theorem finishOut_sound (c : Nat) (seq : Nat) (addr : Nat) (bs : List Byte) {s : State} (h : s.Ok qq) : (finishOut c seq addr bs s).Ok qq := by
  unfold finishOut
  repeat' (first
      | with_reducible assumption | with_reducible intro _ | with_reducible apply modSub_sound
      | with_reducible apply finishSub_sound)

theorem doCopyout_sound (c : Nat) (seq : Nat) {s : State} (h : s.Ok qq) : (doCopyout c seq s).Ok qq := by
  unfold doCopyout
  repeat' (first
      | with_reducible assumption | with_reducible intro _ | with_reducible apply readE_keeps
      | with_reducible apply subFault_sound | with_reducible apply finishOut_sound
      | refine Keeps.ok ?_ ?_ (by with_reducible assumption) | refine Keeps.error ?_ ?_ (by with_reducible assumption)
      | with_reducible exact keeps_pure _ | with_reducible apply keeps_bind | with_reducible apply keeps_ite
      | with_reducible apply keeps_map | with_reducible apply sound_ite | split)

theorem areaE_keeps (c off : Nat) (wr : Bool) : Keeps (areaE c off wr) := by
  intro qq s h
  unfold areaE
  split
  · rename_i e
    exact (cmShare_keeps _ _ _).ok h e
  · rename_i e
    exact (cmShare_keeps _ _ _).error h e

theorem doRun_sound (c : Nat) (seq : Nat) (d : List Byte) {s : State} (h : s.Ok qq) : (doRun c seq d s).Ok qq := by
  unfold doRun
  repeat' (first
      | with_reducible assumption | with_reducible intro _ | with_reducible apply lateInput_sound
      | with_reducible apply holdRun_sound | with_reducible apply finishSub_sound
      | refine takeInput_some ?_ (by with_reducible assumption) | with_reducible apply areaE_keeps
      | with_reducible apply writeE_keeps | with_reducible apply subFault_sound | with_reducible apply modSub_sound
      | refine Keeps.ok ?_ ?_ (by with_reducible assumption) | refine Keeps.error ?_ ?_ (by with_reducible assumption)
      | with_reducible exact keeps_pure _ | with_reducible apply keeps_bind | with_reducible apply keeps_ite
      | with_reducible apply keeps_map | with_reducible apply sound_ite | split | with_reducible apply sound_mk'
      | with_reducible apply @sound_mem qq | with_reducible apply @sound_regs qq | with_reducible apply @sound_phase qq
      | with_reducible apply sound_pending | dsimp only)

theorem joinPeriod_sound (x : Sub) (i : Image) (dl : Nat) {s : State} (h : s.Ok qq) : (joinPeriod x i dl s).2.Ok qq := by
  unfold joinPeriod
  split
  · exact sound_mk' (sound_mem h) (sound_regs h) (sound_phase h) (sound_pending h)
  · exact sound_mk' (sound_mem h) (sound_regs h) (sound_phase h) (sound_pending h)

theorem rearmDumps_sound (c : Nat) {s : State} (h : s.Ok qq) : (rearmDumps c s).Ok qq := by
  unfold rearmDumps
  repeat' (first
      | with_reducible assumption | with_reducible intro _ | with_reducible apply sound_ite | split
      | with_reducible apply sound_mk' | with_reducible apply @sound_mem qq | with_reducible apply @sound_regs qq
      | with_reducible apply @sound_phase qq | with_reducible apply sound_pending)

theorem startCores_sound (x : Sub) (i : Image) (e : EntryRec) {s : State} (h : s.Ok qq) : (startCores x i e s).Ok qq := by
  unfold startCores
  repeat' (first
      | with_reducible assumption | with_reducible intro _ | with_reducible apply each_sound | with_reducible apply sound_ite
      | split | with_reducible apply sound_mk' | with_reducible apply @sound_mem qq | with_reducible apply @sound_regs qq
      | with_reducible apply @sound_phase qq | with_reducible apply sound_pending | dsimp only)

theorem doRunDispatch_sound (c : Nat) (seq : Nat) {s : State} (h : s.Ok qq) : (doRunDispatch c seq s).Ok qq := by
  unfold doRunDispatch
  repeat' (first
      | with_reducible assumption | with_reducible intro _ | with_reducible apply finishSub_sound
      | with_reducible apply joinPeriod_sound | with_reducible apply rearmDumps_sound | with_reducible apply semZero_sound
      | with_reducible apply wakeAll_sound | with_reducible apply startCores_sound | with_reducible apply charge_sound
      | with_reducible apply modSub_sound | with_reducible apply sound_ite | split | with_reducible apply sound_mk'
      | with_reducible apply @sound_mem qq | with_reducible apply @sound_regs qq | with_reducible apply @sound_phase qq
      | with_reducible apply sound_pending | dsimp only)

theorem overrun_sound (c : Nat) (cls : Nat) (unit : Nat) {s : State} (h : s.Ok qq) : (overrun c cls unit s).Ok qq := by
  unfold overrun
  repeat' (first
      | with_reducible assumption | with_reducible intro _ | with_reducible apply inc32_sound
      | with_reducible apply recordFault_sound | with_reducible apply startCtxReset_sound)

theorem doRunEnd_sound (c : Nat) (seq : Nat) {s : State} (h : s.Ok qq) : (doRunEnd c seq s).Ok qq := by
  unfold doRunEnd
  have hl := leaveCores_sound c h
  generalize leaveCores c s = l at hl
  split
  · exact h
  · split
    · split
      · exact h
      · dsimp only
        split
        · rename_i e
          refine subFault_sound _ _ (Keeps.error ?_ hl e)
          split
          · exact keeps_pure _
          · exact keeps_bind (areaE_keeps _ _ _) fun a => readE_keeps _ _ _
        · rename_i t e
          have ht : t.Ok qq := by
            refine Keeps.ok ?_ hl e
            split
            · exact keeps_pure _
            · exact keeps_bind (areaE_keeps _ _ _) fun a => readE_keeps _ _ _
          have hc := charge_sound c 13 1 (by assumption : Sub).outlen ht
          split
          · exact overrun_sound _ _ _ hc
          · split
            · exact finishSub_sound _ _ _ _ hc
            · exact finishOut_sound _ _ _ _ hc
    · exact h

theorem doOverrun_sound (c : Nat) (cls : Nat) (unit : Nat) {s : State} (h : s.Ok qq) : (doOverrun c cls unit s).Ok qq := by
  unfold doOverrun
  repeat' (first
      | with_reducible assumption | with_reducible intro _ | with_reducible apply overrun_sound
      | with_reducible apply sound_ite | split)

theorem doPeriodClose_sound (p : Nat) (slot : Nat) (e : Nat) {s : State} (h : s.Ok qq) : (doPeriodClose p slot e s).Ok qq := by
  unfold doPeriodClose
  repeat' (first
      | with_reducible assumption | with_reducible intro _ | with_reducible apply sound_ite | split
      | with_reducible apply sound_mk' | with_reducible apply @sound_mem qq | with_reducible apply @sound_regs qq
      | with_reducible apply @sound_phase qq | with_reducible apply sound_pending)

end Sys2Proof.Machine
end

