-- ==== Sys2Proof/Laws/SoundImages.lean ====
section
/-! SUPPORT. The operations of Machine/Images.lean keep a sound state sound. -/

namespace Sys2Proof.Machine

variable {qq : List Instr}

theorem doLoadimg_sound (c : Nat) (seq : Nat) (d : List Byte) {s : State} (h : s.Ok qq) : (doLoadimg c seq d s).Ok qq := by
  unfold doLoadimg
  repeat' (first
      | with_reducible assumption | with_reducible intro _ | with_reducible apply lateInput_sound
      | with_reducible apply finishSub_sound | refine takeInput_some ?_ (by with_reducible assumption)
      | with_reducible apply writeE_keeps | with_reducible apply subFault_sound | with_reducible apply modSub_sound
      | refine Keeps.ok ?_ ?_ (by with_reducible assumption) | refine Keeps.error ?_ ?_ (by with_reducible assumption)
      | with_reducible exact keeps_pure _ | with_reducible apply keeps_bind | with_reducible apply keeps_ite
      | with_reducible apply keeps_map | with_reducible apply sound_ite | split | with_reducible apply sound_mk'
      | with_reducible apply @sound_mem qq | with_reducible apply @sound_regs qq | with_reducible apply @sound_phase qq
      | with_reducible apply sound_pending | dsimp only)

theorem unbindSlot_sound (p : Nat) (slot : Nat) {s : State} (h : s.Ok qq) : (unbindSlot p slot s).Ok qq := by
  unfold unbindSlot
  repeat' (first
      | with_reducible assumption | with_reducible intro _ | with_reducible apply andnR_sound
      | with_reducible apply sound_ite | split | with_reducible apply sound_mk' | with_reducible apply @sound_mem qq
      | with_reducible apply @sound_regs qq | with_reducible apply @sound_phase qq | with_reducible apply sound_pending)

theorem doUnloadimg_sound (c : Nat) (seq : Nat) {s : State} (h : s.Ok qq) : (doUnloadimg c seq s).Ok qq := by
  unfold doUnloadimg
  repeat' (first
      | with_reducible assumption | with_reducible intro _ | with_reducible apply finishSub_sound
      | with_reducible apply unbindSlot_sound | with_reducible apply sound_ite | split)

theorem bindImage_sound (i : Image) (ss : List Sect) (d : List Byte) {s : State} (h : s.Ok qq) : (bindImage i ss d s).Ok qq := by
  unfold bindImage
  repeat' (first
      | with_reducible assumption | with_reducible intro _ | with_reducible apply setN_sound | with_reducible apply orR_sound
      | with_reducible apply each_sound | with_reducible apply rawWrite_sound | with_reducible apply sound_ite | split
      | with_reducible apply sound_mk' | with_reducible apply @sound_mem qq | with_reducible apply @sound_regs qq
      | with_reducible apply @sound_phase qq | with_reducible apply sound_pending)

theorem doAdmission_sound (c : Nat) (seq : Nat) {s : State} (h : s.Ok qq) : (doAdmission c seq s).Ok qq := by
  unfold doAdmission
  repeat' (first
      | with_reducible assumption | with_reducible intro _ | with_reducible apply finishSub_sound
      | with_reducible apply modSub_sound | with_reducible apply setN_sound | with_reducible apply each_sound
      | with_reducible apply vec0_sound | with_reducible apply inc32_sound | with_reducible apply unbindSlot_sound
      | with_reducible apply bindImage_sound | with_reducible apply sound_ite | split | with_reducible apply sound_mk'
      | with_reducible apply @sound_mem qq | with_reducible apply @sound_regs qq | with_reducible apply @sound_phase qq
      | with_reducible apply sound_pending | dsimp only)

end Sys2Proof.Machine
end

