-- ==== Sys2Proof/Laws/SoundEnvelope.lean ====
section
/-! SUPPORT. The operations of Machine/Envelope.lean keep a sound state sound. -/

namespace Sys2Proof.Machine

variable {qq : List Instr}

theorem promote_sound  {s : State} (h : s.Ok qq) : (promote s).Ok qq := by
  unfold promote
  repeat' (first
      | with_reducible assumption | with_reducible intro _ | with_reducible apply startable_keeps
      | with_reducible apply sound_ite | split | with_reducible apply sound_mk' | with_reducible apply @sound_mem qq
      | with_reducible apply @sound_regs qq | with_reducible apply @sound_phase qq | with_reducible apply sound_pending)

theorem signal_sound (ctx : Nat) (cl : Nat) (sem : Nat) {s : State} (h : s.Ok qq) : (signal ctx cl sem s).Ok qq := by
  unfold signal
  repeat' (first
      | with_reducible assumption | with_reducible intro _ | with_reducible apply semSignal_sound
      | with_reducible apply promote_sound)

theorem issue_sound (core : Nat) (ctx : Nat) (e : Env) {s : State} (h : s.Ok qq) : (issue core ctx e s).Ok qq := by
  unfold issue
  repeat' (first
      | with_reducible assumption | with_reducible intro _ | with_reducible apply faultCtx_sound
      | with_reducible apply promote_sound | with_reducible apply sound_ite | split | with_reducible apply sound_mk'
      | with_reducible apply @sound_mem qq | with_reducible apply @sound_regs qq | with_reducible apply @sound_phase qq
      | with_reducible apply sound_pending | dsimp only)

theorem modCmd_sound (m : EngCmd) (f : EngCmd → EngCmd) {s : State} (h : s.Ok qq) : (modCmd m f s).Ok qq := by
  unfold modCmd
  repeat' (first
      | with_reducible assumption | with_reducible intro _ | with_reducible apply sound_ite | split
      | with_reducible apply sound_mk' | with_reducible apply @sound_mem qq | with_reducible apply @sound_regs qq
      | with_reducible apply @sound_phase qq | with_reducible apply sound_pending)

theorem runHeld_sound (core ctx opc : Nat) (p : Pay) (hold : EngCmd → State → Option State) (work : EngCmd → Eng Word) {s : State}
    (h : s.Ok qq) (hh : ∀ m t u, t.Ok qq → hold m t = some u → u.Ok qq) (hw : ∀ m, Keeps (work m)) :
    (runHeld core ctx opc p hold work s).Ok qq := by
  unfold runHeld
  have h0 : (if (findCmd s core ctx opc).isSome then s else issue core ctx (plainEnv opc) s).Ok qq :=
    sound_ite h (issue_sound _ _ _ h)
  revert h0
  generalize (if (findCmd s core ctx opc).isSome then s else issue core ctx (plainEnv opc) s) = t
  intro h0
  dsimp only
  split
  · exact h0
  · split
    · exact h0
    · split
      · rename_i e
        exact hh _ _ _ h0 e
      · split
        · rename_i e
          exact faultCtx_sound _ _ _ _ _ ((hw _).error h0 e)
        · rename_i e
          exact promote_sound (modCmd_sound _ _ ((hw _).ok h0 e))

theorem runCmd_sound (core ctx opc : Nat) (p : Pay) (work : EngCmd → Eng Word) {s : State} (h : s.Ok qq)
    (hw : ∀ m, Keeps (work m)) : (runCmd core ctx opc p work s).Ok qq :=
  runHeld_sound _ _ _ _ _ _ h (fun _ _ _ _ e => by cases e) hw

theorem writeRecord_sound (m : EngCmd) {s : State} (h : s.Ok qq) : (writeRecord m s).Ok qq := by
  unfold writeRecord
  repeat' (first
      | with_reducible assumption | with_reducible intro _ | with_reducible apply writeE_keeps
      | with_reducible apply spShare_keeps | refine Keeps.ok ?_ ?_ (by with_reducible assumption)
      | refine Keeps.error ?_ ?_ (by with_reducible assumption) | with_reducible exact keeps_pure _
      | with_reducible apply keeps_bind | with_reducible apply keeps_ite | with_reducible apply keeps_map
      | with_reducible apply sound_ite | split | with_reducible apply sound_mk' | with_reducible apply @sound_mem qq
      | with_reducible apply @sound_regs qq | with_reducible apply @sound_phase qq | with_reducible apply sound_pending)

theorem showShadow_sound (ctx : Nat) (prog : Nat) {s : State} (h : s.Ok qq) : (showShadow ctx prog s).Ok qq := by
  unfold showShadow
  repeat' (first
      | with_reducible assumption | with_reducible intro _ | with_reducible apply setF_sound)

theorem markShadow_sound (m : EngCmd) {s : State} (h : s.Ok qq) : (markShadow m s).Ok qq := by
  unfold markShadow
  repeat' (first
      | with_reducible assumption | with_reducible intro _ | with_reducible apply showShadow_sound
      | with_reducible apply sound_ite | split | with_reducible apply sound_mk' | with_reducible apply @sound_mem qq
      | with_reducible apply @sound_regs qq | with_reducible apply @sound_phase qq | with_reducible apply sound_pending)

theorem complete_sound (m : EngCmd) {s : State} (h : s.Ok qq) : (complete m s).Ok qq := by
  unfold complete
  repeat' (first
      | with_reducible assumption | with_reducible intro _ | with_reducible apply writeRecord_sound
      | with_reducible apply stickFlags_sound | with_reducible apply markShadow_sound | with_reducible apply semSignal_sound
      | with_reducible apply promote_sound | with_reducible apply showCmb_sound | with_reducible apply showCl_sound
      | with_reducible apply showCore_sound | with_reducible apply sound_ite | split | with_reducible apply sound_mk'
      | with_reducible apply @sound_mem qq | with_reducible apply @sound_regs qq | with_reducible apply @sound_phase qq
      | with_reducible apply sound_pending | dsimp only)

theorem doComplete1_sound (core : Nat) (ctx : Nat) (opc : Nat) {s : State} (h : s.Ok qq) : (doComplete1 core ctx opc s).Ok qq := by
  unfold doComplete1
  repeat' (first
      | with_reducible assumption | with_reducible intro _ | with_reducible apply complete_sound
      | with_reducible apply sound_ite | split)

theorem doSchedule_sound (cls : Nat) (unit : Nat) {s : State} (h : s.Ok qq) : (doSchedule cls unit s).Ok qq := by
  unfold doSchedule
  repeat' (first
      | with_reducible assumption | with_reducible intro _ | with_reducible apply setR_sound
      | with_reducible apply inc32_sound | with_reducible apply sound_ite | split | with_reducible apply sound_mk'
      | with_reducible apply @sound_mem qq | with_reducible apply @sound_regs qq | with_reducible apply @sound_phase qq
      | with_reducible apply sound_pending | dsimp only)

theorem doCcExc_sound (core : Nat) (ctx : Nat) (exc : CcExc) (addr : Nat) {s : State} (h : s.Ok qq) : (doCcExc core ctx exc addr s).Ok qq := by
  unfold doCcExc
  repeat' (first
      | with_reducible assumption | with_reducible intro _ | with_reducible apply faultCtx_sound
      | with_reducible apply sound_ite)

end Sys2Proof.Machine
end

