-- ==== Sys2Proof/Laws/SoundMatrix.lean ====
section
/-! SUPPORT. The operations of Machine/Matrix.lean keep a sound state sound. -/

namespace Sys2Proof.Machine

variable {qq : List Instr}

theorem grFactors_keeps (w : Who) (core : Nat) (g : GrSlot) (k : Nat) : Keeps (grFactors w core g k) := by
  unfold grFactors
  repeat' (first
      | with_reducible assumption | with_reducible exact keeps_pure _ | with_reducible intro _
      | with_reducible apply keeps_bind | with_reducible apply keeps_map | with_reducible apply spShare_keeps
      | with_reducible apply readWords_keeps | with_reducible apply keeps_ite)

theorem readRow_keeps (c : Mx) (m : EngCmd) (w : Who) (base : Nat) (q : Prob) (fs : List Word) (i : Nat) : Keeps (readRow c m w base q fs i) := by
  unfold readRow
  repeat' (first
      | with_reducible assumption | with_reducible exact keeps_pure _ | with_reducible intro _
      | with_reducible apply keeps_bind | with_reducible apply keeps_map | with_reducible apply readElems_keeps
      | with_reducible apply readScales_keeps | with_reducible apply keeps_ite | split)

theorem readCols_keeps (c : Mx) (m : EngCmd) (q : Prob) (core : Nat) (j : Nat) (first : Nat) : Keeps (readCols c m q core j first) := by
  unfold readCols
  repeat' (first
      | with_reducible assumption | with_reducible exact keeps_pure _ | with_reducible intro _
      | with_reducible apply keeps_bind | with_reducible apply keeps_map | with_reducible apply look_keeps
      | with_reducible apply spShare_keeps | with_reducible apply gatherM_keeps | with_reducible apply readElems_keeps
      | with_reducible apply readScales_keeps)

theorem setSticky_sound (k : Nat) (v : Bool) {s : State} (h : s.Ok qq) : (setSticky k v s).Ok qq := by
  unfold setSticky
  repeat' (first
      | with_reducible assumption | with_reducible intro _ | with_reducible apply sound_ite | split
      | with_reducible apply sound_mk' | with_reducible apply @sound_mem qq | with_reducible apply @sound_regs qq
      | with_reducible apply @sound_phase qq | with_reducible apply sound_pending)

theorem runRow_keeps (c : Mx) (m : EngCmd) (w : Who) (at_ : Nat) (k0 : Nat) (cols : List Line) (row : Line) (i : Nat) : Keeps (runRow c m w at_ k0 cols row i) := by
  unfold runRow
  repeat' (first
      | with_reducible assumption | with_reducible exact keeps_pure _ | with_reducible intro _
      | with_reducible apply keeps_bind | with_reducible apply keeps_map | with_reducible apply readWords_keeps
      | with_reducible apply look_keeps | with_reducible apply writeE_keeps | with_reducible apply upd_keeps
      | with_reducible apply each_sound | with_reducible apply setSticky_sound | with_reducible apply keeps_ite)

theorem runArray_keeps (c : Mx) (m : EngCmd) (q : Prob) (rows : List Line) (cols : List Line) (core : Nat) (a : Nat) : Keeps (runArray c m q rows cols core a) := by
  unfold runArray
  repeat' (first
      | with_reducible assumption | with_reducible exact keeps_pure _ | with_reducible intro _
      | with_reducible apply keeps_bind | with_reducible apply keeps_map | with_reducible apply look_keeps
      | with_reducible apply accShare_keeps | with_reducible apply gatherM_keeps | with_reducible apply runRow_keeps
      | with_reducible apply keeps_ite)

theorem runProb_keeps (c : Mx) (m : EngCmd) (q : Prob) : Keeps (runProb c m q) := by
  unfold runProb
  repeat' (first
      | with_reducible assumption | with_reducible exact keeps_pure _ | with_reducible intro _
      | with_reducible apply keeps_bind | with_reducible apply keeps_map | with_reducible apply look_keeps
      | with_reducible apply spShare_keeps | with_reducible apply grFactors_keeps | with_reducible apply gatherM_keeps
      | with_reducible apply readRow_keeps | with_reducible apply readCols_keeps | with_reducible apply runArray_keeps
      | with_reducible apply keeps_ite | split)

theorem countBusy_sound (c : Mx) (strict : Bool) (mpad : Nat) (wait : Nat) {s : State} (h : s.Ok qq) : (countBusy c strict mpad wait s).Ok qq := by
  unfold countBusy
  repeat' (first
      | with_reducible assumption | with_reducible intro _ | with_reducible apply bumpFree_sound
      | with_reducible apply each_sound | with_reducible apply inc64_sound | dsimp only)

theorem showMx_sound (c : Mx) (ctx : Nat) {s : State} (h : s.Ok qq) : (showMx c ctx s).Ok qq := by
  unfold showMx
  repeat' (first
      | with_reducible assumption | with_reducible intro _ | with_reducible apply setN_sound
      | with_reducible apply each_sound)

theorem runTable_keeps (c : Mx) (m : EngCmd) (w : Who) (base : Nat) (l : List Nat) (gap fl : Nat) : Keeps (runTable c m w base l gap fl) := by
  induction l generalizing gap fl with
  | nil => exact keeps_pure _
  | cons i r ih =>
    unfold runTable
    repeat' (first
      | with_reducible assumption | with_reducible exact keeps_pure _ | with_reducible intro _
      | with_reducible apply keeps_bind | with_reducible apply keeps_map | with_reducible apply ih
      | with_reducible apply readE_keeps | with_reducible apply decodeE_keeps | with_reducible apply runProb_keeps
      | with_reducible apply upd_keeps | with_reducible apply countBusy_sound | with_reducible apply keeps_ite)

theorem mxWork_keeps (tamp : Bool) (p : Pay) (m : EngCmd) : Keeps (mxWork tamp p m) := by
  unfold mxWork
  repeat' (first
      | with_reducible assumption | with_reducible exact keeps_pure _ | with_reducible intro _
      | with_reducible apply keeps_bind | with_reducible apply keeps_map | with_reducible apply look_keeps
      | with_reducible apply decodeE_keeps | with_reducible apply upd_keeps | with_reducible apply showMx_sound
      | with_reducible apply bumpFree_sound | with_reducible apply spShare_keeps | with_reducible apply runTable_keeps
      | with_reducible apply runProb_keeps | with_reducible apply countBusy_sound | with_reducible apply keeps_ite)

end Sys2Proof.Machine
end

