-- ==== Sys2Proof/Laws/SoundDrain.lean ====
section
/-! SUPPORT. The operations of Machine/Drain.lean keep a sound state sound. -/

namespace Sys2Proof.Machine

variable {qq : List Instr}

theorem readAcc_keeps (m : EngCmd) (w : Nat) (accb : Nat) (core : Nat) (a : Nat) (i : Nat) (n : Nat) : Keeps (readAcc m w accb core a i n) := by
  unfold readAcc
  repeat' (first
      | with_reducible assumption | with_reducible exact keeps_pure _ | with_reducible intro _
      | with_reducible apply keeps_bind | with_reducible apply keeps_map | with_reducible apply look_keeps
      | with_reducible apply accShare_keeps | with_reducible apply readWords_keeps)

theorem readAccRow_keeps (m : EngCmd) (w : Nat) (accb : Nat) (i : Nat) (cols : List (Nat × Nat × Nat × Nat)) : Keeps (readAccRow m w accb i cols) := by
  unfold readAccRow
  repeat' (first
      | with_reducible assumption | with_reducible exact keeps_pure _ | with_reducible intro _
      | with_reducible apply keeps_bind | with_reducible apply keeps_map | with_reducible apply gatherM_keeps
      | with_reducible apply readAcc_keeps)

theorem tampRows_keeps (m : EngCmd) (c : Cvt) (gt : Nat) (l : List Nat) : Keeps (tampRows m c gt l) := by
  induction l with
  | nil => exact keeps_pure _
  | cons i r ih =>
    unfold tampRows
    repeat' (first
      | with_reducible assumption | with_reducible exact keeps_pure _ | with_reducible intro _
      | with_reducible apply keeps_bind | with_reducible apply keeps_map | with_reducible apply ih
      | with_reducible apply look_keeps | with_reducible apply readE_keeps | with_reducible apply decodeE_keeps)

theorem cvtRows_keeps (m : EngCmd) (c : Cvt) (p : Pay) : Keeps (cvtRows m c p) := by
  unfold cvtRows
  repeat' (first
      | with_reducible assumption | with_reducible exact keeps_pure _ | with_reducible intro _
      | with_reducible apply keeps_bind | with_reducible apply keeps_map | with_reducible apply look_keeps
      | with_reducible apply spShare_keeps | with_reducible apply tampRows_keeps | with_reducible apply keeps_ite)

theorem cvtEntries_keeps (m : EngCmd) (c : Cvt) (r : Nat × Nat × Nat) : Keeps (cvtEntries m c r) := by
  unfold cvtEntries
  repeat' (first
      | with_reducible assumption | with_reducible exact keeps_pure _ | with_reducible intro _
      | with_reducible apply keeps_bind | with_reducible apply keeps_map | with_reducible apply look_keeps
      | with_reducible apply readAccRow_keeps)

theorem cvtAmax_keeps (m : EngCmd) (c : Cvt) (p : Pay) (rows : List (Nat × Nat × Nat)) : Keeps (cvtAmax m c p rows) := by
  unfold cvtAmax
  repeat' (first
      | with_reducible assumption | with_reducible exact keeps_pure _ | with_reducible intro _
      | with_reducible apply keeps_bind | with_reducible apply keeps_map | with_reducible apply look_keeps
      | with_reducible apply foldE_keeps | with_reducible apply rmwE_keeps | with_reducible apply cmShare_keeps
      | with_reducible apply cvtEntries_keeps)

theorem cvtScale_keeps (m : EngCmd) (c : Cvt) (p : Pay) : Keeps (cvtScale m c p) := by
  unfold cvtScale
  repeat' (first
      | with_reducible assumption | with_reducible exact keeps_pure _ | with_reducible intro _
      | with_reducible apply keeps_bind | with_reducible apply keeps_map | with_reducible apply look_keeps
      | with_reducible apply readE_keeps | with_reducible apply writeE_keeps | with_reducible apply cmShare_keeps)

theorem cvtOut_keeps (w : Who) (c : Cvt) (o : OutForm) (row : Nat) (i : Nat) (ws : List Word) (ys : List Int) : Keeps (cvtOut w c o row i ws ys) := by
  unfold cvtOut
  repeat' (first
      | with_reducible assumption | with_reducible exact keeps_pure _ | with_reducible intro _
      | with_reducible apply keeps_bind | with_reducible apply keeps_map | with_reducible apply writeE_keeps
      | with_reducible apply outRow_keeps | with_reducible apply keeps_ite)

theorem cvtMem_keeps (m : EngCmd) (c : Cvt) (p : Pay) (tx : Option Int) (rows : List (Nat × Nat × Nat)) : Keeps (cvtMem m c p tx rows) := by
  unfold cvtMem
  repeat' (first
      | with_reducible assumption | with_reducible exact keeps_pure _ | with_reducible intro _
      | with_reducible apply keeps_bind | with_reducible apply keeps_map | with_reducible apply look_keeps
      | with_reducible apply gatherM_keeps | with_reducible apply spShare_keeps | with_reducible apply cmShare_keeps
      | with_reducible apply cvtEntries_keeps | with_reducible apply cvtOut_keeps | with_reducible apply keeps_ite)

theorem cvtCombine_keeps (m : EngCmd) (c : Cvt) (rows : List (Nat × Nat × Nat)) : Keeps (cvtCombine m c rows) := by
  unfold cvtCombine
  repeat' (first
      | with_reducible assumption | with_reducible exact keeps_pure _ | with_reducible intro _
      | with_reducible apply keeps_bind | with_reducible apply keeps_map | with_reducible apply gatherM_keeps
      | with_reducible apply look_keeps | with_reducible apply guardE_keeps | with_reducible apply cvtEntries_keeps
      | with_reducible apply upd_keeps | with_reducible apply keeps_ite | with_reducible apply sound_ite
      | with_reducible apply sound_mk' | with_reducible apply sound_mem | with_reducible apply sound_regs
      | with_reducible apply sound_phase | with_reducible apply sound_pending)

theorem cvtPour_keeps (m : EngCmd) (c : Cvt) (p : Pay) (rows : List (Nat × Nat × Nat)) : Keeps (cvtPour m c p rows) := by
  unfold cvtPour
  repeat' (first
      | with_reducible assumption | with_reducible exact keeps_pure _ | with_reducible intro _
      | with_reducible apply keeps_bind | with_reducible apply keeps_map | with_reducible apply upd_keeps
      | with_reducible apply look_keeps | with_reducible apply gatherM_keeps | with_reducible apply readE_keeps
      | with_reducible apply spShare_keeps | with_reducible apply cvtEntries_keeps | with_reducible apply keeps_ite | split
      | with_reducible apply sound_ite | split | with_reducible apply sound_mk' | with_reducible apply sound_mem
      | with_reducible apply sound_regs | with_reducible apply sound_phase | with_reducible apply sound_pending)

theorem cvtWork_keeps (p : Pay) (m : EngCmd) : Keeps (cvtWork p m) := by
  unfold cvtWork
  repeat' (first
      | with_reducible assumption | with_reducible exact keeps_pure _ | with_reducible intro _
      | with_reducible apply keeps_bind | with_reducible apply keeps_map | with_reducible apply look_keeps
      | with_reducible apply decodeE_keeps | with_reducible apply cvtRows_keeps | with_reducible apply cvtAmax_keeps
      | with_reducible apply cvtScale_keeps | with_reducible apply cvtMem_keeps | with_reducible apply cvtCombine_keeps
      | with_reducible apply cvtPour_keeps | with_reducible apply keeps_ite)

theorem redWork_keeps (p : Pay) (m : EngCmd) : Keeps (redWork p m) := by
  unfold redWork
  repeat' (first
      | with_reducible assumption | with_reducible exact keeps_pure _ | with_reducible intro _
      | with_reducible apply keeps_bind | with_reducible apply keeps_map | with_reducible apply look_keeps
      | with_reducible apply gatherM_keeps | with_reducible apply readE_keeps | with_reducible apply writeE_keeps
      | with_reducible apply decodeE_keeps | with_reducible apply memBase_keeps | with_reducible apply readAcc_keeps
      | with_reducible apply keeps_ite)

theorem splitPart_keeps (p : Pay) (m : EngCmd) (i : Nat) (parts : List (List Word)) (col : Nat × Nat × Nat × Nat) : Keeps (splitPart p m i parts col) := by
  unfold splitPart
  repeat' (first
      | with_reducible assumption | with_reducible exact keeps_pure _ | with_reducible intro _
      | with_reducible apply keeps_bind | with_reducible apply keeps_map | with_reducible apply each_sound
      | with_reducible apply upd_keeps | with_reducible apply look_keeps | with_reducible apply writeE_keeps
      | with_reducible apply accShare_keeps | with_reducible apply setSticky_sound | with_reducible apply readAcc_keeps
      | with_reducible apply keeps_ite)

theorem splitWork_keeps (p : Pay) (m : EngCmd) : Keeps (splitWork p m) := by
  unfold splitWork
  repeat' (first
      | with_reducible assumption | with_reducible exact keeps_pure _ | with_reducible intro _
      | with_reducible apply keeps_bind | with_reducible apply keeps_map | with_reducible apply look_keeps
      | with_reducible apply gatherM_keeps | with_reducible apply decodeE_keeps | with_reducible apply readWords_keeps
      | with_reducible apply memBase_keeps | with_reducible apply splitPart_keeps)

theorem setRescale_sound (k : Nat) (r : Rescale) {s : State} (h : s.Ok qq) : (setRescale k r s).Ok qq := by
  unfold setRescale
  repeat' (first
      | with_reducible assumption | with_reducible intro _ | with_reducible apply sound_ite | split
      | with_reducible apply sound_mk' | with_reducible apply @sound_mem qq | with_reducible apply @sound_regs qq
      | with_reducible apply @sound_phase qq | with_reducible apply sound_pending)

theorem rsldWork_keeps (p : Pay) (m : EngCmd) : Keeps (rsldWork p m) := by
  unfold rsldWork
  repeat' (first
      | with_reducible assumption | with_reducible exact keeps_pure _ | with_reducible intro _
      | with_reducible apply keeps_bind | with_reducible apply keeps_map | with_reducible apply each_sound
      | with_reducible apply upd_keeps | with_reducible apply look_keeps | with_reducible apply readE_keeps
      | with_reducible apply spShare_keeps | with_reducible apply decodeE_keeps | with_reducible apply setRescale_sound)

theorem grWork_keeps (p : Pay) (m : EngCmd) : Keeps (grWork p m) := by
  unfold grWork
  repeat' (first
      | with_reducible assumption | with_reducible exact keeps_pure _ | with_reducible intro _
      | with_reducible apply keeps_bind | with_reducible apply keeps_map | with_reducible apply look_keeps
      | with_reducible apply gatherM_keeps | with_reducible apply spShare_keeps | with_reducible apply decodeE_keeps
      | with_reducible apply readElems_keeps | with_reducible apply outRow_keeps | with_reducible apply memBase_keeps
      | with_reducible apply grFactors_keeps)

end Sys2Proof.Machine
end

