-- ==== Sys2Proof/Laws/SoundVector.lean ====
section
/-! SUPPORT. The operations of Machine/Vector.lean keep a sound state sound. -/

namespace Sys2Proof.Machine

variable {qq : List Instr}

theorem readVec_keeps (w : Who) (fmt : Nat) (a : Nat) (n : Nat) (strict : Bool) : Keeps (readVec w fmt a n strict) := by
  unfold readVec
  repeat' (first
      | with_reducible assumption | with_reducible exact keeps_pure _ | with_reducible intro _
      | with_reducible apply keeps_bind | with_reducible apply keeps_map | with_reducible apply readElems_keeps)

theorem countVec_sound (core : Nat) (busy : Nat) (sfu : Nat) (wait : Nat) {s : State} (h : s.Ok qq) : (countVec core busy sfu wait s).Ok qq := by
  unfold countVec
  repeat' (first
      | with_reducible assumption | with_reducible intro _ | with_reducible apply inc64_sound)

theorem showVx_sound (core : Nat) (ctx : Nat) (cmd : Nat) {s : State} (h : s.Ok qq) : (showVx core ctx cmd s).Ok qq := by
  unfold showVx
  repeat' (first
      | with_reducible assumption | with_reducible intro _ | with_reducible apply setN_sound)

theorem vRows_keeps (m : EngCmd) (p : Pay) (fmt busy sfu wait : Nat) (f : Nat → List Word → Eng Nat) (hf : ∀ i ws, Keeps (f i ws)) :
    Keeps (vRows m p fmt busy sfu wait f) := by
  unfold vRows
  repeat' (first
      | with_reducible assumption | with_reducible exact keeps_pure _ | with_reducible intro _
      | with_reducible apply keeps_bind | with_reducible apply keeps_map | with_reducible apply hf
      | with_reducible apply look_keeps | with_reducible apply gatherM_keeps | with_reducible apply spShare_keeps
      | with_reducible apply readVec_keeps | with_reducible apply upd_keeps | with_reducible apply countVec_sound)

theorem vewB_keeps (p : Pay) (m : EngCmd) (w : Who) (b : Nat) (fixed : List Word) (i : Nat) : Keeps (vewB p m w b fixed i) := by
  unfold vewB
  repeat' (first
      | with_reducible assumption | with_reducible exact keeps_pure _ | with_reducible intro _
      | with_reducible apply keeps_bind | with_reducible apply keeps_map | with_reducible apply readVec_keeps
      | with_reducible apply keeps_ite | split)

theorem vewWork_keeps (p : Pay) (m : EngCmd) : Keeps (vewWork p m) := by
  unfold vewWork
  repeat' (first
      | with_reducible assumption | with_reducible exact keeps_pure _ | with_reducible intro _
      | with_reducible apply keeps_bind | with_reducible apply keeps_map | with_reducible apply look_keeps
      | with_reducible apply decodeE_keeps | with_reducible apply upd_keeps | with_reducible apply showVx_sound
      | with_reducible apply spShare_keeps | with_reducible apply readVec_keeps | with_reducible apply memBase_keeps
      | with_reducible apply vRows_keeps | with_reducible apply vewB_keeps | with_reducible apply outRow_keeps
      | with_reducible apply keeps_ite)

theorem vrowWork_keeps (p : Pay) (m : EngCmd) : Keeps (vrowWork p m) := by
  unfold vrowWork
  repeat' (first
      | with_reducible assumption | with_reducible exact keeps_pure _ | with_reducible intro _
      | with_reducible apply keeps_bind | with_reducible apply keeps_map | with_reducible apply look_keeps
      | with_reducible apply decodeE_keeps | with_reducible apply upd_keeps | with_reducible apply showVx_sound
      | with_reducible apply memBase_keeps | with_reducible apply vRows_keeps | with_reducible apply writeE_keeps)

theorem readTable_keeps (m : EngCmd) (prog : Nat) : Keeps (readTable m prog) := by
  intro qq s h
  unfold readTable
  split
  · exact h
  · dsimp only
    split <;>
    · split
      · generalize rangeFrom _ 1056 = ks
        split
        · exact errNoted_sound _ _ h
        · exact mend_sound _ _ _ h
      · exact h

theorem vsfWork_keeps (p : Pay) (m : EngCmd) : Keeps (vsfWork p m) := by
  unfold vsfWork
  repeat' (first
      | with_reducible assumption | with_reducible exact keeps_pure _ | with_reducible intro _
      | with_reducible apply keeps_bind | with_reducible apply keeps_map | with_reducible apply look_keeps
      | with_reducible apply decodeE_keeps | with_reducible apply upd_keeps | with_reducible apply showVx_sound
      | with_reducible apply readTable_keeps | with_reducible apply memBase_keeps | with_reducible apply vRows_keeps
      | with_reducible apply outRow_keeps | with_reducible apply keeps_ite)

theorem vtldHold_some {p : Pay} {m : EngCmd} {s t : State} (h : s.Ok qq) (e : vtldHold p m s = some t) : t.Ok qq := by
  unfold vtldHold at e
  dsimp only at e
  split at e
  · cases e; exact bumpFree_sound (inc64_sound _ _ h)
  · cases e

theorem writeTable_keeps (m : EngCmd) (i prog bank : Nat) (img : List Byte) : Keeps (writeTable m i prog bank img) := by
  intro qq s h
  unfold writeTable
  dsimp only
  generalize rangeFrom _ 1056 = ks
  split
  · exact errNoted_sound _ _ h
  · have hc := errClear_sound ks (memPuts_sound ks img h)
    generalize errClear ks (memPuts ks img s) = t at hc
    exact showShadow_sound _ _ (sound_same hc rfl rfl rfl rfl)

theorem vtldWork_keeps (p : Pay) (m : EngCmd) : Keeps (vtldWork p m) := by
  unfold vtldWork
  repeat' (first
      | with_reducible assumption | with_reducible exact keeps_pure _ | with_reducible intro _
      | with_reducible apply keeps_bind | with_reducible apply keeps_map | with_reducible apply look_keeps
      | with_reducible apply decodeE_keeps | with_reducible apply upd_keeps | with_reducible apply showVx_sound
      | with_reducible apply spShare_keeps | with_reducible apply readE_keeps | with_reducible apply writeTable_keeps | split)

theorem vsmaxWork_keeps (p : Pay) (m : EngCmd) : Keeps (vsmaxWork p m) := by
  unfold vsmaxWork
  repeat' (first
      | with_reducible assumption | with_reducible exact keeps_pure _ | with_reducible intro _
      | with_reducible apply keeps_bind | with_reducible apply keeps_map | with_reducible apply look_keeps
      | with_reducible apply decodeE_keeps | with_reducible apply upd_keeps | with_reducible apply showVx_sound
      | with_reducible apply memBase_keeps | with_reducible apply spShare_keeps | with_reducible apply vRows_keeps
      | with_reducible apply countVec_sound | with_reducible apply writeE_keeps | with_reducible apply outRow_keeps | split)

theorem vnormWork_keeps (p : Pay) (m : EngCmd) : Keeps (vnormWork p m) := by
  unfold vnormWork
  repeat' (first
      | with_reducible assumption | with_reducible exact keeps_pure _ | with_reducible intro _
      | with_reducible apply keeps_bind | with_reducible apply keeps_map | with_reducible apply look_keeps
      | with_reducible apply decodeE_keeps | with_reducible apply upd_keeps | with_reducible apply showVx_sound
      | with_reducible apply spShare_keeps | with_reducible apply readVec_keeps | with_reducible apply memBase_keeps
      | with_reducible apply vRows_keeps | with_reducible apply outRow_keeps | with_reducible apply keeps_ite)

end Sys2Proof.Machine
end

