-- ==== Sys2Proof/Laws/SoundPage.lean ====
section
/-! SUPPORT. The operations of Machine/Page.lean keep a sound state sound. -/

namespace Sys2Proof.Machine

variable {qq : List Instr}

theorem readStream_keeps (w : Who) (st : Nat) : Keeps (readStream w st) := by
  unfold readStream
  repeat' (first
      | with_reducible assumption | with_reducible exact keeps_pure _ | with_reducible intro _
      | with_reducible apply keeps_bind | with_reducible apply keeps_map | with_reducible apply look_keeps
      | with_reducible apply readE_keeps)

theorem readPage_keeps (w : Who) (e : StreamEnt) (p : Nat) : Keeps (readPage w e p) := by
  unfold readPage
  repeat' (first
      | with_reducible assumption | with_reducible exact keeps_pure _ | with_reducible intro _
      | with_reducible apply keeps_bind | with_reducible apply keeps_map | with_reducible apply readE_keeps)

theorem writePage_keeps (w : Who) (e : StreamEnt) (p : Nat) (x : PageEnt) : Keeps (writePage w e p x) := by
  unfold writePage
  repeat' (first
      | with_reducible assumption | with_reducible exact keeps_pure _ | with_reducible intro _
      | with_reducible apply keeps_bind | with_reducible apply keeps_map | with_reducible apply writeE_keeps)

theorem clearValid_keeps (w : Who) (e : StreamEnt) (p : Nat) : Keeps (clearValid w e p) := by
  unfold clearValid
  repeat' (first
      | with_reducible assumption | with_reducible exact keeps_pure _ | with_reducible intro _
      | with_reducible apply keeps_bind | with_reducible apply keeps_map | with_reducible apply writeE_keeps)

theorem pushFrame_keeps (w : Who) (f : Nat) : Keeps (pushFrame w f) := by
  unfold pushFrame
  repeat' (first
      | with_reducible assumption | with_reducible exact keeps_pure _ | with_reducible intro _
      | with_reducible apply keeps_bind | with_reducible apply keeps_map | with_reducible apply setN_sound
      | with_reducible apply upd_keeps | with_reducible apply look_keeps | with_reducible apply writeE_keeps
      | with_reducible apply guardE_keeps)

theorem popFrame_keeps (w : Who) : Keeps (popFrame w) := by
  unfold popFrame
  repeat' (first
      | with_reducible assumption | with_reducible exact keeps_pure _ | with_reducible intro _
      | with_reducible apply keeps_bind | with_reducible apply keeps_map | with_reducible apply setN_sound
      | with_reducible apply upd_keeps | with_reducible apply look_keeps | with_reducible apply readE_keeps
      | with_reducible apply guardE_keeps)

theorem scatterE_keeps (w : Who) (abs : List (Nat × Byte)) : Keeps (scatterE w abs) := by
  intro qq s h
  unfold scatterE
  dsimp only
  split
  · exact h
  · split
    · exact errNoted_sound _ _ h
    · have hc := countUnits_sound w true (abs.flatMap fun x => keysOf s w.pid x.1 1)
        (errClear_sound (abs.flatMap fun x => keysOf s w.pid x.1 1) (memPuts_sound (abs.flatMap fun x => keysOf s w.pid x.1 1)
          (abs.map fun x => x.2) (mend_sound w.pid true (abs.flatMap fun x => keysOf s w.pid x.1 1) h)))
      split
      · exact foldl_sound _ _ hc fun t x ht => cremaObserve_sound _ _ _ _ _ ht
      · exact hc

theorem writeSlot_keeps (w : Who) (fr : Nat) (j : Nat) (r : PourRow) : Keeps (writeSlot w fr j r) := by
  unfold writeSlot
  repeat' (first
      | with_reducible assumption | with_reducible exact keeps_pure _ | with_reducible intro _
      | with_reducible apply keeps_bind | with_reducible apply keeps_map | with_reducible apply writeE_keeps
      | with_reducible apply scatterE_keeps | with_reducible apply keeps_ite)

theorem pourOne_keeps (cl : Nat) (r : PourRow) : Keeps (pourOne cl r) := by
  unfold pourOne
  repeat' (first
      | with_reducible assumption | with_reducible exact keeps_pure _ | with_reducible intro _
      | with_reducible apply keeps_bind | with_reducible apply keeps_map | with_reducible apply inc64_sound
      | with_reducible apply upd_keeps | with_reducible apply look_keeps | with_reducible apply writeE_keeps
      | with_reducible apply guardE_keeps | with_reducible apply readStream_keeps | with_reducible apply readPage_keeps
      | with_reducible apply writePage_keeps | with_reducible apply popFrame_keeps | with_reducible apply writeSlot_keeps
      | with_reducible apply keeps_ite | split | with_reducible apply sound_ite | split | with_reducible apply sound_mk'
      | with_reducible apply sound_mem | with_reducible apply sound_regs | with_reducible apply sound_phase
      | with_reducible apply sound_pending)

theorem doPour_sound (cl : Nat) {s : State} (h : s.Ok qq) : (doPour cl s).Ok qq := by
  unfold doPour
  repeat' (first
      | with_reducible assumption | with_reducible intro _ | with_reducible apply faultCtx_sound
      | with_reducible apply pourOne_keeps | refine Keeps.ok ?_ ?_ (by with_reducible assumption)
      | refine Keeps.error ?_ ?_ (by with_reducible assumption) | with_reducible exact keeps_pure _
      | with_reducible apply keeps_bind | with_reducible apply keeps_ite | with_reducible apply keeps_map
      | with_reducible apply sound_ite | split | with_reducible apply sound_mk' | with_reducible apply @sound_mem qq
      | with_reducible apply @sound_regs qq | with_reducible apply @sound_phase qq | with_reducible apply sound_pending)

theorem sealOne_keeps (q : FullPage) : Keeps (sealOne q) := by
  unfold sealOne
  repeat' (first
      | with_reducible assumption | with_reducible exact keeps_pure _ | with_reducible intro _
      | with_reducible apply keeps_bind | with_reducible apply keeps_map | with_reducible apply inc64_sound
      | with_reducible apply upd_keeps | with_reducible apply look_keeps | with_reducible apply readE_keeps
      | with_reducible apply writeE_keeps | with_reducible apply readStream_keeps | with_reducible apply readPage_keeps
      | with_reducible apply writePage_keeps | with_reducible apply keeps_ite)

theorem sealEnd_sound (ctx : Nat) (r : EStateM.Result Flt State Unit) (h : (endOf r).Ok qq) : (sealEnd ctx r).Ok qq := by
  cases r with
  | ok a t => exact h
  | error f t =>
    unfold sealEnd
    exact faultCtx_sound _ _ _ _ _ h

theorem doSeal_sound (cl : Nat) {s : State} (h : s.Ok qq) : (doSeal cl s).Ok qq := by
  unfold doSeal
  split
  · exact h
  · exact sealEnd_sound _ _ (sealOne_keeps _ _ _ (sound_same h rfl rfl rfl rfl))

theorem showPg_sound (cl : Nat) (ctx : Nat) (cmd : Nat) {s : State} (h : s.Ok qq) : (showPg cl ctx cmd s).Ok qq := by
  unfold showPg
  repeat' (first
      | with_reducible assumption | with_reducible intro _ | with_reducible apply setN_sound)

theorem pgDecode_keeps (w : Who) (cl : Nat) (res : Bool) (st : Nat) (late : StreamEnt → List (Nat × Bool)) : Keeps (pgDecode w cl res st late) := by
  unfold pgDecode
  repeat' (first
      | with_reducible assumption | with_reducible exact keeps_pure _ | with_reducible intro _
      | with_reducible apply keeps_bind | with_reducible apply keeps_map | with_reducible apply look_keeps
      | with_reducible apply decodeE_keeps | with_reducible apply readStream_keeps)

theorem releasePage_keeps (w : Who) (e : StreamEnt) (p : Nat) : Keeps (releasePage w e p) := by
  unfold releasePage
  repeat' (first
      | with_reducible assumption | with_reducible exact keeps_pure _ | with_reducible intro _
      | with_reducible apply keeps_bind | with_reducible apply keeps_map | with_reducible apply readPage_keeps
      | with_reducible apply writePage_keeps | with_reducible apply clearValid_keeps | with_reducible apply pushFrame_keeps
      | with_reducible apply keeps_ite)

theorem pginitWork_keeps (p : Pay) (m : EngCmd) : Keeps (pginitWork p m) := by
  unfold pginitWork
  repeat' (first
      | with_reducible assumption | with_reducible exact keeps_pure _ | with_reducible intro _
      | with_reducible apply keeps_bind | with_reducible apply keeps_map | with_reducible apply look_keeps
      | with_reducible apply decodeE_keeps | with_reducible apply readStream_keeps | with_reducible apply spShare_keeps
      | with_reducible apply readE_keeps | with_reducible apply upd_keeps | with_reducible apply showPg_sound
      | with_reducible apply foldE_keeps | with_reducible apply readPage_keeps | with_reducible apply pushFrame_keeps
      | with_reducible apply writePage_keeps | with_reducible apply writeE_keeps | with_reducible apply eachM_keeps
      | with_reducible apply clearValid_keeps | with_reducible apply keeps_ite | with_reducible apply sound_ite
      | with_reducible apply sound_mk' | with_reducible apply sound_mem | with_reducible apply sound_regs
      | with_reducible apply sound_phase | with_reducible apply sound_pending)

theorem pgpushWork_keeps (p : Pay) (m : EngCmd) : Keeps (pgpushWork p m) := by
  unfold pgpushWork
  repeat' (first
      | with_reducible assumption | with_reducible exact keeps_pure _ | with_reducible intro _
      | with_reducible apply keeps_bind | with_reducible apply keeps_map | with_reducible apply upd_keeps
      | with_reducible apply look_keeps | with_reducible apply eachM_keeps | with_reducible apply readE_keeps
      | with_reducible apply spShare_keeps | with_reducible apply guardE_keeps | with_reducible apply decodeE_keeps
      | with_reducible apply pushFrame_keeps | with_reducible apply showPg_sound)

theorem readGathered_keeps (w : Who) (e : StreamEnt) (pg : Nat) : Keeps (readGathered w e pg) := by
  unfold readGathered
  repeat' (first
      | with_reducible assumption | with_reducible exact keeps_pure _ | with_reducible intro _
      | with_reducible apply keeps_bind | with_reducible apply keeps_map | with_reducible apply look_keeps
      | with_reducible apply readE_keeps | with_reducible apply readPage_keeps | with_reducible apply keeps_ite)

theorem gatherPage_keeps (w : Who) (g : Gather) (i : Nat) (present : Nat) (fr : List Byte) : Keeps (gatherPage w g i present fr) := by
  unfold gatherPage
  repeat' (first
      | with_reducible assumption | with_reducible exact keeps_pure _ | with_reducible intro _
      | with_reducible apply keeps_bind | with_reducible apply keeps_map | with_reducible apply eachM_keeps
      | with_reducible apply writeE_keeps | with_reducible apply keeps_ite)

theorem pggathWork_keeps (p : Pay) (m : EngCmd) : Keeps (pggathWork p m) := by
  unfold pggathWork
  repeat' (first
      | with_reducible assumption | with_reducible exact keeps_pure _ | with_reducible intro _
      | with_reducible apply keeps_bind | with_reducible apply keeps_map | with_reducible apply look_keeps
      | with_reducible apply pgDecode_keeps | with_reducible apply upd_keeps | with_reducible apply showPg_sound
      | with_reducible apply cmShare_keeps | with_reducible apply readE_keeps | with_reducible apply spShare_keeps
      | with_reducible apply eachM_keeps | with_reducible apply guardE_keeps | with_reducible apply readGathered_keeps
      | with_reducible apply inc64_sound | with_reducible apply gatherPage_keeps | with_reducible apply keeps_ite)

theorem pgrelsWork_keeps (p : Pay) (m : EngCmd) : Keeps (pgrelsWork p m) := by
  unfold pgrelsWork
  repeat' (first
      | with_reducible assumption | with_reducible exact keeps_pure _ | with_reducible intro _
      | with_reducible apply keeps_bind | with_reducible apply keeps_map | with_reducible apply upd_keeps
      | with_reducible apply look_keeps | with_reducible apply eachM_keeps | with_reducible apply writeE_keeps
      | with_reducible apply showPg_sound | with_reducible apply pgDecode_keeps | with_reducible apply releasePage_keeps
      | with_reducible apply keeps_ite)

theorem kvscanWork_keeps (p : Pay) (m : EngCmd) : Keeps (kvscanWork p m) := by
  unfold kvscanWork
  repeat' (first
      | with_reducible assumption | with_reducible exact keeps_pure _ | with_reducible intro _
      | with_reducible apply keeps_bind | with_reducible apply keeps_map | with_reducible apply look_keeps
      | with_reducible apply pgDecode_keeps | with_reducible apply upd_keeps | with_reducible apply showPg_sound
      | with_reducible apply cmShare_keeps | with_reducible apply gatherM_keeps | with_reducible apply readWords_keeps
      | with_reducible apply readE_keeps | with_reducible apply inc64_sound | with_reducible apply writeE_keeps
      | with_reducible apply keeps_ite | with_reducible apply sound_ite | with_reducible apply sound_mk'
      | with_reducible apply sound_mem | with_reducible apply sound_regs | with_reducible apply sound_phase
      | with_reducible apply sound_pending)

end Sys2Proof.Machine
end

