-- ==== Sys2Proof/Laws/SoundGate.lean ====
section
/-! SUPPORT. The operations of Machine/Gate.lean keep a sound state sound. -/

namespace Sys2Proof.Machine

variable {qq : List Instr}

theorem routeToken_keeps (p : Pay) (m : EngCmd) (w : Who) (b : Nat) (e : LayerEnt) (q : RoutePh) (t : Nat) : Keeps (routeToken p m w b e q t) := by
  unfold routeToken
  repeat' (first
      | with_reducible assumption | with_reducible exact keeps_pure _ | with_reducible intro _
      | with_reducible apply keeps_bind | with_reducible apply keeps_map | with_reducible apply readWords_keeps
      | with_reducible apply writeE_keeps | with_reducible apply eachM_keeps | with_reducible apply upd_keeps
      | with_reducible apply inc32_sound | with_reducible apply inc64_sound | with_reducible apply keeps_ite | split)

theorem fillTarget_keeps (p : Pay) (m : EngCmd) (w : Who) (b : Nat) (toks : List Nat) (d : List Byte) : Keeps (fillTarget p m w b toks d) := by
  unfold fillTarget
  repeat' (first
      | with_reducible assumption | with_reducible exact keeps_pure _ | with_reducible intro _
      | with_reducible apply keeps_bind | with_reducible apply keeps_map | with_reducible apply look_keeps
      | with_reducible apply eachM_keeps | with_reducible apply readE_keeps | with_reducible apply writeE_keeps
      | with_reducible apply spShare_keeps | with_reducible apply guardE_keeps | with_reducible apply keeps_ite)

theorem gtWork_keeps (p : Pay) (m : EngCmd) : Keeps (gtWork p m) := by
  unfold gtWork
  repeat' (first
      | with_reducible assumption | with_reducible exact keeps_pure _ | with_reducible intro _
      | with_reducible apply keeps_bind | with_reducible apply keeps_map | with_reducible apply look_keeps
      | with_reducible apply decodeE_keeps | with_reducible apply readE_keeps | with_reducible apply upd_keeps
      | with_reducible apply setF_sound | with_reducible apply cmShare_keeps | with_reducible apply foldE_keeps
      | with_reducible apply routeToken_keeps | with_reducible apply writeE_keeps | with_reducible apply eachM_keeps
      | with_reducible apply fillTarget_keeps | with_reducible apply keeps_ite)

theorem combineOne_keeps (cl : Nat) (r : CombineRow) (d : RouteDesc) : Keeps (combineOne cl r d) := by
  unfold combineOne
  repeat' (first
      | with_reducible assumption | with_reducible exact keeps_pure _ | with_reducible intro _
      | with_reducible apply keeps_bind | with_reducible apply keeps_map | with_reducible apply inc64_sound
      | with_reducible apply upd_keeps | with_reducible apply look_keeps | with_reducible apply readE_keeps
      | with_reducible apply writeE_keeps | with_reducible apply cmShare_keeps | with_reducible apply guardE_keeps
      | with_reducible apply checkE_keeps | with_reducible apply keeps_ite)

theorem rowDesc_keeps (cl : Nat) (r : CombineRow) : Keeps (rowDesc cl r) := by
  unfold rowDesc
  repeat' (first
      | with_reducible assumption | with_reducible exact keeps_pure _ | with_reducible intro _
      | with_reducible apply keeps_bind | with_reducible apply keeps_map | with_reducible apply look_keeps
      | with_reducible apply readE_keeps | with_reducible apply cmShare_keeps | with_reducible apply keeps_ite)

theorem combineWork_keeps (cl : Nat) (r : CombineRow) : Keeps (combineWork cl r) := by
  unfold combineWork
  repeat' (first
      | with_reducible assumption | with_reducible exact keeps_pure _ | with_reducible intro _
      | with_reducible apply keeps_bind | with_reducible apply keeps_map | with_reducible apply upd_keeps
      | with_reducible apply combineOne_keeps | with_reducible apply rowDesc_keeps | with_reducible apply keeps_ite | split
      | with_reducible apply sound_ite | split | with_reducible apply sound_mk' | with_reducible apply sound_mem
      | with_reducible apply sound_regs | with_reducible apply sound_phase | with_reducible apply sound_pending)

theorem doCombine_sound (cl : Nat) {s : State} (h : s.Ok qq) : (doCombine cl s).Ok qq := by
  unfold doCombine
  repeat' (first
      | with_reducible assumption | with_reducible intro _ | with_reducible apply showCmb_sound
      | with_reducible apply faultCtx_sound | with_reducible apply combineWork_keeps
      | refine Keeps.ok ?_ ?_ (by with_reducible assumption) | refine Keeps.error ?_ ?_ (by with_reducible assumption)
      | with_reducible exact keeps_pure _ | with_reducible apply keeps_bind | with_reducible apply keeps_ite
      | with_reducible apply keeps_map | with_reducible apply sound_ite | split | with_reducible apply sound_mk'
      | with_reducible apply @sound_mem qq | with_reducible apply @sound_regs qq | with_reducible apply @sound_phase qq
      | with_reducible apply sound_pending)

theorem finishRow_keeps (m : EngCmd) (w : Who) (b : Nat) (d : RouteDesc) (clearOnly : Bool) (c0 : Nat) (n : Nat) (t : Nat) : Keeps (finishRow m w b d clearOnly c0 n t) := by
  unfold finishRow
  repeat' (first
      | with_reducible assumption | with_reducible exact keeps_pure _ | with_reducible intro _
      | with_reducible apply keeps_bind | with_reducible apply keeps_map | with_reducible apply readE_keeps
      | with_reducible apply writeE_keeps | with_reducible apply checkE_keeps | with_reducible apply readWords_keeps
      | with_reducible apply keeps_ite)

theorem cmbfinWork_keeps (p : Pay) (m : EngCmd) : Keeps (cmbfinWork p m) := by
  unfold cmbfinWork
  repeat' (first
      | with_reducible assumption | with_reducible exact keeps_pure _ | with_reducible intro _
      | with_reducible apply keeps_bind | with_reducible apply keeps_map | with_reducible apply look_keeps
      | with_reducible apply decodeE_keeps | with_reducible apply cmShare_keeps | with_reducible apply readE_keeps
      | with_reducible apply gatherM_keeps | with_reducible apply finishRow_keeps | with_reducible apply upd_keeps
      | with_reducible apply bumpFree_sound)

end Sys2Proof.Machine
end

