-- ==== Sys2Proof/Laws/SoundFabric.lean ====
section
/-! SUPPORT. The operations of Machine/Fabric.lean keep a sound state sound. -/

namespace Sys2Proof.Machine

variable {qq : List Instr}

theorem transmit_sound (w : SpanWait) (n : Nat) {s : State} (h : s.Ok qq) : (transmit w n s).Ok qq := by
  unfold transmit
  repeat' (first
      | with_reducible assumption | with_reducible intro _ | with_reducible apply inc64_sound
      | with_reducible apply charge_sound | with_reducible apply modLink_sound | with_reducible apply sendPkt_sound
      | with_reducible apply crossDies_sound | with_reducible apply sound_ite | split | with_reducible apply sound_mk'
      | with_reducible apply @sound_mem qq | with_reducible apply @sound_regs qq | with_reducible apply @sound_phase qq
      | with_reducible apply sound_pending | dsimp only)

theorem sendNext_some {P : Nat} {s t : State} (h : s.Ok qq) (e : sendNext P s = some t) : t.Ok qq := by
  unfold sendNext at e
  split at e
  · exact absurd e (by simp)
  · obtain ⟨n, -, rfl⟩ := Option.map_eq_some_iff.1 e
    exact transmit_sound _ _ (sound_same h rfl rfl rfl rfl)

theorem sendWaits_sound (P n : Nat) {s : State} (h : s.Ok qq) : (sendWaits P n s).Ok qq := by
  induction n generalizing s with
  | zero => exact h
  | succ n ih =>
    unfold sendWaits
    split
    · exact h
    · exact ih (sendNext_some h (by assumption))

theorem flushWaits_sound{s : State} (h : s.Ok qq) : (flushWaits s).Ok qq := by
  unfold flushWaits
  repeat' (first
      | with_reducible assumption | with_reducible intro _ | with_reducible apply each_sound
      | with_reducible apply sendWaits_sound)

theorem launch_sound (w : SpanWait) {s : State} (h : s.Ok qq) : (launch w s).Ok qq := by
  unfold launch
  repeat' (first
      | with_reducible assumption | with_reducible intro _ | with_reducible apply transmit_sound
      | with_reducible apply sound_ite | split | with_reducible apply sound_mk' | with_reducible apply @sound_mem qq
      | with_reducible apply @sound_regs qq | with_reducible apply @sound_phase qq | with_reducible apply sound_pending)

theorem refuseWaits_sound (f : SpanWait → Bool) (reason : Nat) {s : State} (h : s.Ok qq) : (refuseWaits f reason s).Ok qq := by
  unfold refuseWaits
  repeat' (first
      | with_reducible assumption | with_reducible intro _ | with_reducible apply each_sound
      | with_reducible apply faultCtx_sound | with_reducible apply sound_ite | split | with_reducible apply sound_mk'
      | with_reducible apply @sound_mem qq | with_reducible apply @sound_regs qq | with_reducible apply @sound_phase qq
      | with_reducible apply sound_pending)

theorem setStale_sound (p : Nat) (n : Nat) {s : State} (h : s.Ok qq) : (setStale p n s).Ok qq := by
  unfold setStale
  repeat' (first
      | with_reducible assumption | with_reducible intro _ | with_reducible apply orR_sound
      | with_reducible apply refuseWaits_sound)

theorem putFlit_sound (P : Nat) (f : Flit) {s : State} (h : s.Ok qq) : (putFlit P f s).Ok qq := by
  unfold putFlit
  repeat' (first
      | with_reducible assumption | with_reducible intro _ | with_reducible apply sound_ite | split
      | with_reducible apply sound_mk' | with_reducible apply @sound_mem qq | with_reducible apply @sound_regs qq
      | with_reducible apply @sound_phase qq | with_reducible apply sound_pending)

theorem sendIdle_sound (P : Nat) {s : State} (h : s.Ok qq) : (sendIdle P s).Ok qq := by
  unfold sendIdle
  repeat' (first
      | with_reducible assumption | with_reducible intro _ | with_reducible apply modLink_sound
      | with_reducible apply putFlit_sound)

theorem goDown_sound (P : Nat) (st : Nat) {s : State} (h : s.Ok qq) : (goDown P st s).Ok qq := by
  unfold goDown
  repeat' (first
      | with_reducible assumption | with_reducible intro _ | with_reducible apply setPortSt_sound
      | with_reducible apply inc32_sound | with_reducible apply modLink_sound | with_reducible apply each_sound
      | with_reducible apply orR_sound | with_reducible apply noticePort_sound | with_reducible apply sound_ite | dsimp only)

theorem writePortCfg_sound (fn : Nat) (P : Nat) (v : Word) {s : State} (h : s.Ok qq) : (writePortCfg fn P v s).Ok qq := by
  unfold writePortCfg
  repeat' (first
      | with_reducible assumption | with_reducible intro _ | with_reducible apply accErr_sound
      | with_reducible apply setR_sound | with_reducible apply setPortSt_sound | with_reducible apply modLink_sound
      | with_reducible apply goDown_sound | with_reducible apply sound_ite | split | with_reducible apply sound_mk'
      | with_reducible apply @sound_mem qq | with_reducible apply @sound_regs qq | with_reducible apply @sound_phase qq
      | with_reducible apply sound_pending | dsimp only)

theorem doTrained_sound (P : Nat) (low : Bool) (high : Bool) {s : State} (h : s.Ok qq) : (doTrained P low high s).Ok qq := by
  unfold doTrained
  repeat' (first
      | with_reducible assumption | with_reducible intro _ | with_reducible apply setPortSt_sound
      | with_reducible apply modLink_sound | with_reducible apply each_sound | with_reducible apply putFlit_sound
      | with_reducible apply announce_sound | with_reducible apply flushWaits_sound | with_reducible apply noticePort_sound
      | with_reducible apply sound_ite | split | with_reducible apply sound_mk' | with_reducible apply @sound_mem qq
      | with_reducible apply @sound_regs qq | with_reducible apply @sound_phase qq | with_reducible apply sound_pending
      | dsimp only)

theorem doLinkDown_sound (P : Nat) {s : State} (h : s.Ok qq) : (doLinkDown P s).Ok qq := by
  unfold doLinkDown
  repeat' (first
      | with_reducible assumption | with_reducible intro _ | with_reducible apply goDown_sound
      | with_reducible apply sound_ite)

theorem ackBefore_sound (P : Nat) (n : Nat) {s : State} (h : s.Ok qq) : (ackBefore P n s).Ok qq := by
  unfold ackBefore
  repeat' (first
      | with_reducible assumption | with_reducible intro _ | with_reducible apply modLink_sound)

theorem doNak_sound (P : Nat) (n : Nat) {s : State} (h : s.Ok qq) : (doNak P n s).Ok qq := by
  unfold doNak
  repeat' (first
      | with_reducible assumption | with_reducible intro _ | with_reducible apply inc32_sound
      | with_reducible apply each_sound | with_reducible apply modLink_sound | with_reducible apply putFlit_sound
      | with_reducible apply goDown_sound | with_reducible apply ackBefore_sound | with_reducible apply sound_ite)

theorem pumpPort_sound (P : Nat) {s : State} (h : s.Ok qq) : (pumpPort P s).Ok qq := by
  unfold pumpPort
  repeat' (first
      | with_reducible assumption | with_reducible intro _ | with_reducible apply pumpAll_sound
      | with_reducible apply sendWaits_sound | dsimp only)

theorem addCredits_sound (P : Nat) (vc : Nat) (n : Nat) {s : State} (h : s.Ok qq) : (addCredits P vc n s).Ok qq := by
  unfold addCredits
  repeat' (first
      | with_reducible assumption | with_reducible intro _ | with_reducible apply pumpPort_sound
      | with_reducible apply modLink_sound | split | with_reducible apply sound_mk' | with_reducible apply @sound_mem qq
      | with_reducible apply @sound_regs qq | with_reducible apply @sound_phase qq | with_reducible apply sound_pending)

theorem doInit_sound (P : Nat) (vc : Nat) (n : Nat) {s : State} (h : s.Ok qq) : (doInit P vc n s).Ok qq := by
  unfold doInit
  repeat' (first
      | with_reducible assumption | with_reducible intro _ | with_reducible apply addCredits_sound
      | with_reducible apply sound_ite)

theorem doMarker_sound (P : Nat) (id : Nat) {s : State} (h : s.Ok qq) : (doMarker P id s).Ok qq := by
  unfold doMarker
  repeat' (first
      | with_reducible assumption | with_reducible intro _ | with_reducible apply putFlit_sound
      | with_reducible apply sound_ite)

theorem doEcho_sound (P : Nat) (id : Nat) (a : Nat) {s : State} (h : s.Ok qq) : (doEcho P id a s).Ok qq := by
  unfold doEcho
  repeat' (first
      | with_reducible assumption | with_reducible intro _ | with_reducible apply modLink_sound
      | with_reducible apply sound_ite)

theorem doEchoTimeout_sound (P : Nat) {s : State} (h : s.Ok qq) : (doEchoTimeout P s).Ok qq := by
  unfold doEchoTimeout
  repeat' (first
      | with_reducible assumption | with_reducible intro _ | with_reducible apply modLink_sound
      | with_reducible apply sound_ite)

theorem takeData_sound (P : Nat) (f : Flit) {s : State} (h : s.Ok qq) : (takeData P f s).Ok qq := by
  unfold takeData
  repeat' (first
      | with_reducible assumption | with_reducible intro _ | with_reducible apply modLink_sound
      | with_reducible apply sendIdle_sound | with_reducible apply sound_ite | split | with_reducible apply sound_mk'
      | with_reducible apply @sound_mem qq | with_reducible apply @sound_regs qq | with_reducible apply @sound_phase qq
      | with_reducible apply sound_pending | dsimp only)

theorem doFlit_sound (P : Nat) (f : Flit) {s : State} (h : s.Ok qq) : (doFlit P f s).Ok qq := by
  unfold doFlit
  repeat' (first
      | with_reducible assumption | with_reducible intro _ | with_reducible apply sendIdle_sound
      | with_reducible apply modLink_sound | with_reducible apply doInit_sound | with_reducible apply doEcho_sound
      | with_reducible apply ackBefore_sound | with_reducible apply doNak_sound | with_reducible apply addCredits_sound
      | with_reducible apply takeData_sound | with_reducible apply doMarker_sound | with_reducible apply sound_ite | split
      | with_reducible apply sound_mk' | with_reducible apply @sound_mem qq | with_reducible apply @sound_regs qq
      | with_reducible apply @sound_phase qq | with_reducible apply sound_pending | dsimp only)

theorem respond_sound (P : Nat) (k : Pkt) (opc : Nat) (st : Nat) (flags : Nat) (d : List Byte) {s : State} (h : s.Ok qq) : (respond P k opc st flags d s).Ok qq := by
  unfold respond
  repeat' (first
      | with_reducible assumption | with_reducible intro _ | with_reducible apply sendPkt_sound)

theorem refuse_sound (P : Nat) (k : Pkt) (opc : Nat) (st : Nat) {s : State} (h : s.Ok qq) : (refuse P k opc st s).Ok qq := by
  unfold refuse
  repeat' (first
      | with_reducible assumption | with_reducible intro _ | with_reducible apply inc32_sound
      | with_reducible apply respond_sound | with_reducible apply sound_ite)

theorem serve_sound (P : Nat) (opc : Nat) (k : Pkt) {s : State} (h : s.Ok qq) : (serve P opc k s).Ok qq := by
  unfold serve
  repeat' (first
      | with_reducible assumption | with_reducible intro _ | with_reducible apply refuse_sound
      | with_reducible apply errNoted_sound | with_reducible apply inc64_sound | with_reducible apply respond_sound
      | with_reducible apply tookBytes_sound | with_reducible apply landBytes_sound | with_reducible apply mend_sound
      | with_reducible apply sound_ite | split | dsimp only)

theorem doBadPacket_sound (P : Nat) (opc : Nat) {s : State} (h : s.Ok qq) : (doBadPacket P opc s).Ok qq := by
  unfold doBadPacket
  repeat' (first
      | with_reducible assumption | with_reducible intro _ | with_reducible apply inc32_sound | with_reducible apply sound_ite)

end Sys2Proof.Machine
end

