-- ==== Sys2Proof/Laws/SoundDma.lean ====
section
/-! SUPPORT. The operations of Machine/Dma.lean keep a sound state sound. -/

namespace Sys2Proof.Machine

variable {qq : List Instr}

theorem windowE_keeps (w : Who) (perm : Nat) (ga : Nat) (len : Nat) : Keeps (windowE w perm ga len) := by
  unfold windowE
  repeat' (first
      | with_reducible assumption | with_reducible exact keeps_pure _ | with_reducible intro _
      | with_reducible apply keeps_bind | with_reducible apply keeps_map
      | refine Keeps.ok ?_ ?_ (by with_reducible assumption) | refine Keeps.error ?_ ?_ (by with_reducible assumption)
      | with_reducible exact keeps_pure _ | with_reducible apply keeps_bind | with_reducible apply keeps_ite
      | with_reducible apply keeps_map | with_reducible apply keeps_ite | split
      | (intro _ s h; dsimp only; (repeat' split) <;> exact h))

theorem digestResult_keeps (w : Who) (cl : Nat) (digaddr : Nat) (bs : List Byte) : Keeps (digestResult w cl digaddr bs) := by
  unfold digestResult
  repeat' (first
      | with_reducible assumption | with_reducible exact keeps_pure _ | with_reducible intro _
      | with_reducible apply keeps_bind | with_reducible apply keeps_map | with_reducible apply readE_keeps
      | with_reducible apply cmShare_keeps)

theorem weightRef_keeps (w : Who) (idx : Nat) (off : Nat) (len : Nat) : Keeps (weightRef w idx off len) := by
  unfold weightRef
  repeat' (first
      | with_reducible assumption | with_reducible exact keeps_pure _ | with_reducible intro _
      | with_reducible apply keeps_bind | with_reducible apply keeps_map
      | refine Keeps.ok ?_ ?_ (by with_reducible assumption) | refine Keeps.error ?_ ?_ (by with_reducible assumption)
      | with_reducible exact keeps_pure _ | with_reducible apply keeps_bind | with_reducible apply keeps_ite
      | with_reducible apply keeps_map | with_reducible apply keeps_ite | split
      | (intro _ s h; dsimp only; (repeat' split) <;> exact h))

theorem dmWork_keeps (p : Pay) (m : EngCmd) : Keeps (dmWork p m) := by
  unfold dmWork
  repeat' (first
      | with_reducible assumption | with_reducible exact keeps_pure _ | with_reducible intro _
      | with_reducible apply keeps_bind | with_reducible apply keeps_map | with_reducible apply look_keeps
      | with_reducible apply decodeE_keeps | with_reducible apply weightRef_keeps | with_reducible apply gatherM_keeps
      | with_reducible apply readE_keeps | with_reducible apply writeE_keeps | with_reducible apply digestResult_keeps
      | with_reducible apply keeps_ite)

theorem sendE_keeps (w : Who) (m : EngCmd) (win : Nat) (opc : Nat) (ga : Nat) (n : Nat) (use : TagUse) (d : List Byte) : Keeps (sendE w m win opc ga n use d) := by
  unfold sendE
  repeat' (first
      | with_reducible assumption | with_reducible exact keeps_pure _ | with_reducible intro _
      | with_reducible apply keeps_bind | with_reducible apply keeps_map | with_reducible apply upd_keeps
      | with_reducible apply launch_sound)

theorem spcopyWork_keeps (p : Pay) (m : EngCmd) : Keeps (spcopyWork p m) := by
  unfold spcopyWork
  repeat' (first
      | with_reducible assumption | with_reducible exact keeps_pure _ | with_reducible intro _
      | with_reducible apply keeps_bind | with_reducible apply keeps_map | with_reducible apply look_keeps
      | with_reducible apply eachM_keeps | with_reducible apply readE_keeps | with_reducible apply cmShare_keeps
      | with_reducible apply checkE_keeps | with_reducible apply decodeE_keeps | with_reducible apply windowE_keeps
      | with_reducible apply sendE_keeps | with_reducible apply keeps_ite)

theorem spatomWork_keeps (p : Pay) (m : EngCmd) : Keeps (spatomWork p m) := by
  unfold spatomWork
  repeat' (first
      | with_reducible assumption | with_reducible exact keeps_pure _ | with_reducible intro _
      | with_reducible apply keeps_bind | with_reducible apply keeps_map | with_reducible apply look_keeps
      | with_reducible apply eachM_keeps | with_reducible apply readE_keeps | with_reducible apply decodeE_keeps
      | with_reducible apply windowE_keeps | with_reducible apply sendE_keeps)

theorem fenceHold_some {m : EngCmd} {s t : State} (h : s.Ok qq) (e : fenceHold m s = some t) : t.Ok qq := by
  unfold fenceHold at e
  split at e
  · cases e; exact h
  · cases e

theorem fenceWork_keeps (p : Pay) (m : EngCmd) : Keeps (fenceWork p m) := by
  unfold fenceWork
  repeat' (first
      | with_reducible assumption | with_reducible exact keeps_pure _ | with_reducible intro _
      | with_reducible apply keeps_bind | with_reducible apply keeps_map | with_reducible apply look_keeps
      | with_reducible apply decodeE_keeps)

theorem setLoad_sound (core : Nat) (ctx : Nat) (v : DWord) {s : State} (h : s.Ok qq) : (setLoad core ctx v s).Ok qq := by
  unfold setLoad
  repeat' (first
      | with_reducible assumption | with_reducible intro _ | with_reducible apply sound_ite | split
      | with_reducible apply sound_mk' | with_reducible apply @sound_mem qq | with_reducible apply @sound_regs qq
      | with_reducible apply @sound_phase qq | with_reducible apply sound_pending)

theorem ccAccess_keeps (core : Nat) (ctx : Nat) (opc : Nat) (ga : Nat) (n : Nat) (d : List Byte) : Keeps (ccAccess core ctx opc ga n d) := by
  unfold ccAccess
  repeat' (first
      | with_reducible assumption | with_reducible exact keeps_pure _ | with_reducible intro _
      | with_reducible apply keeps_bind | with_reducible apply keeps_map | with_reducible apply upd_keeps
      | with_reducible apply look_keeps | with_reducible apply readE_keeps | with_reducible apply writeE_keeps
      | with_reducible apply checkE_keeps | with_reducible apply stickFlags_sound | with_reducible apply launch_sound
      | with_reducible apply windowE_keeps | with_reducible apply setLoad_sound | with_reducible apply keeps_ite)

theorem doCcAccess_sound (core : Nat) (ctx : Nat) (opc : Nat) (ga : Nat) (n : Nat) (d : List Byte) {s : State} (h : s.Ok qq) : (doCcAccess core ctx opc ga n d s).Ok qq := by
  unfold doCcAccess
  repeat' (first
      | with_reducible assumption | with_reducible intro _ | with_reducible apply doCcExc_sound
      | with_reducible apply ccAccess_keeps | with_reducible apply faultCtx_sound
      | refine Keeps.ok ?_ ?_ (by with_reducible assumption) | refine Keeps.error ?_ ?_ (by with_reducible assumption)
      | with_reducible exact keeps_pure _ | with_reducible apply keeps_bind | with_reducible apply keeps_ite
      | with_reducible apply keeps_map | with_reducible apply sound_ite | split)

theorem tagFault_sound (t : Tag) (reason : Nat) {s : State} (h : s.Ok qq) : (tagFault t reason s).Ok qq := by
  unfold tagFault
  repeat' (first
      | with_reducible assumption | with_reducible intro _ | with_reducible apply faultCtx_sound)

theorem dropTag_sound (n : Nat) {s : State} (h : s.Ok qq) : (dropTag n s).Ok qq := by
  unfold dropTag
  repeat' (first
      | with_reducible assumption | with_reducible intro _ | with_reducible apply sound_ite | split
      | with_reducible apply sound_mk' | with_reducible apply @sound_mem qq | with_reducible apply @sound_regs qq
      | with_reducible apply @sound_phase qq | with_reducible apply sound_pending)

theorem mapCmds_sound (f : EngCmd → EngCmd) {s : State} (h : s.Ok qq) : (mapCmds f s).Ok qq := by
  unfold mapCmds
  repeat' (first
      | with_reducible assumption | with_reducible intro _ | with_reducible apply sound_ite | split
      | with_reducible apply sound_mk' | with_reducible apply @sound_mem qq | with_reducible apply @sound_regs qq
      | with_reducible apply @sound_phase qq | with_reducible apply sound_pending)

theorem checkDigest_sound (t : Tag) {s : State} (h : s.Ok qq) : (checkDigest t s).Ok qq := by
  unfold checkDigest
  repeat' (first
      | with_reducible assumption | with_reducible intro _ | with_reducible apply faultCtx_sound
      | with_reducible apply digestResult_keeps | with_reducible apply mapCmds_sound
      | refine Keeps.ok ?_ ?_ (by with_reducible assumption) | refine Keeps.error ?_ ?_ (by with_reducible assumption)
      | with_reducible exact keeps_pure _ | with_reducible apply keeps_bind | with_reducible apply keeps_ite
      | with_reducible apply keeps_map | with_reducible apply sound_ite | split)

theorem deliver_sound (P : Nat) (t : Tag) (d : List Byte) {s : State} (h : s.Ok qq) : (deliver P t d s).Ok qq := by
  unfold deliver
  repeat' (first
      | with_reducible assumption | with_reducible intro _ | with_reducible apply crossDies_sound
      | with_reducible apply charge_sound | with_reducible apply writeE_keeps | with_reducible apply faultCtx_sound
      | with_reducible apply checkDigest_sound | with_reducible apply mapCmds_sound | with_reducible apply setLoad_sound
      | refine Keeps.ok ?_ ?_ (by with_reducible assumption) | refine Keeps.error ?_ ?_ (by with_reducible assumption)
      | with_reducible exact keeps_pure _ | with_reducible apply keeps_bind | with_reducible apply keeps_ite
      | with_reducible apply keeps_map | with_reducible apply sound_ite | split | with_reducible apply sound_mk'
      | with_reducible apply @sound_mem qq | with_reducible apply @sound_regs qq | with_reducible apply @sound_phase qq
      | with_reducible apply sound_pending | dsimp only)

theorem doResponse_sound (P : Nat) (isRead : Bool) (k : Pkt) {s : State} (h : s.Ok qq) : (doResponse P isRead k s).Ok qq := by
  unfold doResponse
  repeat' (first
      | with_reducible assumption | with_reducible intro _ | with_reducible apply orR_sound
      | with_reducible apply inc32_sound | with_reducible apply stickFlags_sound | with_reducible apply flushWaits_sound
      | with_reducible apply setStale_sound | with_reducible apply tagFault_sound | with_reducible apply dropTag_sound
      | with_reducible apply mapCmds_sound | with_reducible apply deliver_sound | with_reducible apply sound_ite | split)

theorem doReqTimeout_sound (n : Nat) {s : State} (h : s.Ok qq) : (doReqTimeout n s).Ok qq := by
  unfold doReqTimeout
  repeat' (first
      | with_reducible assumption | with_reducible intro _ | with_reducible apply tagFault_sound
      | with_reducible apply sound_ite | split | with_reducible apply sound_mk' | with_reducible apply @sound_mem qq
      | with_reducible apply @sound_regs qq | with_reducible apply @sound_phase qq | with_reducible apply sound_pending)

theorem doTagRelease_sound (n : Nat) {s : State} (h : s.Ok qq) : (doTagRelease n s).Ok qq := by
  unfold doTagRelease
  repeat' (first
      | with_reducible assumption | with_reducible intro _ | with_reducible apply flushWaits_sound
      | with_reducible apply dropTag_sound | with_reducible apply sound_ite)

theorem doWindowTimeout_sound (p : Nat) (n : Nat) {s : State} (h : s.Ok qq) : (doWindowTimeout p n s).Ok qq := by
  unfold doWindowTimeout
  repeat' (first
      | with_reducible assumption | with_reducible intro _ | with_reducible apply refuseWaits_sound)

end Sys2Proof.Machine
end

