-- ==== Sys2Proof/Laws/SoundMemories.lean ====
section
/-! SUPPORT. The operations of Machine/Memories.lean keep a sound state sound. -/

namespace Sys2Proof.Machine

variable {qq : List Instr}

theorem starved_sound (k : Nat) (n : Nat) {s : State} (h : s.Ok qq) : (starved k n s).Ok qq := by
  unfold starved
  repeat' (first
      | with_reducible assumption | with_reducible intro _ | with_reducible apply setF_sound
      | with_reducible apply setN_sound | with_reducible apply inc32_sound | with_reducible apply inc64_sound
      | with_reducible apply sound_ite)

theorem doCredit_sound (g : Nat) {s : State} (h : s.Ok qq) : (doCredit g s).Ok qq := by
  unfold doCredit
  repeat' (first
      | with_reducible assumption | with_reducible intro _ | with_reducible apply sound_ite | split
      | with_reducible apply sound_mk' | with_reducible apply @sound_mem qq | with_reducible apply @sound_regs qq
      | with_reducible apply @sound_phase qq | with_reducible apply sound_pending)

theorem doWindow_sound (p : Nat) {s : State} (h : s.Ok qq) : (doWindow p s).Ok qq := by
  unfold doWindow
  repeat' (first
      | with_reducible assumption | with_reducible intro _ | with_reducible apply setN_sound | with_reducible apply setF_sound
      | with_reducible apply foldl_sound | with_reducible apply foldl_fst_sound | with_reducible apply sound_ite | split
      | with_reducible apply sound_mk' | with_reducible apply @sound_mem qq | with_reducible apply @sound_regs qq
      | with_reducible apply @sound_phase qq | with_reducible apply sound_pending | dsimp only)

theorem patrolUe_sound (g : Nat) (row : Nat) {s : State} (h : s.Ok qq) : (patrolUe g row s).Ok qq := by
  unfold patrolUe
  repeat' (first
      | with_reducible assumption | with_reducible intro _ | with_reducible apply setN_sound
      | with_reducible apply devLog_sound | with_reducible apply noteUe_sound | with_reducible apply sound_ite | split
      | with_reducible apply sound_mk' | with_reducible apply @sound_mem qq | with_reducible apply @sound_regs qq
      | with_reducible apply @sound_phase qq | with_reducible apply sound_pending)

theorem doPatrol_sound (g : Nat) (find : PatrolFind) {s : State} (h : s.Ok qq) : (doPatrol g find s).Ok qq := by
  unfold doPatrol
  repeat' (first
      | with_reducible assumption | with_reducible intro _ | with_reducible apply patrolUe_sound
      | with_reducible apply noteCe_sound | with_reducible apply sound_ite | split | with_reducible apply sound_mk'
      | with_reducible apply @sound_mem qq | with_reducible apply @sound_regs qq | with_reducible apply @sound_phase qq
      | with_reducible apply sound_pending | dsimp only)

theorem doScrub_sound (g : Nat) (row : Nat) {s : State} (h : s.Ok qq) : (doScrub g row s).Ok qq := by
  unfold doScrub
  repeat' (first
      | with_reducible assumption | with_reducible intro _ | with_reducible apply memForget_sound
      | with_reducible apply set64_sound | with_reducible apply sound_ite | split | with_reducible apply sound_mk'
      | with_reducible apply @sound_mem qq | with_reducible apply @sound_regs qq | with_reducible apply @sound_phase qq
      | with_reducible apply sound_pending | dsimp only)

end Sys2Proof.Machine
end

