-- ==== Sys2Proof/Laws/SoundReduction.lean ====
section
/-! SUPPORT. The operations of Machine/Reduction.lean keep a sound state sound. -/

namespace Sys2Proof.Machine

variable {qq : List Instr}

theorem modRed_sound (k : Nat) (f : RedCh → RedCh) {s : State} (h : s.Ok qq) : (modRed k f s).Ok qq := by
  unfold modRed
  repeat' (first
      | with_reducible assumption | with_reducible intro _ | with_reducible apply setRed_sound)

theorem modBucket_sound (k : Nat) (f : Bucket → Bucket) {s : State} (h : s.Ok qq) : (modBucket k f s).Ok qq := by
  unfold modBucket
  repeat' (first
      | with_reducible assumption | with_reducible intro _ | with_reducible apply modRed_sound)

theorem redFault_sound (k : Nat) (q : Post) (f : Flt) {s : State} (h : s.Ok qq) : (redFault k q f s).Ok qq := by
  unfold redFault
  repeat' (first
      | with_reducible assumption | with_reducible intro _ | with_reducible apply setF_sound
      | with_reducible apply faultCtx_sound | with_reducible apply showRdc_sound | with_reducible apply modRed_sound)

theorem rdpostHold_some {p : Pay} {m : EngCmd} {s t : State} (h : s.Ok qq) (e : rdpostHold p m s = some t) : t.Ok qq := by
  unfold rdpostHold at e
  split at e
  · cases e; exact h
  · cases e

theorem rdpostWork_keeps (p : Pay) (m : EngCmd) : Keeps (rdpostWork p m) := by
  unfold rdpostWork
  repeat' (first
      | with_reducible assumption | with_reducible exact keeps_pure _ | with_reducible intro _
      | with_reducible apply keeps_bind | with_reducible apply keeps_map | with_reducible apply look_keeps
      | with_reducible apply guardE_keeps | with_reducible apply upd_keeps | with_reducible apply showRdc_sound
      | with_reducible apply modRed_sound | with_reducible apply keeps_ite | with_reducible apply sound_ite
      | with_reducible apply sound_mk' | with_reducible apply sound_mem | with_reducible apply sound_regs
      | with_reducible apply sound_phase | with_reducible apply sound_pending)

theorem sendRed_sound (k : Nat) (b : Bucket) (opc : Nat) (j : Nat) (arg : Nat) (data : List Byte) {s : State} (h : s.Ok qq) : (sendRed k b opc j arg data s).Ok qq := by
  unfold sendRed
  repeat' (first
      | with_reducible assumption | with_reducible intro _ | with_reducible apply sendSlots_sound
      | with_reducible apply sound_ite | split | with_reducible apply sound_mk' | with_reducible apply @sound_mem qq
      | with_reducible apply @sound_regs qq | with_reducible apply @sound_phase qq | with_reducible apply sound_pending
      | dsimp only)

theorem redDrop_sound (k : Nat) {s : State} (h : s.Ok qq) : (redDrop k s).Ok qq := by
  unfold redDrop
  repeat' (first
      | with_reducible assumption | with_reducible intro _ | with_reducible apply inc32_sound)

theorem takeRed_sound (q : RedPkt) (early : State → State) (f : Bucket → State → State) (he : ∀ t, t.Ok qq → (early t).Ok qq) (hf : ∀ b t, t.Ok qq → (f b t).Ok qq) {s : State} (h : s.Ok qq) : (takeRed q early f s).Ok qq := by
  unfold takeRed
  repeat' (first
      | with_reducible assumption | with_reducible intro _ | with_reducible apply he | with_reducible apply hf
      | with_reducible apply inc32_sound | with_reducible apply redFault_sound | with_reducible apply redDrop_sound
      | with_reducible apply sound_ite | split)

theorem readValues_keeps (w : Who) (d : List Byte) (strict : Bool) : Keeps (readValues w d strict) := by
  unfold readValues
  repeat' (first
      | with_reducible assumption | with_reducible exact keeps_pure _ | with_reducible intro _
      | with_reducible apply keeps_bind | with_reducible apply keeps_map | with_reducible apply readE_keeps
      | with_reducible apply readWords_keeps | with_reducible apply keeps_ite)

theorem startBucket_keeps (k : Nat) (q : Post) : Keeps (startBucket k q) := by
  unfold startBucket
  repeat' (first
      | with_reducible assumption | with_reducible exact keeps_pure _ | with_reducible intro _
      | with_reducible apply keeps_bind | with_reducible apply keeps_map | with_reducible apply look_keeps
      | with_reducible apply cmShare_keeps | with_reducible apply readE_keeps | with_reducible apply guardE_keeps
      | with_reducible apply writeE_keeps | with_reducible apply readValues_keeps | with_reducible apply keeps_ite)

theorem doStart_sound (k : Nat) {s : State} (h : s.Ok qq) : (doStart k s).Ok qq := by
  unfold doStart
  repeat' (first
      | with_reducible assumption | with_reducible intro _ | with_reducible apply modRed_sound
      | with_reducible apply setN_sound | with_reducible apply setF_sound | with_reducible apply redFault_sound
      | with_reducible apply startBucket_keeps | with_reducible apply each_sound | with_reducible apply redDrop_sound
      | with_reducible apply showRdc_sound | with_reducible apply sendRed_sound
      | refine Keeps.ok ?_ ?_ (by with_reducible assumption) | refine Keeps.error ?_ ?_ (by with_reducible assumption)
      | with_reducible exact keeps_pure _ | with_reducible apply keeps_bind | with_reducible apply keeps_ite
      | with_reducible apply keeps_map | with_reducible apply sound_ite | split | with_reducible apply sound_mk'
      | with_reducible apply @sound_mem qq | with_reducible apply @sound_regs qq | with_reducible apply @sound_phase qq
      | with_reducible apply sound_pending | dsimp only)

theorem doRdmax_sound (q : RedPkt) {s : State} (h : s.Ok qq) : (doRdmax q s).Ok qq := by
  unfold doRdmax
  repeat' (first
      | with_reducible assumption | with_reducible intro _ | with_reducible apply takeRed_sound
      | with_reducible apply modRed_sound | with_reducible apply redDrop_sound | with_reducible apply modBucket_sound
      | with_reducible apply sound_ite | split | with_reducible apply sound_mk' | with_reducible apply @sound_mem qq
      | with_reducible apply @sound_regs qq | with_reducible apply @sound_phase qq | with_reducible apply sound_pending
      | dsimp only)

theorem addWork_keeps (w : Who) (wk : Nat) (lo : Nat) (cs : List (Nat × Int)) : Keeps (addWork w wk lo cs) := by
  unfold addWork
  repeat' (first
      | with_reducible assumption | with_reducible exact keeps_pure _ | with_reducible intro _
      | with_reducible apply keeps_bind | with_reducible apply keeps_map | with_reducible apply eachM_keeps
      | with_reducible apply readE_keeps | with_reducible apply writeE_keeps)

theorem sendHome_sound (k : Nat) (b : Bucket) (sparse : Bool) (j : Nat) (cs : List (Nat × Int)) {s : State} (h : s.Ok qq) : (sendHome k b sparse j cs s).Ok qq := by
  unfold sendHome
  repeat' (first
      | with_reducible assumption | with_reducible intro _ | with_reducible apply each_sound
      | with_reducible apply sendRed_sound | with_reducible apply sound_ite)

theorem phase2_keeps (k : Nat) (b : Bucket) : Keeps (phase2 k b) := by
  unfold phase2
  repeat' (first
      | with_reducible assumption | with_reducible exact keeps_pure _ | with_reducible intro _
      | with_reducible apply keeps_bind | with_reducible apply keeps_map | with_reducible apply look_keeps
      | with_reducible apply readValues_keeps | with_reducible apply writeE_keeps | with_reducible apply addWork_keeps
      | with_reducible apply upd_keeps | with_reducible apply each_sound | with_reducible apply sendHome_sound
      | with_reducible apply keeps_ite | with_reducible apply sound_ite | with_reducible apply sound_mk'
      | with_reducible apply sound_mem | with_reducible apply sound_regs | with_reducible apply sound_phase
      | with_reducible apply sound_pending)

theorem bucketWork_sound (k : Nat) (b : Bucket) (work : Eng Bucket) (hw : Keeps work) {s : State} (h : s.Ok qq) : (bucketWork k b work s).Ok qq := by
  unfold bucketWork
  repeat' (first
      | with_reducible assumption | with_reducible intro _ | with_reducible apply modRed_sound
      | with_reducible apply redFault_sound | refine Keeps.ok ?_ ?_ (by with_reducible assumption)
      | refine Keeps.error ?_ ?_ (by with_reducible assumption) | with_reducible exact keeps_pure _
      | with_reducible apply keeps_bind | with_reducible apply keeps_ite | with_reducible apply keeps_map
      | with_reducible apply sound_ite | split)

theorem doPhase2_sound (k : Nat) {s : State} (h : s.Ok qq) : (doPhase2 k s).Ok qq := by
  unfold doPhase2
  repeat' (first
      | with_reducible assumption | with_reducible intro _ | with_reducible apply phase2_keeps
      | with_reducible apply bucketWork_sound | with_reducible apply sound_ite | split)

theorem takeParts_keeps (k : Nat) (b : Bucket) (j : Nat) (cs : List (Nat × Int)) : Keeps (takeParts k b j cs) := by
  unfold takeParts
  repeat' (first
      | with_reducible assumption | with_reducible exact keeps_pure _ | with_reducible intro _
      | with_reducible apply keeps_bind | with_reducible apply keeps_map | with_reducible apply guardE_keeps
      | with_reducible apply look_keeps | with_reducible apply addWork_keeps | with_reducible apply keeps_ite
      | with_reducible apply sound_ite | with_reducible apply sound_mk' | with_reducible apply sound_mem
      | with_reducible apply sound_regs | with_reducible apply sound_phase | with_reducible apply sound_pending)

theorem doRdpart_sound (q : RedPkt) {s : State} (h : s.Ok qq) : (doRdpart q s).Ok qq := by
  unfold doRdpart
  repeat' (first
      | with_reducible assumption | with_reducible intro _ | with_reducible apply redDrop_sound
      | with_reducible apply takeRed_sound | with_reducible apply bucketWork_sound | with_reducible apply takeParts_keeps)

theorem doRdpair_sound (q : RedPkt) {s : State} (h : s.Ok qq) : (doRdpair q s).Ok qq := by
  unfold doRdpair
  repeat' (first
      | with_reducible assumption | with_reducible intro _ | with_reducible apply redDrop_sound
      | with_reducible apply takeRed_sound | with_reducible apply bucketWork_sound | with_reducible apply takeParts_keeps)

theorem doRddone_sound (q : RedPkt) {s : State} (h : s.Ok qq) : (doRddone q s).Ok qq := by
  unfold doRddone
  repeat' (first
      | with_reducible assumption | with_reducible intro _ | with_reducible apply modBucket_sound
      | with_reducible apply redFault_sound | with_reducible apply redDrop_sound | with_reducible apply takeRed_sound
      | with_reducible apply sound_ite)

theorem homeWork_keeps (k : Nat) (b : Bucket) : Keeps (homeWork k b) := by
  unfold homeWork
  repeat' (first
      | with_reducible assumption | with_reducible exact keeps_pure _ | with_reducible intro _
      | with_reducible apply keeps_bind | with_reducible apply keeps_map | with_reducible apply each_sound
      | with_reducible apply upd_keeps | with_reducible apply look_keeps | with_reducible apply readE_keeps
      | with_reducible apply writeE_keeps | with_reducible apply sendRed_sound | with_reducible apply keeps_ite)

theorem doHome_sound (k : Nat) {s : State} (h : s.Ok qq) : (doHome k s).Ok qq := by
  unfold doHome
  repeat' (first
      | with_reducible assumption | with_reducible intro _ | with_reducible apply bucketWork_sound
      | with_reducible apply homeWork_keeps | with_reducible apply sound_ite | split)

theorem takeResults_keeps (k : Nat) (b : Bucket) (j : Nat) (at_ : Nat) (data : List Byte) : Keeps (takeResults k b j at_ data) := by
  unfold takeResults
  repeat' (first
      | with_reducible assumption | with_reducible exact keeps_pure _ | with_reducible intro _
      | with_reducible apply keeps_bind | with_reducible apply keeps_map | with_reducible apply look_keeps
      | with_reducible apply writeE_keeps)

theorem doRdres_sound (q : RedPkt) {s : State} (h : s.Ok qq) : (doRdres q s).Ok qq := by
  unfold doRdres
  repeat' (first
      | with_reducible assumption | with_reducible intro _ | with_reducible apply redDrop_sound
      | with_reducible apply takeRed_sound | with_reducible apply bucketWork_sound | with_reducible apply takeResults_keeps
      | with_reducible apply sound_ite)

theorem finishWork_keeps (k : Nat) (b : Bucket) : Keeps (finishWork k b) := by
  unfold finishWork
  repeat' (first
      | with_reducible assumption | with_reducible exact keeps_pure _ | with_reducible intro _
      | with_reducible apply keeps_bind | with_reducible apply keeps_map | with_reducible apply bumpFree_sound
      | with_reducible apply upd_keeps | with_reducible apply look_keeps | with_reducible apply writeE_keeps
      | with_reducible apply cmShare_keeps | with_reducible apply keeps_ite)

theorem doBucketEnd_sound (k : Nat) {s : State} (h : s.Ok qq) : (doBucketEnd k s).Ok qq := by
  unfold doBucketEnd
  repeat' (first
      | with_reducible assumption | with_reducible intro _ | with_reducible apply setF_sound
      | with_reducible apply inc32_sound | with_reducible apply mapCmds_sound | with_reducible apply showRdc_sound
      | with_reducible apply modRed_sound | with_reducible apply redFault_sound | with_reducible apply finishWork_keeps
      | refine Keeps.ok ?_ ?_ (by with_reducible assumption) | refine Keeps.error ?_ ?_ (by with_reducible assumption)
      | with_reducible exact keeps_pure _ | with_reducible apply keeps_bind | with_reducible apply keeps_ite
      | with_reducible apply keeps_map | with_reducible apply sound_ite | split)

theorem doRdcTimeout_sound (k : Nat) {s : State} (h : s.Ok qq) : (doRdcTimeout k s).Ok qq := by
  unfold doRdcTimeout
  repeat' (first
      | with_reducible assumption | with_reducible intro _ | with_reducible apply redFault_sound
      | with_reducible apply sound_ite | split)

end Sys2Proof.Machine
end

