-- ==== Sys2Proof/Laws/SoundFabricMgr.lean ====
section
/-! SUPPORT. The operations of Machine/FabricMgr.lean keep a sound state sound. -/

namespace Sys2Proof.Machine

variable {qq : List Instr}

theorem mgmtDrop_sound  {s : State} (h : s.Ok qq) : (mgmtDrop s).Ok qq := by
  unfold mgmtDrop
  repeat' (first
      | with_reducible assumption | with_reducible intro _ | with_reducible apply inc32_sound)

theorem inSession_sound (authentic : Bool) (f : State → State) (hf : ∀ t, t.Ok qq → (f t).Ok qq) {s : State} (h : s.Ok qq) : (inSession authentic f s).Ok qq := by
  unfold inSession
  repeat' (first
      | with_reducible assumption | with_reducible intro _ | with_reducible apply hf | with_reducible apply sessCheck_sound
      | with_reducible apply mgmtDrop_sound | with_reducible apply sound_ite | split | with_reducible apply sound_mk'
      | with_reducible apply @sound_mem qq | with_reducible apply @sound_regs qq | with_reducible apply @sound_phase qq
      | with_reducible apply sound_pending)

theorem doAnnounce_sound (P : Nat) {s : State} (h : s.Ok qq) : (doAnnounce P s).Ok qq := by
  unfold doAnnounce
  repeat' (first
      | with_reducible assumption | with_reducible intro _ | with_reducible apply announce_sound
      | with_reducible apply sound_ite)

theorem doAssign_sound (q : Nat) (m : Nat) (gen : Nat) {s : State} (h : s.Ok qq) : (doAssign q m gen s).Ok qq := by
  unfold doAssign
  repeat' (first
      | with_reducible assumption | with_reducible intro _ | with_reducible apply setN_sound
      | with_reducible apply nextSeq_sound | with_reducible apply sendSess_sound | with_reducible apply sound_ite | split
      | with_reducible apply sound_mk' | with_reducible apply @sound_mem qq | with_reducible apply @sound_regs qq
      | with_reducible apply @sound_phase qq | with_reducible apply sound_pending)

theorem doPeerNotice_sound (kind : PeerKind) (m : Nat) (p : Nat) (e : Nat) {s : State} (h : s.Ok qq) : (doPeerNotice kind m p e s).Ok qq := by
  unfold doPeerNotice
  repeat' (first
      | with_reducible assumption | with_reducible intro _ | with_reducible apply orR_sound | with_reducible apply each_sound
      | with_reducible apply setStale_sound | with_reducible apply sound_ite)

theorem doQuery_sound (q : Nat) {s : State} (h : s.Ok qq) : (doQuery q s).Ok qq := by
  unfold doQuery
  repeat' (first
      | with_reducible assumption | with_reducible intro _ | with_reducible apply nextSeq_sound
      | with_reducible apply sendSess_sound)

theorem doNoticeAck_sound (opc : Nat) (q : Nat) {s : State} (h : s.Ok qq) : (doNoticeAck opc q s).Ok qq := by
  unfold doNoticeAck
  repeat' (first
      | with_reducible assumption | with_reducible intro _ | with_reducible apply sound_ite | split
      | with_reducible apply sound_mk' | with_reducible apply @sound_mem qq | with_reducible apply @sound_regs qq
      | with_reducible apply @sound_phase qq | with_reducible apply sound_pending)

theorem doResend_sound  {s : State} (h : s.Ok qq) : (doResend s).Ok qq := by
  unfold doResend
  repeat' (first
      | with_reducible assumption | with_reducible intro _ | with_reducible apply each_sound
      | with_reducible apply sendSess_sound)

theorem sendFrags_sound (P attempt count i : Nat) (l : List (List Byte)) {s : State} (h : s.Ok qq) :
    (sendFrags P attempt count i l s).Ok qq := by
  induction l generalizing i s with
  | nil => exact h
  | cons d r ih => exact ih _ (sendMgmt_sound _ _ _ (nextSeq_sound h))

theorem takeOffer_sound (P : Nat) (attempt : Nat) (m : List Byte) {s : State} (h : s.Ok qq) : (takeOffer P attempt m s).Ok qq := by
  unfold takeOffer
  repeat' (first
      | with_reducible assumption | with_reducible intro _ | with_reducible apply mgmtDrop_sound
      | with_reducible apply bumpFree_sound | with_reducible apply sendFrags_sound | with_reducible apply sound_ite | split
      | with_reducible apply sound_mk' | with_reducible apply @sound_mem qq | with_reducible apply @sound_regs qq
      | with_reducible apply @sound_phase qq | with_reducible apply sound_pending | dsimp only)

theorem takeConfirm_sound (m : List Byte) {s : State} (h : s.Ok qq) : (takeConfirm m s).Ok qq := by
  unfold takeConfirm
  repeat' (first
      | with_reducible assumption | with_reducible intro _ | with_reducible apply setF_sound
      | with_reducible apply doResend_sound | with_reducible apply mgmtDrop_sound | with_reducible apply sound_ite | split
      | with_reducible apply sound_mk' | with_reducible apply @sound_mem qq | with_reducible apply @sound_regs qq
      | with_reducible apply @sound_phase qq | with_reducible apply sound_pending | dsimp only)

theorem doFrag_sound (attempt : Nat) (i : Nat) (n : Nat) (d : List Byte) {s : State} (h : s.Ok qq) : (doFrag attempt i n d s).Ok qq := by
  unfold doFrag
  repeat' (first
      | with_reducible assumption | with_reducible intro _ | with_reducible apply mgmtDrop_sound
      | with_reducible apply takeOffer_sound | with_reducible apply takeConfirm_sound | with_reducible apply sound_ite | split
      | with_reducible apply sound_mk' | with_reducible apply @sound_mem qq | with_reducible apply @sound_regs qq
      | with_reducible apply @sound_phase qq | with_reducible apply sound_pending | dsimp only)

end Sys2Proof.Machine
end

