-- ==== Sys2Proof/Laws/SoundPartitions.lean ====
section
/-! SUPPORT. The operations of Machine/Partitions.lean keep a sound state sound. -/

namespace Sys2Proof.Machine

variable {qq : List Instr}

theorem resetSL_sound (k : Nat) {s : State} (h : s.Ok qq) : (resetSL k s).Ok qq := by
  unfold resetSL
  repeat' (first
      | with_reducible assumption | with_reducible intro _ | with_reducible apply setR_sound | with_reducible apply sound_ite
      | split)

theorem clearCounters_sound (p : Nat) (cls : List Nat) {s : State} (h : s.Ok qq) : (clearCounters p cls s).Ok qq := by
  unfold clearCounters
  repeat' (first
      | with_reducible assumption | with_reducible intro _ | with_reducible apply setF_sound
      | with_reducible apply rstR_sound | with_reducible apply each_sound | with_reducible apply rstRs_sound)

theorem createPart_sound (p : Nat) (cmode : Nat) (envw : Nat) (clm : Word) (cls : List Nat) (cs : List Nat) {s : State} (h : s.Ok qq) : (createPart p cmode envw clm cls cs s).Ok qq := by
  unfold createPart
  repeat' (first
      | with_reducible assumption | with_reducible intro _ | with_reducible apply setR_sound
      | with_reducible apply setF_sound | with_reducible apply setN_sound | with_reducible apply each_sound
      | with_reducible apply rstRs_sound | with_reducible apply modPart_sound | with_reducible apply setPartState_sound
      | with_reducible apply setClst_sound | with_reducible apply zeroClusters_sound | with_reducible apply newMek_sound
      | with_reducible apply resetSL_sound | with_reducible apply clearCounters_sound)

theorem doCreate_sound (b : List Byte) {s : State} (h : s.Ok qq) : (doCreate b s).1.Ok qq := by
  unfold doCreate
  extract_lets p clm cls cs code
  clear_value code cls cs
  refine fst_ite h (fst_ite h ?_)
  exact createPart_sound _ _ _ _ _ _ h

theorem doPartSeal_sound (b : List Byte) {s : State} (h : s.Ok qq) : (doPartSeal b s).1.Ok qq := by
  unfold doPartSeal
  extract_lets p gs t code t1 t2 t3
  clear_value code
  have ht : t.Ok qq := sound_ite (modPart_sound _ _ h) h
  have h1 : t1.Ok qq := set64_sound _ _ (modPart_sound _ _ ht)
  have h2 : t2.Ok qq := setF_sound _ _ _ _ (resetLedger_sound _ h1)
  have h3 : t3.Ok qq := setPartState_sound _ _ h2
  clear_value t3
  exact fst_ite h (fst_ite h (fst_ite (setF_sound _ _ _ _ h) (fst_mk (sound_ite (noticeUp_sound _ h3) h3))))

theorem doDestroy_sound (b : List Byte) {s : State} (h : s.Ok qq) : (doDestroy b s).Ok qq := by
  unfold doDestroy
  repeat' (first
      | with_reducible assumption | with_reducible intro _ | with_reducible apply mbReply_sound
      | with_reducible apply mbPend_sound | with_reducible apply modPart_sound | with_reducible apply startDestroy_sound
      | with_reducible apply sound_ite | split | with_reducible apply sound_mk' | with_reducible apply @sound_mem qq
      | with_reducible apply @sound_regs qq | with_reducible apply @sound_phase qq | with_reducible apply sound_pending
      | dsimp only)

theorem doDestroyDrained_sound (p : Nat) {s : State} (h : s.Ok qq) : (doDestroyDrained p s).Ok qq := by
  unfold doDestroyDrained
  repeat' (first
      | with_reducible assumption | with_reducible intro _ | with_reducible apply finishDestroy_sound
      | with_reducible apply mbReply_sound | with_reducible apply sound_ite | split | with_reducible apply sound_mk'
      | with_reducible apply @sound_mem qq | with_reducible apply @sound_regs qq | with_reducible apply @sound_phase qq
      | with_reducible apply sound_pending)

end Sys2Proof.Machine
end

