-- ==== Sys2Proof/Laws/SoundSecurity.lean ====
section
/-! SUPPORT. The operations of Machine/Security.lean keep a sound state sound. -/

namespace Sys2Proof.Machine

variable {qq : List Instr}

theorem gated_sound (g : State → Option Nat) (f : State → State × Nat × List Byte) (hf : ∀ t, t.Ok qq → (f t).1.Ok qq) {s : State} (h : s.Ok qq) : (gated g f s).1.Ok qq := by
  unfold gated
  repeat' (first
      | with_reducible assumption | with_reducible intro _ | with_reducible apply fst_ite | with_reducible apply hf
      | with_reducible apply sound_ite | split)

theorem doReport_sound (fn : Nat) (b : List Byte) {s : State} (h : s.Ok qq) : (doReport fn b s).1.Ok qq := by
  unfold doReport
  repeat' (first
      | with_reducible assumption | with_reducible intro _ | with_reducible apply fst_ite)

theorem doBkey_sound (fn : Nat) (b : List Byte) {s : State} (h : s.Ok qq) : (doBkey fn b s).1.Ok qq := by
  unfold doBkey
  extract_lets p ep ss info kek
  clear_value ep ss info kek
  refine fst_ite h (fst_ite h ?_)
  generalize Config.gcmOpen _ _ _ _ _ = r
  cases r with
  | none => exact h
  | some kb =>
    refine fst_ite h ?_
    exact setF_sound _ _ _ _ (modPart_sound _ _ h)

theorem flashWrite_sound (a : Nat) (bs : List Byte) {s : State} (h : s.Ok qq) : (flashWrite a bs s).Ok qq := by
  unfold flashWrite
  repeat' (first
      | with_reducible assumption | with_reducible intro _ | with_reducible apply sound_ite | split
      | with_reducible apply sound_mk' | with_reducible apply @sound_mem qq | with_reducible apply @sound_regs qq
      | with_reducible apply @sound_phase qq | with_reducible apply sound_pending)

theorem doFwWrite_sound (b : List Byte) {s : State} (h : s.Ok qq) : (doFwWrite b s).1.Ok qq := by
  unfold doFwWrite
  repeat' (first
      | with_reducible assumption | with_reducible intro _ | with_reducible apply fst_ite
      | with_reducible apply flashWrite_sound)

theorem doActivate_sound  {s : State} (h : s.Ok qq) : (doActivate s).1.Ok qq := by
  unfold doActivate
  repeat' (first
      | with_reducible assumption | with_reducible intro _ | with_reducible apply fst_ite | with_reducible apply modSec_sound)

theorem setSvnMin_sound (v : Nat) {s : State} (h : s.Ok qq) : (setSvnMin v s).Ok qq := by
  unfold setSvnMin
  repeat' (first
      | with_reducible assumption | with_reducible intro _ | with_reducible apply setF_sound
      | with_reducible apply modSec_sound)

theorem doSvnCommit_sound (ok : Bool) {s : State} (h : s.Ok qq) : (doSvnCommit ok s).1.Ok qq := by
  unfold doSvnCommit
  repeat' (first
      | with_reducible assumption | with_reducible intro _ | with_reducible apply fst_ite
      | with_reducible apply bumpFree_sound | with_reducible apply setSvnMin_sound)

theorem doChallenge_sound  {s : State} (h : s.Ok qq) : (doChallenge s).1.Ok qq := by
  unfold doChallenge
  repeat' (first
      | with_reducible assumption | with_reducible intro _ | with_reducible apply fst_ite | with_reducible apply modSec_sound
      | with_reducible apply sound_ite | split | with_reducible apply sound_mk' | with_reducible apply @sound_mem qq
      | with_reducible apply @sound_regs qq | with_reducible apply @sound_phase qq | with_reducible apply sound_pending)

theorem doUnlock_sound (b : List Byte) {s : State} (h : s.Ok qq) : (doUnlock b s).1.Ok qq := by
  unfold doUnlock
  repeat' (first
      | with_reducible assumption | with_reducible intro _ | with_reducible apply fst_ite | with_reducible apply setF_sound
      | with_reducible apply modSec_sound)

theorem doCrashDump_sound (b : List Byte) {s : State} (h : s.Ok qq) : (doCrashDump b s).1.Ok qq := by
  have h' : (flashWrite crashArea (crashBytes s) { s with free := s.free + 6, sec := { s.sec with crashUnreach := [] } }).Ok qq :=
    flashWrite_sound _ _ (sound_same h rfl rfl rfl rfl)
  unfold doCrashDump
  exact fst_mk (sound_ite h' (hostWrite_sound _ _ _ _ _ h'))

theorem doCrashRead_sound (b : List Byte) {s : State} (h : s.Ok qq) : (doCrashRead b s).1.Ok qq := by
  unfold doCrashRead
  repeat' (first
      | with_reducible assumption | with_reducible intro _ | with_reducible apply fst_ite)

theorem doe_sound (fn : Nat) (r : SpdmRsp) (d : List Byte) {s : State} (h : s.Ok qq) : (doe fn r d s).Ok qq := by
  unfold doe
  repeat' (first
      | with_reducible assumption | with_reducible intro _ | with_reducible apply sound_ite | split
      | with_reducible apply sound_mk' | with_reducible apply @sound_mem qq | with_reducible apply @sound_regs qq
      | with_reducible apply @sound_phase qq | with_reducible apply sound_pending)

theorem spdm_sound (f : State → State) (hf : ∀ t, t.Ok qq → (f t).Ok qq) {s : State} (h : s.Ok qq) : (spdm f s).Ok qq := by
  unfold spdm
  repeat' (first
      | with_reducible assumption | with_reducible intro _ | with_reducible apply hf | with_reducible apply sound_ite)

theorem setStage_sound (fn : Nat) (n : Nat) {s : State} (h : s.Ok qq) : (setStage fn n s).Ok qq := by
  unfold setStage
  repeat' (first
      | with_reducible assumption | with_reducible intro _ | with_reducible apply modSec_sound)

theorem spdmStep_sound (fn : Nat) (n : Nat) (r : SpdmRsp) (d : List Byte) {s : State} (h : s.Ok qq) : (spdmStep fn n r d s).Ok qq := by
  unfold spdmStep
  repeat' (first
      | with_reducible assumption | with_reducible intro _ | with_reducible apply doe_sound
      | with_reducible apply setStage_sound | with_reducible apply sound_ite)

theorem spdmReady_sound (fn : Nat) (f : State → State) (hf : ∀ t, t.Ok qq → (f t).Ok qq) {s : State} (h : s.Ok qq) : (spdmReady fn f s).Ok qq := by
  unfold spdmReady
  repeat' (first
      | with_reducible assumption | with_reducible intro _ | with_reducible apply hf | with_reducible apply doe_sound
      | with_reducible apply spdm_sound | with_reducible apply sound_ite)

theorem doKex_sound (fn : Nat) (x : List Byte) (k : List Byte) (n : List Byte) {s : State} (h : s.Ok qq) : (doKex fn x k n s).Ok qq := by
  unfold doKex
  repeat' (first
      | with_reducible assumption | with_reducible intro _ | with_reducible apply doe_sound
      | with_reducible apply bumpFree_sound | with_reducible apply modPart_sound | with_reducible apply sound_ite | split
      | with_reducible apply sound_mk' | with_reducible apply @sound_mem qq | with_reducible apply @sound_regs qq
      | with_reducible apply @sound_phase qq | with_reducible apply sound_pending | dsimp only)

theorem doFinish_sound (fn : Nat) (ok : Bool) {s : State} (h : s.Ok qq) : (doFinish fn ok s).Ok qq := by
  unfold doFinish
  repeat' (first
      | with_reducible assumption | with_reducible intro _ | with_reducible apply setF_sound
      | with_reducible apply modPart_sound | with_reducible apply doe_sound | with_reducible apply sound_ite | split)

theorem sessEnd_sound (cause : Nat) (p : Nat) {s : State} (h : s.Ok qq) : (sessEnd cause p s).Ok qq := by
  unfold sessEnd
  repeat' (first
      | with_reducible assumption | with_reducible intro _ | with_reducible apply setF_sound
      | with_reducible apply modPart_sound | with_reducible apply startPartReset_sound | with_reducible apply sound_ite)

theorem inSess_sound (via : SessVia) (f : Nat → State → State) (hf : ∀ n t, t.Ok qq → (f n t).Ok qq) {s : State} (h : s.Ok qq) :
    (inSess via f s).Ok qq := by
  unfold inSess
  repeat' (first
      | with_reducible assumption | with_reducible intro _ | with_reducible apply hf | with_reducible apply doe_sound
      | with_reducible apply sessEnd_sound | with_reducible apply spdm_sound | with_reducible apply sound_ite | split)

theorem doGo_sound (fn : Nat) (k : Nat) (p : Nat) {s : State} (h : s.Ok qq) : (doGo fn k p s).Ok qq := by
  unfold doGo
  repeat' (first
      | with_reducible assumption | with_reducible intro _ | with_reducible apply setF_sound
      | with_reducible apply modPart_sound | with_reducible apply doe_sound | with_reducible apply sound_ite)

theorem doIdeFail_sound (fn : Nat) {s : State} (h : s.Ok qq) : (doIdeFail fn s).Ok qq := by
  unfold doIdeFail
  repeat' (first
      | with_reducible assumption | with_reducible intro _ | with_reducible apply startPartReset_sound
      | with_reducible apply authFail_sound | with_reducible apply sound_ite | split)

end Sys2Proof.Machine
end

