-- ==== Sys2Proof/Laws/SoundDebug.lean ====
section
/-! SUPPORT. The operations of Machine/Debug.lean keep a sound state sound. -/

namespace Sys2Proof.Machine

variable {qq : List Instr}

theorem startHalt_sound (c : Nat) (cause : Nat) (core : Nat) {s : State} (h : s.Ok qq) : (startHalt c cause core s).Ok qq := by
  unfold startHalt
  repeat' (first
      | with_reducible assumption | with_reducible intro _ | with_reducible apply setN_sound)

theorem doHaltreq_sound (c : Nat) {s : State} (h : s.Ok qq) : (doHaltreq c s).Ok qq := by
  unfold doHaltreq
  repeat' (first
      | with_reducible assumption | with_reducible intro _ | with_reducible apply startHalt_sound
      | with_reducible apply sound_ite)

theorem doBreak_sound (c : Nat) (core : Nat) (cmp : Nat) (pc : Word) {s : State} (h : s.Ok qq) : (doBreak c core cmp pc s).Ok qq := by
  unfold doBreak
  repeat' (first
      | with_reducible assumption | with_reducible intro _ | with_reducible apply startHalt_sound
      | with_reducible apply sound_ite)

theorem doResume_sound (c : Nat) {s : State} (h : s.Ok qq) : (doResume c s).Ok qq := by
  unfold doResume
  repeat' (first
      | with_reducible assumption | with_reducible intro _ | with_reducible apply setF_sound | with_reducible apply sound_ite
      | split | with_reducible apply sound_mk' | with_reducible apply @sound_mem qq | with_reducible apply @sound_regs qq
      | with_reducible apply @sound_phase qq | with_reducible apply sound_pending)

theorem doStep_sound (c : Nat) {s : State} (h : s.Ok qq) : (doStep c s).Ok qq := by
  unfold doStep
  repeat' (first
      | with_reducible assumption | with_reducible intro _ | with_reducible apply startHalt_sound
      | with_reducible apply sound_ite | split | with_reducible apply sound_mk' | with_reducible apply @sound_mem qq
      | with_reducible apply @sound_regs qq | with_reducible apply @sound_phase qq | with_reducible apply sound_pending
      | dsimp only)

theorem writeHalt_sound (c : Nat) (core : Nat) (pc : Word) (regs : List DWord) {s : State} (h : s.Ok qq) : (writeHalt c core pc regs s).Ok qq := by
  unfold writeHalt
  repeat' (first
      | with_reducible assumption | with_reducible intro _ | with_reducible apply noteStamp_sound
      | with_reducible apply spShare_keeps | with_reducible apply writeE_keeps | with_reducible apply faultCtx_sound
      | refine Keeps.ok ?_ ?_ (by with_reducible assumption) | refine Keeps.error ?_ ?_ (by with_reducible assumption)
      | with_reducible exact keeps_pure _ | with_reducible apply keeps_bind | with_reducible apply keeps_ite
      | with_reducible apply keeps_map | with_reducible apply sound_ite | split | with_reducible apply sound_mk'
      | with_reducible apply @sound_mem qq | with_reducible apply @sound_regs qq | with_reducible apply @sound_phase qq
      | with_reducible apply sound_pending | dsimp only)

theorem doHaltDrained_sound (c : Nat) (pcs : List (BitVec 9 × Word × List DWord)) {s : State} (h : s.Ok qq) : (doHaltDrained c pcs s).Ok qq := by
  unfold doHaltDrained
  repeat' (first
      | with_reducible assumption | with_reducible intro _ | with_reducible apply setF_sound | with_reducible apply each_sound
      | with_reducible apply writeHalt_sound | with_reducible apply vec0_sound | with_reducible apply sound_ite | split
      | with_reducible apply sound_mk' | with_reducible apply @sound_mem qq | with_reducible apply @sound_regs qq
      | with_reducible apply @sound_phase qq | with_reducible apply sound_pending | dsimp only)

theorem setSnap_sound (k : Nat) (v : Snap) {s : State} (h : s.Ok qq) : (setSnap k v s).Ok qq := by
  unfold setSnap
  repeat' (first
      | with_reducible assumption | with_reducible intro _ | with_reducible apply sound_ite | split
      | with_reducible apply sound_mk' | with_reducible apply @sound_mem qq | with_reducible apply @sound_regs qq
      | with_reducible apply @sound_phase qq | with_reducible apply sound_pending)

theorem wantSnap_sound (k : Nat) {s : State} (h : s.Ok qq) : (wantSnap k s).Ok qq := by
  unfold wantSnap
  repeat' (first
      | with_reducible assumption | with_reducible intro _ | with_reducible apply setSnap_sound
      | with_reducible apply sound_ite)

theorem autoSnap_sound (p : Option Nat) {s : State} (h : s.Ok qq) : (autoSnap p s).Ok qq := by
  unfold autoSnap
  repeat' (first
      | with_reducible assumption | with_reducible intro _ | with_reducible apply wantSnap_sound
      | with_reducible apply sound_ite | split)

theorem markPort_sound (id : Nat) (P : Nat) {s : State} (h : s.Ok qq) : (markPort id P s).Ok qq := by
  unfold markPort
  repeat' (first
      | with_reducible assumption | with_reducible intro _ | with_reducible apply modLink_sound
      | with_reducible apply putFlit_sound | with_reducible apply sound_ite)

theorem doSnapTick_sound (k : Nat) {s : State} (h : s.Ok qq) : (doSnapTick k s).Ok qq := by
  unfold doSnapTick
  repeat' (first
      | with_reducible assumption | with_reducible intro _ | with_reducible apply setSnap_sound
      | with_reducible apply set64_sound | with_reducible apply setR_sound | with_reducible apply setN_sound
      | with_reducible apply each_sound | with_reducible apply markPort_sound | with_reducible apply sound_ite | split
      | with_reducible apply sound_mk' | with_reducible apply @sound_mem qq | with_reducible apply @sound_regs qq
      | with_reducible apply @sound_phase qq | with_reducible apply sound_pending | dsimp only)

theorem writeRecs_sound (k addr i : Nat) (l : List (List Byte)) {s : State} (h : s.Ok qq) : (writeRecs k addr i l s).Ok qq := by
  induction l generalizing i s with
  | nil => exact h
  | cons d r ih =>
    refine ih _ ?_
    split
    · exact inc32_sound _ _ (hostWrite_sound _ _ _ _ _ h)
    · split
      · rename_i e
        exact inc32_sound _ _ ((writeE_keeps _ _ _).ok h e)
      · rename_i e
        exact (writeE_keeps _ _ _).error h e

theorem doReadout_sound (k : Nat) (gone : List (Byte × BitVec 12)) {s : State} (h : s.Ok qq) : (doReadout k gone s).Ok qq := by
  unfold doReadout
  refine sound_ite h ?_
  extract_lets sn un body body2 ports body3 late all room addr s1 s2 s3
  clear_value sn
  clear_value body
  clear_value body2
  clear_value ports
  clear_value body3
  clear_value late
  clear_value all
  clear_value room
  clear_value addr
  have h_s1 : s1.Ok qq := by
    repeat' (first
      | with_reducible assumption | with_reducible intro _ | with_reducible apply setF_sound
      | with_reducible apply setSnap_sound | with_reducible apply writeRecs_sound)
  clear_value s1
  have h_s2 : s2.Ok qq := by
    repeat' (first
      | with_reducible assumption | with_reducible intro _ | with_reducible apply setF_sound)
  clear_value s2
  have h_s3 : s3.Ok qq := by
    repeat' (first
      | with_reducible assumption | with_reducible intro _ | with_reducible apply setF_sound)
  clear_value s3
  repeat' (first
      | with_reducible assumption | with_reducible intro _ | with_reducible apply setF_sound
      | with_reducible apply setSnap_sound)

theorem writeCrm_sound (k : Nat) (v : Word) {s : State} (h : s.Ok qq) : (writeCrm k v s).Ok qq := by
  unfold writeCrm
  repeat' (first
      | with_reducible assumption | with_reducible intro _ | with_reducible apply setF_sound | with_reducible apply setR_sound
      | with_reducible apply rstRs_sound | with_reducible apply sound_ite | dsimp only)

theorem dumpSource_sound (p c src n : Nat) {s : State} (h : s.Ok qq) : (dumpSource p c src n s).2.2.Ok qq := by
  have hk := readE_keeps (whoDump p c) src n _ s h
  revert hk
  unfold dumpSource
  generalize readE (whoDump p c) src n s = r
  intro hk
  cases r <;> exact hk

theorem orNone_sound (r : EStateM.Result Flt State (List Byte)) (h : (endOf r).Ok qq) : (orNone r).2.Ok qq := by
  cases r <;> exact h

theorem dumpEntry_sound (p i : Nat) {s : State} (h : s.Ok qq) : (dumpEntry p i s).2.Ok qq := by
  unfold dumpEntry
  exact orNone_sound _ (readE_keeps _ _ _ _ _ h)

theorem dumpHold_sound (p : Nat) (i : Nat) (e : List Byte) (seq : Nat) (st : Nat) (d : List Byte) (refused : Bool) {s : State} (h : s.Ok qq) : (dumpHold p i e seq st d refused s).Ok qq := by
  unfold dumpHold
  repeat' (first
      | with_reducible assumption | with_reducible intro _ | with_reducible apply showDump_sound
      | with_reducible apply sound_ite | split | with_reducible apply sound_mk' | with_reducible apply @sound_mem qq
      | with_reducible apply @sound_regs qq | with_reducible apply @sound_phase qq | with_reducible apply sound_pending
      | dsimp only)

theorem dumpRun_sound (p i : Nat) (e : List Byte) (x : Sub) {s : State} (h : s.Ok qq) : (dumpRun p i e x s).Ok qq :=
  dumpHold_sound _ _ _ _ _ _ _ (dumpSource_sound _ _ _ _ (sound_same (noteStamp_sound 34 h) rfl rfl rfl rfl))

theorem doDumpFire_sound (p i : Nat) {s : State} (h : s.Ok qq) : (doDumpFire p i s).Ok qq := by
  have hd := dumpEntry_sound p i h
  unfold doDumpFire
  refine sound_ite ?_ h
  generalize dumpEntry p i s = r at hd
  obtain ⟨e, t⟩ := r
  dsimp only at hd ⊢
  repeat' (first
      | with_reducible assumption | with_reducible intro _ | with_reducible apply dumpRun_sound
      | with_reducible apply sound_ite | split)

theorem writeDump_sound (d : Dump) {s : State} (h : s.Ok qq) : (writeDump d s).Ok qq := by
  unfold writeDump
  repeat' (first
      | with_reducible assumption | with_reducible intro _ | with_reducible apply setF_sound
      | with_reducible apply writeE_keeps | with_reducible apply inc16_sound
      | refine Keeps.ok ?_ ?_ (by with_reducible assumption) | refine Keeps.error ?_ ?_ (by with_reducible assumption)
      | with_reducible exact keeps_pure _ | with_reducible apply keeps_bind | with_reducible apply keeps_ite
      | with_reducible apply keeps_map | with_reducible apply sound_ite | split | dsimp only)

theorem doDumpDone_sound (p : Nat) {s : State} (h : s.Ok qq) : (doDumpDone p s).Ok qq := by
  unfold doDumpDone
  repeat' (first
      | with_reducible assumption | with_reducible intro _ | with_reducible apply showDump_sound
      | with_reducible apply signal_sound | with_reducible apply writeDump_sound | with_reducible apply sound_ite | split
      | with_reducible apply sound_mk' | with_reducible apply @sound_mem qq | with_reducible apply @sound_regs qq
      | with_reducible apply @sound_phase qq | with_reducible apply sound_pending)

theorem sideBus_sound (kind : Nat) (place : Nat) (n : Nat) {s : State} (h : s.Ok qq) : (sideBus kind place n s).Ok qq := by
  unfold sideBus
  repeat' (first
      | with_reducible assumption | with_reducible intro _ | with_reducible apply memPuts_sound
      | with_reducible apply doHaltreq_sound | with_reducible apply sound_ite | split)

theorem strike_sound{s : State} (h : s.Ok qq) : (strike s).Ok qq := by
  unfold strike
  repeat' (first
      | with_reducible assumption | with_reducible intro _ | with_reducible apply bumpFree_sound
      | with_reducible apply inc64_sound | with_reducible apply starved_sound | with_reducible apply sideBus_sound
      | with_reducible apply sound_ite | split | with_reducible apply sound_mk' | with_reducible apply @sound_mem qq
      | with_reducible apply @sound_regs qq | with_reducible apply @sound_phase qq | with_reducible apply sound_pending
      | dsimp only)

end Sys2Proof.Machine
end

