-- ==== Sys2Proof/Laws/SoundResets.lean ====
section
/-! SUPPORT. The operations of Machine/Resets.lean keep a sound state sound. -/

namespace Sys2Proof.Machine

variable {qq : List Instr}

theorem doCtxRst_sound (c : Nat) {s : State} (h : s.Ok qq) : (doCtxRst c s).Ok qq := by
  unfold doCtxRst
  repeat' (first
      | with_reducible assumption | with_reducible intro _ | with_reducible apply recordFault_sound
      | with_reducible apply startCtxReset_sound | with_reducible apply sound_ite | split)

theorem doEscalate_sound (c : Nat) {s : State} (h : s.Ok qq) : (doEscalate c s).Ok qq := by
  unfold doEscalate
  repeat' (first
      | with_reducible assumption | with_reducible intro _ | with_reducible apply startPartReset_sound
      | with_reducible apply sound_ite)

theorem doDomainReset_sound (p : Nat) {s : State} (h : s.Ok qq) : (doDomainReset p s).Ok qq := by
  unfold doDomainReset
  repeat' (first
      | with_reducible assumption | with_reducible intro _ | with_reducible apply setR_sound
      | with_reducible apply zeroClusters_sound | with_reducible apply sound_ite)

theorem wdgEvent_sound (p : Nat) (row : Nat) (unit : Nat) (ctx : Option Nat) {s : State} (h : s.Ok qq) : (wdgEvent p row unit ctx s).Ok qq := by
  unfold wdgEvent
  repeat' (first
      | with_reducible assumption | with_reducible intro _ | with_reducible apply setN_sound
      | with_reducible apply inc32_sound | with_reducible apply vec0_sound | with_reducible apply autoSnap_sound
      | with_reducible apply sound_ite)

theorem wdgFault_sound (c : Nat) (cls : Nat) (unit : Nat) (opc : Nat) (cseq : Nat) {s : State} (h : s.Ok qq) : (wdgFault c cls unit opc cseq s).Ok qq := by
  unfold wdgFault
  repeat' (first
      | with_reducible assumption | with_reducible intro _ | with_reducible apply inc32_sound
      | with_reducible apply faultCtx_sound | with_reducible apply autoSnap_sound)

theorem doWatchdog_sound (q : WdgQueue) {s : State} (h : s.Ok qq) : (doWatchdog q s).Ok qq := by
  unfold doWatchdog
  repeat' (first
      | with_reducible assumption | with_reducible intro _ | with_reducible apply wdgFault_sound
      | with_reducible apply wdgSilent_sound | with_reducible apply beQuiet_sound | with_reducible apply wdgEvent_sound
      | with_reducible apply autoSnap_sound | with_reducible apply devLog_sound | with_reducible apply sound_ite | split
      | dsimp only)

theorem doUnresponsive_sound (cls : Nat) (unit : Nat) {s : State} (h : s.Ok qq) : (doUnresponsive cls unit s).Ok qq := by
  unfold doUnresponsive
  repeat' (first
      | with_reducible assumption | with_reducible intro _ | with_reducible apply each_sound
      | with_reducible apply devLog_sound | with_reducible apply faultCtx_sound | with_reducible apply headCmd_keeps
      | with_reducible apply foldl_sound | with_reducible apply foldl_fst_sound | with_reducible apply sound_ite)

end Sys2Proof.Machine
end

