-- ==== Sys2Proof/Laws/SoundRegIO.lean ====
section
/-! SUPPORT. The operations of Machine/RegIO.lean keep a sound state sound. -/

namespace Sys2Proof.Machine

variable {qq : List Instr}

theorem plainWrite_sound (fn : Nat) (k : Nat) (v : Word) {s : State} (h : s.Ok qq) : (plainWrite fn k v s).Ok qq := by
  unfold plainWrite
  repeat' (first
      | with_reducible assumption | with_reducible intro _ | with_reducible apply setR_sound
      | with_reducible apply accErr_sound | with_reducible apply sound_ite | split)

theorem zeroRegs_sound (ks : List Nat) {s : State} (h : s.Ok qq) : (zeroRegs ks s).Ok qq := by
  unfold zeroRegs
  repeat' (first
      | with_reducible assumption | with_reducible intro _ | with_reducible apply setR_sound
      | with_reducible apply each_sound)

theorem clrMx_sound (core : Nat) {s : State} (h : s.Ok qq) : (clrMx core s).Ok qq := by
  unfold clrMx
  repeat' (first
      | with_reducible assumption | with_reducible intro _ | with_reducible apply zeroRegs_sound)

theorem clrVx_sound (core : Nat) {s : State} (h : s.Ok qq) : (clrVx core s).Ok qq := by
  unfold clrVx
  repeat' (first
      | with_reducible assumption | with_reducible intro _ | with_reducible apply zeroRegs_sound)

theorem clrPg_sound (cl : Nat) {s : State} (h : s.Ok qq) : (clrPg cl s).Ok qq := by
  unfold clrPg
  repeat' (first
      | with_reducible assumption | with_reducible intro _ | with_reducible apply zeroRegs_sound)

theorem clrGx_sound (cl : Nat) {s : State} (h : s.Ok qq) : (clrGx cl s).Ok qq := by
  unfold clrGx
  repeat' (first
      | with_reducible assumption | with_reducible intro _ | with_reducible apply zeroRegs_sound)

theorem clrMem_sound (k : Nat) {s : State} (h : s.Ok qq) : (clrMem k s).Ok qq := by
  unfold clrMem
  repeat' (first
      | with_reducible assumption | with_reducible intro _ | with_reducible apply zeroRegs_sound)

theorem clrSpn_sound (p : Nat) {s : State} (h : s.Ok qq) : (clrSpn p s).Ok qq := by
  unfold clrSpn
  repeat' (first
      | with_reducible assumption | with_reducible intro _ | with_reducible apply zeroRegs_sound)

theorem clrGc_sound  {s : State} (h : s.Ok qq) : (clrGc s).Ok qq := by
  unfold clrGc
  repeat' (first
      | with_reducible assumption | with_reducible intro _ | with_reducible apply zeroRegs_sound)

theorem clrRdc_sound (k : Nat) {s : State} (h : s.Ok qq) : (clrRdc k s).Ok qq := by
  unfold clrRdc
  repeat' (first
      | with_reducible assumption | with_reducible intro _ | with_reducible apply zeroRegs_sound)

theorem writeBase_sound (fn : Nat) (k : Nat) (en : Bool) (v : Word) {s : State} (h : s.Ok qq) : (writeBase fn k en v s).Ok qq := by
  unfold writeBase
  repeat' (first
      | with_reducible assumption | with_reducible intro _ | with_reducible apply accErr_sound
      | with_reducible apply plainWrite_sound | with_reducible apply sound_ite | split)

theorem writeBrk_sound (fn : Nat) (c : Nat) (v : Word) {s : State} (h : s.Ok qq) : (writeBrk fn c v s).Ok qq := by
  unfold writeBrk
  repeat' (first
      | with_reducible assumption | with_reducible intro _ | with_reducible apply doHaltreq_sound
      | with_reducible apply doResume_sound | with_reducible apply doStep_sound | with_reducible apply plainWrite_sound
      | with_reducible apply sound_ite)

theorem writeCtx_sound (fn : Nat) (c : Nat) (o : Nat) (v : Word) {s : State} (h : s.Ok qq) : (writeCtx fn c o v s).Ok qq := by
  unfold writeCtx
  repeat' (first
      | with_reducible assumption | with_reducible intro _ | with_reducible apply writeSqCfg_sound
      | with_reducible apply writeCqCfg_sound | with_reducible apply writeCrec_sound | with_reducible apply doCtxRst_sound
      | with_reducible apply plainWrite_sound | with_reducible apply writeBase_sound | with_reducible apply writeBrk_sound
      | with_reducible apply sound_ite)

theorem writeSnp_sound (fn : Nat) (k : Nat) (scope : Nat) (v : Word) {s : State} (h : s.Ok qq) : (writeSnp fn k scope v s).Ok qq := by
  unfold writeSnp
  repeat' (first
      | with_reducible assumption | with_reducible intro _ | with_reducible apply wantSnap_sound
      | with_reducible apply plainWrite_sound | with_reducible apply sound_ite)

theorem writePart_sound (fn : Nat) (p : Nat) (o : Nat) (v : Word) {s : State} (h : s.Ok qq) : (writePart fn p o v s).Ok qq := by
  unfold writePart
  repeat' (first
      | with_reducible assumption | with_reducible intro _ | with_reducible apply startPartReset_sound
      | with_reducible apply plainWrite_sound | with_reducible apply clrSpn_sound | with_reducible apply writeSnp_sound
      | with_reducible apply sound_ite)

theorem writeTap_sound (fn : Nat) (tap : Nat) (k : Nat) (v : Word) {s : State} (h : s.Ok qq) : (writeTap fn tap k v s).Ok qq := by
  unfold writeTap
  repeat' (first
      | with_reducible assumption | with_reducible intro _ | with_reducible apply writeCrm_sound
      | with_reducible apply plainWrite_sound | with_reducible apply sound_ite)

theorem writeCore_sound (fn : Nat) (n : Nat) (o : Nat) (v : Word) {s : State} (h : s.Ok qq) : (writeCore fn n o v s).Ok qq := by
  unfold writeCore
  repeat' (first
      | with_reducible assumption | with_reducible intro _ | with_reducible apply plainWrite_sound
      | with_reducible apply clrMx_sound | with_reducible apply clrVx_sound | with_reducible apply clrMem_sound
      | with_reducible apply writeTap_sound | with_reducible apply sound_ite)

theorem writeCluster_sound (fn : Nat) (c : Nat) (o : Nat) (v : Word) {s : State} (h : s.Ok qq) : (writeCluster fn c o v s).Ok qq := by
  unfold writeCluster
  repeat' (first
      | with_reducible assumption | with_reducible intro _ | with_reducible apply plainWrite_sound
      | with_reducible apply clrPg_sound | with_reducible apply clrGx_sound | with_reducible apply clrMem_sound
      | with_reducible apply writeTap_sound | with_reducible apply sound_ite)

theorem writeDev_sound (fn : Nat) (k : Nat) (v : Word) {s : State} (h : s.Ok qq) : (writeDev fn k v s).Ok qq := by
  unfold writeDev
  repeat' (first
      | with_reducible assumption | with_reducible intro _ | with_reducible apply setR_sound
      | with_reducible apply accErr_sound | with_reducible apply writePortCfg_sound | with_reducible apply plainWrite_sound
      | with_reducible apply clrGc_sound | with_reducible apply clrRdc_sound | with_reducible apply writeSnp_sound
      | with_reducible apply sound_ite)

theorem writeReg_sound (fn : Nat) (k : Nat) (v : Word) {s : State} (h : s.Ok qq) : (writeReg fn k v s).Ok qq := by
  unfold writeReg
  repeat' (first
      | with_reducible assumption | with_reducible intro _ | with_reducible apply setR_sound
      | with_reducible apply writeCtx_sound | with_reducible apply writePart_sound | with_reducible apply writeCore_sound
      | with_reducible apply writeCluster_sound | with_reducible apply writeDev_sound | with_reducible apply sound_ite
      | split)

theorem doRegWrite_sound (fn : Nat) (off : Nat) (v : Word) {s : State} (h : s.Ok qq) : (doRegWrite fn off v s).Ok qq := by
  unfold doRegWrite
  repeat' (first
      | with_reducible assumption | with_reducible intro _ | with_reducible apply accErr_sound
      | with_reducible apply writeReg_sound | with_reducible apply sound_ite | split)

theorem doMbWrite_sound (fn : Nat) (off : Nat) (v : Word) {s : State} (h : s.Ok qq) : (doMbWrite fn off v s).Ok qq := by
  unfold doMbWrite
  repeat' (first
      | with_reducible assumption | with_reducible intro _ | with_reducible apply setR_sound
      | with_reducible apply setF_sound | with_reducible apply accErr_sound | with_reducible apply sound_ite | split
      | with_reducible apply sound_mk' | with_reducible apply @sound_mem qq | with_reducible apply @sound_regs qq
      | with_reducible apply @sound_phase qq | with_reducible apply sound_pending)

theorem doCounterRead_sound (fn : Nat) (off : Nat) {s : State} (h : s.Ok qq) : (doCounterRead fn off s).Ok qq := by
  unfold doCounterRead
  repeat' (first
      | with_reducible assumption | with_reducible intro _ | with_reducible apply accErr_sound
      | with_reducible apply sound_ite | split | with_reducible apply sound_mk' | with_reducible apply @sound_mem qq
      | with_reducible apply @sound_regs qq | with_reducible apply @sound_phase qq | with_reducible apply sound_pending
      | dsimp only)

theorem doBadAccess_sound (fn : Nat) (why : BadAccess) (write : Bool) {s : State} (h : s.Ok qq) : (doBadAccess fn why write s).Ok qq := by
  unfold doBadAccess
  repeat' (first
      | with_reducible assumption | with_reducible intro _ | with_reducible apply accErr_sound
      | with_reducible apply sound_ite | split | with_reducible apply sound_mk' | with_reducible apply @sound_mem qq
      | with_reducible apply @sound_regs qq | with_reducible apply @sound_phase qq | with_reducible apply sound_pending)

theorem clearVia_sound (k : Nat) (f : State → State) (hf : ∀ t, t.Ok qq → (f t).Ok qq) {s : State} (h : s.Ok qq) : (clearVia k f s).Ok qq := by
  unfold clearVia
  repeat' (first
      | with_reducible assumption | with_reducible intro _ | with_reducible apply hf | with_reducible apply accErr_sound
      | with_reducible apply sound_ite)

end Sys2Proof.Machine
end

