-- ==== Sys2Proof/Laws/SoundCommit.lean ====
section
/-! SUPPORT. The operations of Machine/Commit.lean keep a sound state sound. -/

namespace Sys2Proof.Machine

variable {qq : List Instr}

/-- A computation that keeps a sound state sound and answers a step that does. -/
def Plans (x : Eng (State → State)) : Prop := Keeps x ∧ ∀ s f t, x s = .ok f t → ∀ (qq : List Instr) u, u.Ok qq → (f u).Ok qq

theorem plans_pure {f : State → State} (h : ∀ (qq : List Instr) u, u.Ok qq → (f u).Ok qq) : Plans (pure f : EStateM Flt State (State → State)) := by
  refine ⟨keeps_pure f, fun s g t e => ?_⟩
  have : f = g := by
    have e' : (EStateM.Result.ok f s : EStateM.Result Flt State (State → State)) = .ok g t := e
    exact (EStateM.Result.ok.inj e').1
  exact this ▸ h

theorem plans_bind {α : Type} {x : EStateM Flt State α} {f : α → EStateM Flt State (State → State)} (hx : Keeps x)
    (hf : ∀ a, Plans (f a)) : Plans (x >>= f) := by
  refine ⟨keeps_bind hx fun a => (hf a).1, fun s g t e => ?_⟩
  have e' : EStateM.bind x f s = .ok g t := e
  unfold EStateM.bind at e'
  cases ex : x s with
  | ok a u => rw [ex] at e'; exact (hf a).2 u g t e'
  | error fl u => rw [ex] at e'; cases e'

theorem plans_stop (f : Flt) : Plans (stop f) := ⟨stop_keeps f, fun _ _ _ e => by cases e⟩

theorem stageGroup_sound (g : Group) {s : State} (h : s.Ok qq) : (stageGroup g s).Ok qq := by
  unfold stageGroup
  repeat' (first
      | with_reducible assumption | with_reducible intro _ | with_reducible apply sound_ite | split
      | with_reducible apply sound_mk' | with_reducible apply @sound_mem qq | with_reducible apply @sound_regs qq
      | with_reducible apply @sound_phase qq | with_reducible apply sound_pending)

theorem doCommit_sound (c : Nat) (seq : Nat) (d : List Byte) {s : State} (h : s.Ok qq) : (doCommit c seq d s).Ok qq := by
  unfold doCommit
  repeat' (first
      | with_reducible assumption | with_reducible intro _ | with_reducible apply lateInput_sound
      | refine takeInput_some ?_ (by with_reducible assumption) | with_reducible apply finishSub_sound
      | with_reducible apply modSub_sound | with_reducible apply sound_ite | split | with_reducible apply sound_mk'
      | with_reducible apply @sound_mem qq | with_reducible apply @sound_regs qq | with_reducible apply @sound_phase qq
      | with_reducible apply sound_pending)

theorem doStage_sound (p : Nat) {s : State} (h : s.Ok qq) : (doStage p s).Ok qq := by
  unfold doStage
  repeat' (first
      | with_reducible assumption | with_reducible intro _ | with_reducible apply modSub_sound
      | with_reducible apply finishSub_sound | with_reducible apply stageGroup_sound | with_reducible apply sound_ite | split)

theorem cgWork_keeps (p : Pay) (m : EngCmd) : Keeps (cgWork p m) := by
  unfold cgWork
  repeat' (first
      | with_reducible assumption | with_reducible exact keeps_pure _ | with_reducible intro _
      | with_reducible apply keeps_bind | with_reducible apply keeps_map | with_reducible apply upd_keeps
      | with_reducible apply look_keeps | with_reducible apply readE_keeps | with_reducible apply cmShare_keeps
      | with_reducible apply checkE_keeps | with_reducible apply decodeE_keeps | with_reducible apply groupOutcome_sound
      | with_reducible apply stageGroup_sound | with_reducible apply keeps_ite | split)

theorem doDrainStart_sound (p : Nat) {s : State} (h : s.Ok qq) : (doDrainStart p s).Ok qq := by
  unfold doDrainStart
  repeat' (first
      | with_reducible assumption | with_reducible intro _ | with_reducible apply sound_ite | split
      | with_reducible apply sound_mk' | with_reducible apply @sound_mem qq | with_reducible apply @sound_regs qq
      | with_reducible apply @sound_phase qq | with_reducible apply sound_pending)

theorem endDrain_sound (p : Nat) {s : State} (h : s.Ok qq) : (endDrain p s).Ok qq := by
  unfold endDrain
  repeat' (first
      | with_reducible assumption | with_reducible intro _ | with_reducible apply sound_ite | split
      | with_reducible apply sound_mk' | with_reducible apply @sound_mem qq | with_reducible apply @sound_regs qq
      | with_reducible apply @sound_phase qq | with_reducible apply sound_pending)

theorem doDrainTimeout_sound (p : Nat) {s : State} (h : s.Ok qq) : (doDrainTimeout p s).Ok qq := by
  unfold doDrainTimeout
  repeat' (first
      | with_reducible assumption | with_reducible intro _ | with_reducible apply endDrain_sound
      | with_reducible apply groupOutcome_sound | with_reducible apply sound_ite | split | with_reducible apply sound_mk'
      | with_reducible apply @sound_mem qq | with_reducible apply @sound_regs qq | with_reducible apply @sound_phase qq
      | with_reducible apply sound_pending | dsimp only)

theorem condE_keeps (b : Bool) : Keeps (condE b) := by
  unfold condE
  repeat' (first
      | with_reducible assumption | with_reducible exact keeps_pure _ | with_reducible intro _
      | with_reducible apply keeps_bind | with_reducible apply keeps_map | with_reducible apply guardE_keeps)

theorem planWptr_plans (p : Nat) (a : List Byte) : Plans (planWptr p a) := by
  unfold planWptr
  repeat' (first
      | with_reducible assumption | with_reducible intro _ | with_reducible apply plans_bind | with_reducible apply look_keeps
      | with_reducible apply condE_keeps | with_reducible apply plans_stop | with_reducible apply keeps_bind
      | with_reducible exact keeps_pure _ | with_reducible apply keeps_ite | split | with_reducible apply sound_ite
      | with_reducible apply sound_mk' | with_reducible apply sound_mem | with_reducible apply sound_regs
      | with_reducible apply sound_phase | with_reducible apply sound_pending | with_reducible apply plans_pure)

theorem switchBank_sound (c : Nat) (prog : Nat) {s : State} (h : s.Ok qq) : (switchBank c prog s).Ok qq := by
  unfold switchBank
  repeat' (first
      | with_reducible assumption | with_reducible intro _ | with_reducible apply setF_sound | with_reducible apply sound_ite
      | split | with_reducible apply sound_mk' | with_reducible apply @sound_mem qq | with_reducible apply @sound_regs qq
      | with_reducible apply @sound_phase qq | with_reducible apply sound_pending)

theorem planSfusw_plans (a : List Byte) : Plans (planSfusw a) := by
  unfold planSfusw
  repeat' (first
      | with_reducible assumption | with_reducible intro _ | with_reducible apply plans_bind | with_reducible apply look_keeps
      | with_reducible apply condE_keeps | with_reducible apply each_sound | with_reducible apply switchBank_sound
      | with_reducible apply plans_stop | with_reducible apply keeps_bind | with_reducible exact keeps_pure _
      | with_reducible apply keeps_ite | split | with_reducible apply plans_pure)

theorem planPgset_plans (p : Nat) (a : List Byte) : Plans (planPgset p a) := by
  unfold planPgset
  repeat' (first
      | with_reducible assumption | with_reducible intro _ | with_reducible apply plans_bind | with_reducible apply look_keeps
      | with_reducible apply condE_keeps | with_reducible apply readStream_keeps | with_reducible apply eachM_keeps
      | with_reducible apply readPage_keeps | with_reducible apply checkE_keeps | with_reducible apply landSure_sound
      | with_reducible apply plans_stop | with_reducible apply keeps_bind | with_reducible exact keeps_pure _
      | with_reducible apply keeps_ite | split | with_reducible apply plans_pure)

theorem commitRead_keeps (w : Who) (a n : Nat) : Keeps (commitRead w a n) := by
  intro qq s h
  unfold commitRead
  dsimp only
  repeat' split
  all_goals first
    | exact errNoted_sound _ _ h
    | exact tookBytes_sound _ _ h
    | exact h

theorem planGate_plans (p : Nat) (a : List Byte) : Plans (planGate p a) := by
  unfold planGate
  repeat' (first
      | with_reducible assumption | with_reducible intro _ | with_reducible apply plans_bind | with_reducible apply look_keeps
      | with_reducible apply condE_keeps | with_reducible apply commitRead_keeps | with_reducible apply landSure_sound
      | with_reducible apply plans_stop | with_reducible apply keeps_bind | with_reducible exact keeps_pure _
      | with_reducible apply keeps_ite | split | with_reducible apply plans_pure)

theorem putRegs_sound (l : List (Nat × Word)) {s : State} (h : s.Ok qq) : (putRegs l s).Ok qq := by
  induction l generalizing s with
  | nil => exact h
  | cons x r ih => exact ih (setR_sound _ _ h)

theorem planWin_plans (p : Nat) (a : List Byte) : Plans (planWin p a) := by
  unfold planWin
  repeat' (first
      | with_reducible assumption | with_reducible intro _ | with_reducible apply plans_bind | with_reducible apply look_keeps
      | with_reducible apply condE_keeps | with_reducible apply putRegs_sound | with_reducible apply plans_stop
      | with_reducible apply keeps_bind | with_reducible exact keeps_pure _ | with_reducible apply keeps_ite | split
      | with_reducible apply plans_pure)

theorem planPeer_plans (p : Nat) (a : List Byte) : Plans (planPeer p a) := by
  unfold planPeer
  repeat' (first
      | with_reducible assumption | with_reducible intro _ | with_reducible apply plans_bind
      | with_reducible apply putRegs_sound | with_reducible apply plans_stop | with_reducible apply keeps_bind
      | with_reducible exact keeps_pure _ | with_reducible apply keeps_ite | split | with_reducible apply plans_pure)

theorem planWrite_plans (p : Nat) (a : List Byte) : Plans (planWrite p a) := by
  unfold planWrite
  repeat' (first
      | with_reducible assumption | with_reducible intro _ | with_reducible apply plans_bind
      | with_reducible apply condE_keeps | with_reducible apply checkE_keeps | with_reducible apply look_keeps
      | with_reducible apply upd_keeps | with_reducible apply errNoted_sound | with_reducible apply stop_keeps
      | with_reducible apply landSure_sound | with_reducible apply plans_stop | with_reducible apply keeps_bind
      | with_reducible exact keeps_pure _ | with_reducible apply keeps_ite | split | with_reducible apply sound_ite
      | with_reducible apply plans_pure)

theorem planRegw_plans (p : Nat) (a : List Byte) : Plans (planRegw p a) := by
  unfold planRegw
  repeat' (first
      | with_reducible assumption | with_reducible intro _ | with_reducible apply plans_bind | with_reducible apply look_keeps
      | with_reducible apply condE_keeps | with_reducible apply each_sound | with_reducible apply writeReg_sound
      | with_reducible apply plans_stop | with_reducible apply keeps_bind | with_reducible exact keeps_pure _
      | with_reducible apply keeps_ite | split | with_reducible apply plans_pure)

theorem planAct_plans (p : Nat) (a : List Byte) : Plans (planAct p a) := by
  unfold planAct
  repeat' (first
      | with_reducible assumption | with_reducible intro _ | with_reducible apply plans_bind
      | with_reducible apply planWptr_plans | with_reducible apply planSfusw_plans | with_reducible apply planPgset_plans
      | with_reducible apply planGate_plans | with_reducible apply planWin_plans | with_reducible apply planPeer_plans
      | with_reducible apply planWrite_plans | with_reducible apply planRegw_plans | with_reducible apply stop_keeps
      | with_reducible apply plans_stop | with_reducible apply keeps_bind | with_reducible exact keeps_pure _
      | with_reducible apply keeps_ite | split | with_reducible apply plans_pure)

theorem planAll_sound (p i : Nat) (l : List (List Byte)) {s : State} (h : s.Ok qq) :
    (planAll p i l s).2.Ok qq ∧ ∀ fs, (planAll p i l s).1 = .ok fs → ∀ f ∈ fs, ∀ u, u.Ok qq → (f u).Ok qq := by
  induction l generalizing i s with
  | nil =>
    refine ⟨h, fun fs e f hf => ?_⟩
    unfold planAll at e
    cases e
    exact absurd hf (by simp)
  | cons a r ih =>
    unfold planAll
    have hp := planAct_plans p a
    generalize planAct p a = x at hp
    have hk := hp.1 _ s h
    have h2 := hp.2 s
    generalize x s = q at hk h2
    cases q with
    | error fl t => exact ⟨hk, fun fs e => by cases e⟩
    | ok f t =>
      have ht : t.Ok qq := hk
      have hi := ih (i + 1) ht
      dsimp only
      generalize planAll p (i + 1) r t = w at hi
      obtain ⟨w1, w2⟩ := w
      cases w1 with
      | error j => exact ⟨hi.1, fun fs e => by cases e⟩
      | ok fs =>
        refine ⟨hi.1, fun gs e g hg => ?_⟩
        cases e
        rcases List.mem_cons.1 hg with rfl | hg
        · exact h2 g t rfl qq
        · exact hi.2 fs rfl g hg

theorem commitGroup_sound (g : Group) {s : State} (h : s.Ok qq) : (commitGroup g s).Ok qq := by
  have hp := planAll_sound g.pid 0 g.acts h
  unfold commitGroup
  generalize planAll g.pid 0 g.acts s = w at hp
  obtain ⟨w1, w2⟩ := w
  cases w1 with
  | error i => exact groupOutcome_sound _ _ _ _ hp.1
  | ok fs =>
    refine groupOutcome_sound _ _ _ _ ?_
    exact each_keeps (State.Ok qq) fs _ _ hp.1 fun f hf t ht => hp.2 fs rfl f hf t ht

theorem doCommitPoint_sound (p : Nat) {s : State} (h : s.Ok qq) : (doCommitPoint p s).Ok qq := by
  unfold doCommitPoint
  repeat' (first
      | with_reducible assumption | with_reducible intro _ | with_reducible apply each_sound
      | with_reducible apply endDrain_sound | with_reducible apply commitGroup_sound | with_reducible apply sound_ite | split
      | with_reducible apply sound_mk' | with_reducible apply @sound_mem qq | with_reducible apply @sound_regs qq
      | with_reducible apply @sound_phase qq | with_reducible apply sound_pending)

end Sys2Proof.Machine
end

