-- ==== Sys2Proof/Laws/Work.lean ====
section
/-! SUPPORT. A calculus for the work of an engine command: a computation that runs through, whatever it finds in memory, when every access
it makes is granted, and what it may have changed. -/

namespace Sys2Proof.Machine

/-- What an engine's work may have changed, with memory only at the places listed. -/
def Worked (K : List Nat) (s t : State) : Prop :=
  t = { s with regs := t.regs, mem := t.mem, eng := t.eng, jobs := t.jobs, hbm := t.hbm, free := t.free, pwr := t.pwr, sec := t.sec, host := t.host } ∧
  s.besides t ∧ Same s t ∧ t.eng.cmds = s.eng.cmds ∧ s.memBut K t

theorem Same.trans {s t u : State} (h : Same s t) (g : Same t u) : Same s u :=
  ⟨fun k hk => (g.1 k hk).trans (h.1 k hk), g.2.1.trans h.2.1, fun x hx => h.2.2.1 x (g.2.2.1 x hx),
    fun x hx => h.2.2.2.1 x (g.2.2.2.1 x hx), fun x hx => h.2.2.2.2 x (g.2.2.2.2 x hx)⟩
theorem Worked.refl (K : List Nat) (s : State) : Worked K s s :=
  ⟨rfl, besides_refl s, ⟨fun _ _ => rfl, rfl, fun _ h => h, fun _ h => h, fun _ h => h⟩, rfl, fun _ _ _ => rfl⟩
theorem Worked.trans {K : List Nat} {s t u : State} (h : Worked K s t) (g : Worked K t u) : Worked K s u := by
  obtain ⟨h1, h0, h2, h3, h4⟩ := h
  obtain ⟨g1, g0, g2, g3, g4⟩ := g
  refine ⟨?_, besides_trans h0 g0, h2.trans g2, g3.trans h3, fun m k hk => (g4 m k hk).trans (h4 m k hk)⟩
  rw [g1, h1]
/-- Accesses that leave memory as it is. -/
theorem Worked.ofOA {K : List Nat} {s t : State} (h : OA s t) (hm : s.memBut K t) : Worked K s t := by
  refine ⟨?_, h.2.1, h.same, by rw [h.1], hm⟩
  rw [h.1]

/-- From every state that work in `K` leads to, the computation runs through, stays within `K`, and its answer has property `Q`. -/
def Does {α : Type} (s0 : State) (K : List Nat) (x : Eng α) (Q : α → Prop) : Prop :=
  ∀ s, Worked K s0 s → ∃ a t, x s = .ok a t ∧ Worked K s0 t ∧ Q a

theorem Does.pure {α : Type} {s0 : State} {K : List Nat} (a : α) {Q : α → Prop} (h : Q a) : Does s0 K (pure a) Q :=
  fun s hs => ⟨a, s, rfl, hs, h⟩
theorem Does.bind {α β : Type} {s0 : State} {K : List Nat} {x : Eng α} {f : α → Eng β} {P : α → Prop} {Q : β → Prop}
    (hx : Does s0 K x P) (hf : ∀ a, P a → Does s0 K (f a) Q) : Does s0 K (x >>= f) Q := by
  intro s hs
  obtain ⟨a, t, e, ht, ha⟩ := hx s hs
  obtain ⟨b, u, e2, hu, hb⟩ := hf a ha t ht
  refine ⟨b, u, ?_, hu, hb⟩
  show EStateM.bind x f s = _
  unfold EStateM.bind; rw [e]; exact e2
theorem Does.map {α β : Type} {s0 : State} {K : List Nat} {x : Eng α} (f : α → β) {Q : β → Prop}
    (hx : Does s0 K x fun a => Q (f a)) : Does s0 K (f <$> x) Q := by
  intro s hs
  obtain ⟨a, t, e, ht, ha⟩ := hx s hs
  refine ⟨f a, t, ?_, ht, ha⟩
  show EStateM.map f x s = _
  unfold EStateM.map; rw [e]
theorem Does.weaken {α : Type} {s0 : State} {K : List Nat} {x : Eng α} {P Q : α → Prop} (hx : Does s0 K x P) (h : ∀ a, P a → Q a) :
    Does s0 K x Q := fun s hs => let ⟨a, t, e, ht, ha⟩ := hx s hs; ⟨a, t, e, ht, h a ha⟩
theorem Does.ite {α : Type} {s0 : State} {K : List Nat} {c : Prop} [Decidable c] {x y : Eng α} {Q : α → Prop}
    (hx : c → Does s0 K x Q) (hy : ¬ c → Does s0 K y Q) : Does s0 K (if c then x else y) Q := by
  split
  · exact hx ‹_›
  · exact hy ‹_›
theorem Does.look {α : Type} {s0 : State} {K : List Nat} (f : State → α) {Q : α → Prop} (h : ∀ s, Worked K s0 s → Q (f s)) :
    Does s0 K (look f) Q := fun s hs => ⟨f s, s, rfl, hs, h s hs⟩
theorem Does.upd {s0 : State} {K : List Nat} (f : State → State) {Q : Unit → Prop} (h : ∀ s, Worked K s0 s → Worked K s (f s)) (hq : Q ()) :
    Does s0 K (upd f) Q := fun s hs => ⟨(), f s, rfl, hs.trans (h s hs), hq⟩
theorem Does.updT {s0 : State} {K : List Nat} (f : State → State) (h : ∀ s, Worked K s0 s → Worked K s (f s)) :
    Does s0 K (Sys2Proof.Machine.upd f) fun _ => True := Does.upd f h trivial
theorem Does.gatherM {α β : Type} {s0 : State} {K : List Nat} (l : List α) (f : α → Eng β) (Q : α → β → Prop)
    (h : ∀ x ∈ l, Does s0 K (f x) (Q x)) : Does s0 K (gatherM l f) fun ys => ys.length = l.length ∧ ∀ y ∈ ys, ∃ x ∈ l, Q x y := by
  induction l with
  | nil => exact Does.pure [] ⟨rfl, by simp⟩
  | cons x r ih =>
    unfold Sys2Proof.Machine.gatherM
    refine Does.bind (h x (List.mem_cons_self ..)) fun y hy => Does.bind (ih fun z hz => h z (List.mem_cons_of_mem _ hz)) fun ys hys =>
      Does.pure _ ⟨by simp [hys.1], ?_⟩
    intro z hz
    rcases List.mem_cons.1 hz with rfl | hz
    · exact ⟨x, List.mem_cons_self .., hy⟩
    · obtain ⟨x', h1, h2⟩ := hys.2 z hz; exact ⟨x', List.mem_cons_of_mem _ h1, h2⟩
theorem Does.gatherT {α β : Type} {s0 : State} {K : List Nat} (l : List α) (f : α → Eng β)
    (h : ∀ x ∈ l, Does s0 K (f x) fun _ => True) : Does s0 K (Sys2Proof.Machine.gatherM l f) fun _ => True :=
  (Does.gatherM l f (fun _ _ => True) h).weaken fun _ _ => trivial
theorem Does.eachM {α : Type} {s0 : State} {K : List Nat} (l : List α) (f : α → Eng Unit)
    (h : ∀ x ∈ l, Does s0 K (f x) fun _ => True) : Does s0 K (eachM l f) fun _ => True := by
  induction l with
  | nil => exact Does.pure _ trivial
  | cons x r ih =>
    unfold Sys2Proof.Machine.eachM
    exact Does.bind (h x (List.mem_cons_self ..)) fun _ _ => ih fun z hz => h z (List.mem_cons_of_mem _ hz)
theorem Does.foldE {α β : Type} {s0 : State} {K : List Nat} (l : List α) (b : β) (f : β → α → Eng β) (P : β → Prop) (hb : P b)
    (h : ∀ x ∈ l, ∀ c, P c → Does s0 K (f c x) P) : Does s0 K (foldE l b f) P := by
  induction l generalizing b with
  | nil => exact Does.pure _ hb
  | cons x r ih =>
    unfold Sys2Proof.Machine.foldE
    exact Does.bind (h x (List.mem_cons_self ..) b hb) fun c hc => ih c hc fun z hz => h z (List.mem_cons_of_mem _ hz)

theorem Does.readE {s0 : State} {K : List Nat} (w : Who) (hw : w.ok) (a n : Nat) (hr : s0.mayRead w a n) :
    Does s0 K (readE w a n) fun bs => bs.length = (keysOf s0 w.pid a n).length := by
  intro s hs
  obtain ⟨u, e, ho, hm⟩ := readE_run w hw a n hr hs.2.2.1
  exact ⟨_, u, e, hs.trans (Worked.ofOA ho fun m k _ => memByte_of_mem hm m k), by simp⟩
theorem Does.readKept {s0 : State} {K : List Nat} (w : Who) (hw : w.ok) (a n : Nat) (hr : s0.mayRead w a n)
    (hk : ∀ k ∈ keysOf s0 w.pid a n, k ∉ K) : Does s0 K (Sys2Proof.Machine.readE w a n) fun bs => bs = rawRead s0 w.pid a n := by
  intro s hs
  obtain ⟨u, e, ho, hm⟩ := readE_run w hw a n hr hs.2.2.1
  refine ⟨_, u, e, hs.trans (Worked.ofOA ho fun m k _ => memByte_of_mem hm m k), ?_⟩
  unfold rawRead
  exact List.map_congr_left fun k h => hs.2.2.2.2 _ k (hk k h)
theorem Does.writeE {s0 : State} {K : List Nat} (w : Who) (hw : w.ok) (a : Nat) (bs : List Byte) (hr : s0.mayWrite w a bs.length)
    (hk : ∀ k ∈ keysOf s0 w.pid a bs.length, k ∈ K) : Does s0 K (writeE w a bs) fun _ => True := by
  intro s hs
  obtain ⟨u, e, ho, hm⟩ := writeE_run w hw a bs hr hs.2.2.1
  refine ⟨(), u, e, hs.trans (Worked.ofOA ho fun m k h => ?_), trivial⟩
  rw [memByte_of_mem hm, memByte_memPuts_not_mem _ _ _ _ _ fun h' => h (hk k h')]
theorem Does.shareE {s0 : State} {K : List Nat} (w : Who) (hw : w.ok) (lo size : Nat) (wr : Bool) (b : Nat) (hs : shareOf s0 w lo size = some b) :
    Does s0 K (shareE w lo size wr) fun a => a = b := by
  intro s h
  exact ⟨b, s, shareE_run w hw lo size wr b hs h.2.2.1, h, rfl⟩
theorem Does.decodeE {s0 : State} {K : List Nat} (w : Who) (l : List (Nat × Bool)) (h : firstCode l = none) :
    Does s0 K (decodeE w l) fun _ => True := by
  unfold Sys2Proof.Machine.decodeE; rw [h]; exact Does.pure _ trivial
theorem Does.checkE {s0 : State} {K : List Nat} (w : Who) (hw : w.ok) (rd wr : Bool) (a n : Nat) (h : refusal s0 w rd wr false a n = none) :
    Does s0 K (checkE w rd wr a n) fun _ => True := by
  intro s hs
  refine ⟨(), s, ?_, hs, trivial⟩
  unfold Sys2Proof.Machine.checkE; rw [hs.2.2.1.refusal w hw, h]

/-! Updates an engine makes -/

theorem Worked.regs {K : List Nat} {s t : State} (h : t = { s with regs := t.regs }) (hr : ∀ k, isWork k = false → getR t k = getR s k) :
    Worked K s t := by
  generalize t.regs = r at h
  subst h
  exact ⟨rfl, ⟨rfl, rfl, ⟨[], by simp, by simp⟩, fun _ h => h, fun _ h => h, fun _ h => h, fun _ h => h, rfl⟩,
    ⟨hr, rfl, fun _ h => h, fun _ h => h, fun _ h => h⟩, rfl, fun _ _ _ => rfl⟩
theorem Worked.setR {K : List Nat} {s : State} {k : Nat} (v : Word) (h : isWork k = true) : Worked K s (setR k v s) :=
  Worked.regs rfl fun j hj => by rw [getR_setR, if_neg (by rintro rfl; simp [h] at hj)]
theorem Worked.set64 {K : List Nat} {s : State} {k : Nat} (v : Nat) (h : isWork k = true) (h2 : isWork (k + 4) = true) : Worked K s (set64 k v s) :=
  Worked.trans (Worked.setR _ h) (Worked.setR _ h2)
theorem Worked.inc64 {K : List Nat} {s : State} {k : Nat} (v : Nat) (h : isWork k = true) (h2 : isWork (k + 4) = true) : Worked K s (inc64 k v s) :=
  Worked.set64 _ h h2
theorem Worked.bumpFree {K : List Nat} {s : State} : Worked K s (bumpFree s) :=
  Worked.ofOA OA.bumpFree fun _ _ _ => rfl
theorem Worked.each {K : List Nat} {α : Type} (l : List α) (f : α → State → State) (s : State) (h : ∀ x ∈ l, ∀ u, Worked K u (f x u)) :
    Worked K s (each l f s) :=
  each_keeps (Worked K s) l f s (Worked.refl _ _) fun x hx t ht => ht.trans (h x hx t)
theorem Worked.eng {K : List Nat} {s : State} (e : Engines) (h : e.cmds = s.eng.cmds) : Worked K s { s with eng := e } :=
  ⟨rfl, ⟨rfl, rfl, ⟨[], by simp, by simp⟩, fun _ h => h, fun _ h => h, fun _ h => h, fun _ h => h, rfl⟩,
    ⟨fun _ _ => rfl, rfl, fun _ h => h, fun _ h => h, fun _ h => h⟩, h, fun _ _ _ => rfl⟩
theorem work_core (n o : Nat) (hn : n < 512) (ho : o < 0x140) : isWork (kCore n o) = true := by
  unfold isWork kCore; simp only [Bool.or_eq_true, decide_eq_true_eq]; right; omega
theorem work_cl (c o : Nat) (hc : c < 32) (ho : o < 0x100) : isWork (kCl c o) = true := by
  unfold isWork kCl; simp only [Bool.or_eq_true, decide_eq_true_eq]; left; right; omega
theorem notwork_ctx (c o : Nat) (hc : c < 1024) (ho : o < 256) : isWork (kCtx c o) = false := by
  unfold isWork isTally kCtx; simp only [Bool.or_eq_false_iff, decide_eq_false_iff_not]; omega
theorem Worked.ctxPid {K : List Nat} {s t : State} (h : Worked K s t) (c : Nat) (hc : c < 1024) : ctxPid t c = ctxPid s c := by
  unfold Sys2Proof.Machine.ctxPid Sys2Proof.Machine.getF; rw [h.2.2.1.1 _ (notwork_ctx c _ hc (by omega))]

/-! Rows -/

theorem length_rangeFrom (a n : Nat) : (rangeFrom a n).length = n := by
  induction n generalizing a with
  | zero => rfl
  | succ n ih => simp [rangeFrom, ih]
theorem length_leBytes (n v : Nat) : (leBytes n v).length = n := by
  induction n generalizing v with
  | zero => rfl
  | succ n ih => simp [leBytes, ih]
theorem length_convRun (fmt : Nat) (ieee strict : Bool) (r : Rounding) (x : Option Int) (i : Nat) (ws : List Word) :
    (convRun fmt ieee strict r x i ws).1.length = ws.length := by
  induction ws generalizing i with
  | nil => rfl
  | cons w r ih => simp only [convRun, List.length_cons, ih]
theorem chunks_spec {α : Type} (n : Nat) (hn : 0 < n) : ∀ (f : Nat) (l : List α), l.length ≤ f →
    (chunks n f l).length = ceilDiv l.length n ∧ (∀ c ∈ chunks n f l, c.length ≤ n) ∧ (chunks n f l).flatten = l := by
  intro f; induction f with
  | zero => intro l h; have : l = [] := List.length_eq_zero_iff.1 (by omega); subst this; simp [chunks, ceilDiv, Nat.div_eq_of_lt (show n - 1 < n by omega)]
  | succ f ih =>
    intro l h
    cases l with
    | nil => simp [chunks, ceilDiv, Nat.div_eq_of_lt (show n - 1 < n by omega)]
    | cons a r =>
      obtain ⟨h1, h2, h3⟩ := ih ((a :: r).drop n) (by simp only [List.length_drop, List.length_cons] at *; omega)
      refine ⟨?_, ?_, ?_⟩
      · unfold chunks; rw [List.length_cons, h1]
        unfold ceilDiv
        rw [List.length_drop]
        by_cases hl : n ≤ (a :: r).length
        · have : (a :: r).length + (n - 1) = ((a :: r).length - n + (n - 1)) + n := by omega
          rw [this, Nat.add_div_right _ hn]
        · have e1 : (a :: r).length - n = 0 := by omega
          have hp : 0 < (a :: r).length := by simp
          rw [e1, Nat.zero_add, Nat.div_eq_of_lt (by omega)]
          have : (a :: r).length + (n - 1) = ((a :: r).length - 1) + n := by omega
          rw [this, Nat.add_div_right _ hn, Nat.div_eq_of_lt (by omega)]
      · intro c hc
        unfold chunks at hc
        rcases List.mem_cons.1 hc with rfl | hc
        · rw [List.length_take]; omega
        · exact h2 c hc
      · unfold chunks; rw [List.flatten_cons, h3, List.take_append_drop]
theorem length_convBlocks (fmt : Nat) (ieee strict : Bool) (r : Rounding) (b : Nat) (i : Nat) (l : List (List Word)) :
    (convBlocks fmt ieee strict r b i l).1.length = l.flatten.length ∧ (convBlocks fmt ieee strict r b i l).2.1.length = l.length := by
  induction l generalizing i with
  | nil => exact ⟨rfl, rfl⟩
  | cons w t ih =>
    unfold convBlocks
    dsimp only
    have := ih (i + b)
    refine ⟨?_, ?_⟩
    · rw [List.length_append, length_convRun, this.1, List.flatten_cons, List.length_append]
    · rw [List.length_cons, this.2, List.length_cons]
theorem length_convRow (fmt lay : Nat) (ieee strict : Bool) (r : Rounding) (tx : Option Int) (i : Nat) (ws : List Word) :
    (convRow fmt lay ieee strict r tx i ws).1.length = ws.length ∧ (convRow fmt lay ieee strict r tx i ws).2.1.length = scaleBytes lay ws.length := by
  unfold convRow scaleBytes
  by_cases h : blockOf lay = 0
  · rw [if_pos h, if_pos h]; exact ⟨length_convRun .., rfl⟩
  · rw [if_neg h, if_neg h]
    have hc := chunks_spec (blockOf lay) (by omega) ws.length ws (Nat.le_refl _)
    have hb := length_convBlocks fmt ieee strict r (blockOf lay) i (chunks (blockOf lay) ws.length ws)
    rw [hc.2.2, hc.1] at hb; exact hb
theorem length_packBits (w : Nat) : ∀ (f : Nat) (xs : List Nat), xs.length ≤ f →
    ((chunks 8 f xs).flatMap fun c => leBytes (ceilDiv (w * c.length) 8) (packNat w c)).length = ceilDiv (w * xs.length) 8 := by
  intro f; induction f with
  | zero => intro xs h; have : xs = [] := List.length_eq_zero_iff.1 (by omega); subst this; simp [chunks, ceilDiv]
  | succ f ih =>
    intro xs h
    cases xs with
    | nil => simp [chunks, ceilDiv]
    | cons a r =>
      unfold chunks
      rw [List.flatMap_cons, List.length_append, length_leBytes, ih _ (by simp only [List.length_drop, List.length_cons] at *; omega), List.length_take, List.length_drop]
      generalize (a :: r).length = n
      by_cases hl : 8 ≤ n
      · rw [Nat.min_eq_left hl]
        unfold ceilDiv
        have e : w * n = w * (n - 8) + w * 8 := by rw [← Nat.mul_add]; congr 1; omega
        omega
      · rw [Nat.min_eq_right (by omega), show n - 8 = 0 by omega, Nat.mul_zero]; unfold ceilDiv; omega
theorem length_packElems (fmt : Nat) (es : List Nat) : (packElems fmt es).length = rowBytes fmt es.length := by
  unfold packElems packBits rowBytes; rw [length_packBits _ _ _ (Nat.le_refl _), Nat.mul_comm]
theorem length_wordBytes (ws : List Word) : (wordBytes ws).length = 4 * ws.length := by
  unfold wordBytes
  induction ws with
  | nil => rfl
  | cons a r ih => rw [List.flatMap_cons, List.length_append, ih, length_leBytes, List.length_cons]; omega
theorem length_zipFl (f : Word → Word → Word × Nat) (a b : List Word) : (zipFl f a b).1.length = min a.length b.length := by
  induction a generalizing b with
  | nil => simp [zipFl]
  | cons x r ih => cases b with
    | nil => simp [zipFl]
    | cons y t => simp only [zipFl, List.length_cons, ih]; omega

theorem Does.outRow {s0 : State} {K : List Nat} (w : Who) (hw : w.ok) (o : OutForm) (m n : Nat) (hm : m < n) (i : Nat) (ws : List Word)
    (ho : s0.mayOut w o n ws.length) (hk : ∀ k ∈ outKeys s0 w.pid o n ws.length, k ∈ K) :
    Does s0 K (outRow w o m i ws) fun _ => True := by
  unfold Sys2Proof.Machine.outRow
  have hl := length_convRow o.fmt o.lay o.satm o.strict o.sr o.tx i ws
  dsimp only
  generalize convRow o.fmt o.lay o.satm o.strict o.sr o.tx i ws = r at hl
  have hmem : ∀ a st len, ∀ k ∈ keysOf s0 w.pid (a + m * st) len, k ∈ rowKeys s0 w.pid a st n len := by
    intro a st len k hk; exact List.mem_flatMap.2 ⟨m, mem_rangeFrom.2 ⟨by omega, by omega⟩, hk⟩
  refine Does.bind (P := fun _ => True) ?_ fun _ _ => Does.pure _ trivial
  unfold writeRow
  have lp := length_packElems o.fmt r.1
  rw [hl.1] at lp
  refine Does.bind (Does.writeE w hw _ _ (by rw [lp]; exact ho.1 m hm) (fun k h => hk k ?_)) fun _ _ => Does.ite (fun _ => Does.pure _ trivial) fun _ => ?_
  · rw [lp] at h; exact List.mem_append.2 (Or.inl (hmem _ _ _ _ h))
  · refine Does.writeE w hw _ _ (by rw [List.length_map, hl.2]; exact ho.2 m hm) (fun k h => hk k ?_)
    rw [List.length_map, hl.2] at h; exact List.mem_append.2 (Or.inr (hmem _ _ _ _ h))
theorem Does.readElems {s0 : State} {K : List Nat} (w : Who) (hw : w.ok) (fmt a n : Nat) (hr : s0.mayRead w a (rowBytes fmt n)) :
    Does s0 K (readElems w fmt a n) fun es => es.length = n :=
  Does.map _ ((Does.readE w hw _ _ hr).weaken fun bs _ => by unfold unpackBits; rw [List.length_map, length_rangeFrom])
theorem Does.readWords {s0 : State} {K : List Nat} (w : Who) (hw : w.ok) (a n : Nat) (hr : s0.mayRead w a (4 * n)) :
    Does s0 K (readWords w a n) fun es => es.length = n :=
  Does.map _ ((Does.readE w hw _ _ hr).weaken fun bs _ => by rw [List.length_map, length_rangeFrom])
theorem Does.readScales {s0 : State} {K : List Nat} (w : Who) (hw : w.ok) (lay a n : Nat) (hr : s0.mayRead w a (scaleBytes lay n)) :
    Does s0 K (readScales w lay a n) fun _ => True := by
  unfold Sys2Proof.Machine.readScales
  exact Does.ite (fun _ => Does.pure _ trivial) fun _ => Does.map _ ((Does.readE w hw _ _ hr).weaken fun _ _ => trivial)
theorem Does.readVec {s0 : State} {K : List Nat} (w : Who) (hw : w.ok) (fmt a n : Nat) (st : Bool) (hr : s0.mayRead w a (rowBytes fmt n)) :
    Does s0 K (readVec w fmt a n st) fun es => es.length = n :=
  Does.map _ ((Does.readElems w hw fmt a n hr).weaken fun es h => by rw [List.length_map, h])
theorem Does.memBase {s0 : State} {K : List Nat} (w : Who) (hw : w.ok) (core : Nat) (cl wr : Bool) (b : Nat) (h : s0.memShare w core cl = some b) :
    Does s0 K (memBase w core cl wr) fun a => a = b := by
  unfold State.memShare at h
  unfold Sys2Proof.Machine.memBase
  cases cl
  · exact Does.ite (fun h => by simp at h) fun _ => Does.shareE w hw _ _ _ _ (by simpa using h)
  · exact Does.ite (fun _ => Does.shareE w hw _ _ _ _ (by simpa using h)) fun h => by simp at h

theorem whoVec_ok (s : State) (c : BitVec 9) (ctx : Nat) : (whoVec s c.toNat ctx).ok := ⟨fld_lt _ 4 0, (fun _ h => by cases h), c.isLt⟩
theorem whoFeed_ok (s : State) (c : BitVec 9) (ctx : Nat) : (whoFeed s c.toNat ctx).ok := ⟨fld_lt _ 4 0, (fun _ h => by cases h), c.isLt⟩
theorem whoDrain_ok (s : State) (c : BitVec 9) (ctx : Nat) : (whoDrain s c.toNat ctx).ok := ⟨fld_lt _ 4 0, (fun _ h => by cases h), c.isLt⟩
theorem whoDma_ok (s : State) (c : BitVec 9) (ctx : Nat) : (whoDma s c.toNat ctx).ok := ⟨fld_lt _ 4 0, (fun _ h => by cases h), c.isLt⟩
theorem findCmd_core {s : State} {core ctx opc : Nat} {m : EngCmd} (h : findCmd s core ctx opc = some m) : m.core = core ∧ m.ctx = ctx := by
  have := List.find?_some h; simp at this; exact ⟨this.1.1.1, this.1.1.2⟩
theorem Does.lookWho {s0 : State} {K : List Nat} (f : State → Nat → Nat → Who) (core ctx : Nat) (hc : ctx < 1024)
    (hf : ∀ s t : State, ctxPid s ctx = ctxPid t ctx → f s core ctx = f t core ctx) :
    Does s0 K (Sys2Proof.Machine.look fun s => f s core ctx) fun w => w = f s0 core ctx :=
  Does.look _ fun s hs => hf s s0 (hs.ctxPid ctx hc)

/-! The run of a command -/

theorem mem_startable (s : State) : ∀ (l seen : List EngCmd) (x : EngCmd), x ∈ l → ∃ y ∈ startable s seen l, y = x ∨ y = { x with running := true } := by
  intro l; induction l with
  | nil => intro _ _ h; cases h
  | cons a r ih =>
    intro seen x hx
    unfold startable
    dsimp only
    rcases List.mem_cons.1 hx with rfl | hx
    · refine ⟨_, List.mem_cons_self .., ?_⟩
      split
      · exact Or.inl rfl
      · exact Or.inr rfl
    · obtain ⟨y, hy, e⟩ := ih _ x hx
      exact ⟨y, List.mem_cons_of_mem _ hy, e⟩

/-- A command whose work runs through has done its work. -/
theorem runHeld_did {s : State} {core ctx opc : Nat} {p : Pay} {hold : EngCmd → State → Option State} {work : EngCmd → Eng Word} {m : EngCmd} {K : List Nat} {Q : Word → Prop}
    (hm : s.runs core ctx opc m) (hh : hold m s = none) (hw : Does s K (work m) Q) :
    ∃ st, Q st ∧ s.didWork m p st K [] (runHeld core ctx opc p hold work s) := by
  obtain ⟨st, u, e, hu, hq⟩ := hw s (Worked.refl _ _)
  refine ⟨st, hq, ?_⟩
  have hE : runHeld core ctx opc p hold work s = promote (modCmd m (fun x => { x with status := st, pay := some p }) u) := by
    unfold runHeld; rw [hm.1]; simp only [Option.isSome_some, if_true]; rw [hm.1]; simp only [hm.2.1, hm.2.2, hh, e]; simp
  rw [hE]
  obtain ⟨h1, h0, h2, h3, h4⟩ := hu
  have hmem : m ∈ u.eng.cmds := by rw [h3]; exact List.mem_of_find?_eq_some hm.1
  refine ⟨?_, h0, ?_, fun k hk _ => h2.1 k hk, h4⟩
  · unfold promote modCmd; rw [h1]
  · obtain ⟨y, hy, hyy⟩ := mem_startable (modCmd m (fun x => { x with status := st, pay := some p }) u) (modCmd m (fun x => { x with status := st, pay := some p }) u).eng.cmds [] { m with status := st, pay := some p } (by
      unfold modCmd; dsimp only
      exact List.mem_map.2 ⟨m, hmem, by simp⟩)
    refine ⟨y, hy, ?_⟩
    rcases hyy with rfl | rfl <;> exact ⟨rfl, rfl, rfl, rfl, rfl, rfl⟩

end Sys2Proof.Machine
end

