-- ==== Sys2Proof/WellFormed.lean ====
section
/-! DEFINITION. Which commands are well formed: identifiers in the ranges of 00 R13 and of the assembly tables, byte
strings of the lengths the spec gives. -/

namespace Sys2Proof

/-- A function number: the PF or one of the 32 VFs (10 R287). -/
def fnOk (f : BitVec 6) : Bool := decide (f.toNat ≤ 32)
/-- A VF number, 1 to 32. -/
def vfOk (v : BitVec 6) : Bool := decide (1 ≤ v.toNat) && decide (v.toNat ≤ 32)
/-- A channel group of the largest assembly (08 R225). -/
def groupOk (g : BitVec 7) : Bool := decide (g.toNat < 96)
/-- A memory counter or crema block: any core, or a cluster (08 R241). -/
def unitOk (ofCore : Bool) (u : BitVec 9) : Bool := ofCore || decide (u.toNat < 32)
/-- A mailbox body fits the body area (18 R531). -/
def bodyOk (b : List Byte) : Bool := decide (b.length ≤ 61696)
/-- A Span packet carries as many data bytes as its opcode says (09 R254). -/
def pktOk (k : Pkt) (withData : Bool) : Bool :=
  decide (k.nbytes.toNat ≤ 256) && (if withData then k.data.length == k.nbytes.toNat else k.data.length == 0)
/-- A reduction packet's payload is at most 240 B (13 R414). -/
def redOk (k : RedPkt) : Bool := decide (k.data.length ≤ 240)

/-- Well-formed commands. -/
def Instr.wf : Instr → Bool
  | .dieTempCritical n => decide (n.toNat < 54)
  | .sensorUpdate t => t.length == 54
  | .flrVf v => vfOk v
  | .hbmFillBlock g => groupOk g
  | .barBadAccess f _ _ => fnOk f
  | .regWrite v _ _ _ => fnOk v.fn
  | .counterLowRead v _ => fnOk v.fn
  | .memCtrClr c u => unitOk c u
  | .vfAccerrClr v => vfOk v.fn
  | .ctxCrecWrite v _ _ => fnOk v.fn
  | .sqTail f _ _ => fnOk f
  | .cqHead f _ _ => fnOk f
  | .sqFetch _ e => decide (e.length ≤ 96)
  | .starveLimit c u _ => unitOk c u
  | .hbmCreditGrant g => groupOk g
  | .patrolScrub g _ => groupOk g
  | .scrubZero g r => groupOk g && decide (r.toNat < 50331648)
  | .flitReceive _ f => f.slots.length == 240
  | .rd _ k => pktOk k false
  | .wr _ k => pktOk k true
  | .fadd _ k => pktOk k true
  | .iadd32 _ k => pktOk k true
  | .iadd64 _ k => pktOk k true
  | .rdrsp _ k => pktOk k (k.status == 0)
  | .ack _ k => pktOk k false
  | .sessFrag _ _ _ d => decide (d.length ≤ 248)
  | .rdmax k => redOk k
  | .rdpart k => redOk k
  | .rdpair k => redOk k
  | .rddone k => redOk k
  | .rdres k => redOk k
  | .partCreate b => bodyOk b
  | .partSeal b => bodyOk b
  | .partDestroy b => bodyOk b
  | .getCerts f b => fnOk f && bodyOk b
  | .getReport f b => fnOk f && bodyOk b
  | .bkeySet f b => fnOk f && bodyOk b
  | .fwWrite f b => fnOk f && bodyOk b
  | .fwActivate f b => fnOk f && bodyOk b
  | .svnCommit f b _ => fnOk f && bodyOk b
  | .dbgChallenge f b => fnOk f && bodyOk b
  | .dbgUnlock f b => fnOk f && bodyOk b
  | .fmrootSet f b => fnOk f && bodyOk b
  | .crashDump f b => fnOk f && bodyOk b
  | .crashRead f b => fnOk f && bodyOk b
  | .mbUnknownCode f _ b => fnOk f && bodyOk b
  | .challenge f n => fnOk f && n.length == 32
  | .getMeasurements f n => fnOk f && n.length == 32
  | .lwKex f x k n => fnOk f && x.length == 32 && k.length == 1184 && n.length == 32
  | .getVersion f => fnOk f
  | .getCapabilities f => fnOk f
  | .negotiateAlgorithms f => fnOk f
  | .getDigests f => fnOk f
  | .getCertificate f _ _ => fnOk f
  | .finish f _ => fnOk f
  | .keyUpdate v => fnOk v.fn
  | .heartbeat v => fnOk v.fn
  | .endSession v => fnOk v.fn
  | .sessionHeartbeatMiss f => fnOk f
  | .ideQuery v => fnOk v.fn
  | .keyProg v u _ _ => fnOk v.fn && decide (u.toNat < 6)
  | .kSetGo v u _ => fnOk v.fn && decide (u.toNat < 6)
  | .kSetStop v u _ => fnOk v.fn && decide (u.toNat < 6)
  | .ideCheckFail f => fnOk f
  | .haltDrained _ pcs => pcs.all fun (_, _, r) => r.length == 64
  | .crmArm c u _ _ => unitOk c u
  | .crmDisarm c u _ _ => unitOk c u
  | .vauxUp .. | .bootImageSelect | .pfReady | .vauxLost .. | .modEnRise .. | .vinEntersRange .. | .railFamilyGood .. | .railFamilyTimeout ..
  | .modEnFall .. | .vinUndervoltage .. | .vinOvervoltage .. | .throttleFastSource .. | .pcapSample .. | .ratioStep ..
  | .throttleFloorTimeout .. | .leakDetect .. | .perstAssert .. | .perstRelease .. | .flrPf .. | .dripSelftestDone ..
  | .fullSelftestDone .. | .clusterGate .. | .clusterOff .. | .clusterWake .. | .clusterWakeDone .. | .dtimeTick .. | .unitHeartbeat ..
  | .rtpHeartbeat .. | .rtpRestart .. | .entropyFail .. | .smbReadState .. | .smbReadVin .. | .smbReadIin .. | .smbReadPin ..
  | .smbReadEvt .. | .smbReadCause .. | .smbSensorSelect .. | .smbReadTemp .. | .tapIdcode .. | .tapBypass .. | .mxCtrClr ..
  | .vxCtrClr .. | .pgCtrClr .. | .gxCtrClr .. | .spnCtrClr .. | .gcClr .. | .rdcClr .. | .fnAccerrClr .. | .sqEnable .. | .sqDisable ..
  | .cqEnable .. | .cqDisable .. | .hostReadFail .. | .submissionComplete .. | .cqModerationTimer .. | .nop .. | .run .. | .runDispatch ..
  | .runEnd .. | .copyin .. | .copyout .. | .loadimg .. | .unloadimg .. | .admission .. | .commit .. | .groupStage ..
  | .commitDrainStart .. | .commitPoint .. | .commitDrainTimeout .. | .periodClose .. | .budgetOverrun .. | .commandStart ..
  | .commandComplete .. | .unitSchedule .. | .controlCoreException .. | .mxmul .. | .mxtamp .. | .drcvt .. | .drred .. | .drsplit ..
  | .drrsld .. | .grpass .. | .vew .. | .vrow .. | .vsf .. | .vtld .. | .vsmax .. | .vnorm .. | .gtroute .. | .combineRow .. | .cmbfin ..
  | .pourRow .. | .pageSeal .. | .pginit .. | .pgpush .. | .pggath .. | .pgrels .. | .kvscan .. | .dmcopy .. | .spcopy .. | .spatom ..
  | .spfence .. | .cgsubmit .. | .rdpost .. | .ccRemoteLoad .. | .ccRemoteStore .. | .ccRemoteAdd .. | .imbWindowEnd .. | .portEnable ..
  | .portDisable .. | .portTrained .. | .linkDown .. | .nakReplay .. | .init .. | .marker .. | .echo .. | .echoTimeout ..
  | .spanBadPacket .. | .spanReqTimeout .. | .windowPortTimeout .. | .announceTimer .. | .assign .. | .peerNotice .. | .query ..
  | .noticeAck .. | .noticeResend .. | .bucketStart .. | .bucketPhase2 .. | .homeSumDone .. | .bucketComplete .. | .rdcTimeout ..
  | .crashUnitTimeout .. | .ctxRst .. | .ctxResetDrained .. | .ctxResetEscalate .. | .rcvPrst .. | .partResetDrained ..
  | .partResetDomainReset .. | .watchdogFire .. | .unitUnresponsive .. | .haltreq .. | .resume .. | .step .. | .breakpointMatch ..
  | .snpTrig .. | .snapshotTick .. | .snapshotReadoutDone .. | .dumpFire .. | .dumpComplete .. | .fastSourceEnd .. | .leakClear ..
  | .spanTagRelease .. | .destroyTeardownDrained .. => true

end Sys2Proof
end

