-- ==== Sys2Proof/Tests/Slice0.lean ====
section
/-! SUPPORT. Tests: ill-formed commands, small runs of one command with results worked out by hand from the spec, and for each statement
states and operands that meet its premises. -/

namespace Sys2Proof.Tests
open Sys2Proof Sys2Proof.Machine
set_option Elab.async false

/-- A state with registers set. -/
def regs (l : List (Nat × Nat)) (s : State) : State := each l (fun kv t => setN kv.1 kv.2 t) s

/-- A region entry: control bits, first and last granule (08 R220). -/
def region (k ctl lo hi : Nat) : List (Nat × Nat) :=
  [(k, ctl), (k + 4, lo % 2 ^ 26 * 64), (k + 8, hi % 2 ^ 26 * 64), (k + 12, hi / 2 ^ 26 * 65536 + lo / 2 ^ 26)]

/-- A region set that grants all, with context 0's shares in the memories of a core and of its cluster. -/
def open_ (k core : Nat) : List (Nat × Nat) :=
  region k 0xF8000000 0 (2 ^ 42 - 1) ++ region (k + 16) 0x80000000 (spBase core / 64) (spBase core / 64 + 1023) ++
    region (k + 32) 0x80000000 (cmBase (core / 16) / 64) (cmBase (core / 16) / 64 + 1023) ++
    region (k + 48) 0x80000000 (accBase core 0 / 64) (accBase core 0 / 64 + 2047) ++
    region (k + 64) 0x80000000 (accBase core 1 / 64) (accBase core 1 / 64 + 2047)

/-- A RUN of slot 0, entry 0, in and out 64 bytes. -/
def runEnt : List Byte := padTo 64 ([1, 0, 0, 0, 7, 0, 0, 0, 0, 0, 0, 0] ++ leBytes 4 64 ++ leBytes 8 0x10000 ++ leBytes 4 64 ++ leBytes 4 0 ++ leBytes 8 0x20000)
def runSub : Sub := { ctx := 0, seq := 3, v1 := false, ent := runEnt }
/-- An image of one entry, with a deadline record, one core and one cluster, in slot 0 of context 0. -/
def img : Image := { pid := 0, slot := 0, ctx := 0, base := 0, digest := List.replicate 32 0, last := 0
                     entries := [{ ncore := 1, first := 0, pc := 0, inoff := 0x100, inmax := 64, outoff := 0x200, outmax := 64 }]
                     recs := [{ typ := 2, entry := 0, body := leBytes 8 1000 ++ leBytes 8 500 ++ leBytes 4 1 }] }

/-- The largest assembly in full service: partition 0 is sealed with cluster 0 and context 0, placed on it and resident on core 0; no cluster is off. -/
def idle : State :=
  regs ([(0x100, 3 * 2 ^ 29), (0x120, 0), (0x124, 0), (kPart 0 0, 2), (kPart 0 4, 1), (kPart 0 0x80, 1), (kPart 0 0x1000, 7), (kCtx 0 0xA0, 0x80000000),
      (kCtx 0 0xA4, 1), (kCore 0 0x180, 0x80000000), (kCore 0 0x184, 4 * 65536)])
    { State.reset with pwr := { vaux := true, modEn := true, vinOk := true, rails := 3, pwrgd := true, perst := false, pfReady := true
                                dripOk := true, fullOk := true }
                       sec := { ready := true, hasImage := true } }
/-- A RUN of context 0 is running on core 0. -/
def live : State := { idle with jobs := { subs := [{ runSub with st := .running }], images := [img] } }

/-- The state after a command, where it answers one. -/
def after (i : Instr) (s : State) : State := match exec i s with | .next t => t | _ => s

/-- Full service with an engine command issued on core 0, whose masters have their region sets. -/
def issued (opc : Nat) (sets : List Nat) : State := after (.commandStart 0 0 (plainEnv opc)) (regs (sets.flatMap fun k => open_ k 0) live)

/-- Without error marks a run that is granted may be written, or read. -/
theorem clean_none {s : State} (hu : s.hbm.ue = []) (hv : s.hbm.sramUe = []) (hn : s.hbm.netErr = []) (wr : Bool) (ks : List Nat) :
    errAt s wr ks = none := by
  have hb : ∀ b, badBlock s wr b = none := fun b => by simp [badBlock, hu, hv, hn]
  have : ∀ (l : List (List Nat)) k, firstBad (badBlock s wr) k l = none := fun l => by
    induction l with
    | nil => intro _; rfl
    | cons b r ih => intro k; simp only [firstBad, hb, ih]
  exact this _ _
theorem clean_write {s : State} {w : Who} {a n : Nat} (hu : s.hbm.ue = []) (hv : s.hbm.sramUe = []) (hn : s.hbm.netErr = [])
    (h : refusal s w false true false a n = none) : s.mayWrite w a n := ⟨h, clean_none hu hv hn _ _⟩
theorem clean_read {s : State} {w : Who} {a n : Nat} (hu : s.hbm.ue = []) (hv : s.hbm.sramUe = []) (hn : s.hbm.netErr = [])
    (h : refusal s w true false false a n = none) : s.mayRead w a n := ⟨h, clean_none hu hv hn _ _⟩

/-- The bytes of a run whose granules all lie from `lo` up. -/
theorem keys_from {s : State} {p a n lo : Nat}
    (h : ((granules a n).all fun g => match locate s p (64 * g) with | .ok k => decide (lo ≤ k) | .error _ => true) = true) :
    ∀ x ∈ keysOf s p a n, lo ≤ x := by
  intro x hx
  obtain ⟨g, hg, hx⟩ := List.mem_flatMap.1 hx
  have hl := List.all_eq_true.1 h g hg
  revert hx hl
  cases locate s p (64 * g) with
  | error e => intro hx; cases hx
  | ok k => intro hx hl; have := mem_rangeFrom.1 hx; have := of_decide_eq_true hl; omega

/-- A payload. -/
def pay (l : List Nat) : Pay :=
  let w : Nat → Word := fun i => BitVec.ofNat 32 (listGet 0 l i)
  { w0 := w 0, w1 := w 1, w2 := w 2, w3 := w 3, w4 := w 4, w5 := w 5, w6 := w 6, w7 := w 7 }

/-- The first command in flight. -/
def cmd (s : State) : EngCmd := s.eng.cmds.headD { core := 0, ctx := 0, env := plainEnv 0, cseq := 0 }

/-- Words in memory. -/
def words (k : Nat) (ws : List Nat) (s : State) : State := memPuts (rangeFrom k (4 * ws.length)) (ws.flatMap fun w => leBytes 4 w) s

/-- One row of four FP32 elements, 1, 2, -3 and 0.5, at the start of the context's share in the scratchpad. -/
def sVec (opc : Nat) : State := words (spBase 0) [0x3F800000, 0x40000000, 0xC0400000, 0x3F000000] (issued opc [(Master.vec 0).setBase])
def wVec (opc : Nat) : Who := whoVec (sVec opc) 0 0

/-- ADD of the scalar 1 to a row at granule 0, to granule 16. -/
def pVew : Pay := pay [0x04000200, 0x80020, 64, 0, 0x20004, 1, 0x3F800000]
/-- Sum of the row. -/
def pVrow : Pay := pay [0, 0x80020, 64, 0, 0x20000]
/-- RELU of the row. -/
def pVsf : Pay := pay [0x40000000, 0x80020, 64, 0, 0x20004, 1]
/-- Softmax with its work row at granule 8. -/
def pVsmax : Pay := pay [0, 0x80020, 64, 0x100040, 0x20004, 1]
/-- Normalisation without weights. -/
def pVnorm : Pay := pay [0, 0x80020, 64, 0, 0x20004, 1]
/-- Normalisation with a gain row at granule 4 and a bias row at granule 8. -/
def pVnormGain : Pay := pay [0x30000, 0x80020, 64, 0x80020, 0x20004, 1]
/-- ADD of two rows, the second at granule 4; of a row and one fixed row of as many elements. -/
def pVewRows : Pay := pay [0x04000000, 0x80020, 64, 0x80040, 0x20004, 1]
def pVewFixed : Pay := pay [0x04000400, 0x80020, 64, 0x80040, 0x20004, 1]

theorem witness_VectorCommands_elements : ∀ p ∈ [pVew, pVewRows, pVewFixed], (sVec 0x20).runs 0 0 0x20 (cmd (sVec 0x20)) ∧
    firstCode (vewCodes p) = none ∧ (sVec 0x20).memShare (wVec 0x20) 0 false = some (spBase 0) ∧ pb p 0 8 = false ∧
    (sVec 0x20).mayReadRows (wVec 0x20) (spBase 0 + vAddr p) (vStride p) (vM p) (rowBytes (pf p 0 25 22) (vN p)) ∧
    (usesB (pf p 0 31 26) = true → pf p 0 10 9 = 0 → (sVec 0x20).mayReadRows (wVec 0x20) (spBase 0 + pf p 3 31 17 * 64) (pf p 3 16 6 * 64) (vM p)
      (rowBytes (pf p 0 21 18) (vN p))) ∧
    (usesB (pf p 0 31 26) = true → 2 ≤ pf p 0 10 9 → (sVec 0x20).mayRead (wVec 0x20) (spBase 0 + pf p 3 31 17 * 64)
      (rowBytes (pf p 0 21 18) (if pf p 0 10 9 = 2 then vN p else vM p))) ∧
    (sVec 0x20).mayOut (wVec 0x20) (vOut p (cmd (sVec 0x20)) (spBase 0) (pf p 0 17 14) (pf p 0 13 12) (pb p 0 11)) (vM p) (vN p) := by unfold State.mayOut State.mayReadRows State.mayWriteRows State.mayRead State.mayWrite State.runs State.memShare; decide +kernel
theorem witness_VectorCommands_rowResults : (sVec 0x21).runs 0 0 0x21 (cmd (sVec 0x21)) ∧ firstCode (vrowCodes pVrow) = none ∧
    (sVec 0x21).memShare (wVec 0x21) 0 false = some (spBase 0) ∧ pb pVrow 0 24 = false ∧
    (sVec 0x21).mayReadRows (wVec 0x21) (spBase 0 + vAddr pVrow) (vStride pVrow) (vM pVrow) (rowBytes (pf pVrow 0 28 25) (vN pVrow)) ∧
    (sVec 0x21).mayWriteRows (wVec 0x21) (spBase 0 + pf pVrow 4 31 13 * 64) 4 (vM pVrow) 4 := by unfold State.mayReadRows State.mayWriteRows State.mayRead State.mayWrite State.runs State.memShare; decide +kernel
theorem witness_VectorCommands_functions : (sVec 0x22).runs 0 0 0x22 (cmd (sVec 0x22)) ∧ firstCode (vsfCodes pVsf) = none ∧
    (sVec 0x22).hbm.sramUe = [] ∧ (sVec 0x22).memShare (wVec 0x22) 0 false = some (spBase 0) ∧ pb pVsf 0 15 = false ∧
    (sVec 0x22).mayReadRows (wVec 0x22) (spBase 0 + vAddr pVsf) (vStride pVsf) (vM pVsf) (rowBytes (pf pVsf 0 26 23) (vN pVsf)) ∧
    (sVec 0x22).mayOut (wVec 0x22) (vOut pVsf (cmd (sVec 0x22)) (spBase 0) (pf pVsf 0 22 19) (pf pVsf 0 18 17) (pb pVsf 0 16)) (vM pVsf) (vN pVsf) := by unfold State.mayOut State.mayReadRows State.mayWriteRows State.mayRead State.mayWrite State.runs State.memShare; decide +kernel
theorem witness_VectorCommands_softmax : (sVec 0x24).runs 0 0 0x24 (cmd (sVec 0x24)) ∧ firstCode (vsmaxCodes pVsmax) = none ∧
    (sVec 0x24).memShare (wVec 0x24) 0 false = some (spBase 0) ∧ pb pVsmax 0 16 = false ∧
    (sVec 0x24).mayReadRows (wVec 0x24) (spBase 0 + vAddr pVsmax) (vStride pVsmax) (vM pVsmax) (rowBytes (pf pVsmax 0 27 24) (vN pVsmax)) ∧
    (sVec 0x24).mayWriteRows (wVec 0x24) (spBase 0 + pf pVsmax 3 31 17 * 64) (pf pVsmax 3 16 6 * 64) (vM pVsmax) (4 * vN pVsmax) ∧
    (sVec 0x24).mayOut (wVec 0x24) (vOut pVsmax (cmd (sVec 0x24)) (spBase 0) (pf pVsmax 0 23 20) (pf pVsmax 0 19 18) (pb pVsmax 0 17)) (vM pVsmax)
      (vN pVsmax) := by unfold State.mayOut State.mayReadRows State.mayWriteRows State.mayRead State.mayWrite State.runs State.memShare; decide +kernel
theorem witness_VectorCommands_norm : ∀ p ∈ [pVnorm, pVnormGain], (sVec 0x25).runs 0 0 0x25 (cmd (sVec 0x25)) ∧ firstCode (vnormCodes p) = none ∧
    (sVec 0x25).memShare (wVec 0x25) 0 false = some (spBase 0) ∧ pb p 0 18 = false ∧
    (sVec 0x25).mayReadRows (wVec 0x25) (spBase 0 + vAddr p) (vStride p) (vM p) (rowBytes (pf p 0 29 26) (vN p)) ∧
    (pb p 0 17 = true → (sVec 0x25).mayRead (wVec 0x25) (spBase 0 + pf p 3 31 17 * 64) (rowBytes 0 (vN p))) ∧
    (pb p 0 16 = true → (sVec 0x25).mayRead (wVec 0x25) (spBase 0 + pf p 3 16 2 * 64) (rowBytes 0 (vN p))) ∧
    (sVec 0x25).mayOut (wVec 0x25) (vOut p (cmd (sVec 0x25)) (spBase 0) (pf p 0 25 22) (pf p 0 21 20) (pb p 0 19)) (vM p) (vN p) := by unfold State.mayOut State.mayReadRows State.mayWriteRows State.mayRead State.mayWrite State.runs State.memShare; decide +kernel

/-- 1 + 1 = 2 and 0.5 + 1 = 1.5, without a flag (05 R120). -/
theorem test_vew_add : (match exec (.vew 0 0 pVew) (sVec 0x20) with
    | .next t => rawRead t 0 (spBase 0 + 1024) 16 == [0x40000000, 0x40400000, 0xC0000000, 0x3FC00000].flatMap (leBytes 4) &&
        (cmd t).status == 0x10000
    | _ => false) = true := by decide +kernel
/-- The greatest of 1, 2, -3 and 0.5 (05 R123). -/
theorem test_vrow_max : (match exec (.vrow 0 0 pVrow) (sVec 0x21) with
    | .next t => rawRead t 0 (spBase 0 + 1024) 4 == leBytes 4 0x40000000
    | _ => false) = true := by decide +kernel

def sMx (opc : Nat) : State := issued opc [(Master.feed 0).setBase, (Master.drain 0).setBase]
def wMx (opc : Nat) : Who := whoFeed (sMx opc) 0 0

/-- One row of 32 elements by one column on array 0, from granules 0 and 16, into region 0. -/
def pMx : Pay := pay [0x40820001, 32 * 65536 + 16, 64, 0, 16 * 2 ^ 17 + 64]

theorem witness_MatrixCommands_one : (sMx 0x10).memShare (wMx 0x10) 0 false = some (spBase 0) ∧ (sMx 0x10).runs 0 0 0x10 (cmd (sMx 0x10)) ∧
    firstCode (mxCodes (mxOf (cmd (sMx 0x10)) pMx false) pMx) = none := by unfold State.runs State.memShare; decide +kernel
theorem witness_MatrixCommands_problem : (sMx 0x10).mayProb 0 (mxOf (cmd (sMx 0x10)) pMx false) (mxProb pMx) (spBase 0) := by
  have hg : (mxOf (cmd (sMx 0x10)) pMx false).grind = none := by decide +kernel
  unfold State.mayProb
  rw [hg]
  refine ⟨by unfold State.mayReadRows State.mayRead; decide +kernel, fun j n a h => ?_⟩
  have h : (j, n, a) ∈ [(0, 0, 0)] := h
  obtain ⟨rfl, h'⟩ := Prod.mk.inj (List.mem_singleton.1 h)
  obtain ⟨rfl, rfl⟩ := Prod.mk.inj h'
  exact ⟨⟨spBase 0, by unfold State.memShare State.mayReadRows State.mayRead; decide +kernel⟩, accBase 0 0, by
    unfold State.mayWriteRows State.mayReadRows State.mayWrite State.mayRead; decide +kernel⟩

/-- The same with a group table of two entries at granule 32, of which the second, all zero, has no rows. -/
def pMxt : Pay := pay [0x40820000, 32 * 65536 + 16, 32 * 2 ^ 17 + 128, 2 ^ 21, 64]
def sMxt : State := words (spBase 0 + 2048) [0x100, 16 * 2 ^ 17] (sMx 0x11)
def esMxt : List (List Byte) := [leBytes 4 0x100 ++ leBytes 4 (16 * 2 ^ 17) ++ leBytes 8 0, leBytes 16 0]
def keysMxt : List Nat := probKeys sMxt 0 (mxOf (cmd sMxt) pMxt true) (entryProb (listGet [] esMxt 0))

theorem witness_MatrixCommands_table : sMxt.memShare (whoFeed sMxt 0 0) 0 false = some (spBase 0) ∧ sMxt.runs 0 0 0x11 (cmd sMxt) ∧
    firstCode (mxCodes (mxOf (cmd sMxt) pMxt true) pMxt) = none ∧ esMxt.length = pf pMxt 2 16 6 := by unfold State.runs State.memShare; decide +kernel
theorem witness_MatrixCommands_entries : ∀ i ∈ [0, 1], sMxt.mayRead (whoFeed sMxt 0 0) (spBase 0 + pf pMxt 2 31 17 * 64 + 16 * i) 16 ∧
    listGet [] esMxt i = rawRead sMxt (ctxPid sMxt 0) (spBase 0 + pf pMxt 2 31 17 * 64 + 16 * i) 16 ∧ entryReserved (listGet [] esMxt i) = false ∧
    roundUp (entryProb (listGet [] esMxt i)).m 16 ≤ shapeM (mxOf (cmd sMxt) pMxt true).shape ∧
    regionEnd (mxOf (cmd sMxt) pMxt true).w (entryProb (listGet [] esMxt i)) ≤ 131072 ∧
    (∀ k ∈ keysOf sMxt (ctxPid sMxt 0) (spBase 0 + pf pMxt 2 31 17 * 64 + 16 * i) 16, k < accBase 0 0) := by unfold State.mayRead; decide +kernel
theorem witness_MatrixCommands_apart : ∀ k ∈ keysMxt, accBase 0 0 ≤ k := by decide +kernel
theorem witness_MatrixCommands_entryProblem : sMxt.mayProb 0 (mxOf (cmd sMxt) pMxt true) (entryProb (listGet [] esMxt 0)) (spBase 0) := by
  have hg : (mxOf (cmd sMxt) pMxt true).grind = none := by decide +kernel
  unfold State.mayProb
  rw [hg]
  refine ⟨by unfold State.mayReadRows State.mayRead; decide +kernel, fun j n a h => ?_⟩
  have h : (j, n, a) ∈ [(0, 0, 0)] := h
  obtain ⟨rfl, h'⟩ := Prod.mk.inj (List.mem_singleton.1 h)
  obtain ⟨rfl, rfl⟩ := Prod.mk.inj h'
  exact ⟨⟨spBase 0, by unfold State.memShare State.mayReadRows State.mayRead; decide +kernel⟩, accBase 0 0, by
    unfold State.mayWriteRows State.mayReadRows State.mayWrite State.mayRead; decide +kernel⟩
theorem witness_MatrixCommands_noRows : (entryProb (listGet [] esMxt 1)).m = 0 := by decide +kernel

/-- A drain command; core 1 stands by as a gang partner, and the context has two page groups. -/
def sDr (opc : Nat) : State := regs (open_ (Master.drain 1).setBase 1 ++ [(kCtx 0 0x60, 2 * 2 ^ 19)]) (issued opc [(Master.drain 0).setBase])
def wDr (opc : Nat) : Who := whoDrain (sDr opc) 0 0

/-- One row of four columns of array 0 as FP32 to granule 16 of the scratchpad. -/
def pCvt : Pay := pay [0x40000001, 4 * 2 ^ 20, 16 * 8192 + 4, 1]
/-- To the cluster's memory. -/
def pCvtCl : Pay := pay [0x40080001, 4 * 2 ^ 20, 16 * 8192 + 4, 1]
/-- The greatest magnitude into the word at granule 8 of the cluster's memory. -/
def pCvtAmax : Pay := pay [0x40004001, 4 * 2 ^ 20, 0, 0, 0, 8 * 2]
/-- 129 columns across two cores. -/
def pCvtGang : Pay := pay [0x60000001, 129 * 2 ^ 20, 16 * 8192 + 8 * 4, 1]
/-- 32 columns as DF8a with a scale taken from the amax word. -/
def pCvtScale : Pay := pay [0x41E02001, 32 * 2 ^ 20, 16 * 8192 + 4, 4096 * 2048 + 1, 0, 8 * 2]
/-- A group table of one entry of one row, at granule 32, to the combine engine of cluster 0. -/
def pCvtComb : Pay := pay [0x40108000, 4 * 2 ^ 20, 0, 0, 0, 0, 32 * 2 ^ 17 + 64]
/-- 128 columns to the page engine. -/
def pCvtPage : Pay := pay [0x41B80001, 128 * 2 ^ 20]
def sCvtComb : State := words (spBase 0 + 2048) [0x100] (sDr 0x18)

/-- The premises that every DRCVT shares: it runs and decodes, its rows are one row of region 0, and its entries are readable. -/
def cvtReady (s : State) (p : Pay) : Prop :=
  s.runs 0 0 0x18 (cmd s) ∧ firstCode (cvtCodes s 0 (cvtOf (cmd s) p) p) = none ∧ (cvtOf (cmd s) p).accb = 0 ∧
  ∀ x ∈ (cvtOf (cmd s) p).cols, shareOf s (whoDrain s x.1 0) (accBase x.1 x.2.1) accSize = some (accBase x.1 x.2.1) ∧
    s.mayRead (whoDrain s x.1 0) (accBase x.1 x.2.1) (4 * x.2.2.2)

theorem witness_DrainConversions_ready : ∀ p ∈ [pCvt, pCvtCl, pCvtAmax, pCvtGang, pCvtScale, pCvtPage], cvtReady (sDr 0x18) p ∧
    (cvtOf (cmd (sDr 0x18)) p).tamp = false ∧ (cvtOf (cmd (sDr 0x18)) p).m = 1 := by
  unfold cvtReady State.mayRead State.runs; decide +kernel
theorem witness_DrainConversions_amax : (sDr 0x18).memShare (wDr 0x18) 0 true = some (cmBase 0) ∧ (cvtOf (cmd (sDr 0x18)) pCvtAmax).amax = true ∧
    (sDr 0x18).mayRead (wDr 0x18) (cmBase 0 + pf pCvtAmax 5 19 1 * 64) 4 ∧ (sDr 0x18).mayWrite (wDr 0x18) (cmBase 0 + pf pCvtAmax 5 19 1 * 64) 4 := by unfold State.mayRead State.mayWrite State.memShare; decide +kernel
theorem witness_DrainConversions_memory : (∀ p ∈ [pCvt, pCvtCl, pCvtGang], (cvtOf (cmd (sDr 0x18)) p).amax = false ∧
    (cvtOf (cmd (sDr 0x18)) p).scsrc = false) ∧
    (sDr 0x18).memShare (wDr 0x18) 0 false = some (spBase 0) ∧ (sDr 0x18).memShare (wDr 0x18) 0 true = some (cmBase 0) ∧
    (cvtOf (cmd (sDr 0x18)) pCvt).dest = 0 ∧ (cvtOf (cmd (sDr 0x18)) pCvt).n ≤ (cvtOf (cmd (sDr 0x18)) pCvt).rowCols ∧
    (sDr 0x18).mayOut (wDr 0x18) ((cvtOf (cmd (sDr 0x18)) pCvt).place pCvt (spBase 0)) 1 (cvtOf (cmd (sDr 0x18)) pCvt).rowCols ∧
    (cvtOf (cmd (sDr 0x18)) pCvtCl).dest = 1 ∧
    (sDr 0x18).mayOut (wDr 0x18) ((cvtOf (cmd (sDr 0x18)) pCvtCl).place pCvtCl (cmBase 0)) 1 (cvtOf (cmd (sDr 0x18)) pCvtCl).n := by unfold State.mayOut State.mayWriteRows State.mayWrite State.memShare; decide +kernel
theorem witness_DrainConversions_gang : (cvtOf (cmd (sDr 0x18)) pCvtGang).dest = 0 ∧
    (cvtOf (cmd (sDr 0x18)) pCvtGang).rowCols < (cvtOf (cmd (sDr 0x18)) pCvtGang).n ∧
    (sDr 0x18).mayOut (wDr 0x18) ((cvtOf (cmd (sDr 0x18)) pCvtGang).place pCvtGang (spBase 0)) 1 (cvtOf (cmd (sDr 0x18)) pCvtGang).rowCols ∧
    (sDr 0x18).memShare (whoDrain (sDr 0x18) 1 0) 1 false = some (spBase 1) ∧
    (sDr 0x18).mayOut (whoDrain (sDr 0x18) 1 0) ((cvtOf (cmd (sDr 0x18)) pCvtGang).place pCvtGang (spBase 1)) 1
      ((cvtOf (cmd (sDr 0x18)) pCvtGang).n - (cvtOf (cmd (sDr 0x18)) pCvtGang).rowCols) := by unfold State.mayOut State.mayWriteRows State.mayWrite State.memShare; decide +kernel
theorem witness_DrainConversions_scale : (cvtOf (cmd (sDr 0x18)) pCvtScale).amax = false ∧ (cvtOf (cmd (sDr 0x18)) pCvtScale).scsrc = true ∧
    (cvtOf (cmd (sDr 0x18)) pCvtScale).dest = 0 ∧ (sDr 0x18).mayRead (wDr 0x18) (cmBase 0 + pf pCvtScale 5 19 1 * 64) 4 ∧
    (sDr 0x18).mayWrite (wDr 0x18) (cmBase 0 + pf pCvtScale 5 19 1 * 64 + 4) 1 ∧
    (sDr 0x18).mayOut (wDr 0x18) ((cvtOf (cmd (sDr 0x18)) pCvtScale).place pCvtScale (spBase 0)) 1 (cvtOf (cmd (sDr 0x18)) pCvtScale).rowCols := by unfold State.mayOut State.mayWriteRows State.mayRead State.mayWrite; decide +kernel
theorem witness_DrainConversions_combine : cvtReady sCvtComb pCvtComb ∧ (cvtOf (cmd sCvtComb) pCvtComb).dest = 2 ∧
    (cvtOf (cmd sCvtComb) pCvtComb).tamp = true ∧ (cvtOf (cmd sCvtComb) pCvtComb).gcount = 1 ∧
    sCvtComb.memShare (whoDrain sCvtComb 0 0) 0 false = some (spBase 0) ∧
    sCvtComb.mayRead (whoDrain sCvtComb 0 0) (spBase 0 + pf pCvtComb 6 31 17 * 64) 16 ∧
    entryProb (rawRead sCvtComb 0 (spBase 0 + pf pCvtComb 6 31 17 * 64) 16) = { m := 1, a := 0, sa := 0, b := 0, sb := 0, accb := 0 } ∧
    bit (clMask sCvtComb 0) (fld (cvtOf (cmd sCvtComb) pCvtComb).arg 31 27) = true := by
  unfold cvtReady State.mayRead State.runs State.memShare; decide +kernel
theorem witness_DrainConversions_page : (cvtOf (cmd (sDr 0x18)) pCvtPage).dest = 3 ∧
    (sDr 0x18).mayRead (wDr 0x18) (spBase 0 + fld (cvtOf (cmd (sDr 0x18)) pCvtPage).arg 18 4 * 64) 8 := by unfold State.mayRead; decide +kernel

/-- The least of a row of array 0, to granule 16; of a row of candidates at granule 8. -/
def pRed : Pay := pay [0x50000001, 4 * 2 ^ 20, 16 * 8192]
def pRedList : Pay := pay [0x58000001, 4 * 2 ^ 20, 16 * 8192, 0, 8 * 8192 + 2]
/-- Two partial rows of four, at granules 0 and 1, added into a row of array 0. -/
def pSplit : Pay := pay [0x40400001, 4 * 2 ^ 20, 2, 2 ^ 8]
/-- One row of 128 elements through a Grind slot, to granule 16. -/
def pGr : Pay := pay [1, 128 * 65536, 8 * 64, 16 * 8192 + 8 * 4, 1]
def sGr : State := issued 0x1C [(Master.feed 0).setBase]

theorem witness_DrainRows_reduction : ∀ p ∈ [pRed, pRedList], (sDr 0x19).runs 0 0 0x19 (cmd (sDr 0x19)) ∧ firstCode (redCodes p) = none ∧
    (sDr 0x19).memShare (wDr 0x19) 0 (pb p 2 12) = some (spBase 0) ∧
    (pb p 0 27 = false → shapeW (pf p 0 25 24) = 128 ∧ pf p 0 31 30 = 1 ∧ pf p 1 19 13 = 0 ∧
      shareOf (sDr 0x19) (wDr 0x19) (accBase 0 0) accSize = some (accBase 0 0) ∧ (sDr 0x19).mayRead (wDr 0x19) (accBase 0 0) 16) ∧
    (pb p 0 27 = true → (sDr 0x19).memShare (wDr 0x19) 0 (pb p 4 12) = some (spBase 0) ∧
      (sDr 0x19).mayReadRows (wDr 0x19) (spBase 0 + pf p 4 31 13 * 64) (pf p 4 11 1 * 64) 1 32) ∧
    (sDr 0x19).mayWriteRows (wDr 0x19) (spBase 0 + pf p 2 31 13 * 64) 8 1 8 := by unfold State.mayReadRows State.mayWriteRows State.mayRead State.mayWrite State.runs State.memShare; decide +kernel
theorem witness_DrainRows_split : (sDr 0x1A).runs 0 0 0x1A (cmd (sDr 0x1A)) ∧ firstCode (splitCodes pSplit) = none ∧
    (sDr 0x1A).memShare (wDr 0x1A) 0 (pb pSplit 2 12) = some (spBase 0) ∧ arrCols (shapeW (pf pSplit 0 29 28)) 4 (arrsOf 0 (pf pSplit 0 31 30)) = [(0, 0, 0, 4)] ∧
    (∀ j < pf pSplit 0 25 21, (sDr 0x1A).mayReadRows (wDr 0x1A) (spBase 0 + pf pSplit 2 31 13 * 64 + j * pf pSplit 3 31 8 * 64) (pf pSplit 2 11 1 * 64) 1 16) ∧
    pb pSplit 0 26 = false ∧ shareOf (sDr 0x1A) (wDr 0x1A) (accBase 0 0) accSize = some (accBase 0 0) ∧ (sDr 0x1A).mayRead (wDr 0x1A) (accBase 0 0) 16 ∧
    (sDr 0x1A).mayWriteRows (wDr 0x1A) (accBase 0 0 + pf pSplit 1 19 13 * 1024) 512 1 16 := by unfold State.mayReadRows State.mayWriteRows State.mayRead State.mayWrite State.runs State.memShare; decide +kernel
theorem witness_DrainRows_grind : sGr.runs 0 0 0x1C (cmd sGr) ∧ firstCode (grCodes (grSlot (cmd sGr) 0) pGr) = none ∧ pf pGr 0 31 29 = 0 ∧
    sGr.memShare (whoGrind sGr 0 0) 0 false = some (spBase 0) ∧ pb pGr 0 21 = false ∧ (grSlot (cmd sGr) 0).smooth = false ∧
    sGr.mayReadRows (whoGrind sGr 0 0) (spBase 0 + pf pGr 2 31 17 * 64) (pf pGr 2 16 6 * 64) (pf pGr 0 12 0) (rowBytes (grSlot (cmd sGr) 0).ifmt (pf pGr 1 31 16)) ∧
    sGr.mayWriteRows (whoGrind sGr 0 0) (spBase 0 + pf pGr 3 31 13 * 64) (pf pGr 3 12 2 * 64) 1 (rowBytes (pf pGr 0 28 25) 128) := by unfold State.mayReadRows State.mayWriteRows State.mayRead State.mayWrite State.runs State.memShare; decide +kernel

/-- Two rescale entries from granule 0 for array 0. -/
def pRsld : Pay := pay [0x40000040]
def sRsld : State := words (spBase 0) [5, 0x43, 7, 2] (sDr 0x1B)
/-- A table for program slot 1 from granule 0. -/
def pVtld : Pay := pay [0x40000000]

theorem witness_TableLoads_rescale : sRsld.runs 0 0 0x1B (cmd sRsld) ∧ firstCode (rsldCodes sRsld (cmd sRsld) pRsld) = none ∧ pf pRsld 0 17 5 = 2 ∧
    sRsld.memShare (whoDrain sRsld 0 0) 0 false = some (spBase 0) ∧ sRsld.mayRead (whoDrain sRsld 0 0) (spBase 0 + pf pRsld 1 31 17 * 64) 16 := by unfold State.mayRead State.runs State.memShare; decide +kernel
theorem witness_TableLoads_function : (sVec 0x23).runs 0 0 0x23 (cmd (sVec 0x23)) ∧ firstCode (vtldCodes pVtld) = none ∧
    bankInUse (sVec 0x23) (cmd (sVec 0x23)) 1 (shadowBank (sVec 0x23) 0 1) = false ∧ slotOf (sVec 0x23) 0 0 = some 0 ∧
    (sVec 0x23).memShare (wVec 0x23) 0 false = some (spBase 0) ∧ (sVec 0x23).mayRead (wVec 0x23) (spBase 0 + pf pVtld 1 31 17 * 64) 1056 ∧
    errAt (sVec 0x23) true (rangeFrom (tblBase 0 0 1 (shadowBank (sVec 0x23) 0 1)) 1056) = none := by
  unfold State.mayRead State.runs State.memShare
  exact ⟨by decide +kernel, by decide +kernel, by decide +kernel, by decide +kernel, by decide +kernel, by decide +kernel, clean_none rfl rfl rfl _ _⟩
/-- A VTLD that has done its work. -/
def sVtld : State :=
  let s := sVec 0x23; { s with eng := { s.eng with cmds := s.eng.cmds.map fun m => { m with pay := some pVtld } } }
theorem witness_TableLoads_complete : (sVtld.eng.cmds.find? (fun m => m.core == 0 && m.ctx == 0 && envOpc m.env == 0x23 && m.pay.isSome && landed sVtld m)).any
    (fun m => m.pay == some pVtld && !bit m.env.w0 13) = true ∧ (slotOf sVtld 0 0).isSome = true := by decide +kernel

/-- The first entry has the multiplier 5, the shift 3 and rounding (04 R102). -/
theorem test_drrsld_entry : (match exec (.drrsld 0 0 pRsld) sRsld with
    | .next t => tabFind 0 t.eng.rescale == some { mult := 5, shift := 3, rnd := true } && (cmd t).status == 0x20000
    | _ => false) = true := by decide +kernel
/-- FP32 entries leave as they are (04 R100). -/
theorem test_drcvt_fp32 : (match exec (.drcvt 0 0 pCvt) (words (accBase 0 0) [0x3F800000, 0xC0000000] (sDr 0x18)) with
    | .next t => rawRead t 0 (spBase 0 + 1024) 8 == [0x3F800000, 0xC0000000].flatMap (leBytes 4) && (cmd t).status == 0x10000
    | _ => false) = true := by decide +kernel

/-- A context with one stream of two pages, all tables in cluster 0's memory: the stream entry at 0x10000, its page list at 0x11000, its summaries
at 0x12000, the free list with one frame at 0x13000, frames from 0x20000. The image of the same stream is at granule 0 of the scratchpad share. -/
def entPg : StreamEnt := { plbase := cmBase 0 + 0x11000, smbase := cmBase 0 + 0x12000, klen := 0, vlen := 0, maxpg := 2, eng := 0, smstack := 0 }
def withPages (s : State) : State :=
  let base (o a : Nat) : List (Nat × Nat) := [(kCtx 0 o, a % 2 ^ 32), (kCtx 0 (o + 4), a / 2 ^ 32)]
  let s := regs ([(kCtx 0 0x60, 2 ^ 24 + 2 ^ 19), (kCtx 0 0x64, 1), (kCtx 0 0x80, 4), (kCtx 0 0x84, 4), (kCtx 0 0x88, 1)] ++
    base 0x68 (cmBase 0 + 0x10000) ++ base 0x70 (cmBase 0 + 0x20000) ++ base 0x78 (cmBase 0 + 0x13000)) s
  let bytes (a : Nat) (l : List Byte) : State → State := memPuts (rangeFrom a l.length) l
  bytes (spBase 0) (streamBytes entPg) (bytes (cmBase 0 + 0x10000) (streamBytes entPg) (bytes (cmBase 0 + 0x11000) (pageBytes { emptyPage with frame := 2 } ++
    pageBytes emptyPage) (words (cmBase 0 + 0x13000) [1] s)))
def sPg (opc : Nat) : State := withPages (issued opc [(Master.page 0).setBase])
def wPg (opc : Nat) : Who := whoPage (sPg opc) 0 0
/-- The stream set up again from the image. -/
def pInit : Pay := pay [0]
/-- Two frames, 0 and 3, from granule 1 of the scratchpad share. -/
def pPush : Pay := pay [2 * 2 ^ 20, 2 ^ 17]
def sPush : State := words (spBase 0 + 64) [0, 3] (sPg 0x39)
/-- Both pages released, and the lengths cleared. -/
def pRels : Pay := pay [0, 0, 0, 0x80000000]
/-- The keys' scales of both pages, page by number; and of one page of a list. -/
def pGath : Pay := pay [0, 2 * 2 ^ 22 + 2 * 2 ^ 11]
def pGathList : Pay := pay [0, 2 ^ 22 + 2 ^ 21 + 2 * 2 ^ 11, 0, 0x380 * 2 ^ 13]
/-- One query row, up to one page of each kind. -/
def pScan : Pay := pay [0, 2 ^ 22 + 2 ^ 15 + 2 ^ 10, 0x800 * 8192, 0x900 * 8192]
/-- A key row on its way to position 5 of page 0, and one to page 1, which has no frame. -/
def rowPg (pos : Nat) (isV : Bool) : PourRow :=
  { core := 0, ctx := 0, cseq := 1, slot := 0, layer := 0, group := 0, isV := isV, pos := some pos, elems := List.replicate 128 1, scales := [1, 2, 3, 4] }
def sPour (r : PourRow) : State := let s := sPg 0x18; { s with eng := { s.eng with pourRows := [r] } }
/-- Page 0 full and not sealed. -/
def fullPg : PageEnt := { frame := 2, isSealed := false, vfill := 64, kfill := 64, kmap := 2 ^ 64 - 1, vmap := 2 ^ 64 - 1 }
def sSeal : State := let s := memPuts (rangeFrom (cmBase 0 + 0x11000) 32) (pageBytes fullPg) (sPg 0x18)
  { s with eng := { s.eng with full := [{ cl := 0, ctx := 0, stream := 0, page := 0 }] } }

theorem witness_PageLists_init : (sPg 0x38).runs 0 0 0x38 (cmd (sPg 0x38)) ∧ streamHold [0x3A, 0x3C] pInit (cmd (sPg 0x38)) (sPg 0x38) = none ∧
    (sPg 0x38).memShare (wPg 0x38) 0 false = some (spBase 0) ∧
    firstCode [(0x40, !pz pInit 1 0x1FFFF || !wordsZero pInit 2), (0x41, decide (kvStreams (sPg 0x38) 0 ≤ pInit.w0.toNat))] = none ∧
    streamAddr (sPg 0x38) 0 0 = cmBase 0 + 0x10000 ∧ (sPg 0x38).streamIs (wPg 0x38) 0 entPg ∧
    (sPg 0x38).mayRead (wPg 0x38) (spBase 0 + pf pInit 1 31 17 * 64) 32 ∧ streamOf (rawRead (sPg 0x38) 0 (spBase 0) 32) = entPg ∧
    firstCode [(0x42, if entPg.maxpg = 0 then bit (clMask (sPg 0x38) 0) entPg.eng && entPg.eng != clOf 0 else entPg.eng != clOf 0),
      (0x45, decide (32768 < entPg.maxpg) || !bit (clMask (sPg 0x38) 0) 0 || decide (stackCount (sPg 0x38) ≤ 0))] = none ∧
    (sPg 0x38).listTakes 0 2 ∧ (∀ i < 2, (sPg 0x38).pageOpen (wPg 0x38) entPg i) ∧ (sPg 0x38).mayWrite (wPg 0x38) (cmBase 0 + 0x10000) 32 := by unfold State.pageOpen State.streamIs State.listTakes State.mayRead State.mayWrite State.runs State.memShare; decide +kernel
theorem witness_PageLists_push : sPush.runs 0 0 0x39 (cmd sPush) ∧ sPush.memShare (whoPage sPush 0 0) 0 false = some (spBase 0) ∧
    firstCode [(0x40, !pz pPush 0 0xFFFFF || !pz pPush 1 0x1FFFF || !wordsZero pPush 2), (0x41, kvNseq sPush 0 == 0), (0x42, kvHome sPush 0 != clOf 0),
      (0x43, pf pPush 0 31 20 == 0)] = none ∧ sPush.mayRead (whoPage sPush 0 0) (spBase 0 + pf pPush 1 31 17 * 64) 8 ∧
    (∀ i < 2, leAt (rawRead sPush 0 (spBase 0 + pf pPush 1 31 17 * 64) 8) (4 * i) 4 < kvNfrm sPush 0) ∧ sPush.listTakes 0 2 := by unfold State.listTakes State.mayRead State.mayWrite State.runs State.memShare; decide +kernel
theorem witness_PageLists_release : (sPg 0x3B).runs 0 0 0x3B (cmd (sPg 0x3B)) ∧ streamHold [0x3A, 0x3C] pRels (cmd (sPg 0x3B)) (sPg 0x3B) = none ∧
    firstCode [(0x40, !pz pRels 3 0x7FFFFFFF || !wordsZero pRels 4), (0x41, decide (kvStreams (sPg 0x3B) 0 ≤ pRels.w0.toNat))] = none ∧
    (sPg 0x3B).streamIs (wPg 0x3B) 0 entPg ∧
    firstCode [(0x42, entPg.eng != clOf 0), (0x44, decide (entPg.maxpg < pRels.w1.toNat + pRels.w2.toNat))] = none ∧ pRels.w2 = 0 ∧
    (sPg 0x3B).listTakes 0 2 ∧ (∀ i < 2, (sPg 0x3B).pageOpen (wPg 0x3B) entPg i) ∧ (sPg 0x3B).mayWrite (wPg 0x3B) (cmBase 0 + 0x10000 + 16) 8 := by unfold State.pageOpen State.streamIs State.listTakes State.mayRead State.mayWrite State.runs; decide +kernel

def gatherBad (p : Pay) : Bool := !pz p 1 0x7FF || !pz p 3 0x1FFF || !pz p 4 0x1FFF || !pz p 5 0x7FF || !pz p 6 0x1FFF || !pz p 7 0x1FFF || pf p 1 15 11 == 0 ||
  addrBad true 64 (pf p 3 31 13) || addrBad (pb p 1 16) 64 (pf p 4 31 13) || addrBad (pb p 1 16) 16 (pf p 5 31 11) ||
  addrBad (pb p 1 16) 64 (pf p 6 31 13) || addrBad (pb p 1 16) 64 (pf p 7 31 13)
theorem witness_PageReaders_gather : (sPg 0x3A).runs 0 0 0x3A (cmd (sPg 0x3A)) ∧ (sPg 0x3A).streamIs (wPg 0x3A) 0 entPg ∧ 0 < kvStreams (sPg 0x3A) 0 ∧
    (∀ p ∈ [pGath, pGathList], streamHold [] p (cmd (sPg 0x3A)) (sPg 0x3A) = none ∧ gatherBad p = false ∧ 0 < pf p 1 31 22 ∧ pb p 1 16 = false ∧ p.w0 = 0) ∧
    pb pGath 1 21 = false ∧ pGath.w2.toNat + pf pGath 1 31 22 ≤ entPg.maxpg ∧ pb pGathList 1 21 = true ∧
    shareOf (sPg 0x3A) (wPg 0x3A) (cmBase 0) cmSize = some (cmBase 0) ∧ (sPg 0x3A).mayRead (wPg 0x3A) (cmBase 0 + pf pGathList 3 31 13 * 64) 4 ∧
    leAt (rawRead (sPg 0x3A) 0 (cmBase 0 + pf pGathList 3 31 13 * 64) 4) 0 4 = 0 ∧
    shareOf (sPg 0x3A) (wPg 0x3A) (spBase 0) spSize = some (spBase 0) := by unfold State.streamIs State.mayRead State.runs; decide +kernel
theorem witness_PageReaders_places : ∀ x ∈ ({ parts := 2, count := 2, k := spBase 0, ks := spBase 0, v := spBase 0, r := spBase 0 } : Gather).places,
    (sPg 0x3A).mayWrite (wPg 0x3A) x.1 x.2 := by
  intro x hx; exact clean_write rfl rfl rfl (by revert x; decide +kernel)
theorem witness_PageReaders_pages : (∀ i < 2, (sPg 0x3A).mayRead (wPg 0x3A) (entPg.plbase + 32 * i) 32) ∧
    (pageOf (rawRead (sPg 0x3A) 0 entPg.plbase 32)).frame = 2 ∧ (pageOf (rawRead (sPg 0x3A) 0 (entPg.plbase + 32) 32)).frame = noFrame ∧
    refusal (sPg 0x3A) (wPg 0x3A) true false false (frameAddr (sPg 0x3A) 0 2) 16896 = none := by unfold State.mayRead; decide +kernel
def wScan : Who := { wPg 0x3C with cls := 9, unit := entPg.smstack, die := some (stackDie (sPg 0x3C) entPg.smstack) }
theorem witness_PageReaders_scan : (sPg 0x3C).runs 0 0 0x3C (cmd (sPg 0x3C)) ∧ streamHold [0x38, 0x3B] pScan (cmd (sPg 0x3C)) (sPg 0x3C) = none ∧
    (sPg 0x3C).streamIs (wPg 0x3C) 0 entPg ∧ entPg.eng = clOf 0 ∧
    (!pz pScan 1 0x3FF || !pz pScan 2 0x1FFF || !pz pScan 3 0x1FFF || !wordsZero pScan 5 || addrBad true 64 (pf pScan 2 31 13) ||
      addrBad true 64 (pf pScan 3 31 13)) = false ∧ pf pScan 1 31 22 = 1 ∧ pf pScan 1 21 15 = 1 ∧ pf pScan 1 14 10 = 1 ∧
    shareOf (sPg 0x3C) wScan (cmBase 0) cmSize = some (cmBase 0) ∧
    (sPg 0x3C).mayReadRows wScan (cmBase 0 + pf pScan 2 31 13 * 64) 512 (pf pScan 1 14 10) 512 ∧
    (sPg 0x3C).mayReadRows wScan entPg.smbase 144 (ceilDiv 128 64 - pf pScan 1 21 15) 144 ∧
    (∀ n ≤ 2, (sPg 0x3C).mayWrite wScan (cmBase 0 + pf pScan 3 31 13 * 64) (4 * n)) := by unfold State.streamIs State.mayReadRows State.mayRead State.mayWrite State.runs; decide +kernel

theorem witness_PagesFill_idle : takeFirst (fun r => r.engine (sPg 0x18) == 0) (sPg 0x18).eng.pourRows = none ∧
    takeFirst (fun q : FullPage => q.cl == 0) (sPg 0x18).eng.full = none := by decide +kernel
/-- The premises of POUR_ROW that do not depend on the kind of row. -/
def pourReady (r : PourRow) : Prop :=
  takeFirst (fun r => r.engine (sPour r) == 0) (sPour r).eng.pourRows = some (r, []) ∧ r.inRange (sPour r) = true ∧ r.stream (sPour r) = 0 ∧
  (sPour r).mayRead (whoPage (sPour r) 0 0) (streamAddr (sPour r) 0 0) 32 ∧
  entPg = streamOf (rawRead (sPour r) 0 (streamAddr (sPour r) 0 0) 32) ∧ r.pos.getD 0 < 128 ∧
  (sPour r).mayRead (whoPage (sPour r) 0 0) (entPg.plbase + 32 * (r.pos.getD 0 / 64)) 32 ∧
  (sPour r).mayWrite (whoPage (sPour r) 0 0) (entPg.plbase + 32 * (r.pos.getD 0 / 64)) 32 ∧
  (sPour r).mayWrite (whoPage (sPour r) 0 0) (streamAddr (sPour r) 0 0 + (if r.isV then 20 else 16)) 4 ∧ r.elems.length = 128 ∧ r.scales.length = 4
theorem witness_PagesFill_rows : ∀ r ∈ [rowPg 5 false, rowPg 70 true], pourReady r := by unfold pourReady State.mayRead State.mayWrite; decide +kernel
theorem witness_PagesFill_key : pageOf (rawRead (sPour (rowPg 5 false)) 0 entPg.plbase 32) = { emptyPage with frame := 2 } ∧
    frameAddr (sPour (rowPg 5 false)) 0 2 = cmBase 0 + 0x20000 + 33792 ∧
    (sPour (rowPg 5 false)).mayWrite (whoPage (sPour (rowPg 5 false)) 0 0) (cmBase 0 + 0x20000 + 33792 + 640) 128 ∧
    (sPour (rowPg 5 false)).mayWrite (whoPage (sPour (rowPg 5 false)) 0 0) (cmBase 0 + 0x20000 + 33792 + 16384 + 20) 4 := by unfold State.mayWrite; decide +kernel
theorem witness_PagesFill_value : pageOf (rawRead (sPour (rowPg 70 true)) 0 (entPg.plbase + 32) 32) = emptyPage ∧ 0 < kvFlcnt (sPour (rowPg 70 true)) 0 ∧
    (sPour (rowPg 70 true)).mayRead (whoPage (sPour (rowPg 70 true)) 0 0) (cmBase 0 + 0x13000) 4 ∧
    leNat (rawRead (sPour (rowPg 70 true)) 0 (cmBase 0 + 0x13000) 4) = 1 ∧ frameAddr (sPour (rowPg 70 true)) 0 1 = cmBase 0 + 0x20000 + 16896 ∧
    (∀ d < 128, refusal (sPour (rowPg 70 true)) (whoPage (sPour (rowPg 70 true)) 0 0) false true false (cmBase 0 + 0x20000 + 16896 + 8192 + 64 * d + 6) 1 = none) ∧
    emptyPage.isSealed = false ∧
    (sPour (rowPg 70 true)).mayWrite (whoPage (sPour (rowPg 70 true)) 0 0) (cmBase 0 + 0x20000 + 16896 + 16640 + 24) 4 := by unfold State.mayRead State.mayWrite; decide +kernel
theorem witness_PagesFill_place : errAt (sPour (rowPg 70 true)) true ((rangeFrom 0 128).flatMap fun d =>
    keysOf (sPour (rowPg 70 true)) 0 (cmBase 0 + 0x20000 + 16896 + 8192 + 64 * d + 6) 1) = none := clean_none rfl rfl rfl _ _
theorem witness_PagesFill_seal : takeFirst (fun q : FullPage => q.cl == 0) sSeal.eng.full = some ({ cl := 0, ctx := 0, stream := 0, page := 0 }, []) ∧
    sSeal.streamIs (whoPage sSeal 0 0) 0 entPg ∧ pageOf (rawRead sSeal 0 entPg.plbase 32) = fullPg ∧ pageFull fullPg = true ∧ fullPg.frame ≠ noFrame ∧
    sSeal.mayRead (whoPage sSeal 0 0) entPg.plbase 32 ∧ frameAddr sSeal 0 2 = cmBase 0 + 0x20000 + 33792 ∧
    refusal sSeal (whoPage sSeal 0 0) true false false (cmBase 0 + 0x20000 + 33792) 8192 = none ∧ fullPg.isSealed = false ∧ 0 < entPg.maxpg ∧
    sSeal.mayRead (whoPage sSeal 0 0) (cmBase 0 + 0x20000 + 33792 + 16384) 256 ∧ sSeal.mayWrite (whoPage sSeal 0 0) entPg.smbase 140 ∧
    sSeal.mayWrite (whoPage sSeal 0 0) (entPg.smbase + 140) 4 ∧ sSeal.mayWrite (whoPage sSeal 0 0) entPg.plbase 32 := by unfold State.streamIs State.mayRead State.mayWrite; decide +kernel

/-- Two frames are on top of the one that was there (06 R178). -/
theorem test_pgpush_count : kvFlcnt (after (.pgpush 0 0 pPush) sPush) 0 = 3 := by decide +kernel
/-- Position 70 lies in slot 6 of page 1, which takes the frame of the list (06 R169, R172). -/
theorem test_pour_takesAFrame : pageOf (rawRead (after (.pourRow 0) (sPour (rowPg 70 false))) 0 (entPg.plbase + 32) 32) =
    { emptyPage with frame := 1, kfill := 1, kmap := 64 } := by decide +kernel

/-- A context with one layer, its entry at 0x10000 of cluster 0's memory: threshold 0.5, groups of at most two rows, two choices a token, two
experts. One token's scores, 0.75 and 0.25, are at granule 0x600. Target entries are at granule 0xA00; core 0's group table, at granule 32 of its
scratchpad, sends rows to granule 64 and scales to granule 80. -/
def sGt : State :=
  let s := regs [(kCtx 0 0x90, (cmBase 0 + 0x10000) % 2 ^ 32), (kCtx 0 0x94, (cmBase 0 + 0x10000) / 2 ^ 32), (kCtx 0 0x98, 1)]
    (issued 0x30 [(Master.gate 0).setBase])
  let put (a : Nat) (l : List Byte) : State → State := memPuts (rangeFrom a l.length) l
  put (cmBase 0 + 0x10000) (leBytes 4 0x3F000000 ++ leBytes 2 2 ++ leBytes 1 2 ++ [0] ++ leBytes 2 2 ++ List.replicate 6 0)
    (words (cmBase 0 + 0x18000) [0x3F400000, 0x3E800000] (words (cmBase 0 + 0x28000) [32 * 2 ^ 17, 2 ^ 22 + 2 ^ 11 + 4]
      (words (spBase 0 + 2048) [64 * 2 ^ 17, 0, 320 * 2 ^ 15] s)))
def wGt : Who := whoGate sGt 0 0
/-- One token, recorded at granule 0x700, listed at 0x800, counted at 0x900; and the same dispatched, rows of 64 bytes at granule 0xB00 with 16 bytes
of scales at unit 0x3000. -/
def pGt : Pay := pay [2 ^ 19, 0x600 * 8192 + 4, 0x700 * 8192, 0x800 * 8192, 0x900 * 8192]
def pGtDisp : Pay := pay [2 ^ 19 + 2 ^ 10, 0x600 * 8192 + 4, 0x700 * 8192, 0x800 * 8192 + 1, 0x900 * 8192 + 1, 0xA00 * 8192, 0xB00 * 8192 + 4, 0x3000 * 2048 + 1]
def entGt : LayerEnt := { tau := 0x3F000000, cap := 2, maxk := 2, wmode := false, renorm := false, nexp := 2 }
def keysGt (p : Pay) : List Nat :=
  rowKeys sGt 0 (cmBase 0 + pf p 2 31 13 * 64) 144 1 144 ++
    (rowKeys sGt 0 (cmBase 0 + pf p 3 31 13 * 64) 2 2 2 ++ rowKeys sGt 0 (cmBase 0 + pf p 3 31 13 * 64 + 512) 2 2 2) ++
    keysOf sGt 0 (cmBase 0 + pf p 4 31 13 * 64) 4 ++ rangeFrom (spBase 0 + 4096) 128 ++ rangeFrom (spBase 0 + 5120) 80
def tgtGt : List Byte := leBytes 4 (32 * 2 ^ 17) ++ leBytes 4 (2 ^ 22 + 2 ^ 11 + 4)

theorem witness_GateRoutes_route : ∀ p ∈ [pGt, pGtDisp], sGt.runs 0 0 0x30 (cmd sGt) ∧ firstCode (gtCodes sGt 0 p) = none ∧ pf p 0 31 19 = 1 ∧
    layerAddr sGt 0 (pf p 0 18 11) = cmBase 0 + 0x10000 ∧ sGt.mayRead wGt (cmBase 0 + 0x10000) 16 ∧
    layerBad (rawRead sGt 0 (cmBase 0 + 0x10000) 16) = false ∧ layerOf (rawRead sGt 0 (cmBase 0 + 0x10000) 16) = entGt ∧
    shareOf sGt wGt (cmBase 0) cmSize = some (cmBase 0) ∧
    sGt.mayReadRows wGt (cmBase 0 + pf p 1 31 13 * 64) (pf p 1 12 2 * 64) 1 (4 * entGt.nexp) ∧
    sGt.mayWriteRows wGt (cmBase 0 + pf p 2 31 13 * 64) 144 1 144 ∧
    (∀ x < entGt.nexp, sGt.mayWriteRows wGt (cmBase 0 + pf p 3 31 13 * 64 + 512 * x) 2 entGt.cap 2) ∧
    sGt.mayWrite wGt (cmBase 0 + pf p 4 31 13 * 64) (2 * entGt.nexp) ∧
    (∀ k ∈ rowKeys sGt 0 (cmBase 0 + pf p 2 31 13 * 64) 144 1 144, k ∈ keysGt p) ∧
    (∀ x < entGt.nexp, ∀ k ∈ rowKeys sGt 0 (cmBase 0 + pf p 3 31 13 * 64 + 512 * x) 2 entGt.cap 2, k ∈ keysGt p) ∧
    (∀ k ∈ keysOf sGt 0 (cmBase 0 + pf p 4 31 13 * 64) (2 * entGt.nexp), k ∈ keysGt p) ∧
    (∀ k ∈ keysOf sGt 0 (cmBase 0 + pf p 1 31 13 * 64) (4 * entGt.nexp), k ∉ keysGt p) := by unfold State.mayReadRows State.mayWriteRows State.mayRead State.mayWrite State.runs; decide +kernel
theorem witness_GateRoutes_targets : sGt.targets wGt pGtDisp (cmBase 0) 2 = [tgtGt] ∧
    (∀ x < entGt.nexp, sGt.mayRead wGt (cmBase 0 + pf pGtDisp 5 31 13 * 64 + 32 * x) 32 ∧
      ∀ k ∈ keysOf sGt 0 (cmBase 0 + pf pGtDisp 5 31 13 * 64 + 32 * x) 32, k ∉ keysGt pGtDisp ∧ k ∉ sGt.tgtKeys wGt tgtGt) := by unfold State.mayRead; decide +kernel
theorem witness_GateRoutes_fill : sGt.mayFill wGt pGtDisp (cmBase 0) 1 2 (keysGt pGtDisp) tgtGt := by
  have hu : sGt.hbm.ue = [] := by decide +kernel
  refine ⟨by decide +kernel, by decide +kernel, spBase 0, _, by decide +kernel, rfl, clean_read rfl rfl rfl (by decide +kernel),
    clean_write rfl rfl rfl (by decide +kernel), by decide +kernel, ?_, ?_⟩
  · unfold State.mayRead; decide +kernel
  · unfold State.mayWrite; decide +kernel

/-- A row of two elements, 2 and 3, of row 0 of group 1, that came to the combine engine of cluster 0. The route descriptor, with inexact or exact
adding, is at 0x20000 of its memory; group 1 has one row, of token 0 as its second choice with the weight 0.5. -/
def rowCmb : CombineRow :=
  { core := 0, ctx := 0, cseq := 0, dst := 0, rd := 0x20000, col := 0, grp := 1, row := 0, strict := false, data := [0x40000000, 0x40400000] }
def descWords (exact : Nat) : List Nat :=
  [2 ^ 19 + exact * 2 ^ 13 + 2 * 16, 0x700 * 8192, 0x800 * 8192, 0x900 * 8192, 0xC00 * 8192 + 4, 0xD00 * 8192 + 8, 0, 0]
def sCmb (exact : Nat) (r : CombineRow) : State :=
  let s := words (cmBase 0 + 0x20000) (descWords exact) (words (cmBase 0 + 0x900 * 64) [0x10000] (words (cmBase 0 + 0x800 * 64 + 512) [0x1000]
    (words (cmBase 0 + 0x700 * 64 + 24) [0x3F000000] (issued 0x34 [(Master.comb 0).setBase]))))
  { s with eng := { s.eng with cmbRows := [r] } }
def wCmb (exact : Nat) : Who := whoComb (sCmb exact rowCmb) 0 0
def desc (exact : Nat) : List Byte := (descWords exact).flatMap (leBytes 4)

theorem witness_Combining_row : ∀ x ∈ [0, 1], ∀ r ∈ [rowCmb, { rowCmb with desc := desc x }],
    takeFirst (fun q => q.dst == 0) (sCmb x r).eng.cmbRows = some (r, []) ∧ r.ctx < 1024 ∧ shareOf (sCmb x r) (wCmb x) (cmBase 0) cmSize = some (cmBase 0) ∧
    (r.desc.isEmpty = true → (sCmb x r).mayRead (wCmb x) (cmBase 0 + r.rd) 32 ∧ descOf (desc x) = descOf (rawRead (sCmb x r) 0 (cmBase 0 + r.rd) 32)) ∧
    (r.desc.isEmpty = false → descOf (desc x) = descOf r.desc) ∧ r.grp < (descOf (desc x)).nexp ∧ (descOf (desc x)).reccl = 0 ∧
    (descOf (desc x)).exact = (x == 1) ∧ (sCmb x r).mayRead (wCmb x) (cmBase 0 + (descOf (desc x)).cnt + 2) 2 ∧
    r.row < leNat (rawRead (sCmb x r) 0 (cmBase 0 + (descOf (desc x)).cnt + 2) 2) ∧
    (sCmb x r).mayRead (wCmb x) (cmBase 0 + (descOf (desc x)).lst + 512) 2 ∧
    leNat (rawRead (sCmb x r) 0 (cmBase 0 + (descOf (desc x)).lst + 512) 2) = 0x1000 ∧
    (sCmb x r).mayRead (wCmb x) (cmBase 0 + (descOf (desc x)).rec_ + 24) 4 ∧
    (sCmb x r).mayRead (wCmb x) (cmBase 0 + (if (descOf (desc x)).exact then (descOf (desc x)).waddr else (descOf (desc x)).taddr))
      ((if (descOf (desc x)).exact then 8 else 4) * 2) ∧
    (sCmb x r).mayWrite (wCmb x) (cmBase 0 + (if (descOf (desc x)).exact then (descOf (desc x)).waddr else (descOf (desc x)).taddr))
      ((if (descOf (desc x)).exact then 8 else 4) * 2) := by unfold State.mayRead State.mayWrite; decide +kernel
theorem witness_Combining_none : takeFirst (fun r => r.dst == 1) (sCmb 0 rowCmb).eng.cmbRows = none := by decide +kernel

/-- A finish of 64 columns from column 0, and one that only clears. -/
def pFin : Pay := pay [0x800 * 8192, 2 ^ 16]
def pFinClr : Pay := pay [0x800 * 8192 + 2 ^ 11, 2 ^ 16]
theorem witness_Combining_finish : ∀ p ∈ [pFin, pFinClr], (sCmb 1 rowCmb).runs 0 0 0x34 (cmd (sCmb 1 rowCmb)) ∧
    (decide (1 < pf p 0 12 11) || !pz p 0 0x7FF || !pz p 1 0xFFFF || pf p 1 23 16 == 0 || !wordsZero p 2 || addrBad true 64 (pf p 0 31 13)) = false ∧
    pf p 0 31 13 * 64 = 0x20000 ∧ descOf (rawRead (sCmb 1 rowCmb) 0 (cmBase 0 + 0x20000) 32) = descOf (desc 1) ∧
    (sCmb 1 rowCmb).mayRead (wCmb 1) (cmBase 0 + 0x20000) 32 ∧ pf p 1 31 24 = 0 ∧ pf p 1 23 16 = 1 ∧
    (sCmb 1 rowCmb).mayReadRows (wCmb 1) (cmBase 0 + (descOf (desc 1)).waddr) (descOf (desc 1)).wstr (descOf (desc 1)).m 512 ∧
    (sCmb 1 rowCmb).mayWriteRows (wCmb 1) (cmBase 0 + (descOf (desc 1)).waddr) (descOf (desc 1)).wstr (descOf (desc 1)).m 512 ∧
    (pf p 0 12 11 = 0 → (sCmb 1 rowCmb).mayReadRows (wCmb 1) (cmBase 0 + (descOf (desc 1)).taddr) (descOf (desc 1)).tstr (descOf (desc 1)).m 256 ∧
      (sCmb 1 rowCmb).mayWriteRows (wCmb 1) (cmBase 0 + (descOf (desc 1)).taddr) (descOf (desc 1)).tstr (descOf (desc 1)).m 256) := by unfold State.mayReadRows State.mayWriteRows State.mayRead State.mayWrite State.runs; decide +kernel

/-- Only the first expert's score reaches the threshold: one row for it (07 R193, R194). -/
theorem test_gtroute_counts : rawRead (after (.gtroute 0 0 pGt) sGt) 0 (cmBase 0 + 0x900 * 64) 4 = [1, 0, 0, 0] := by decide +kernel
/-- Half of 2 and of 3 are added to the token's elements (07 R205). -/
theorem test_combine_weighted : rawRead (after (.combineRow 0) (sCmb 0 rowCmb)) 0 (cmBase 0 + 0xC00 * 64) 8 = leBytes 4 0x3F800000 ++ leBytes 4 0x3FC00000 := by
  decide +kernel

/-- The module is number 1 of a fabric, port 0 is up, and window 3 of partition 0 takes all of module 2 over it, for partition 4 of epoch 9. -/
def onSpan (s : State) : State :=
  regs [(0x1000, 0x80000001), (kP 0 4, 0x40000000), (kWin 0 3 0, 0xB8020000), (kWin 0 3 4, 9 * 65536 + 2), (kWin 0 3 12, 0xFFFFFFC0), (kWin 0 3 16, 0x3FFFFF * 65536 % 2 ^ 32)] s
/-- Window `n` carries an access. -/
def carries (s : State) (w : Who) (perm ga len n : Nat) : Bool := match windowOf s w perm ga len with | .ok k => k == n | .error _ => false
theorem windowOf_of_carries {s : State} {w : Who} {perm ga len n : Nat} (h : carries s w perm ga len n = true) : windowOf s w perm ga len = .ok n := by
  unfold carries at h
  split at h
  · next k e => rw [e, eq_of_beq h]
  · cases h
def sDma (opc : Nat) : State :=
  let s := onSpan (issued opc [(Master.dma 0).setBase, (Master.ctl 0).setBase])
  { s with jobs := { s.jobs with wptr := [(5, (spBase 0 + 256, 256))] } }
def wDmaT (opc : Nat) : Who := whoDma (sDma opc) 0 0
def lo (a : Nat) : Nat := a % 2 ^ 32
def hi (a : Nat) : Nat := a / 2 ^ 32

/-- 128 bytes from the scratchpad to the cluster's memory; the same through weight reference 5 from its offset 128, the last it has, with a digest. -/
def pDm : Pay := pay [0, lo (spBase 0 + 64), hi (spBase 0 + 64), lo (cmBase 0 + 128), hi (cmBase 0 + 128), 128]
def pDmRef : Pay := pay [0xC0000000, 128, 5 * 2 ^ 20, lo (cmBase 0 + 128), hi (cmBase 0 + 128), 128, 0, 64 * 8192]

theorem witness_CoreDmaCommands_copy : ∀ p ∈ [pDm, pDmRef], (sDma 0x40).runs 0 0 0x40 (cmd (sDma 0x40)) ∧ copyLen p = 128 ∧
    pw64 p 3 = cmBase 0 + 128 ∧
    (!pz p 0 0x3FFFFFFF || (pb p 0 31 && !pz p 2 0xF0000) || (if pb p 0 31 then p.w1.toNat + 2 ^ 32 * pf p 2 15 0 else pw64 p 1) % 64 != 0 ||
      pw64 p 3 % 64 != 0 || lenBad p) = false ∧
    (pb p 0 31 = true → tabFind (0 * 4096 + pf p 2 31 20) (sDma 0x40).jobs.wptr = some (spBase 0 + 256, 256) ∧
      p.w1.toNat + 2 ^ 32 * pf p 2 15 0 + 128 ≤ 256) ∧ (pb p 0 31 = false → pw64 p 1 = spBase 0 + 64) ∧
    pieces (spBase 0 + (if pb p 0 31 then 384 else 64)) 128 = [(0, 128)] ∧
    (sDma 0x40).mayRead (wDmaT 0x40) (spBase 0 + (if pb p 0 31 then 384 else 64)) 128 ∧ (sDma 0x40).mayWrite (wDmaT 0x40) (cmBase 0 + 128) 128 ∧
    (∀ x ∈ keysOf (sDma 0x40) 0 (cmBase 0 + 128) 128, x ∉ keysOf (sDma 0x40) 0 (spBase 0 + (if pb p 0 31 then 384 else 64)) 128) ∧
    (pb p 0 30 = true → shareOf (sDma 0x40) (wDmaT 0x40) (cmBase 0) cmSize = some (cmBase 0) ∧
      (sDma 0x40).mayRead (wDmaT 0x40) (cmBase 0 + pf p 7 31 13 * 64) 32) ∧ (keysOf (sDma 0x40) 0 (cmBase 0 + 128) 128).Nodup := by unfold State.mayRead State.mayWrite State.runs; decide +kernel
theorem witness_CoreDmaCommands_fence : (sDma 0x4A).runs 0 0 0x4A (cmd (sDma 0x4A)) ∧ fenceHold (cmd (sDma 0x4A)) (sDma 0x4A) = none ∧
    wordsZero (pay []) 0 = true := by unfold State.runs; decide +kernel

/-- A group of one SEM action, with its header at granule 4 and its outcome at granule 8. -/
def grpHdr (n : Nat) : List Byte := leBytes 4 n ++ leBytes 4 0x77 ++ leBytes 4 500 ++ List.replicate 52 0
def grpAct (ty len ctx arg0 arg1 : Nat) (d : List Byte) : List Byte :=
  padTo 80 (leBytes 1 ty ++ leBytes 1 len ++ leBytes 2 ctx ++ leBytes 4 arg0 ++ leBytes 8 arg1 ++ d)
def pCg : Pay := pay [4 * 8192, 8 * 8192]
def sCg (staged n : Nat) : State :=
  let s := memPuts (rangeFrom (cmBase 0 + 256) 144) (grpHdr n ++ grpAct 2 0 0 1 0 []) (sDma 0x60)
  { s with jobs := { s.jobs with groups := List.replicate staged { pid := 0, owner := 0, src := .commit 9, gtag := 0, tmo := 1, acts := [] } } }
theorem witness_CoreDmaCommands_group : ∀ x ∈ [(0, 1), (16, 1), (0, 0)], (sCg x.1 x.2).runs 0 0 0x60 (cmd (sCg x.1 x.2)) ∧
    (!pz pCg 0 0x1FFF || !pz pCg 1 0x1FFF || !wordsZero pCg 2) = false ∧
    shareOf (sCg x.1 x.2) (wDmaT 0x60) (cmBase 0) cmSize = some (cmBase 0) ∧ 64 * pf pCg 0 31 13 = 256 ∧ 64 * pf pCg 1 31 13 = 512 ∧
    (sCg x.1 x.2).mayRead (wDmaT 0x60) (cmBase 0 + 256) 64 ∧ rawRead (sCg x.1 x.2) 0 (cmBase 0 + 256) 64 = grpHdr x.2 ∧
    (sCg x.1 x.2).mayRead (wDmaT 0x60) (cmBase 0 + 320) (if 1 ≤ leAt (grpHdr x.2) 0 1 ∧ leAt (grpHdr x.2) 0 1 ≤ 64 then 80 * leAt (grpHdr x.2) 0 1 else 0) ∧
    (parseGroup (sCg x.1 x.2) 0 0 (.cg 0 (cmBase 0 + 512)) (grpHdr x.2 ++ if x.2 = 1 then grpAct 2 0 0 1 0 [] else [])).isSome = decide (x.2 = 1) ∧
    (groupsOf (sCg x.1 x.2) 0).length = x.1 ∧ (sCg x.1 x.2).mayWrite (wDmaT 0x60) (cmBase 0 + 512) 8 ∧
    (keysOf (sCg x.1 x.2) 0 (cmBase 0 + 512) 8).Nodup ∧ (keysOf (sCg x.1 x.2) 0 (cmBase 0 + 512) 8).length = 8 := by unfold State.mayRead State.mayWrite State.runs; decide +kernel

/-- A byte of a module's memory. -/
def gAddr (m a : Nat) : Nat := m * 2 ^ 48 + a
/-- 320 bytes to and from module 2 from its byte 192, in two requests; a pull with a digest. -/
def pSpPush : Pay := pay [0x40000000, lo (gAddr 1 (spBase 0)), hi (gAddr 1 (spBase 0)), 192, 2 * 65536, 320]
def pSpPull : Pay := pay [0x20000000, 192, 2 * 65536, lo (gAddr 1 (spBase 0)), hi (gAddr 1 (spBase 0)), 320, 0, 64 * 8192]
theorem witness_SpanCommands_copy : ∀ p ∈ [pSpPush, pSpPull], (sDma 0x48).runs 0 0 0x48 (cmd (sDma 0x48)) ∧ digestHold p (cmd (sDma 0x48)) (sDma 0x48) = none ∧ copyLen p = 320 ∧
    (pb p 0 31 || (pb p 0 29 && pb p 0 30) || !pz p 0 0x1FFFFFFF || pw64 p 1 % 64 != 0 || pw64 p 3 % 64 != 0 || lenBad p) = false ∧ modNum (sDma 0x48) = 1 ∧
    (if pb p 0 30 then pw64 p 3 else pw64 p 1) = gAddr 2 192 ∧ (if pb p 0 30 then pw64 p 1 else pw64 p 3) = gAddr 1 (spBase 0) ∧
    gaMod (gAddr 2 192) ≠ 1 ∧ gaMod (gAddr 1 (spBase 0)) = 1 ∧ gaLocal (gAddr 1 (spBase 0)) = spBase 0 ∧
    carries (sDma 0x48) (wDmaT 0x48) (if pb p 0 30 then 28 else 29) (gAddr 2 192) 320 3 = true ∧
    (pb p 0 29 = true → shareOf (sDma 0x48) (wDmaT 0x48) (cmBase 0) cmSize = some (cmBase 0) ∧
      refusal (sDma 0x48) (wDmaT 0x48) true false false (cmBase 0 + pf p 7 31 13 * 64) 32 = none) ∧
    pieces (gAddr 2 192) 320 = [(0, 64), (64, 256)] ∧
    (∀ x ∈ pieces (gAddr 2 192) 320, if pb p 0 30 then (sDma 0x48).mayRead (wDmaT 0x48) (spBase 0 + x.1) x.2 else
      refusal (sDma 0x48) (wDmaT 0x48) false true false (spBase 0 + x.1) x.2 = none) := by unfold State.mayRead State.runs; decide +kernel
/-- FADD and IADD64 of 64 bytes. -/
def pSpAt (op : Nat) : Pay := pay [op * 2 ^ 30, lo (gAddr 1 (spBase 0)), hi (gAddr 1 (spBase 0)), 192, 2 * 65536, 64]
theorem witness_SpanCommands_atomic : ∀ op ∈ [0, 2], (sDma 0x49).runs 0 0 0x49 (cmd (sDma 0x49)) ∧ (pSpAt op).w5.toNat = 64 ∧
    (pf (pSpAt op) 0 31 30 == 3 || !pz (pSpAt op) 0 0x3FFFFFFF || !wordsZero (pSpAt op) 6 || (64 : Nat) == 0 || 64 % 64 != 0 ||
      pw64 (pSpAt op) 1 % (if pf (pSpAt op) 0 31 30 = 2 then 8 else 4) != 0 || pw64 (pSpAt op) 3 % (if pf (pSpAt op) 0 31 30 = 2 then 8 else 4) != 0 ||
      gaMod (pw64 (pSpAt op) 1) != modNum (sDma 0x49) || gaMod (pw64 (pSpAt op) 3) == modNum (sDma 0x49)) = false ∧
    carries (sDma 0x49) (wDmaT 0x49) 27 (pw64 (pSpAt op) 3) 64 3 = true ∧
    (∀ x ∈ pieces (pw64 (pSpAt op) 3) 64, (sDma 0x49).mayRead (wDmaT 0x49) (gaLocal (pw64 (pSpAt op) 1) + x.1) x.2) := by unfold State.mayRead State.runs; decide +kernel

/-- The control core of core 0 may issue; word 0 of its scratchpad, and of module 2. -/
def sCtl : State := onSpan (regs (open_ (Master.ctl 0).setBase 0) live)
def wCtlT : Who := whoCtl sCtl 0 0
theorem witness_ControlCoreAccesses_ready : mayIssue sCtl 0 0 = true ∧ ccWaits sCtl 0 0 = false ∧ mayIssue sCtl 1 0 = false := by decide +kernel
theorem witness_ControlCoreAccesses_own : gaMod (gAddr 1 (spBase 0)) = modNum sCtl ∧ gaLocal (gAddr 1 (spBase 0)) = spBase 0 ∧
    (BitVec.ofNat 64 (gAddr 1 (spBase 0))).toNat = gAddr 1 (spBase 0) ∧ (∀ n ∈ [1, 2, 4, 8], gAddr 1 (spBase 0) % n = 0 ∧ sCtl.mayRead wCtlT (spBase 0) n ∧
      sCtl.mayWrite wCtlT (spBase 0) n ∧ (keysOf sCtl 0 (spBase 0) n).Nodup ∧ (keysOf sCtl 0 (spBase 0) n).length = n) := by unfold State.mayRead State.mayWrite; decide +kernel
theorem witness_ControlCoreAccesses_other : gaMod (gAddr 2 8) ≠ modNum sCtl ∧ ∀ x ∈ [(29, 1), (29, 8), (28, 8), (27, 4), (27, 8)],
    gAddr 2 8 % x.2 = 0 ∧ carries sCtl wCtlT x.1 (gAddr 2 8) x.2 3 = true := by decide +kernel
/-- A core whose load has been sent waits. -/
theorem witness_ControlCoreAccesses_waits : ccWaits (after (.ccRemoteLoad 0 0 (BitVec.ofNat 64 (gAddr 2 8)) 3) sCtl) 0 0 = true := by decide +kernel

/-- The bytes arrive (10 R319). -/
theorem test_dmcopy_bytes : rawRead (after (.dmcopy 0 0 pDm) (words (spBase 0 + 64) [0x11223344, 5] (sDma 0x40))) 0 (cmBase 0 + 128) 8 =
    [0x44, 0x33, 0x22, 0x11, 5, 0, 0, 0] := by decide +kernel
/-- A push across a 256-byte boundary is two requests, of 64 and of 256 bytes (09 R270). -/
theorem test_spcopy_pieces : ((after (.spcopy 0 0 pSpPush) (sDma 0x48)).span.waits.map fun w => w.pkt.nbytes.toNat) = [64, 256] := by
  decide +kernel

/-- Channel 1 of partition 0: this module, and partition 4 of module 2 over port 0. The member table is at 0x4000 of cluster 0's memory, the working
area at 0x8000. A bucket of 40 elements with residuals is described at granule 2: its sources at 0x1000, residuals at 0x2000, results at 0x3000. -/
def bdRd : List Byte := padTo 64 (leBytes 8 (cmBase 0 + 0x1000) ++ leBytes 8 (cmBase 0 + 0x2000) ++ leBytes 8 (cmBase 0 + 0x3000) ++ leBytes 4 40 ++
  leBytes 4 0 ++ [0, 0, 2, 0])
def tblRd : List Byte := leBytes 2 1 ++ [0, 0] ++ leBytes 2 7 ++ [1, 0] ++ List.replicate 8 0 ++ leBytes 2 2 ++ [4, 0] ++ leBytes 2 9 ++ [1, 0] ++ List.replicate 8 0
def msRd : List Memb := [{ modnum := 1, pid := 0, port := 0, epoch := 7, v := true }, { modnum := 2, pid := 4, port := 0, epoch := 9, v := true }]
def sRd (r : RedCh) : State :=
  let s := regs [(kRdc 1 0, 0x80000000), (kRdc 1 4, 2), (kRdc 1 8, lo (cmBase 0 + 0x4000)), (kRdc 1 0xC, hi (cmBase 0 + 0x4000)),
    (kRdc 1 0x10, lo (cmBase 0 + 0x8000)), (kRdc 1 0x14, hi (cmBase 0 + 0x8000)), (kRdc 1 0x18, 256)] (onSpan (issued 0x50 [(Master.dma 0).setBase]))
  setRed 1 r (memPuts (rangeFrom (cmBase 0 + 128) 64) bdRd (memPuts (rangeFrom (cmBase 0 + 0x4000) 32) tblRd s))
def postRd : Post :=
  { core := 0, ctx := 0, cseq := (cmd (sRd {})).cseq, bd := 2, step := 5, bseq := 0, last := true, strict := false, satm := false, bad := false }
def wRd : Who := whoRed (sRd {}) 1 postRd
def maxRd (j : Nat) (nf : Bool) : Maximum := 
  { member := j, smod := j + 1, spid := 4 * j, sepoch := 7 + 2 * j, step := 5, bseq := 0, cfg := 40, a := 0x40000000, nf := nf }
/-- The bucket as it starts; with both maxima; as phase 2 leaves it; with all results in. -/
def bktRd : Bucket := { post := postRd, desc := bdRd, membs := msRd, self := 0, maxima := [maxRd 0 false] }
def bktMax (nf : Bool) : Bucket := { bktRd with maxima := [maxRd 0 false, maxRd 1 nf] }
def bktHome (nf : Bool) : Bucket := { bktMax nf with phase2 := true, nf := nf, m := 0x40000000, x := 0, counts := if nf then [] else [(0, 32), (1, 32)], got := [(1, 2)] }
def bktAll : Bucket := { bktHome false with homeDone := true, resGot := [(1, 8)] }
/-- A packet from member 1. -/
def pktRd (opc arg : Nat) (data : List Byte) : RedPkt :=
  { opc := BitVec.ofNat 8 opc, dmod := 1, smod := 2, dpid := 0, spid := 4, sctx := 3, tepoch := 7, sepoch := 9, step := 5, ch := 1, bseq := 0, member := 1
    cfg := 40, arg := BitVec.ofNat 64 arg, data := data }

/-- Bucket 0 of step 5, posted where 63 posts wait; the next bucket of a step that has begun. -/
def pPost (bseq : Nat) : Pay := pay [2 * 8192 + 512, 5, bseq * 65536]
theorem witness_ReductionPosts_post : ∀ x ∈ [(0, ({ posts := List.replicate 63 postRd } : RedCh)), (1, { inStep := true })],
    pf (pPost x.1) 0 12 9 = 1 ∧ (sRd x.2).runs 0 0 0x50 (cmd (sRd x.2)) ∧ rdcValid (sRd x.2) 1 = true ∧ rdcPid (sRd x.2) 1 = ctxPid (sRd x.2) 0 ∧
    1 < 8 * xdies (sRd x.2) ∧ (redOf (sRd x.2) 1).posts.length < 64 ∧
    ((redOf (sRd x.2) 1).inStep && (pPost x.1).w1.toNat == rdcStep (sRd x.2) 1 && decide (pf (pPost x.1) 2 31 16 < rdcNext (sRd x.2) 1)) = false := by unfold State.runs; decide +kernel
theorem witness_ReductionPosts_current : (sRd { cur := some bktRd }).redFor (pktRd 0x10 0x40000000 []) bktRd ∧ ∀ y ∈ bktRd.maxima, y.member ≠ 1 := by unfold State.redFor; decide +kernel
theorem witness_ReductionPosts_next : rdcValid (sRd {}) 1 = true ∧ redAccept (sRd {}) (pktRd 0x10 0 []) = true ∧ (redOf (sRd {}) 1).cur = none ∧
    forNext (sRd {}) 1 (pktRd 0x10 0 []) = true := by decide +kernel
theorem witness_ReductionPosts_dropped : rdcValid (sRd {}) 1 = true ∧ redAccept (sRd {}) { pktRd 0x10 0 [] with tepoch := 8 } = false ∧
    rdcValid (sRd {}) 2 = false := by decide +kernel
theorem witness_ReductionPosts_timeout : (redOf (sRd { cur := some bktRd }) 1).cur = some bktRd ∧ bktRd.post.ctx < 1024 ∧ awaitsPacket bktRd = true ∧
    (redOf (sRd { cur := some bktAll }) 1).cur = some bktAll ∧ awaitsPacket bktAll = false ∧
    (redOf (sRd {}) 1).cur = none ∧ bit (getR (sRd { cur := some bktRd }) (kCtx 0 0xD0)) 31 = false := by decide +kernel

/-- A post waits beside the maximum that member 1 has sent already. -/
def sRdStart : State := sRd { posts := [postRd], next := [maxRd 1 false] }
theorem witness_Buckets_start : (redOf sRdStart 1).cur = none ∧
    takeFirst (mayStart sRdStart 1) (redOf sRdStart 1).posts = some (postRd, []) ∧ rdcLate sRdStart 1 postRd.step postRd.bseq = false ∧
    shareOf sRdStart wRd (cmBase (clOf postRd.core)) cmSize = some (cmBase 0) ∧ sRdStart.mayRead wRd (cmBase 0 + postRd.bd * 64) 64 ∧
    rawRead sRdStart 0 (cmBase 0 + postRd.bd * 64) 64 = bdRd ∧ (!postRd.bad && !bdBad bdRd) = true ∧ rdcMembers sRdStart 1 = 2 ∧
    rdcSelf sRdStart 1 = 0 ∧ rdcTable sRdStart 1 = cmBase 0 + 0x4000 ∧ sRdStart.mayRead wRd (cmBase 0 + 0x4000) 32 ∧
    (chunks 16 32 (rawRead sRdStart 0 (cmBase 0 + 0x4000) 32)).map membOf = msRd ∧ membsBad sRdStart 1 bdRd msRd 0 = false ∧
    shSize (bdL bdRd) 2 * 8 ≤ (getR sRdStart (kRdc 1 0x18)).toNat ∧ shardLo (bdL bdRd) 2 0 = 0 ∧ shardHi (bdL bdRd) 2 0 = 32 ∧
    rdcWork sRdStart 1 = cmBase 0 + 0x8000 ∧ sRdStart.mayWrite wRd (cmBase 0 + 0x8000) 256 ∧ sRdStart.mayRead wRd (bdSrc bdRd) (bdSrcLen bdRd) ∧
    bdResid bdRd = true ∧ sRdStart.mayRead wRd (bdRes bdRd) 160 ∧
    (earlyFor postRd (redOf sRdStart 1).next).filter (fun m => m.member != 0 && fromMember msRd m.member m.smod m.spid m.sepoch) = [maxRd 1 false] ∧
    (maxRd 1 false).cfg = bdCfg bdRd := by unfold State.mayRead State.mayWrite; decide +kernel
theorem witness_Buckets_phase2 : ∀ nf ∈ [false, true], (redOf (sRd { cur := some (bktMax nf) }) 1).cur = some (bktMax nf) ∧ (bktMax nf).phase2 = false ∧
    (bktMax nf).maxima.length = (bktMax nf).membs.length ∧ (bktMax nf).maxima.any (·.nf) = nf ∧
    (sRd { cur := some (bktMax nf) }).mayRead wRd (bdSrc bdRd) (bdSrcLen bdRd) ∧ (sRd { cur := some (bktMax nf) }).mayRead wRd (bdRes bdRd) 160 ∧
    (sRd { cur := some (bktMax nf) }).mayWrite wRd (bdRes bdRd) 160 ∧ (sRd { cur := some (bktMax nf) }).mayAdd wRd (cmBase 0 + 0x8000) 0 (rangeFrom 0 32) := by unfold State.mayAdd State.mayRead State.mayWrite; decide +kernel
theorem witness_Buckets_home : ∀ nf ∈ [false, true], (redOf (sRd { cur := some (bktHome nf) }) 1).cur = some (bktHome nf) ∧ (bktHome nf).phase2 = true ∧
    (bktHome nf).homeDone = false ∧ ((bktHome nf).nf = true ∨ ∀ j < 2, j = (bktHome nf).self ∨ (tabFind j (bktHome nf).counts).isSome = true) ∧
    (sRd { cur := some (bktHome nf) }).mayRead wRd (cmBase 0 + 0x8000) 256 ∧ bdR bdRd = 4 ∧
    (sRd { cur := some (bktHome nf) }).mayWrite wRd (bdDst bdRd) 128 := by unfold State.mayRead State.mayWrite; decide +kernel
theorem witness_Buckets_complete : (redOf (sRd { cur := some bktAll }) 1).cur = some bktAll ∧ bktAll.post = postRd ∧ allResults bktAll = true ∧
    shareOf (sRd { cur := some bktAll }) wRd (cmBase (clOf postRd.core)) cmSize = some (cmBase 0) ∧
    (sRd { cur := some bktAll }).mayWrite wRd (cmBase 0 + postRd.bd * 64 + 36) 8 := by unfold State.mayWrite; decide +kernel

/-- The bucket in phase 2, before any count: member 1 has sent two elements. -/
def bktOpen : Bucket := { bktMax false with phase2 := true, m := 0x40000000, x := 0, got := [(1, 2)] }
def sPk : State := sRd { cur := some bktOpen }
theorem witness_ReductionPackets_accepted : (∀ x ∈ [(0x11, 30, leBytes 4 7 ++ leBytes 4 9), (0x12, 0, leBytes 4 31 ++ leBytes 4 7), (0x13, 2, []),
    (0x14, 32, List.replicate 32 0)], sPk.redFor (pktRd x.1 x.2.1 x.2.2) bktOpen) ∧ tabFind 1 bktOpen.counts = none := by unfold State.redFor; decide +kernel
theorem witness_ReductionPackets_contributions :
    (rangeFrom 30 (seiElems 4 (leBytes 4 7 ++ leBytes 4 9)).length).zip (seiElems 4 (leBytes 4 7 ++ leBytes 4 9)) = [(30, 7), (31, 9)] ∧
    pairsOf 4 (leBytes 4 31 ++ leBytes 4 7) = [(31, 7)] ∧ bdQ bdRd = 4 ∧ shardLo (bdL bdRd) 2 0 = 0 ∧ shardHi (bdL bdRd) 2 0 = 32 ∧
    sPk.mayAdd wRd (rdcWork sPk 1) 0 [30, 31] := by unfold State.mayAdd State.mayRead State.mayWrite; decide +kernel
theorem witness_ReductionPackets_count : tab0 bktOpen.got 1 = 2 := by decide +kernel
theorem witness_ReductionPackets_results : shardLo (bdL bdRd) 2 1 = 32 ∧ shardHi (bdL bdRd) 2 1 = 40 ∧
    sPk.mayWrite wRd (bdDst bdRd + bdR bdRd * 32) 32 := by unfold State.mayWrite; decide +kernel

/-- 7 and 9 are added into the last two elements of the shard (13 R405). -/
theorem test_rdpart_adds : rawRead (after (.rdpart (pktRd 0x11 30 (leBytes 4 7 ++ leBytes 4 9))) sPk) 0 (cmBase 0 + 0x8000 + 240) 16 =
    leBytes 8 7 ++ leBytes 8 9 := by decide +kernel
/-- For a maximum of 2 the narrow shared exponent is 1 - 18 (13 R401). -/
theorem test_phase2_exponent : ((redOf (after (.bucketPhase2 1) (sRd { cur := some (bktMax false) })) 1).cur.map fun b => b.x) = some (-17) := by decide +kernel

/-- Partition 0 in force on channel groups 0 and 5, with units counted on both; masters 9 and 4 of it wait for group 5, which served master 7 last; a
unit of group 2 waits to be scrubbed; units of group 95 hold a correctable and an uncorrectable error. -/
def sHbm (win : List (Nat × Nat)) : State :=
  let s := modPart 0 (fun p => { p with inForce := true, gset := [0, 5] }) live
  { s with hbm := { s.hbm with win := win, scrub := [(2, 10, 3)], waits := [(5, 4, 0), (5, 9, 0)], lastGrant := [(5, 7)]
                               ce := [95 * 50331648], ue := [95 * 50331648 + 1] } }

theorem witness_MemoryUpkeep_credit : creditTurn (sHbm []) 5 = some 9 ∧ creditTurn (sHbm []) 1 = none := by decide +kernel
theorem witness_MemoryUpkeep_window : (partOf (sHbm [(0, 3), (5, 9)]) 0).gset.foldl (fun a g => a + tab0 (sHbm [(0, 3), (5, 9)]).hbm.win (0 * 96 + g)) 0 = 12 ∧
    (partOf (sHbm []) 0).gset.foldl (fun a g => a + tab0 (sHbm []).hbm.win (0 * 96 + g)) 0 = 0 := by decide +kernel
theorem witness_MemoryUpkeep_patrol : svc (sHbm []) = 3 ∧ 95 < groupsN (sHbm []) ∧ groupsN (sHbm []) ≤ 96 ∧ svc State.reset ≠ 3 ∧
    tab0 (sHbm []).hbm.patrol 95 < 50331648 := by decide +kernel
theorem witness_MemoryUpkeep_scrub : scrubTake 2 10 (sHbm []).hbm.scrub = some [(2, 11, 2)] ∧ scrubTake 2 12 (sHbm []).hbm.scrub = some [(2, 10, 2)] ∧
    scrubTake 2 13 (sHbm []).hbm.scrub = none := by decide +kernel

/-- Port 3 of X-die 1 is port 19. A single-X-die assembly lacks it. -/
def port19 : PortId := { x := 1, p := 3 }
def sPort (st : Nat) (en : Bool) : State := regs [(kP 19 4, st * 2 ^ 29), (kP 19 0, if en then 0x80000000 else 0), (kWin 0 63 0, 0x81300000)] live
theorem witness_SpanPorts_absent : portsN { live with assy := 1 } ≤ portNo port19 := by decide +kernel
theorem witness_SpanPorts_counted : portNo port19 < portsN (regs [(0x100, 2 ^ 29)] live) ∧ svc (regs [(0x100, 2 ^ 29)] live) ≠ 3 ∧
    portNo port19 < portsN live ∧ 1 < fld (2#32) 1 0 := by decide +kernel
theorem witness_SpanPorts_written : portNo port19 < portsN (sPort 0 false) ∧ svc (sPort 0 false) = 3 ∧ fld (1#32) 1 0 ≤ 1 ∧
    bit (getR (sPort 0 false) (kP 19 0)) 31 = false ∧ portUp (sPort 1 true) 19 = false ∧ svc (sPort 1 true) = 3 := by decide +kernel
theorem witness_SpanPorts_up : svc (sPort 3 true) = 3 ∧ bit (getR (sPort 3 true) (kP 19 0)) 31 = true ∧ portUp (sPort 3 true) 19 = true ∧
    winOnPort (sPort 3 true) 0 63 19 = true := by decide +kernel
theorem witness_SpanPorts_trained : (bit (getR (sPort 0 false) (kP 19 0)) 31 = false) ∧ (portSt (sPort 2 true) 19 ≠ 1 ∧ portSt (sPort 2 true) 19 ≠ 4) ∧
    ∀ st ∈ [1, 4], 19 < portsN (sPort st true) ∧ bit (getR (sPort st true) (kP 19 0)) 31 = true ∧ portSt (sPort st true) 19 = st := by decide +kernel

/-- A DATA flit of a sequence number. -/
def dataFlit (seq : Nat) : Flit := { hdr := linkHdr 0 0 0 0 4095 0 seq, slots := zeroSlots, crc := flitCrc (linkHdr 0 0 0 0 4095 0 seq) zeroSlots }
def sLink (l : Link) : State := modLink 19 (fun _ => l) (sPort 2 true)
theorem witness_SpanLinks_state : portUp (sLink {}) (portNo port19) = true ∧ (linkOf (sLink {}) 19).txq = [] ∧ portUp live 19 = false ∧
    (linkOf (sLink {}) 19).capId = none := by decide +kernel
theorem witness_SpanLinks_capture : (linkOf (sLink { capId := some 9 }) 19).capId = some (9#8).toNat ∧ (linkOf (sLink { capId := some 9 }) 19).capEnd = none ∧
    (linkOf (sLink { capId := some 9 }) 19).capDone = false ∧ (linkOf (sLink { capId := some 9 }) 19).capId ≠ some (8#8).toNat ∧
    (linkOf (sLink { capId := some 9 }) 19).capId.isSome = true := by decide +kernel
/-- Flits 4094, 4095 and 0 are not acknowledged. A NAK that expects 4095 leaves two; one that expects 1 leaves none. -/
def lkNak (repSeq replays : Nat) : Link := { txSeq := 1, unacked := [dataFlit 4094, dataFlit 4095, dataFlit 0], repSeq := repSeq, replays := replays }
theorem witness_SpanLinks_nak : (lkNak 0 0).unacked.filter (fun f => seqLe 4095 (flitSeq f)) = [dataFlit 4095, dataFlit 0] ∧
    (lkNak 0 0).unacked.filter (fun f => seqLe 1 (flitSeq f)) = [] ∧ linkOf (sLink (lkNak 4095 6)) 19 = lkNak 4095 6 ∧
    portUp (sLink (lkNak 4095 7)) 19 = true ∧ (lkNak 4095 6).replays < 7 ∧ 7 ≤ (lkNak 4095 7).replays ∧ (lkNak 0 0).repSeq ≠ 4095 := by decide +kernel
theorem witness_Flits_bad : portUp (sLink {}) 19 = true ∧ (dataFlit 0).crc + 1 ≠ flitCrc (dataFlit 0).hdr (dataFlit 0).slots := by decide +kernel
theorem witness_Flits_good : portUp (sLink { rxSeq := 5 }) 19 = true ∧ ∀ q ∈ [5, 4, 6, 4095], (dataFlit q).slots.length = 240 ∧
    (dataFlit q).crc = flitCrc (dataFlit q).hdr (dataFlit q).slots ∧ bit (dataFlit q).hdr 33 = false ∧ fld (dataFlit q).hdr 19 16 = 0 ∧
    flitSeq (dataFlit q) = q := by decide +kernel

/-- Partition 4 of module 2, epoch 9, is a peer of partition 0, whose inbound master may reach all; a request of it over port 0 for 8 bytes
of a scratchpad. -/
def sPeer : State := regs ([(kPeer 0 63 0, 0x80040002), (kPeer 0 63 4, 9)] ++ open_ (Master.spanIn 0).setBase 0) (onSpan live)
def reqPeer (opc : Nat) (d : List Byte) : Pkt :=
  { opc := BitVec.ofNat 8 opc, strict := false, nbytes := 8, dmod := 1, smod := 2, dpid := 0, spid := 4, sctx := 3, tepoch := 7, sepoch := 9
    addr := BitVec.ofNat 48 (spBase 0), status := 0, flags := 0, tag := 77, dcrc := if d.isEmpty then 0 else BitVec.ofNat 32 (crc32c d), data := d }
theorem witness_PeerRequests_accepted : acceptErr sPeer (reqPeer 1 []) false = none ∧ acceptErr sPeer (reqPeer 2 (leBytes 8 5)) true = none ∧
    portUp sPeer (portNo { x := 0, p := 0 }) = true ∧ (reqPeer 2 (leBytes 8 5)).data.length = (reqPeer 2 (leBytes 8 5)).nbytes.toNat ∧
    portUp State.reset 0 = false := by decide +kernel
theorem witness_PeerRequests_granted : sPeer.mayRead (whoSpan 0 0) (reqPeer 1 []).addr.toNat 8 ∧ sPeer.mayWrite (whoSpan 0 0) (reqPeer 1 []).addr.toNat 8 ∧
    (keysOf sPeer 0 (reqPeer 1 []).addr.toNat 8).Nodup := by unfold State.mayRead State.mayWrite; decide +kernel
theorem witness_PeerRequests_refused : acceptErr sPeer { reqPeer 1 [] with dmod := 9 } false = some 6 ∧
    acceptErr sPeer { reqPeer 1 [] with tepoch := 8 } false = some 2 ∧ acceptErr sPeer { reqPeer 1 [] with spid := 5 } false = some 1 ∧
    acceptErr sPeer { reqPeer 2 (leBytes 8 5) with dcrc := 1 } true = some 5 := by decide +kernel
/-- Its region set grants nothing. -/
theorem witness_PeerRequests_shut : ∀ s ∈ [regs [((Master.spanIn 0).setBase, 0)] sPeer], acceptErr s (reqPeer 1 []) false = none ∧
    acceptErr s (reqPeer 2 (leBytes 8 5)) true = none ∧ (refusal s (whoSpan 0 0) true false false (reqPeer 1 []).addr.toNat 8).isSome = true ∧
    (refusal s (whoSpan 0 0) false true false (reqPeer 1 []).addr.toNat 8).isSome = true := by decide +kernel

/-- A tag of context 0 on core 0, and its answer. -/
def tagT (use : TagUse) : Tag := { tag := 77, pid := 0, ctx := 0, core := 0, cseq := 65536, win := 3, mod := 2, addr := 192, use := use }
def sTag (use : TagUse) : State := { sDma 0x48 with span := { (sDma 0x48).span with tags := [tagT use] } }
def ansT (d : List Byte) : Pkt := { reqPeer 8 d with spid := 4, sepoch := 7 }
theorem witness_SpanResponses_tag : ∀ use ∈ [.load, .push, .retired, .pull (spBase 0)], portUp (sTag use) 0 = true ∧
    (sTag use).span.tags.find? (fun x => x.tag == (ansT (leBytes 8 5)).tag.toNat) = some (tagT use) ∧ (tagT use).ctx < 1024 ∧ (tagT use).core < 512 ∧
    (ansT (leBytes 8 5)).sepoch.toNat = epochOf (sTag use) (tagT use).pid ∧ (ansT (leBytes 8 5)).status = 0 ∧ (sTag use).span.waits = [] ∧
    crc32c (ansT (leBytes 8 5)).data = (ansT (leBytes 8 5)).dcrc.toNat ∧ bit (getR (sTag use) (kCtx 0 0xD0)) 31 = false := by decide +kernel
theorem witness_SpanResponses_pull : (sTag (.pull (spBase 0))).mayWrite (whoDma (sTag (.pull (spBase 0))) 0 0) (spBase 0) 8 ∧
    (∀ m ∈ (sTag (.pull (spBase 0))).eng.cmds, tagCmd (tagT (.pull (spBase 0))) m = false) ∧
    (keysOf (sTag (.pull (spBase 0))) 0 (spBase 0) 8).Nodup := by unfold State.mayWrite; decide +kernel
theorem witness_SpanResponses_noTag : (∀ x ∈ (sTag .load).span.tags, x.tag ≠ 5) ∧
    (sTag .load).span.tags.find? (fun x => x.tag == 77 && x.use != .retired) = some (tagT .load) ∧
    (sTag .retired).span.tags.find? (fun x => x.tag == 77 && x.use != .retired) = none ∧ (sTag .retired).span.waits = [] ∧
    (∃ x ∈ (sTag .retired).span.tags, x.tag = 77 ∧ x.use = .retired) := by decide +kernel
/-- A pull that waits for port 5, which is down, through window 3. -/
def waitT : SpanWait := { pid := 0, win := 3, port := 5, tag := tagT .load, pkt := reqPeer 1 [] }
def sWait : State := { sDma 0x48 with span := { (sDma 0x48).span with waits := [waitT] } }
theorem witness_SpanResponses_window : sWait.span.waits = [waitT] ∧ waitT.pid = (0#5).toNat ∧ waitT.win = (3#6).toNat ∧ portUp sWait waitT.port = false ∧
    waitT.tag.ctx < 1024 ∧ (∀ x ∈ sWait.span.waits, x.pid ≠ (0#5).toNat ∨ x.win ≠ (4#6).toNat ∨ portUp sWait x.port = true) ∧
    bit (getR sWait (kCtx 0 0xD0)) 31 = false := by decide +kernel
theorem witness_SpanResponses_badPacket : portUp (sDma 0x48) 0 = true ∧ knownOpc (0x30#8).toNat = false ∧ knownOpc (0x2F#8).toNat = true ∧
    knownOpc 6 = false ∧ knownOpc 5 = true ∧ knownOpc 0 = false ∧
    managerOpc 0x2F = false ∧ managerOpc 0x21 = true := by decide +kernel

/-- A session is established and window 3 reaches module 2; the module still announces itself. -/
def sMgr : State := let s := regs [(0x400, 2 ^ 27)] (onSpan live); { s with span := { s.span with annPort := true }, sec := { s.sec with ready := true } }
theorem witness_Manager_messages : (sMgr.span.annPort && portUp sMgr (portNo { x := 0, p := 0 })) = true ∧
    (live.span.annPort && portUp live (portNo { x := 0, p := 0 })) = false ∧ anyPort live = none ∧ anyPort sMgr ≠ none ∧ fmSess sMgr = true ∧
    fmSess (onSpan live) = false ∧ anyPort (onSpan live) ≠ none ∧ sMgr.span.waits = [] ∧ noticeHits sMgr .modDown 2 0 0 0 3 = true := by decide +kernel
theorem witness_Manager_assign : assignOk sMgr 1 = true ∧ assignOk sMgr 2 = false ∧ assignOk State.reset 9 = true := by decide +kernel
theorem witness_Manager_fragments : anyPort sMgr = some 0 ∧ sMgr.sec.ready = true ∧ (2#16).toNat ≤ (2#16).toNat ∧ (1#16).toNat < (2#16).toNat ∧
    tabFind 0 (tabIns (1#16).toNat [7] (tabDrop (1#16).toNat sMgr.span.frags)) = none ∧
    (∀ k < 2, tabFind k (tabIns (1#16).toNat [7] (tabDrop (1#16).toNat [(0, [(6 : Byte)])])) ≠ none) := by decide +kernel

/-- 5 + 7 = 12 in memory, answered on the port (09 R264). -/
theorem test_iadd64_sum : rawRead (after (.iadd64 { x := 0, p := 0 } (reqPeer 5 (leBytes 8 5))) (words (spBase 0) [7] sPeer)) 0 (spBase 0) 8 = leBytes 8 12 := by
  decide +kernel
/-- The answer's bytes are what the program loaded (09 R274). -/
theorem test_rdrsp_load : tabFind 0 (after (.rdrsp { x := 0, p := 0 } (ansT (leBytes 8 0x1122))) (sTag .load)).eng.loads = some 0x1122 := by decide +kernel
/-- A flit in sequence is taken, the next one is expected, and an IDLE flit acknowledges it (09 R248, R249). -/
theorem test_flit_sequence : (linkOf (after (.flitReceive port19 (dataFlit 4095)) (sLink { rxSeq := 4095 })) 19).rxSeq = 0 := by decide +kernel

/-- A byte list of a length. -/
def zeros (n : Nat) : List Byte := List.replicate n 0

theorem witness_MailboxFraming_busy : mbBusy (regs [(kMb 0 8, 2 ^ 31), (kMb 32 8, 2 ^ 31)] live) 0 = true ∧ mbBusy (regs [(kMb 32 8, 2 ^ 31)] live) 32 = true := by
  decide +kernel
theorem witness_MailboxFraming_restarts : mbBusy { live with sec := {} } 32 = false ∧ (State.reset.sec.ready || inRecovery State.reset) = false := by decide +kernel
theorem witness_MailboxFraming_open : live.mbOpen 0 ∧ live.mbOpen 32 ∧ inRecovery live = false ∧ (zeros 135).length ≠ 136 ∧
    (regs [(0x400, 2 ^ 30)] live).mbOpen 0 ∧ inRecovery (regs [(0x400, 2 ^ 30)] live) = true := by unfold State.mbOpen; decide +kernel

theorem witness_IdentityRequests : live.mbOpen 0 ∧ live.mbOpen 1 ∧ (zeros 33).length = 33 ∧ (zeros 32).length = 32 ∧ leAt (zeros 33) 32 1 ≤ 31 ∧
    leAt (zeros 32 ++ [0xFF]) 32 1 = 0xFF ∧ 31 < leAt (zeros 32 ++ [0x20]) 32 1 ∧ leAt (zeros 32 ++ [0x20]) 32 1 ≠ 0xFF := by unfold State.mbOpen; decide +kernel
/-- Partition 0 awaits its key; the same without the random source. -/
def sKey (st : Nat) : State := regs [(kPart 0 0x80, 2), (0x400, st)] live
theorem witness_IdentityRequests_key : (∀ st ∈ [0, 2 ^ 26], (sKey st).mbOpen 1 ∧ inRecovery (sKey st) = false ∧ bit (getR (sKey st) 0x400) 26 = decide (st ≠ 0) ∧
    partState (sKey st) 0 = 2 ∧ conf (sKey st) 0 = 2) ∧ conf live 0 ≠ 2 ∧ (zeros 1138).length = 1138 := by unfold State.mbOpen; decide +kernel

/-- Four bytes at the end of the slot. -/
def bodyFw : List Byte := leBytes 4 0x01FFFFFC ++ leBytes 4 4 ++ [1, 2, 3, 4]
theorem witness_Firmware_write : live.mbOpen 0 ∧ 8 ≤ bodyFw.length ∧ 0 < leAt bodyFw 4 4 ∧ leAt bodyFw 4 4 ≤ 61440 ∧ bodyFw.length = 8 + leAt bodyFw 4 4 ∧
    leAt bodyFw 0 4 + leAt bodyFw 4 4 ≤ 0x02000000 ∧ leAt (zeros 8) 4 4 = 0 := by unfold State.mbOpen; decide +kernel
theorem witness_Firmware_unlock : inRecovery live = false ∧ bit (getR live 0x400) 26 = false ∧ bit (getR (sKey (2 ^ 26)) 0x400) 26 = true ∧
    (∃ p < 32, partState live p ≠ 0) ∧ (∀ p < 32, partState { State.reset with sec := { ready := true } } p = 0) ∧
    ({ State.reset with sec := { ready := true } } : State).mbOpen 0 := by unfold State.mbOpen; decide +kernel
theorem witness_CrashDumps : live.mbOpen 0 ∧ inRecovery live = false ∧ (leBytes 8 4096).length = 8 ∧ leNat (leBytes 8 4096) ≠ 0 ∧ leNat (zeros 8) = 0 := by unfold State.mbOpen; decide +kernel

/-- Partition 1, confidential, with cluster 1 and context 5, in 100 W. -/
def bodyNew (clm : Nat) : List Byte := padTo 136 ([1, 1] ++ leBytes 2 100 ++ leBytes 4 clm ++ [32])
def sNew : State := regs [(0x114, 3000)] live
theorem witness_PartitionsBegin_create : sNew.mbOpen 0 ∧ (bodyNew 2).length = 136 ∧ leAt (bodyNew 2) 0 1 = 1 ∧ leAt (bodyNew 2) 1 1 = 1 ∧
    leAt (bodyNew 2) 2 2 = 100 ∧ BitVec.ofNat 32 (leAt (bodyNew 2) 4 4) = (2 : Word) ∧ (rangeFrom 0 32).filter (fun c => bit (2 : Word) c) = [1] ∧
    maskCtxs ((bodyNew 2).drop 8) = [5] ∧ createCode sNew 1 1 100 [1] [5] = 0 ∧ createCode sNew 1 1 100 [0] [5] = 0x99 := by unfold State.mbOpen; decide +kernel
/-- Partition 1 is open. -/
def sOpen : State := regs [(kPart 1 0, 1), (kPart 1 4, 2), (kPart 1 0x80, 0x100)] live
theorem witness_PartitionsBegin_seal : sOpen.mbOpen 0 ∧ partState sOpen 1 = 1 ∧
    sealCode (modPart 1 (fun x => { x with gset := newSet sOpen 1 }) sOpen) 1 = 0 ∧ sealCode live 0 = 0x90 ∧ partState live 0 ≠ 1 := by unfold State.mbOpen; decide +kernel

theorem witness_PartitionsEnd_destroy : live.mbOpen 0 ∧ partState live 1 = 0 ∧ partState live 0 = 2 ∧ partState sOpen 1 = 1 ∧
    partState (regs [(kPart 0 0, 3)] live) 0 = 3 ∧ (regs [(kPart 0 0, 3)] live).mbOpen 0 := by unfold State.mbOpen; decide +kernel
def sClosing : State := let s := regs [(kPart 0 0, 4)] live; { s with sec := { s.sec with mailBusy := [(0, 0x12)] } }
theorem witness_PartitionsEnd_drained : sClosing.sec.mailBusy.find? (fun x => x.2 == 0x12 + 256 * 0) = some (0, 0x12) ∧ partState sClosing 0 = 4 ∧
    partState live 0 ≠ 4 ∧ (∀ x ∈ live.sec.mailBusy, x.2 ≠ 0x12 + 256 * 0) := by decide +kernel

/-- Function 1 has settled its algorithms; partition 0 is in a state of confidentiality, with a key exchange made and keys programmed. -/
def sTen (cf : Nat) (p : Part) : State :=
  let s := modPart 0 (fun _ => p) (regs [(kPart 0 0x80, cf)] live); { s with sec := { s.sec with spdm := [(1, 3)] } }
theorem witness_SpdmMessages : (sTen 4 {}).sec.ready = true ∧ State.reset.sec.ready = false ∧ spdmStage (sTen 4 {}) 1 = 3 ∧ spdmStage live 1 = 0 := by decide +kernel
theorem witness_TenantSessions_exchange : 3 ≤ spdmStage (sTen 4 { kex := [1] }) 1 ∧ bit (getR (sTen 4 { kex := [1] }) 0x400) 26 = false ∧
    partState (sTen 4 { kex := [1] }) 0 = 2 ∧ conf (sTen 4 { kex := [1] }) 0 = 4 ∧ (partOf (sTen 4 { kex := [1] }) 0).kex ≠ [] ∧
    (partOf (sTen 4 {}) 0).kex = [] := by decide +kernel
theorem witness_TenantSessions_none : sessPid live 1 (fun c => c == 5 || c == 6) = none ∧ sessPid live 0 (fun c => c == 5 || c == 6) = none := by decide +kernel
def keysT : List (Nat × BitVec 256) := [(2, 7), (3, 8)]
theorem witness_TenantSessions_session : ∀ cf ∈ [5, 6], partState (sTen cf { sess := true, keys := keysT, go := [2] }) 0 = 2 ∧
    conf (sTen cf { sess := true, keys := keysT, go := [2] }) 0 = cf ∧ tabFind 3 (partOf (sTen cf { sess := true, keys := keysT, go := [2] }) 0).keys ≠ none ∧
    tabFind 4 (partOf (sTen cf { sess := true, keys := keysT, go := [2] }) 0).keys = none ∧
    (partOf (sTen cf { sess := true, keys := keysT, go := [2] }) 0).go ≠ [] ∧ (partOf (sTen cf { sess := true, keys := keysT }) 0).go = [] := by decide +kernel

/-- The sixth sub-stream that runs makes RUN_IDE (12 R387). -/
theorem test_setGo_sixth : conf (after (.kSetGo ⟨1, true⟩ 5 0) (sTen 5 { sess := true, keys := [(10, 7)], go := [0, 2, 5, 6, 8] })) 0 = 6 ∧
    conf (after (.kSetGo ⟨1, true⟩ 4 0) (sTen 5 { sess := true, keys := [(8, 7)], go := [0, 2, 5, 6, 8] })) 0 = 5 := by decide +kernel
/-- A partition is created with the first point that fits: 63 W for one cluster at 700 MHz (16 R479). -/
theorem test_partCreate_point : getR (after (.partCreate (padTo 136 ([1, 0] ++ leBytes 2 63 ++ leBytes 4 2))) sNew) (kPart 1 8) = BitVec.ofNat 32 (63 * 65536 + 700) := by
  decide +kernel
/-- An unknown PID's destroy is 0x9F (11 R335). -/
theorem test_partDestroy_free : fld (getR (after (.partDestroy [1]) live) (kMb 0 8)) 15 8 = 0x9F := by decide +kernel

/-- Full service with jobs. -/
def jobbed (j : Jobs) (l : List (Nat × Nat)) : State := { regs l live with jobs := j }
/-- A RUN of context 0 is running. -/
def sRun (l : List (Nat × Nat)) : State := regs l live

theorem witness_ContextResets_nothing : ctxOwner live 1 = none ∧ ctxOwner live 0 = some 0 ∧ bit (getR (regs [(kCtx 0 0xEC, 2)] live) (kCtx 0 0xEC)) 1 = true ∧
    partState (regs [(kPart 0 0, 1)] live) 0 ≠ 2 ∧ ctxOwner (regs [(kPart 0 0, 1)] live) 0 = some 0 ∧ live.jobs.resetting = [] := by decide +kernel
theorem witness_ContextResets_begin : ctxOwner live 0 = some 0 ∧ partState live 0 = 2 ∧ bit (getR live (kCtx 0 0xEC)) 1 = false := by decide +kernel
theorem witness_ContextResets_end : (jobbed { resetting := [(9, 0xE0), (0, 0xB0)] } []).jobs.resetting.find? (fun x => x.1 == 0) = some (0, 0xB0) ∧
    partState (jobbed { resetting := [(9, 0xE0), (0, 0xB0)] } []) (ctxPid live 0) = 2 := by decide +kernel

theorem witness_PartitionResets : partState live 0 = 2 ∧ partState live 31 = 0 ∧ partState (regs [(kPart 0 0, 3)] live) 0 = 3 ∧
    (partOf (regs [(kPart 0 0, 3)] live) 0).destroyWaits = false ∧
    (partOf (modPart 0 (fun p => { p with destroyWaits := true }) (regs [(kPart 0 0, 3)] live)) 0).destroyWaits = true ∧
    partState (modPart 0 (fun p => { p with destroyWaits := true }) (regs [(kPart 0 0, 3)] live)) 0 = 3 := by decide +kernel

/-- A VEW of context 0 issued on core 0. -/
def sWdg : State := issued 0x20 []
/-- Its watchdog stands at `n` of a timeout of 5 ticks. -/
def sTime (n : Option Nat) : State :=
  let s := regs [(kPart 0 0x104, 5)] sWdg; { s with dbg := { s.dbg with wdg := [(engKey 3 0 0, headSig (cmd sWdg), n)] } }
theorem witness_Watchdogs_head : headCmd sWdg 3 0 0 = some (cmd sWdg) ∧ brkState sWdg 0 ≠ 2 ∧ isWaking sWdg 3 0 = false ∧ headCmd sWdg 4 0 0 = none ∧
    (∃ m ∈ sWdg.eng.cmds, m.ctx < 1024 ∧ headCmd sWdg 3 0 m.ctx = some m) ∧ (∀ m ∈ sWdg.eng.cmds, headCmd sWdg 1 0 m.ctx ≠ some m) := by decide +kernel
theorem witness_Watchdogs_due : (∀ n ∈ [some 5, some 6, some 4, none], headCmd (sTime n) 3 0 0 = some (cmd sWdg) ∧ brkState (sTime n) 0 ≠ 2 ∧
    isWaking (sTime n) 3 0 = false ∧ wdgDue (sTime n) (ctxPid (sTime n) 0) (engKey 3 0 0) (headSig (cmd sWdg)) = decide (n = some 5 ∨ n = some 6)) ∧
    bit (getR (sTime none) (kCtx 0 0xD0)) 31 = false := by decide +kernel
/-- A watchdog has fired and its queue has not progressed. -/
def sQuiet : State := { live with dbg := { live.dbg with quiet := [ctlKey 0 0, memQKey 0 0, grpKey 95] } }
theorem witness_Watchdogs_control : coreWatched live 0 0 = true ∧ ctlKey 0 0 ∉ live.dbg.quiet ∧ ctlKey 0 0 ∈ sQuiet.dbg.quiet ∧ coreWatched idle 0 0 = false := by
  decide +kernel
def sFull (g : Nat) : State := { sQuiet with hbm := { sQuiet.hbm with occ := [(g, 256)] } }
theorem witness_Watchdogs_group : tab0 live.hbm.occ 0 = 0 ∧ tab0 (sFull 0).hbm.occ 0 ≠ 0 ∧ grpKey 0 ∉ (sFull 0).dbg.quiet ∧
    tab0 (sFull 95).hbm.occ 95 ≠ 0 ∧ grpKey 95 ∈ (sFull 95).dbg.quiet := by decide +kernel
theorem witness_Watchdogs_event : ownedBy live 0 0 = true ∧ ownedBy live 0 1 = false ∧ ownedBy live 1 0 = false ∧ ctxOwner live 1023 = none ∧
    (ringOf live 0).resv = 0 ∧ memQKey 0 0 ∉ live.dbg.quiet ∧ memQKey 0 0 ∈ sQuiet.dbg.quiet := by decide +kernel
/-- A packet of context 0 waits for port 19, and a completion slot of context 0 is taken; neither has progressed for 5 ticks. -/
def sStuck : State :=
  let s := regs [(kPart 0 0x104, 5)] (modLink 19 (fun _ => { txq := [(0, [{ hdr := 0, slots := zeros 240, crc := 0 }])] }) (modRing 0 (fun _ => { resv := 1 }) live))
  { s with dbg := { s.dbg with wdg := [(spanKey 19 0, 0, some 5), (compKey 0, 65536, some 5)] } }
theorem witness_Watchdogs_stuck : stuckVc sStuck 0 19 (some 0) = some 0 ∧ stuckVc sStuck 0 19 none = none ∧ stuckVc live 0 19 (some 0) = none ∧
    ctxOwner sStuck 0 = some 0 ∧ (ringOf sStuck 0).resv ≠ 0 ∧ wdgDue sStuck 0 (compKey 0) (compSig sStuck 0) = true := by decide +kernel

def sHalt (l : List (Nat × Nat)) : State := regs l live
theorem witness_Halts_ask : (mayHalt live 0 && brkState live 0 == 0) = true ∧ (mayHalt live 1 && brkState live 1 == 0) = false ∧
    (mayHalt (sHalt [(kCtx 0 0xEC, 2)]) 0 && brkState (sHalt [(kCtx 0 0xEC, 2)]) 0 == 0) = false := by decide +kernel
theorem witness_Halts_break : ∀ cmp ∈ [0, 1], let s := sHalt [(kCtx 0 0xF0, 2 ^ (31 - cmp)), (kCtx 0 (0xF4 + 4 * cmp), 0x1234)]
    (mayHalt s 0 && brkState s 0 == 0 && runsOn s 0 0 && bit (getR s (kCtx 0 0xF0)) (31 - cmp) && getR s (kCtx 0 (0xF4 + 4 * cmp)) == 0x1234#32) = true ∧
    (getR s (kCtx 0 (0xF4 + 4 * cmp)) == 0x1238#32) = false := by decide +kernel
theorem witness_Halts_state : brkState live 0 ≠ 2 ∧ brkState (sHalt [(kCtx 0 0xFC, 2 ^ 31)]) 0 = 2 ∧ brkState (sHalt [(kCtx 0 0xFC, 2 ^ 30)]) 0 = 1 ∧
    (sHalt [(kCtx 0 0xFC, 2 ^ 30)]).eng.cmds = [] ∧ runsOn (sHalt [(kCtx 0 0xFC, 2 ^ 30)]) 0 0 = true ∧ runsOn (sHalt [(kCtx 0 0xFC, 2 ^ 30)]) 1 0 = false ∧
    (∃ m ∈ sWdg.eng.cmds, m.ctx = 0) := by decide +kernel
theorem witness_Halts_record : ∀ s ∈ [sHalt ((kCtx 0 0xFC, 2 ^ 30) :: (kCtx 0 0x54, 3 * 2 ^ 17) :: open_ (Master.ctl 0).setBase 0)],
    brkState s 0 = 1 ∧ s.eng.cmds = [] ∧ runsOn s 0 0 = true ∧ s.memShare (whoCtl s 0 0) 0 false = some (spBase 0) ∧
    s.mayWrite (whoCtl s 0 0) (spBase 0 + 64 * getF s (kCtx 0 0x54) 31 17) 576 := by unfold State.memShare State.mayWrite; decide +kernel

theorem witness_Snapshots : snapBusy live 32 = false ∧ snapBusy (regs [(0x904, 2 ^ 30)] live) 32 = true ∧ snapBusy (regs [(kPart 3 0x184, 2 ^ 30)] live) 3 = true ∧
    partState (regs [(kPart 3 0x184, 2 ^ 30)] live) 3 ≠ 3 ∧ partState (regs [(kPart 3 0x184, 2 ^ 30), (kPart 3 0, 3)] live) 3 = 3 ∧ (snapOf live 31).pending = false ∧
    (snapOf (setSnap 31 { pending := true } live) 31).pending = true ∧ snapBusy (setSnap 31 { pending := true } live) 31 = false := by decide +kernel

theorem witness_Taps : crmOk 0x480003FF = false ∧ crmOk 0x478003FF = true ∧ crmOk 0x42000000 = true ∧ crmOk 0x42800000 = false ∧
    bit (getR live (kTap true 511 3)) 31 = false ∧ bit (getR (regs [(kTap false 31 3, 2 ^ 31)] live) (kTap false 31 3)) 31 = true := by decide +kernel

/-- A dump entry: 64 bytes at `src` when semaphore 5 of cluster 0 is 1. -/
def dumpEnt (src : Nat) : List Byte := padTo 64 (List.replicate 16 9 ++ leBytes 8 src ++ leBytes 8 64 ++ leBytes 2 0 ++ [0, 5, 1, 0, 0, 6, 1])
/-- The dump block armed with a table of one entry in cluster memory, and the semaphore met. -/
def sDump (src : Nat) : State :=
  rawWrite 0 (cmBase 0 + 0x1000) (dumpEnt src) (semSignal 0 0 5 (sRun (open_ (kPart 0 0x2900) 0 ++ [(kPart 0 0x1C0, 3 * 2 ^ 30), (kPart 0 0x1C8, 0x1000), (kPart 0 0x1CC, 0xF000), (kPart 0 0x1D0, 1)])))
theorem witness_Dumps_table : ∀ src ∈ [cmBase 0 + 0x2000, 2 ^ 47], dumpArmed (sDump src) 0 0 = true ∧ dumpEntryAt (sDump src) 0 0 = cmBase 0 + 0x1000 ∧
    (sDump src).mayRead (whoTable 0) (cmBase 0 + 0x1000) 64 ∧ rawRead (sDump src) 0 (cmBase 0 + 0x1000) 64 = dumpEnt src ∧
    dumpMay (sDump src) 0 0 (dumpEnt src) = true ∧ leAt (dumpEnt src) 32 2 = 0 ∧ leAt (dumpEnt src) 16 8 = src ∧ leAt (dumpEnt src) 24 8 = 64 ∧
    (runningRun (sDump src) 0).isSome = true := by unfold State.mayRead; decide +kernel
theorem witness_Dumps_source : (sDump (cmBase 0 + 0x2000)).mayRead (whoDump 0 0) (cmBase 0 + 0x2000) 64 ∧
    refusal (sDump (2 ^ 47)) (whoDump 0 0) true false false (2 ^ 47) 64 ≠ none := by unfold State.mayRead; decide +kernel
/-- No table is armed; the table may not be read; its entry has fired in this RUN; no RUN is running. -/
theorem witness_Dumps_none : dumpArmed live 0 0 = false ∧
    refusal { sDump 0 with regs := (regs [(kPart 0 0x2900, 0)] (sDump 0)).regs } (whoTable 0) true false false (cmBase 0 + 0x1000) 64 ≠ none ∧
    dumpMay { sDump 0 with dbg := { (sDump 0).dbg with fired := [0] } } 0 0 (dumpEnt 0) = false ∧
    runningRun { sDump 0 with jobs := {} } 0 = none := by decide +kernel
/-- A dump of one granule behind its header waits. -/
def sDumped (wr carve : Nat) : State :=
  let s := modPart 0 (fun p => { p with inForce := true, gset := [0] })
    (regs ((kPart 0 0x241C, 50331648) :: (kPart 0 0x1D4, wr) :: (kPart 0 0x1C4, carve) :: open_ (kPart 0 0x2900) 0) live)
  { s with dbg := { s.dbg with dumps := [{ pid := 0, entry := 0, ctx := 0, data := zeros 128, dcl := 0, dsem := 6 }] } }
theorem witness_Dumps_write : (∀ wr ∈ [0, 2 ^ 26 - 2, 2 ^ 26 - 1], ((sDumped wr 1).dbg.dumps.find? (fun d => d.pid == 0)).any (fun d =>
    decide (d.ctx < 1024) && d.data.length / 64 == 2 && getF (sDumped wr 1) (kPart 0 0x1D4) 26 0 == wr) = true) ∧
    live.dbg.dumps.find? (fun d => d.pid == 0) = none ∧
    (∀ wr ∈ [0, 2 ^ 26 - 2], (sDumped wr 1).mayWrite (whoDump 0 0) (2 ^ 32 + 64 * wr) 128) ∧
    refusal (sDumped 0 0xFFFF) (whoDump 0 0) false true false (0xFFFF * 2 ^ 32) 128 ≠ none := by unfold State.mayWrite; decide +kernel
/-- A dump of two granules advances the carve by two; with one granule left it sets OVF (15 R462, R463). -/
theorem test_dumpComplete_edge : getF (after (.dumpComplete 0) (sDumped (2 ^ 23) 0xF000)) (kPart 0 0x1D4) 26 0 = 2 ^ 23 + 2 ∧
    bit (getR (after (.dumpComplete 0) (sDumped (2 ^ 26 - 1) 0xF000)) (kPart 0 0x1D8)) 31 = true := by decide +kernel

theorem witness_FunctionResets : partState live 0 = 2 ∧ partState live 31 ≠ 2 ∧ live.pwr.pwrgd = true ∧ live.pwr.perst = false ∧
    State.reset.pwr.pwrgd = false := by decide +kernel

/-- The always-on domain runs firmware and no rail is up. -/
def dark (p : Power) : State := { State.reset with pwr := p, sec := { ready := true, hasImage := true } }
theorem witness_VauxUpAndBoot_select : live.pwr.vaux = true ∧ (dark { vaux := true }).pwr.vaux = true := by decide +kernel
theorem witness_RailsUpAndDown_up : ∀ vin ∈ [true, false], ∀ s ∈ [dark { vaux := true, vinOk := vin }],
    s.pwr.vaux = true ∧ s.sec.ready = true ∧ bit (getR s 0x400) 30 = false ∧ s.pwr.needLow = false ∧ s.pwr.rails = 0 ∧ s.pwr.raising = false ∧
    s.pwr.vinOk = vin := by decide +kernel
theorem witness_RailsUpAndDown_vin : ∀ s ∈ [dark { vaux := true, modEn := true }],
    s.pwr.vaux = true ∧ s.sec.ready = true ∧ bit (getR s 0x400) 30 = false ∧ s.pwr.needLow = false ∧ s.pwr.rails = 0 ∧ s.pwr.raising = false ∧
    s.pwr.modEn = true ∧ svc s ≠ 4 := by decide +kernel
theorem witness_RailsUpAndDown_family : (dark { raising := true, rails := 1 }).pwr.raising = true ∧ svc (dark { raising := true, rails := 1 }) ≠ 5 ∧
    (dark { raising := true, rails := 1 }).pwr.rails = 1 ∧ (dark { raising := true, rails := 2 }).pwr.rails ≠ 1 ∧
    (dark { raising := true, rails := 2 }).pwr.raising = true := by decide +kernel
def floor_ : State := let s := regs [(0x11C, 8)] live; { s with pwr := { s.pwr with ratio := 0x40 } }
theorem witness_RailsUpAndDown_down : (live.pwr.rails ≠ 0 ∨ live.pwr.raising = true) ∧ sensorHere live 0 = true ∧ sensorHere live 51 = true ∧
    svc live ≠ 5 ∧ (floor_.pwr.rails ≠ 0 ∨ floor_.pwr.raising = true) ∧ floor_.pwr.ratio = 0x40 ∧
    (bit (getR floor_ 0x11C) 2 = true ∨ bit (getR floor_ 0x11C) 3 = true) := by decide +kernel
theorem witness_Throttling_step : (bit (getR floor_ 0x11C) 2 = true ∨ bit (getR floor_ 0x11C) 3 = true) ∧
    (∀ r ∈ [0x40, 0xF8, 0xFF], ∀ s ∈ [{ live with pwr := { live.pwr with ratio := r } }],
      getF s 0x11C 4 0 = 0 ∧ getF s 0x10C 15 0 * 100 ≤ getF s 0x110 15 0 * 97 ∧ coolEnough s = true ∧ s.pwr.ratio < 256) ∧
    (∀ s ∈ [regs [(0x11C, 1)] live], bit (getR s 0x11C) 2 = false ∧ bit (getR s 0x11C) 3 = false ∧ getF s 0x11C 4 0 ≠ 0) ∧ State.reset.pwr.ratio = 256 ∧ floor_.pwr.ratio ≠ 256 := by
  decide +kernel
theorem witness_Throttling_sensors : sensorHere live 53 = true ∧ sensorHere { live with assy := 0 } 34 = false ∧
    (listGet 0x8000 [(800 : BitVec 16)] 0 ≠ 0x8000) ∧ listGet (0x8000 : BitVec 16) [] 53 = 0x8000 := by decide +kernel
theorem witness_PinsAndSelfTest_trained : live.pwr.pwrgd = true ∧ live.pwr.perst = false ∧ State.reset.pwr.pwrgd = false ∧ State.reset.pwr.perst = true := by decide
theorem witness_PinsAndSelfTest : svc (regs [(0x100, 2 ^ 29)] live) = 1 ∧ (regs [(0x100, 2 ^ 29)] live).pwr.pwrgd = true ∧ svc (regs [(0x100, 2 ^ 30)] live) = 2 ∧
    (∀ s ∈ [{ regs [(0x12C, 12288 * 96)] live with pwr := { live.pwr with fill := [(95, 12287)] } }],
      svc s = 3 ∧ 95 < groupsN s ∧ tab0 s.pwr.fill 95 < 12288 ∧ tab0 s.pwr.fill 0 < 12288 ∧ getF s 0x12C 20 0 ≠ 0) := by decide +kernel
theorem witness_ClusterDomains : clst idle 0 = 0 ∧ clBusy idle 0 = false ∧ clBusy live 0 = true ∧
    (∀ s ∈ [regs [(0x120, 1), (0x124, 2 ^ 31), (0x128, 1)] idle],
      clst s 0 = 1 ∧ getF s 0x128 15 0 ≠ 0 ∧ noOff s 0 = false ∧ clst s 31 = 2 ∧ clst s 0 ≠ 0 ∧ clOwner s 0 ≠ none) ∧
    noOff (regs [(kPart 0 0x200, 1)] live) 0 = true ∧
    (∀ s ∈ [{ regs [(0x120, 3), (0x124, 0)] live with pwr := { live.pwr with waking := [0, 5] } }],
      0 ∈ s.pwr.waking ∧ clst s 0 = 3 ∧ 5 ∈ s.pwr.waking ∧ clst s 5 ≠ 3) := by decide +kernel
theorem witness_DeviceTime : partState live 0 ≠ 0 ∧ (0 : BitVec 6) ≠ 1 ∧ (match exec .modEnFall live with | .next t => t.pwr.rails == 0 | _ => false) = true ∧
    Instr.modEnFall ≠ .dtimeTick ∧ Instr.modEnFall ≠ .vauxLost ∧ ∀ straps, Instr.modEnFall ≠ .vauxUp straps :=
  ⟨by decide +kernel, by decide, by decide +kernel, nofun, nofun, nofun⟩
theorem witness_RatioStaysInRange : 0x40 ≤ floor_.pwr.ratio ∧ floor_.pwr.ratio ≤ 0x100 ∧
    (match step { floor_ with pending := [.ratioStep] } with | .next t => t.pwr.ratio == 0x40 | _ => false) = true := by decide +kernel
theorem witness_TapsBusAndTicks : live.pwr.vaux = true ∧ live.pwr.pwrgd = true ∧ 256 ≤ live.pwr.ratio ∧ floor_.pwr.ratio < 256 ∧ partState floor_ 0 = 2 := by
  decide +kernel

/-- SEED of context 1023 (02 R58) takes any value; CTX_WDG takes no TIME above 0x100. -/
theorem witness_RegisterWrites : ctxSpec 0x44 ≠ none ∧ (0x7FF44#26).toNat = kCtx 1023 0x44 ∧ ctxOwner live 1023 = none ∧
    (∀ p, ctxOwner live 0 = some p → conf live p < 2) ∧ 256 < fld (257#32) 8 0 ∧ regSpec 0x3C = none ∧ mbBusy live 0 = false := by
  refine ⟨by decide +kernel, by decide +kernel, by decide +kernel, fun p h => ?_, by decide +kernel, by decide +kernel, by decide +kernel⟩
  rw [show ctxOwner live 0 = some 0 by decide +kernel] at h
  obtain rfl : p = 0 := by simpa using h.symm
  decide +kernel

/-- Rings of 16 entries enabled for context 0, bound to function 1; tail 7, completion tail 3 and head 13. -/
def ringed (r : Ring) (j : Jobs) : State :=
  jobbed { j with rings := [(0, { r with bound := some 1 })] }
    ([(kCtx 0 8, 0x80000004), (kCtx 0 0x18, 0x80000004 + 5 * 2 ^ 20 + 2 * 2 ^ 12 + 32), (kCtx 0 0x1C, 0x10003), (kCtx 0 0xA4, 1), (kCtx 0 0x24, 4)] ++ open_ (kPart 0 0x2900) 0)
def sBell : State := ringed { tail := 7, cqHead := 13 } {}
theorem witness_Rings_enable : sqEn live 0 = false ∧ cqEn live 0 = false ∧ sqEn sBell 0 = true ∧ cqEn sBell 0 = true ∧ 4 ≤ fld (4#32) 4 0 ∧ fld (16#32) 4 0 ≤ 16 ∧
    fnShows live 1 0 = true ∧ fnShows live 0 1023 = true ∧ fld (0x18000#32) 16 13 = 12 ∧ fld (0x6000#32) 16 13 = 3 ∧ fld (0#32) 16 13 = 0 := by decide +kernel
theorem witness_Rings_vector : vecBad live 0 (0x80000004 + 128 * 2 ^ 20) = false ∧ vecBad live 0 0x80000004 = true ∧ vecBad live 0 (0x80000004 + 129 * 2 ^ 20) = true ∧
    offStream live 1 false = false ∧ wrongFn sBell 2 0 = true ∧ wrongFn sBell 1 0 = false ∧ fnShows sBell 0 0 = true ∧ wrongFn sBell 0 0 = true := by decide +kernel
theorem witness_Doorbells_tail : fnShows sBell 1 0 = true ∧ (ringOf sBell 0).bound = some 1 ∧ (15#32).toNat % 65536 < sqSize sBell 0 ∧
    sqSize sBell 0 ≤ (16#32).toNat % 65536 ∧ fnShows live 1 0 = true ∧ sqEn live 0 = false := by decide +kernel
/-- The head may move from 13 to 13, 14, 15, 0, 1, 2, 3, not to 4 or 12. -/
theorem witness_Doorbells_head : cqTail sBell 0 < cqSize sBell 0 ∧ (ringOf sBell 0).cqHead < cqSize sBell 0 ∧
    (∀ v ∈ [13, 15, 0, 3], ∃ k ∈ rangeFrom 0 7, v = ((ringOf sBell 0).cqHead + k) % cqSize sBell 0) ∧
    (cqTail sBell 0 + cqSize sBell 0 - (ringOf sBell 0).cqHead) % cqSize sBell 0 = 6 ∧
    (∀ v ∈ [4, 12, 16], ∀ k ∈ rangeFrom 0 7, v ≠ ((ringOf sBell 0).cqHead + k) % cqSize sBell 0) := by decide +kernel

def full_ : Period := { ctx := 0, slot := 0, entry := 0, opened := 0, runs := 1 }
def entNew (bytes : List Byte) : Sub := { ctx := 0, seq := 4, v1 := false, ent := padTo 64 bytes }
theorem witness_SubmissionsAreFetched : canFetch sBell 0 = true ∧ conf sBell (ctxPid sBell 0) ≠ 3 ∧ (padTo 64 runEnt).length = (if bit (sqCfg sBell 0) 8 then 32 else 64) ∧
    findSub sBell 0 (getR sBell (kCtx 0 0x24)).toNat = none ∧ (entNew [7]).legal = false ∧ (entNew [0]).legal = true ∧ (entNew runEnt).legal = true ∧ (entNew runEnt).opc = 1 ∧
    periodFull sBell (entNew runEnt) = false ∧ periodFull (ringed { tail := 7 } { images := [img], periods := [full_] }) (entNew runEnt) = true ∧ canFetch live 0 = false := by
  decide +kernel

/-- One fetched submission, number 4, of an entry. -/
def sSub (bytes : List Byte) (st : SubSt) (j : Jobs) : State := ringed { tail := 7, resv := 1 } { j with subs := [{ entNew bytes with st := st }] }
def copyEnt (opc n : Nat) : List Byte := padTo 64 ([BitVec.ofNat 8 opc, 0, 0, 0, 1, 0, 0, 0] ++ leBytes 8 0x10000 ++ leBytes 8 (cmBase 0 + 0x400) ++ leBytes 8 n)
theorem witness_HostReadsFail : canFetch sBell 0 = true ∧ ∀ e ∈ [runEnt, copyEnt 2 64, copyEnt 4 128, [6]], let s := sSub e .fetched {}
    findSub s 0 4 = some (entNew e) ∧ (entNew e).st = .fetched ∧ canGo s (entNew e) = true ∧
    ((entNew e).opc = 1 ∧ (entNew e).inlen ≠ 0 ∨ (entNew e).opc = 2 ∨ (entNew e).opc = 4 ∨ (entNew e).opc = 6) := by decide +kernel
theorem witness_SubmissionsComplete : (∀ f ∈ [0, 1], let x := { entNew [0, f] with st := .done }
      findSub (sSub [0, f] .done {}) 0 4 = some x ∧ x.st = .done ∧ x.v1 = false ∧ conf (sSub [0, f] .done {}) (ctxPid live 0) ≠ 3 ∧ cqEn (sSub [0, f] .done {}) 0 = true ∧
      x.irq = (f == 1) ∧ (ringOf (sSub [0, f] .done {}) 0).modCnt + 1 < fld (cqCfg (sSub [0, f] .done {}) 0) 19 12) ∧
    (fld (cqCfg (ringed { modCnt := 1 } {}) 0) 19 12 ≤ (ringOf (ringed { modCnt := 1 } {}) 0).modCnt + 1) ∧
    cqEn (setN (kCtx 0 0x18) 4 (sSub [0] .done {})) 0 = false ∧ findSub (setN (kCtx 0 0x18) 4 (sSub [0] .done {})) 0 4 = some { entNew [0] with st := .done } ∧
    cqEn (ringed { modCnt := 1 } {}) 0 = true ∧ fld (cqCfg (ringed { modCnt := 1 } {}) 0) 11 5 ≠ 0 ∧ (ringOf (ringed { modCnt := 1 } {}) 0).modCnt ≠ 0 := by decide +kernel

theorem witness_NopAndRun_input : ready (sSub [0] .fetched {}) 0 4 0 = some (entNew [0]) ∧ (let s := sSub runEnt .fetched { images := [img] }; let x := entNew runEnt
    ready s 0 4 1 = some x ∧ runAhead s x = false ∧ periodFull s x = false ∧ myImage s 0 x.slot = some img ∧ (∀ e ∈ img.entries, img.entries[x.entry]? = some e ∧
    x.inlen ≤ e.inmax ∧ x.outlen ≤ e.outmax ∧ s.mayWrite (whoHost (ctxPid s 0) 0) (cmBase 0 + e.inoff) x.inlen ∧ cmBase 0 + e.inoff + x.inlen ≤ cmBase 32) ∧
    conf s (ctxPid s 0) ≠ 3 ∧ shareOf s (whoHost (ctxPid s 0) 0) (cmBase (listGet 0 (placeOf s 0) 0)) cmSize = some (cmBase 0)) := by unfold State.mayWrite; decide +kernel
theorem witness_NopAndRun_dispatch : let s := sSub runEnt .input { images := [img] }; let x := { entNew runEnt with st := .input }
    findSub s 0 4 = some x ∧ canGo s x = true ∧ runAhead s x = false ∧ getF s (kCtx 0 0xFC) 31 30 = 0 ∧ myImage s 0 x.slot = some img ∧ wptrsSet s img = true ∧
    img.period x.entry ≠ none ∧ ({ img with recs := [] }).period x.entry = none := by decide +kernel
theorem witness_NopAndRun_end : let s := sSub runEnt .running { images := [img] }; let x := { entNew runEnt with st := .running }
    findSub s 0 4 = some x ∧ x.opc = 1 ∧ s.eng.cmds = [] ∧ s.jobs.budgets = [] ∧ myImage s 0 x.slot = some img ∧ 0 < x.outlen ∧ (entNew [1]).outlen = 0 ∧
    shareOf s (whoHost (ctxPid s 0) 0) (cmBase (listGet 0 (placeOf s 0) 0)) cmSize = some (cmBase 0) ∧
    (∀ e ∈ img.entries, img.entries[x.entry]? = some e ∧ s.mayRead (whoHost (ctxPid s 0) 0) (cmBase 0 + e.outoff) x.outlen) := by unfold State.mayRead; decide +kernel

theorem nodup_run (a n : Nat) : (rangeFrom a n).Nodup := by
  induction n generalizing a with
  | zero => exact List.nodup_nil
  | succ n ih => exact List.nodup_cons.2 ⟨fun h => by have := mem_rangeFrom.1 h; omega, ih _⟩
theorem witness_Copies : ∀ opc ∈ [2, 3], let s := sSub (copyEnt opc 100) .fetched {}; let x := entNew (copyEnt opc 100)
    ready s 0 4 opc = some x ∧ conf s (ctxPid s 0) ≠ 3 ∧ x.len = 100 ∧ s.mayWrite (whoHost (ctxPid s 0) 0) x.localAddr x.len ∧
    s.mayRead (whoHost (ctxPid s 0) 0) x.localAddr x.len ∧ keysOf s (ctxPid s 0) x.localAddr x.len = rangeFrom (cmBase 0 + 0x400) 100 := by unfold State.mayRead State.mayWrite; decide +kernel

/-- An image file: identity record, one entry. -/
def fileBody : List Byte :=
  (leBytes 2 1 ++ [0, 0] ++ leBytes 4 0 ++ leBytes 8 192 ++ leBytes 8 32 ++ leBytes 8 0) ++
  (leBytes 2 2 ++ [0, 0] ++ leBytes 4 0 ++ leBytes 8 256 ++ leBytes 8 32 ++ leBytes 8 0) ++
  (leBytes 2 1 ++ leBytes 2 32 ++ leBytes 4 0xFFFFFFFF ++ padTo 24 (List.replicate 16 7 ++ [1, 0, 1, 0])) ++ List.replicate 32 0 ++ padTo 32 [1, 0]
def file : List Byte :=
  padTo 128 (leBytes 4 0x4E4C5052 ++ [1, 0, 8, 0] ++ leBytes 4 2 ++ leBytes 4 0 ++ leBytes 8 288 ++ sha3 fileBody) ++ fileBody
theorem file_digest : ((file.drop 24).take 32 == sha3 (file.drop 128)) = true := by
  rw [show (file.drop 24).take 32 = sha3 fileBody from rfl, show file.drop 128 = fileBody from rfl]; exact beq_self_eq_true _
theorem witness_Images_load : let s := sSub (copyEnt 4 288) .fetched {}; let x := entNew (copyEnt 4 288)
    ready s 0 4 4 = some x ∧ findImage s (ctxPid s 0) x.loadSlot = none ∧ insideShare s (ctxPid s 0) x.localAddr x.len = true ∧ conf s (ctxPid s 0) ≠ 3 ∧
    file.length = x.len ∧ s.mayWrite (whoHost (ctxPid s 0) 0) x.localAddr x.len ∧ keysOf s (ctxPid s 0) x.localAddr x.len = rangeFrom (cmBase 0 + 0x400) 288 := by unfold State.mayWrite; decide +kernel
theorem witness_Images_unload : let s := sSub [5] .fetched { images := [img] }; let x := entNew [5]
    ready s 0 4 5 = some x ∧ myImage s 0 x.slot = some img ∧ slotBusy s 0 x.slot (subsAhead s x) = false ∧ img.slot < 256 := by decide +kernel
/-- LOADIMG has landed the image file. -/
def loaded : Sub := { entNew (copyEnt 4 288) with st := .running, gdata := file }
def sLoaded : State := ringed { tail := 7, resv := 1 } { subs := [loaded], admq := [(0, 4)] }
theorem witness_Images_parse : (parseImage sLoaded.assy.toNat (insideShare sLoaded (ctxPid sLoaded 0)) loaded.gdata).isSome = true := by
  rw [show sLoaded.assy.toNat = 3 by decide +kernel, show loaded.gdata = file from rfl]
  unfold parseImage; simp only [file_digest]; decide +kernel
theorem witness_Images_admission : findSub sLoaded 0 4 = some loaded ∧ findImage sLoaded (ctxPid sLoaded 0) loaded.loadSlot = none :=
  ⟨rfl, by decide +kernel⟩
theorem witness_Images_first : rtpServes { sLoaded with sec := { sLoaded.sec with ready := true } } = true ∧
    sLoaded.jobs.admq.find? (awaits sLoaded) = some (0, 4) := by
  have h : awaits sLoaded (0, 4) = true := by
    unfold awaits
    rw [show findSub sLoaded (0, 4).1 (0, 4).2 = some loaded from rfl]
    decide +kernel
  exact ⟨by decide +kernel, by rw [show sLoaded.jobs.admq = [(0, 4)] from rfl, List.find?_cons, h]⟩
/-- The same with an image bound to its slot since. -/
def sTaken : State := { sLoaded with jobs := { sLoaded.jobs with images := [{ img with slot := loaded.loadSlot }] } }
theorem witness_Images_taken : findSub sTaken 0 4 = some loaded ∧ findImage sTaken (ctxPid sTaken 0) loaded.loadSlot ≠ none := ⟨rfl, by decide +kernel⟩

def act (typ a0 : Nat) (a1 : Nat) (d : List Byte) : List Byte := padTo 80 ([BitVec.ofNat 8 typ, BitVec.ofNat 8 d.length, 0, 0] ++ leBytes 4 a0 ++ leBytes 8 a1 ++ d)
def groupImg (acts : List (List Byte)) : List Byte := padTo 64 ([BitVec.ofNat 8 acts.length, 0, 0, 0] ++ leBytes 4 77 ++ leBytes 4 0) ++ acts.flatten
def grp (acts : List (List Byte)) : Group := { pid := 0, owner := 0, src := .commit 4, gtag := 77, tmo := 100000, acts := acts }
/-- Weight pointer 4095 set twice: inside the cluster memory, and beyond it. -/
def actIn (n : Nat) : List Byte := act 1 4095 (cmBase 0) (leBytes 8 n)
def actOut : List Byte := act 1 4095 (cmBase 0 + cmSize) (leBytes 8 64)
theorem witness_CommitGroups_commit : let s := sSub (padTo 16 [6] ++ leBytes 2 144) .fetched {}; let x := entNew (padTo 16 [6] ++ leBytes 2 144)
    ready s 0 4 6 = some x ∧ conf s (ctxPid s 0) ≠ 3 ∧ (groupImg [actIn 64]).length = x.commitLen := by decide +kernel
/-- COMMIT has fetched a group image. -/
def sGroup (d : List Byte) (j : Jobs) : State := ringed { tail := 7, resv := 1 } { j with subs := j.subs ++ [{ entNew [6] with st := .fetchedGroup, gdata := d }] }
theorem witness_CommitGroups_stage : ∀ d ∈ [groupImg [actIn 64], groupImg []], let x := { entNew [6] with st := .fetchedGroup, gdata := d }
    (sGroup d {}).jobs.subs.find? (fun x => x.st == .fetchedGroup && ctxOwner (sGroup d {}) x.ctx == some 0 && !(ringOf (sGroup d {}) x.ctx).stopped) = some x ∧
    findSub (sGroup d {}) x.ctx x.seq = some x ∧ parseGroup (sGroup d {}) 0 0 (.commit 4) d = (if d.length = 64 then none else some (grp [actIn 64])) ∧
    (groupsOf (sGroup d {}) 0).length < 16 := by decide +kernel
/-- The group is staged and its drain runs: run 3 is dispatched, or not. -/
def sDrain (run : Bool) (acts : List (List Byte)) (d : Bool) : State :=
  sSub [6] .staged { groups := [grp acts], drains := if d then [{ pid := 0, waits := if run then [(0, 4)] else [(0, 3)] }] else [] }
theorem witness_CommitGroups_drain : groupsOf (sDrain true [actIn 64] false) 0 ≠ [] ∧ drainOf (sDrain true [actIn 64] false) 0 = none ∧
    stillHeld (sDrain true [actIn 64] false) 0 = false ∧ (match drainOf (sDrain true [actIn 64] true) 0 with | some d => drained (sDrain true [actIn 64] true) d | none => true) = false ∧
    groupsOf (sDrain true [actIn 64] true) 0 = [grp [actIn 64]] ∧ findSub (sDrain true [actIn 64] true) 0 4 = some { entNew [6] with st := .staged } := by decide +kernel
theorem witness_CommitGroups_point : ∀ acts ∈ [[actIn 64, actIn 128], [actIn 64, actOut, actOut]],
    (match drainOf (sDrain false acts true) 0 with | some d => drained (sDrain false acts true) d | none => false) = true ∧
    groupsOf (sDrain false acts true) 0 = [grp acts] ∧ acts ≠ [] ∧ (∀ a ∈ acts, actType a = 1 ∧ actArg0 a < 4096) ∧
    insideShare (sDrain false acts true) 0 (actArg1 (actIn 64)) (leNat (actData (actIn 64))) = true ∧
    insideShare (sDrain false acts true) 0 (actArg1 (actIn 128)) (leNat (actData (actIn 128))) = true ∧
    insideShare (sDrain false acts true) 0 (actArg1 actOut) (leNat (actData actOut)) = false := by decide +kernel
/-- The group of the second list is not applied: reason 0x89, index 1; of the first the last action counts (10 R325, R326). -/
theorem test_commitPoint : tabFind 4095 (after (.commitPoint 0) (sDrain false [actIn 64, actIn 128] true)).jobs.wptr = some (cmBase 0, 128) ∧
    (findSub (after (.commitPoint 0) (sDrain false [actIn 64, actOut, actOut] true)) 0 4).map (fun x => (x.status, x.reason, x.result)) = some (2, 0x89, 1) ∧
    (after (.commitPoint 0) (sDrain false [actIn 64, actOut, actOut] true)).jobs.wptr = [] := by decide +kernel

/-- The RUN of `sRun` has a budget of 10 cycles on a vector unit and of 4 units of group 7. -/
def bud (cls unit limit used : Nat) : Budget := { ctx := 0, slot := 0, entry := 0, cls := cls, unit := unit, limit := limit, used := used }
def sBud : State := jobbed { subs := [{ runSub with st := .running }], images := [img], periods := [full_], budgets := [bud 3 0 10 0, bud 11 7 4 5] } []
theorem witness_PeriodsAndBudgets : findImage sBud 0 0 = some img ∧ runningRun sBud 0 = some { runSub with st := .running } ∧ ctxOwner sBud 0 = some 0 ∧
    partState sBud 0 = 2 ∧ bit (getR sBud (kCtx 0 0xEC)) 1 = false ∧ bud 3 0 10 0 ∈ sBud.jobs.budgets ∧ bud 11 7 4 5 ∈ sBud.jobs.budgets ∧ (3 ≤ 10 ∨ 10 < 0) ∧
    (11 ≤ 10 ∨ (bud 11 7 4 5).limit < (bud 11 7 4 5).used) ∧ bit (getR sBud (kCtx 0 0xD0)) 31 = false := by decide +kernel

def envW3 (w3 : Word) : Env := { plainEnv 0x20 with w3 := w3 }
theorem witness_CommandEnvelope_issue : mayIssue live 0 0 = true ∧ (∀ e ∈ [plainEnv 0x20, envW3 0xFE00FE00], opcClass (envOpc e) ≠ none ∧ envReserved e = false ∧
    envOutside live 0 e = false) ∧ opcClass (envOpc (plainEnv 0xFF)) = none ∧ envReserved (envW3 1) = true ∧ bit (getR live (kCtx 0 0xD0)) 31 = false ∧ CcExc.badFetch ≠ .misaligned := by
  decide +kernel
/-- A VEW that has done its work and signals semaphores 63 and 63 of cluster 0. -/
def sEnded : State := let s := after (.commandStart 0 0 (envW3 0xFE00FE00)) live
  { s with eng := { s.eng with cmds := s.eng.cmds.map fun m => { m with pay := some (pay []), status := 5 } } }
theorem witness_CommandEnvelope_complete : (sEnded.eng.cmds.find? (fun m => m.core == 0 && m.ctx == 0 && envOpc m.env == 0x20 && m.pay.isSome && landed sEnded m)).any
    (fun m => !bit m.env.w0 13 && bit m.env.w3 31 && bit m.env.w3 15) = true := by decide +kernel
theorem witness_CommandEnvelope_schedule : choose idle 0 0 = none ∧ choose live 0 0 = some (0, false) ∧ choose live 0 511 = none := by decide +kernel

theorem witness_CountersAndBadAccesses : (BadAccess.width ≠ BadAccess.reserved ∨ false = true) ∧ 1 ≤ (1#6).toNat ∧ partState live 0 ≠ 0 ∧ isCounterLo 0x808 = true ∧
    (∀ k ∈ [kCore 511 0x44, kCore 0 0xA4, kCl 31 0x64, kCl 0 0xA4, kCore 511 0x11C, kCl 31 0x1C, kPart 31 0x2018, 0x874, kRdc 15 0x30, 0x808],
      regAbsent live k = false ∧ regMasked live 0 k = false ∧ regUnready live k = false) := by decide +kernel

theorem witness_CountersAndBadAccesses_high : isCounterLo (0x80C - 4) = true ∧ isCounterLo 0x80C = false ∧
    tabFind 0x80C ({ live with latch := [(0x80C, 5)] } : State).latch = some 5 ∧ regAbsent live 0x80C = false ∧ regMasked live 0 0x80C = false ∧
    regUnready live 0x80C = false ∧ (0x805#26).toNat % 4 ≠ 0 ∧ offStream live 1 true = false := by decide +kernel

theorem witness_EveryStepKeepsSound : live.Sound ∧ (match step { live with pending := [.dtimeTick] } with | .next t => t.time.phase == 1 | _ => false) = true :=
  ⟨⟨by decide +kernel, by decide +kernel, by decide +kernel⟩, by decide +kernel⟩
theorem witness_StepTakesTheFrontCommand : ({ live with pending := [.dtimeTick, .leakDetect] } : State).pending = .dtimeTick :: [.leakDetect] ∧ live.pending = [] := by
  decide +kernel

/-! Ill-formed commands, one or more for each check, and the well-formed command beside each -/

def wfs (l : List Instr) : Bool := l.all Instr.wf
def ills (l : List Instr) : Bool := l.all fun i => !i.wf

/-- Functions 0 to 32, VFs 1 to 32, channel groups 0 to 95, sub-streams 0 to 5. -/
theorem test_ill_numbers : ills [.sqTail 33 0 0, .getVersion 33, .flrVf 0, .flrVf 33, .vfAccerrClr ⟨0, true⟩, .hbmFillBlock 96, .hbmCreditGrant 96, .patrolScrub 96 .clean,
    .keyProg ⟨1, true⟩ 6 0 0, .kSetGo ⟨33, true⟩ 5 0] = true := by decide
theorem test_wf_numbers : wfs [.sqTail 32 0 0, .getVersion 0, .flrVf 1, .flrVf 32, .vfAccerrClr ⟨32, false⟩, .hbmFillBlock 95, .hbmCreditGrant 0, .patrolScrub 95 .clean,
    .keyProg ⟨1, true⟩ 5 0 0, .kSetGo ⟨32, true⟩ 0 0] = true := by decide
/-- Sensors 0 to 53; all 54 temperatures; a core number or a cluster number. -/
theorem test_ill_units : ills [.dieTempCritical 54, .sensorUpdate [], .sensorUpdate (List.replicate 53 0), .memCtrClr false 32, .starveLimit false 511 0,
    .crmArm false 32 0 0, .scrubZero 0 50331648] = true := by decide
theorem test_wf_units : wfs [.dieTempCritical 53, .sensorUpdate (List.replicate 54 0), .memCtrClr true 511, .starveLimit false 31 0, .crmArm true 511 0 0,
    .scrubZero 95 50331647] = true := by decide
/-- Byte strings of the lengths the spec gives. -/
theorem test_ill_lengths : ills [.sqFetch 0 (List.replicate 97 0), .haltDrained 0 [(0, 0, [])], .sessFrag 0 0 1 (List.replicate 249 0), .challenge 0 [],
    .lwKex 1 (List.replicate 32 0) [] (List.replicate 32 0), .flitReceive { x := 0, p := 0 } { hdr := 0, slots := [], crc := 0 },
    .rdmax (pktRd 0 0 (List.replicate 241 0))] = true := by decide +kernel
theorem test_wf_lengths : wfs [.sqFetch 0 (List.replicate 96 0), .haltDrained 0 [(0, 0, List.replicate 64 0)], .sessFrag 0 0 1 (List.replicate 248 0),
    .challenge 0 (List.replicate 32 0), .flitReceive { x := 0, p := 0 } { hdr := 0, slots := List.replicate 240 0, crc := 0 },
    .rdmax (pktRd 0 0 (List.replicate 240 0))] = true := by decide +kernel
/-- A body one byte longer than the body area. -/
theorem test_ill_body : (Instr.partCreate (List.replicate 61697 0)).wf = false ∧ (Instr.partCreate (List.replicate 61696 0)).wf = true := by
  show decide ((List.replicate 61697 (0 : Byte)).length ≤ 61696) = false ∧ decide ((List.replicate 61696 (0 : Byte)).length ≤ 61696) = true
  rw [List.length_replicate, List.length_replicate]; decide
/-- A write request carries NBYTES bytes, a read request none. -/
theorem test_ill_packet : ills [.wr { x := 0, p := 0 } { reqPeer 2 [1, 2] with nbytes := 3 }, .rd { x := 0, p := 0 } (reqPeer 1 [1]),
    .rd { x := 0, p := 0 } { reqPeer 1 [] with nbytes := 257 }] = true ∧
    wfs [.wr { x := 0, p := 0 } { reqPeer 2 [1, 2] with nbytes := 2 }, .rd { x := 0, p := 0 } { reqPeer 1 [] with nbytes := 256 }] = true := by decide +kernel

end Sys2Proof.Tests
end

section
/-! Registers that a host access reaches: the target of an access through the PF, and the register map of the context and counter blocks
(18 R518, R519, R528). -/

namespace Sys2Proof.Machine

theorem aligned_of_regSpec {k : Nat} {r : RegSpec} (h : regSpec k = some r) : k % 4 = 0 := by
  by_cases h4 : k % 4 = 0
  · exact h4
  · rw [regSpec, if_pos h4] at h
    cases h

theorem target_pf_reg {k : Nat} {r : RegSpec} (s : State) (h : regSpec k = some r) : target s 0 k = some (.reg k) := by
  simp [target, known, aligned_of_regSpec h, h]

theorem target_pf_skew {k : Nat} (s : State) (h : k % 4 ≠ 0) : target s 0 k = some .skew := by simp [target, h]

theorem target_pf_reserved {k : Nat} (s : State) (h4 : k % 4 = 0) (h : regSpec k = none) : target s 0 k = some .reserved := by
  simp [target, known, h4, h]

/-! Context blocks -/

section
variable {c o : Nat} (hc : c < 1024) (ho : o < 256)
include hc ho

theorem kCtx_bounds : 0x40000 ≤ kCtx c o ∧ kCtx c o < 0x80000 := by unfold kCtx; omega

theorem regPart_kCtx : regPart (kCtx c o) = none := by
  have := kCtx_bounds hc ho
  exact if_neg (by simp only [kPart]; omega)

theorem regCtx_kCtx : regCtx (kCtx c o) = some c := by
  have := kCtx_bounds hc ho
  rw [regCtx, if_pos (by simp only [kCtx] at *; omega)]
  simp only [kCtx, Option.some.injEq]; omega

theorem regCluster_kCtx : regCluster (kCtx c o) = none := by
  have := kCtx_bounds hc ho
  rw [regCluster, if_neg (by simp only [kCore]; omega), if_neg (by simp only [kCl]; omega)]

theorem regOwner_kCtx (s : State) : regOwner s (kCtx c o) = ctxOwner s c := by
  simp [regOwner, regPart_kCtx hc ho, regCtx_kCtx hc ho]

theorem regSpec_kCtx (h4 : o % 4 = 0) : regSpec (kCtx c o) = ctxSpec o := by
  have hb := kCtx_bounds hc ho
  have hm : kCtx c o % 0x100 = o := by unfold kCtx; omega
  rw [regSpec, if_neg (by unfold kCtx; omega), if_neg (by omega), if_pos hb, hm]

theorem writeReg_kCtx (fn : Nat) (v : Word) (s : State) : writeReg fn (kCtx c o) v s = writeCtx fn c o v s := by
  have hm : kCtx c o % 256 = o := by unfold kCtx; omega
  simp [writeReg, regPart_kCtx hc ho, regCtx_kCtx hc ho, hm]

/-- A context's block is in every assembly and always in service; only its partition's confidential states mask it (12 R380, 16 R493). -/
theorem pfReaches_kCtx {s : State} (hq : ∀ p, ctxOwner s c = some p → conf s p < 2) : s.pfReaches (kCtx c o) := by
  have hb := kCtx_bounds hc ho
  refine ⟨?_, ?_, ?_⟩
  · simp [regAbsent, regPart_kCtx hc ho]; omega
  · rw [regMasked, regOwner_kCtx hc ho]
    cases hw : ctxOwner s c with
    | none => rfl
    | some p => have := hq p hw; simp; omega
  · simp [regUnready, regCluster_kCtx hc ho]; omega

/-- Who may set a context's SL fields (00 R11): the PF, until the owner is sealed. -/
theorem slOpen_kCtx (s : State) (v : Word) :
    slOpen s 0 (kCtx c o) v = match ctxOwner s c with | some p => decide (partState s p < 2) | none => true := by
  have hb := kCtx_bounds hc ho
  rw [slOpen, if_neg (by omega), regOwner_kCtx hc ho]
  rfl

end

/-! Counters that latch -/

/-- The map has a register, and a read shows all of it: it has no WO field (00 R11). -/
def ReadsWhole (k : Nat) : Prop := ∃ r, regSpec k = some r ∧ r.wo = 0

theorem showReg_of_readsWhole {k : Nat} (s : State) (h : ReadsWhole k) (hk : 0x10 ≤ k) : showReg s k = getR s k := by
  obtain ⟨r, hr, hw⟩ := h
  simp only [showReg, show k ≠ 0 by omega, show k ≠ 8 by omega, show k ≠ 0xC by omega, if_false, hr, hw]
  exact BitVec.and_allOnes

theorem regSpec_core {k : Nat} (h4 : k % 4 = 0) (hl : 0x400000 ≤ k) (hh : k < 0x600000) : regSpec k = coreSpec (k % 0x1000) := by
  grind [regSpec]

theorem regSpec_cluster {k : Nat} (h4 : k % 4 = 0) (hl : 0x200000 ≤ k) (hh : k < 0x220000) : regSpec k = clusterSpec (k % 0x1000) := by
  grind [regSpec]

theorem regSpec_part {k : Nat} (h4 : k % 4 = 0) (hl : 0x100000 ≤ k) (hh : k < 0x180000) : regSpec k = partSpec (k % 0x4000) := by
  grind [regSpec]

theorem regSpec_hostCounter {k : Nat} (h4 : k % 4 = 0) (hl : 0x800 ≤ k) (hh : k < 0x868) : regSpec k = some regCount := by
  unfold regSpec devSpec
  rw [if_neg (by omega), if_pos (by omega), if_neg (by omega), if_neg (by omega), if_pos (by omega), if_neg (by omega)]

/-- The counters of a crema tap, low and high words (15 R456). -/
theorem cremaSpec_counter {o : Nat} (h : o = 0x20 ∨ o = 0x28 ∨ o = 0x30) : cremaSpec o = some regCount ∧ cremaSpec (o + 4) = some regCount := by
  rcases h with rfl | rfl | rfl <;> exact ⟨rfl, rfl⟩

theorem coreSpec_counter {o : Nat} (h : o < 0x40 ∨ 0x80 ≤ o ∧ o < 0xA0) : coreSpec o = some regCount := by
  grind [coreSpec, fourCtrSpec]

theorem coreSpec_crema {o : Nat} (hl : 0x200 ≤ o) (hh : o < 0x300) : coreSpec o = cremaSpec (o % 0x40) := by
  grind [coreSpec]

theorem clusterSpec_counter {o : Nat} (h : 0x40 ≤ o ∧ o < 0x60 ∨ 0x80 ≤ o ∧ o < 0xA0) : clusterSpec o = some regCount := by
  grind [clusterSpec, fourCtrSpec]

theorem clusterSpec_crema {o : Nat} (hl : 0x100 ≤ o) (hh : o < 0x200) : clusterSpec o = cremaSpec (o % 0x40) := by
  grind [clusterSpec]

/-- A map has the low and the high word of a counter at an offset. -/
def CounterPair (spec : Nat → Option RegSpec) (o : Nat) : Prop := o % 4 = 0 ∧ spec o = some regCount ∧ spec (o + 4) = some regCount

theorem CounterPair.readsWhole {k : Nat} (h : CounterPair regSpec k) : ReadsWhole k ∧ ReadsWhole (k + 4) :=
  ⟨⟨_, h.2.1, rfl⟩, ⟨_, h.2.2, rfl⟩⟩

theorem counterPair_host {k : Nat} (hl : 0x800 ≤ k) (hh : k < 0x868) (h8 : k % 8 = 0) : CounterPair regSpec k :=
  ⟨by omega, regSpec_hostCounter (by omega) hl hh, regSpec_hostCounter (by omega) (by omega) (by omega)⟩

/-- The low words of a core block: matrix, vector, memory counters, crema taps (03 R90, 05 R152, 08 R241, 15 R456). -/
theorem counterPair_coreBlock {o : Nat} (h : o < 0x40 ∧ o % 8 = 0 ∨ 0x80 ≤ o ∧ o < 0xA0 ∧ o % 8 = 0 ∨ o = 0x100 ∨ o = 0x108 ∨
    0x200 ≤ o ∧ o < 0x300 ∧ (o % 0x40 = 0x20 ∨ o % 0x40 = 0x28 ∨ o % 0x40 = 0x30)) : CounterPair coreSpec o := by
  rcases h with h | h | rfl | rfl | ⟨hl, hh, h⟩
  · exact ⟨by omega, coreSpec_counter (by omega), coreSpec_counter (by omega)⟩
  · exact ⟨by omega, coreSpec_counter (by omega), coreSpec_counter (by omega)⟩
  · exact ⟨rfl, rfl, rfl⟩
  · exact ⟨rfl, rfl, rfl⟩
  · have hc := cremaSpec_counter h
    exact ⟨by omega, by rw [coreSpec_crema hl hh, hc.1],
      by rw [coreSpec_crema (by omega) (by omega), show (o + 4) % 0x40 = o % 0x40 + 4 by omega, hc.2]⟩

/-- The low words of a cluster block: memory, page, gate and combine counters, crema taps (08 R241, 06 R188, 07 R211, 15 R456). -/
theorem counterPair_clusterBlock {o : Nat} (h : o = 0 ∨ o = 8 ∨ 0x40 ≤ o ∧ o < 0x60 ∧ o % 8 = 0 ∨ 0x80 ≤ o ∧ o < 0xA0 ∧ o % 8 = 0 ∨
    0x100 ≤ o ∧ o < 0x200 ∧ (o % 0x40 = 0x20 ∨ o % 0x40 = 0x28 ∨ o % 0x40 = 0x30)) : CounterPair clusterSpec o := by
  rcases h with rfl | rfl | h | h | ⟨hl, hh, h⟩
  · exact ⟨rfl, rfl, rfl⟩
  · exact ⟨rfl, rfl, rfl⟩
  · exact ⟨by omega, clusterSpec_counter (by omega), clusterSpec_counter (by omega)⟩
  · exact ⟨by omega, clusterSpec_counter (by omega), clusterSpec_counter (by omega)⟩
  · have hc := cremaSpec_counter h
    exact ⟨by omega, by rw [clusterSpec_crema hl hh, hc.1],
      by rw [clusterSpec_crema (by omega) (by omega), show (o + 4) % 0x40 = o % 0x40 + 4 by omega, hc.2]⟩

/-- The low words of a partition block: power, HBM and Span counters (16 R501, 08 R242, 09 R284). -/
theorem counterPair_partBlock {o : Nat} (h : o = 0x20C ∨ o = 0x240 ∨ o = 0x248 ∨ o = 0x2000 ∨ o = 0x2008) : CounterPair partSpec o := by
  rcases h with rfl | rfl | rfl | rfl | rfl <;> exact ⟨rfl, rfl, rfl⟩

/-- A counter of a block is one of the register space, where the block's map holds. -/
theorem CounterPair.of_block {spec : Nat → Option RegSpec} {lo hi n k : Nat} (h : CounterPair spec (k % n))
    (hs : ∀ {j}, j % 4 = 0 → lo ≤ j → j < hi → regSpec j = spec (j % n)) (h4 : k % 4 = 0) (hl : lo ≤ k) (hh : k + 4 < hi)
    (hm : (k + 4) % n = k % n + 4) : CounterPair regSpec k :=
  ⟨h4, (hs h4 hl (by omega)).trans h.2.1, by rw [hs (by omega) (by omega) hh, hm, h.2.2]⟩

/-- What latches besides DT_LO is the low word of a counter: of the host link, of a core, of a cluster or of a partition. -/
theorem counterPair_of_isCounterLo {k : Nat} (h : isCounterLo k = true) (h8 : k ≠ 8) : 0x800 ≤ k ∧ CounterPair regSpec k := by
  unfold isCounterLo at h
  rw [if_neg h8] at h
  split at h
  case isTrue host => exact ⟨host.1, counterPair_host host.1 host.2 (of_decide_eq_true h)⟩
  split at h
  case isTrue core =>
    simp only [Bool.or_eq_true, Bool.and_eq_true, decide_eq_true_eq, and_assoc, or_assoc] at h
    have hp := counterPair_coreBlock h
    exact ⟨by omega, hp.of_block regSpec_core (by have := hp.1; omega) core.1 (by omega) (by omega)⟩
  split at h
  case isTrue cluster =>
    simp only [Bool.or_eq_true, Bool.and_eq_true, decide_eq_true_eq, and_assoc, or_assoc] at h
    have hp := counterPair_clusterBlock h
    exact ⟨by omega, hp.of_block regSpec_cluster (by have := hp.1; omega) cluster.1 (by omega) (by omega)⟩
  split at h
  case isTrue part =>
    simp only [Bool.or_eq_true, decide_eq_true_eq, or_assoc] at h
    have hp := counterPair_partBlock h
    exact ⟨by omega, hp.of_block regSpec_part (by omega) part.1 (by omega) (by omega)⟩
  cases h

end Sys2Proof.Machine
end

section
/-! Effects of host accesses: bad accesses, writes by access codes, body words of a mailbox, counter reads and clears (00 R9-R11; 03 R91; 18 R519,
R531). -/

namespace Sys2Proof.Machine

/-! Bad accesses -/

theorem accErr_onlyRegs (fn : Nat) (s : State) : accErr fn s = { s with regs := (accErr fn s).regs } := rfl

theorem accErr_countedOnce (fn : Nat) (s : State) : s.countedOnce (accErrK fn) (accErr fn s) :=
  ⟨getR_inc32_self _ _ _, fun _ h => getR_inc32_ne _ _ (by simpa using h)⟩

theorem accErrK_vf {fn : Nat} (h : 1 ≤ fn) : accErrK fn = kVf fn 0x3010 := if_neg (by omega)

/-- A bad access that is counted: of a function that answers, and no mere read of a reserved offset (00 R9; 18 R519). -/
theorem doBadAccess_counted {fn : Nat} {why : BadAccess} {write : Bool} {s : State} (hf : fn = 0 ∨ vfAnswers s fn = true)
    (hw : why ≠ .reserved ∨ write = true) :
    doBadAccess fn why write s = accErr fn { s with bus := { s.bus with read := if write then s.bus.read else 0 } } := by
  have hn : ¬ (fn ≠ 0 ∧ !vfAnswers s fn) := by rcases hf with h | h <;> simp [h]
  have hr : ¬ (why = .reserved ∧ !write) := by rcases hw with h | h <;> simp [h]
  rw [doBadAccess, if_neg hn, if_neg hr]
  cases write <;> rfl

theorem doRegWrite_pf_skew {k : Nat} (v : Word) (s : State) (h : k % 4 ≠ 0) : doRegWrite 0 k v s = accErr 0 s := by
  simp [doRegWrite, target_pf_skew s h]

/-- A write of an offset where the map has no register is counted, whatever its alignment. -/
theorem doRegWrite_pf_reserved {k : Nat} (v : Word) (s : State) (h : regSpec k = none) : doRegWrite 0 k v s = accErr 0 s := by
  by_cases h4 : k % 4 = 0
  · simp [doRegWrite, target_pf_reserved s h4 h]
  · exact doRegWrite_pf_skew v s h4

theorem doRegWrite_pf_reg {k : Nat} {r : RegSpec} {s : State} (v : Word) (h : regSpec k = some r) (hr : s.pfReaches k) :
    doRegWrite 0 k v s = writeReg 0 k v s := by
  obtain ⟨ha, hm, hu⟩ := hr
  simp [doRegWrite, target_pf_reg s h, ha, hm, hu]

theorem doCounterRead_pf_skew {k : Nat} (s : State) (h : k % 4 ≠ 0) :
    doCounterRead 0 k s = accErr 0 { s with bus := { s.bus with read := 0 } } := by
  have hr : readVia s 0 k = none := by simp [readVia, target_pf_skew s h]
  rw [doCounterRead, hr]
  exact if_pos (target_pf_skew _ h)

/-! Access codes -/

theorem badField_of_inRange {r : RegSpec} {v : Word} (m : Nat) (h : ∀ x ∈ r.rng, x.2.2.1 ≤ fld v x.1 x.2.1 ∧ fld v x.1 x.2.1 ≤ x.2.2.2) :
    badField r m v = false := by
  simp only [badField, List.any_eq_false]
  intro x hx
  obtain ⟨hlo, hhi⟩ := h x hx
  simp [Nat.not_lt.2 hlo, Nat.not_lt.2 hhi]

/-- Bit `i` after a write: set where the mask allows it, cleared where it is W1C and written 1. -/
theorem applyWrite_getLsbD (r : RegSpec) (m : Nat) (old v : Word) {i : Nat} (hi : i < 32) :
    (applyWrite r m old v).getLsbD i =
      ((if m.testBit i then v.getLsbD i else old.getLsbD i) && !(v.getLsbD i && r.w1c.testBit i)) := by
  simp only [applyWrite, BitVec.getLsbD_and, BitVec.getLsbD_or, BitVec.getLsbD_not, BitVec.getLsbD_ofNat, hi, decide_true, Bool.true_and]
  cases m.testBit i <;> simp

/-- A write by access codes where no bit is both W1C and settable, bit by bit (00 R11). -/
theorem applyWrite_settable_getLsbD {r : RegSpec} (hd : (r.rw ||| r.sl) &&& r.w1c = 0) (openSl : Bool) (old v : Word) {i : Nat} (hi : i < 32) :
    (applyWrite r (r.rw ||| if openSl then r.sl else 0) old v).getLsbD i =
      if r.rw.testBit i || (openSl && r.sl.testBit i) then v.getLsbD i
      else if r.w1c.testBit i then old.getLsbD i && !v.getLsbD i
      else old.getLsbD i := by
  have hm : (r.rw ||| if openSl then r.sl else 0).testBit i = (r.rw.testBit i || (openSl && r.sl.testBit i)) := by cases openSl <;> simp
  rw [applyWrite_getLsbD _ _ _ _ hi, hm]
  by_cases hset : (r.rw.testBit i || (openSl && r.sl.testBit i)) = true
  · have hor : (r.rw ||| r.sl).testBit i = true := by rw [Nat.testBit_or]; grind
    have hw : r.w1c.testBit i = false := by simpa [Nat.testBit_and, hor] using congrArg (Nat.testBit · i) hd
    simp [hset, hw]
  · cases hw : r.w1c.testBit i <;> simp [hset]

theorem plainWrite_pf_inRange {k : Nat} {r : RegSpec} {v : Word} {s : State} (hr : regSpec k = some r)
    (h : ∀ x ∈ r.rng, x.2.2.1 ≤ fld v x.1 x.2.1 ∧ fld v x.1 x.2.1 ≤ x.2.2.2) :
    plainWrite 0 k v s = setR k (applyWrite r (r.rw ||| if slOpen s 0 k v then r.sl else 0) (getR s k) v) s := by
  simp [plainWrite, hr, badField_of_inRange _ h]

theorem plainWrite_badField {fn k : Nat} {r : RegSpec} {v : Word} {s : State} (hr : regSpec k = some r) (h : badField r r.rw v = true) :
    plainWrite fn k v s = accErr fn s := by
  obtain ⟨x, hx, h⟩ := List.any_eq_true.1 h
  rw [Bool.and_eq_true] at h
  have hb : badField r (r.rw ||| if slOpen s fn k v then r.sl else 0) v = true :=
    List.any_eq_true.2 ⟨x, hx, by rw [Bool.and_eq_true]; exact ⟨by simp [h.1], h.2⟩⟩
  simp [plainWrite, hr, hb]

/-- The context registers that a write reaches by its access codes alone (18 R528): no ring, reset or breakpoint control. -/
def plainCtxRegs : List Nat :=
  [0x40, 0x44, 0x48, 0x4C, 0x50, 0x54, 0x60, 0x64, 0x68, 0x6C, 0x70, 0x74, 0x78, 0x7C, 0x80, 0x84, 0x90, 0x94, 0x98, 0x9C,
    0xA4, 0xA8, 0xAC, 0xB0, 0xB4, 0xB8, 0xBC, 0xC0, 0xC4, 0xD0, 0xF4, 0xF8]

theorem plainCtxRegs_offset : ∀ o ∈ plainCtxRegs, o < 256 ∧ o % 4 = 0 := by decide

theorem plainCtxRegs_masks_disjoint : ∀ o ∈ plainCtxRegs, ∀ r ∈ ctxSpec o, (r.rw ||| r.sl) &&& r.w1c = 0 := by decide

theorem writeCtx_plain {o : Nat} (fn c : Nat) (v : Word) (s : State) (ho : o ∈ plainCtxRegs) :
    writeCtx fn c o v s = plainWrite fn (kCtx c o) v s := by
  have hn : ∀ o ∈ plainCtxRegs, o ∉ [0x00, 0x04, 0x08, 0x10, 0x14, 0x18, 0x2C, 0xEC, 0xF0] := by decide
  simp only [List.mem_cons, List.not_mem_nil, or_false, not_or] at hn
  simp [writeCtx, hn o ho]

/-- A write through the PF of a context register without side effects is a write by its access codes. -/
theorem doRegWrite_pf_ctx {c o : Nat} {r : RegSpec} {s : State} (v : Word) (hc : c < 1024) (ho : o ∈ plainCtxRegs) (hr : ctxSpec o = some r)
    (hq : ∀ p, ctxOwner s c = some p → conf s p < 2) :
    regSpec (kCtx c o) = some r ∧ doRegWrite 0 (kCtx c o) v s = plainWrite 0 (kCtx c o) v s := by
  obtain ⟨ho', h4⟩ := plainCtxRegs_offset o ho
  have hs : regSpec (kCtx c o) = some r := (regSpec_kCtx hc ho' h4).trans hr
  exact ⟨hs, by rw [doRegWrite_pf_reg v hs (pfReaches_kCtx hc ho' hq), writeReg_kCtx hc ho', writeCtx_plain _ _ _ _ ho]⟩

/-! Body words of a mailbox -/

theorem listGet_eq_getD {α : Type} (d : α) (l : List α) (n : Nat) : listGet d l n = l.getD n d := by
  induction l generalizing n with
  | nil => rfl
  | cons x r ih => cases n with
    | zero => rfl
    | succ n => simpa [listGet] using ih n

theorem listGet_leBytes {n i : Nat} (x : Nat) (h : i < n) : listGet 0 (leBytes n x) i = BitVec.ofNat 8 (x / 2 ^ (8 * i)) := by
  induction n generalizing x i with
  | zero => omega
  | succ n ih => cases i with
    | zero => simp [leBytes, listGet]
    | succ i =>
      have hp : 2 ^ (8 * (i + 1)) = 256 * 2 ^ (8 * i) := by rw [Nat.mul_add, Nat.pow_add, Nat.mul_comm]
      rw [leBytes, listGet, ih _ (by omega), Nat.div_div_eq_div_mul, hp]

/-- A byte list, lengthened with zeros where it is too short, with a word at offset `o` (18 R531). -/
def putWord (b : List Byte) (o : Nat) (v : Word) : List Byte :=
  let b := b ++ List.replicate (o + 4 - b.length) 0
  b.take o ++ leBytes 4 v.toNat ++ b.drop (o + 4)

theorem putWord_ne_nil (b : List Byte) (o : Nat) (v : Word) : putWord b o v ≠ [] := by simp [putWord, leBytes]

theorem listGet_append_zeros (b : List Byte) (n j : Nat) : listGet 0 (b ++ List.replicate n 0) j = listGet 0 b j := by
  simp only [listGet_eq_getD, List.getD_eq_getElem?_getD]
  by_cases hj : j < b.length
  · rw [List.getElem?_append_left hj]
  · rw [List.getElem?_append_right (by omega), List.getElem?_replicate, List.getElem?_eq_none (l := b) (by omega)]
    split <;> rfl

/-- A body reads, byte by byte, as the word where it was stored and elsewhere as before. -/
theorem listGet_putWord (b : List Byte) (o : Nat) (v : Word) (j : Nat) : listGet 0 (putWord b o v) j =
    if o ≤ j ∧ j < o + 4 then BitVec.ofNat 8 (v.toNat / 2 ^ (8 * (j - o))) else listGet 0 b j := by
  rw [← listGet_append_zeros b (o + 4 - b.length) j, putWord]
  have hlen : o + 4 ≤ (b ++ List.replicate (o + 4 - b.length) (0 : Byte)).length := by simp; omega
  generalize b ++ List.replicate (o + 4 - b.length) (0 : Byte) = b' at hlen ⊢
  have htake : (b'.take o).length = o := by simp; omega
  have hw := length_leBytes 4 v.toNat
  simp only [listGet_eq_getD, List.getD_eq_getElem?_getD]
  rw [List.append_assoc]
  by_cases hlo : j < o
  · rw [if_neg (by omega), List.getElem?_append_left (by omega), List.getElem?_take_of_lt hlo]
  rw [List.getElem?_append_right (by omega), htake]
  by_cases hhi : j < o + 4
  · rw [if_pos ⟨by omega, hhi⟩, List.getElem?_append_left (by omega), ← List.getD_eq_getElem?_getD, ← listGet_eq_getD,
      listGet_leBytes _ (by omega)]
  · rw [if_neg (by omega), List.getElem?_append_right (by omega), List.getElem?_drop, hw, show o + 4 + (j - o - 4) = j by omega]

/-- A body word of a mailbox that has no request with the RTP is stored (18 R531, R533). -/
theorem doMbWrite_pf_body {i : Nat} {s : State} (v : Word) (hi : i < 15424) (hb : mbBusy s 0 = false) :
    doMbWrite 0 (0xF00 + 4 * i) v s = { s with sec := { s.sec with
      bodies := tabPut (fun _ x => x == []) 0 (putWord ((tabFind 0 s.sec.bodies).getD []) (4 * i) v) s.sec.bodies } } := by
  rw [doMbWrite, if_neg (by simp), if_neg (by omega), if_neg (by omega), if_neg (by omega), if_neg (by omega), if_neg (by omega),
    if_neg (by omega), if_neg (by simp [hb]), Nat.add_sub_cancel_left]
  rfl

theorem tabFind_tabPut_putWord (k : Nat) (b : List Byte) (o : Nat) (v : Word) (t : List (Nat × List Byte)) :
    tabFind k (tabPut (fun _ x => x == []) k (putWord b o v) t) = some (putWord b o v) := by
  simp [tabFind_tabPut_self, putWord_ne_nil]

/-! Counter reads -/

theorem readVia_pf_reg {k : Nat} {s : State} (h : ReadsWhole k) (hr : s.pfReaches k) : readVia s 0 k = some k := by
  obtain ⟨r, hs, -⟩ := h
  obtain ⟨ha, hm, hu⟩ := hr
  simp [readVia, target_pf_reg s hs, ha, hm, hu]

theorem tabFind_latched (k : Nat) (v : Word) (t : List (Nat × Word)) : tabFind k (tabPut (fun _ _ => false) k v t) = some v :=
  tabFind_tabPut_self _ k v t

theorem pfReaches_dtLo (s : State) : s.pfReaches 8 := by
  refine ⟨?_, rfl, ?_⟩
  · simp [regAbsent, regPart, kPart]
  · simp [regUnready, regCluster, kCore, kCl]

theorem readsWhole_counterHigh {k : Nat} (h : isCounterLo (k - 4) = true) : ReadsWhole k := by
  by_cases h8 : k - 4 = 8
  · obtain rfl : k = 0xC := by omega
    exact ⟨regRO, rfl, rfl⟩
  · obtain ⟨hk, hp⟩ := counterPair_of_isCounterLo h h8
    have hw := hp.readsWhole.2
    rwa [Nat.sub_add_cancel (by omega)] at hw

/-- The low word of a counter is answered and its high word latched (03 R91). -/
theorem doCounterRead_pf_low {k : Nat} {s : State} (hc : isCounterLo k = true) (hk : readVia s 0 k = some k) :
    doCounterRead 0 k s =
      { s with bus := { s.bus with read := showReg s k }, latch := tabPut (fun _ _ => false) (k + 4) (showReg s (k + 4)) s.latch } := by
  simp [doCounterRead, hk, hc, latchKey]

/-- The high word of a counter is answered as it was latched (03 R91). -/
theorem doCounterRead_pf_high {k : Nat} {s : State} {w : Word} (hc : isCounterLo (k - 4) = true) (hn : isCounterLo k = false)
    (hw : tabFind k s.latch = some w) (hk : readVia s 0 k = some k) :
    doCounterRead 0 k s = { s with bus := { s.bus with read := w } } := by
  have h4 : 4 ≤ k := by
    by_cases h : 4 ≤ k
    · exact h
    · rw [show k - 4 = 0 by omega] at hc
      exact absurd hc (by decide)
  have hl : latchOf s 0 k = some w := by simp [latchOf, hc, latchKey, Nat.sub_add_cancel h4, hw]
  simp [doCounterRead, hk, hn, hl]

/-! Clears -/

theorem zeroRegs_onlyRegs (ks : List Nat) (s : State) : zeroRegs ks s = { s with regs := (zeroRegs ks s).regs } :=
  (RO.each ks _ s fun _ _ => RO.setR).eq

theorem getR_zeroRegs_mem {ks : List Nat} {k : Nat} (s : State) (h : k ∈ ks) : getR (zeroRegs ks s) k = 0 := by
  refine each_at (fun u => getR u k = 0) ks _ s k h (fun u => getR_setR_self k 0 u) fun j _ u hu => ?_
  rw [getR_setR, hu, ite_self]

theorem getR_zeroRegs_not_mem {ks : List Nat} {k : Nat} (s : State) (h : k ∉ ks) : getR (zeroRegs ks s) k = getR s k :=
  each_getR_other ks _ s k fun _ hj _ => getR_setR_ne _ _ fun e => h (e ▸ hj)

theorem clearVia_reached {k : Nat} {f : State → State} {s : State} (h : s.pfReaches k) : clearVia k f s = f s := by
  obtain ⟨ha, hm, hu⟩ := h
  simp [clearVia, ha, hm, hu]

/-- A command that zeroes registers when its clear register can be reached. -/
theorem clearedBy_of_clearVia {i : Instr} {k : Nat} {ks : List Nat} {s : State} (h : s.pfReaches k)
    (he : exec i s = .next (clearVia k (zeroRegs ks) s)) : s.clearedBy i ks :=
  ⟨zeroRegs ks s, by rw [he, clearVia_reached h], zeroRegs_onlyRegs ks s, fun _ hk => getR_zeroRegs_mem s hk,
    fun _ hk => getR_zeroRegs_not_mem s hk⟩

/-- A command that zeroes one register. -/
theorem clearedBy_of_setR {i : Instr} {k : Nat} {s : State} (he : exec i s = .next (setR k 0 s)) : s.clearedBy i [k] :=
  ⟨setR k 0 s, he, rfl, by simp, fun _ hj => getR_setR_ne _ _ (by simpa using hj)⟩

/-- A command that zeroes the `n` counters from `j` when its clear register can be reached. -/
theorem clearedBy_counters {i : Instr} {k j n : Nat} {f : Nat → Nat} {s : State} (h : s.pfReaches k) (hf : ∀ i, j + 4 * i = f i)
    (he : exec i s = .next (clearVia k (zeroRegs (regsFrom j n)) s)) : s.clearedBy i ((rangeFrom 0 n).map f) := by
  have hks : regsFrom j n = (rangeFrom 0 n).map f := List.map_congr_left fun i _ => hf i
  exact clearedBy_of_clearVia h (hks ▸ he)

end Sys2Proof.Machine
end

section
/-! The scope statements: the state after reset, register writes, counters and bad accesses. -/

namespace Sys2Proof.Machine

theorem wf_reset_regs : Regs.wf State.reset.regs = true := by
  have hp : regIsReset 0x110 3500 = false := by decide
  exact (tabWf_cons regIsReset 0x110 3500 []).2 ⟨hp, by simp, rfl⟩

/-- Settles O2: no byte is listed, the one register listed, PCAP, differs from its reset value, and the AO phase is 0. -/
theorem resetIsSound : Obligations.ResetIsSound :=
  ⟨rfl, wf_reset_regs, Nat.zero_lt_succ 11⟩

/-! Register writes -/

theorem exec_regWrite_pf (ide : Bool) (off : BitVec 26) (v : Word) (s : State) :
    exec (.regWrite ⟨0, ide⟩ false off v) s = .next (doRegWrite 0 off.toNat v s) := rfl

theorem exec_regWrite_pf_mailbox (ide : Bool) (off : BitVec 26) (v : Word) (s : State) :
    exec (.regWrite ⟨0, ide⟩ true off v) s = .next (doMbWrite 0 off.toNat v s) := rfl

/-- A command that only counts a bad access of the PF. -/
theorem pf_counted {i : Instr} {s : State} (he : exec i s = .next (accErr 0 s)) :
    ∃ t, exec i s = .next t ∧ t = { s with regs := t.regs } ∧ getR t 0x10 = sat32Add (getR s 0x10) 1 ∧ s.regsBut [0x10] t :=
  ⟨accErr 0 s, he, accErr_onlyRegs 0 s, accErr_countedOnce 0 s⟩

/-- Settles O13: a context register of the list is written by its access codes (`doRegWrite_pf_ctx`), bit by bit as `applyWrite_settable_getLsbD`
says; a bad value or offset only counts; a body word changes the four bytes that `listGet_putWord` names. -/
theorem registerWrites : Obligations.RegisterWrites := by
  refine ⟨?accessCodes, ?gateEncoding, ?reservedOffset, ?bodyWord⟩
  case accessCodes =>
    intro c o v ide s r off hoff hr ho hq open_ hrng
    obtain ⟨hs, hw⟩ := doRegWrite_pf_ctx v c.isLt ho hr hq
    have hd := plainCtxRegs_masks_disjoint o ho r hr
    have hopen : slOpen s 0 (kCtx c.toNat o) v = open_ := slOpen_kCtx c.isLt (plainCtxRegs_offset o ho).1 s v
    refine ⟨_, by rw [exec_regWrite_pf, hoff, hw, plainWrite_pf_inRange hs hrng], rfl, fun i hi => ?_, fun k hk => ?_⟩
    · rw [getR_setR_self, hopen, applyWrite_settable_getLsbD hd open_ _ v hi]
    · exact getR_setR_ne _ _ (by simpa using hk)
  case gateEncoding =>
    intro c v ide s off hoff hv hq
    obtain ⟨hs, hw⟩ := doRegWrite_pf_ctx (o := 0x98) v c.isLt (by decide) rfl hq
    have hbad : badField { rw := 0x1FF, rng := [(8, 0, 0, 256)] } 0x1FF v = true := by simpa [badField] using hv
    exact pf_counted (by rw [exec_regWrite_pf, hoff, hw, plainWrite_badField hs hbad])
  case reservedOffset =>
    intro off v ide s hk
    exact pf_counted (by rw [exec_regWrite_pf, doRegWrite_pf_reserved v s hk])
  case bodyWord =>
    intro i v ide s off hi hoff hb
    refine ⟨_, by rw [exec_regWrite_pf_mailbox, hoff, doMbWrite_pf_body v hi hb], rfl, fun f hf => ?_, fun j => ?_⟩
    · exact tabFind_tabPut_ne (fun _ x => x == []) _ hf _
    · rw [tabFind_tabPut_putWord]; exact listGet_putWord _ _ v j

/-! Counters and bad accesses -/

/-- A bad access leaves the word read and one count, of the function that made it. -/
theorem exec_barBadAccess_counted {fn : BitVec 6} {why : BadAccess} {write : Bool} {s : State} (hf : fn.toNat = 0 ∨ vfAnswers s fn.toNat = true)
    (hw : why ≠ .reserved ∨ write = true) : ∃ t, exec (.barBadAccess fn why write) s = .next t ∧
      t = { s with regs := t.regs, bus := { s.bus with read := if write then s.bus.read else 0 } } ∧ s.countedOnce (accErrK fn.toNat) t :=
  ⟨_, congrArg Host.Outcome.next (doBadAccess_counted hf hw), rfl, accErr_countedOnce _ { s with bus := _ }⟩

theorem exec_counterLowRead_pf (ide : Bool) (off : BitVec 26) (s : State) :
    exec (.counterLowRead ⟨0, ide⟩ off) s = .next (doCounterRead 0 off.toNat s) := rfl

theorem exec_counterLowRead_skew (ide : Bool) {off : BitVec 26} (s : State) (h : off.toNat % 4 ≠ 0) :
    ∃ t, exec (.counterLowRead ⟨0, ide⟩ off) s = .next t ∧ t = { s with regs := t.regs, bus := { s.bus with read := 0 } } ∧
      getR t 0x10 = sat32Add (getR s 0x10) 1 ∧ s.regsBut [0x10] t :=
  ⟨_, congrArg Host.Outcome.next (doCounterRead_pf_skew s h), rfl, accErr_countedOnce 0 { s with bus := _ }⟩

/-- Settles O14: a bad access is one count of its function (`accErr_countedOnce`), a counter read answers and latches two words of one counter
(`counterPair_of_isCounterLo`), and a clear that is reached zeroes a list of registers (`clearedBy_counters`). -/
theorem countersAndBadAccesses : Obligations.CountersAndBadAccesses := by
  refine ⟨⟨?badPf, ?badVf, ?skew, ?low, ?high, ?dtime⟩, fun s =>
    ⟨fun n hr => ?mx, fun n hr => ?vx, fun c hr => ?pg, fun c hr => ?gx, fun n hr => ?memCore, fun n _ hr => ?memCl, fun p hr => ?spn,
      fun hr => ?gc, fun ch hr => ?rdc, ?fnErr, fun v ide hv hp hs => ?vfErr⟩⟩
  case badPf => exact fun why write s hw => exec_barBadAccess_counted (.inl rfl) hw
  case badVf =>
    intro v why write s hv hp hw
    rw [← accErrK_vf hv]
    exact exec_barBadAccess_counted (.inr (by simpa [vfAnswers] using hp)) hw
  case skew =>
    intro off val ide s h
    exact ⟨exec_counterLowRead_skew ide s h, pf_counted (by rw [exec_regWrite_pf, doRegWrite_pf_skew val s h])⟩
  case low =>
    intro off ide s hc h8 ha hm hu
    obtain ⟨hk, hp⟩ := counterPair_of_isCounterLo hc h8
    obtain ⟨hlo, hhi⟩ := hp.readsWhole
    have hv := readVia_pf_reg hlo ⟨ha, hm, hu⟩
    rw [exec_counterLowRead_pf, doCounterRead_pf_low hc hv, showReg_of_readsWhole s hlo (by omega), showReg_of_readsWhole s hhi (by omega)]
    exact ⟨_, rfl, rfl, tabFind_latched _ _ _, fun k hk => tabFind_tabPut_ne (fun _ _ => false) _ hk _⟩
  case high =>
    intro off ide s w hc hn hw ha hm hu
    have hv := readVia_pf_reg (readsWhole_counterHigh hc) ⟨ha, hm, hu⟩
    rw [exec_counterLowRead_pf, doCounterRead_pf_high hc hn hw hv]
  case dtime =>
    intro ide s
    have hv : readVia s 0 8 = some 8 := readVia_pf_reg ⟨regRO, rfl, rfl⟩ (pfReaches_dtLo s)
    exact ⟨_, congrArg Host.Outcome.next (doCounterRead_pf_low rfl hv), rfl, tabFind_latched 0xC _ _⟩
  case mx => exact clearedBy_counters hr (fun _ => rfl) rfl
  case vx => exact clearedBy_counters hr (fun _ => Nat.add_assoc _ _ _) rfl
  case pg => exact clearedBy_counters hr (fun _ => Nat.add_assoc _ _ _) rfl
  case gx => exact clearedBy_counters hr (fun _ => Nat.add_assoc _ _ _) rfl
  case memCore => exact clearedBy_counters hr (fun _ => Nat.add_assoc _ _ _) rfl
  case memCl => exact clearedBy_counters hr (fun _ => rfl) rfl
  case spn => exact clearedBy_counters hr (fun _ => Nat.add_assoc _ _ _) rfl
  case gc => exact clearedBy_of_clearVia hr rfl
  case rdc => exact clearedBy_of_clearVia hr rfl
  case fnErr => exact clearedBy_of_setR rfl
  case vfErr =>
    have hx : execVfAccerrClr ⟨v, ide⟩ s = .next (setR (kVf v.toNat 0x3010) 0 s) := by simp [execVfAccerrClr, vfAnswers, hp, hs]
    exact clearedBy_of_setR hx

end Sys2Proof.Machine
end

section
/-! Engine work over lists, checked fields of a decoded command, and numbered lists. -/

namespace Sys2Proof.Machine

/-- A command that decodes meets none of the conditions that its codes list. -/
theorem codeClear_of_firstCode {l : List (Nat × Bool)} (h : firstCode l = none) {x : Nat × Bool} (hx : x ∈ l) : x.2 = false := by
  rw [firstCode, Option.map_eq_none_iff, List.find?_eq_none] at h
  exact Bool.eq_false_iff.2 (h x hx)

theorem firstCode_none_of_clear {l : List (Nat × Bool)} (h : ∀ x ∈ l, x.2 = false) : firstCode l = none := by
  rw [firstCode, Option.map_eq_none_iff, List.find?_eq_none]
  exact fun x hx => by simp [h x hx]

/-- A list numbered from `a`: each element stands with its place. -/
theorem mem_numbered {α : Type} {l : List α} {a j : Nat} {x : α} (h : (j, x) ∈ (rangeFrom a l.length).zip l) : a ≤ j ∧ l[j - a]? = some x := by
  induction l generalizing a with
  | nil => cases h
  | cons y r ih =>
    rcases List.mem_cons.1 h with e | h
    · obtain ⟨rfl, rfl⟩ := Prod.mk.inj e
      simp
    · obtain ⟨hle, hget⟩ := ih h
      refine ⟨by omega, ?_⟩
      rw [show j - a = j - (a + 1) + 1 by omega, List.getElem?_cons_succ, hget]

theorem lt_of_mem_numbered {α : Type} {l : List α} {j : Nat} {x : α} (h : (j, x) ∈ (rangeFrom 0 l.length).zip l) : j < l.length :=
  (List.getElem?_eq_some_iff.1 (mem_numbered h).2).1

/-- What is collected stands in the order of the elements it was collected for. -/
theorem Does.gatherZip {α β : Type} {s0 : State} {K : List Nat} (l : List α) (f : α → Eng β) (Q : α → β → Prop)
    (h : ∀ x ∈ l, Does s0 K (f x) (Q x)) : Does s0 K (Sys2Proof.Machine.gatherM l f) fun ys => ∀ x y, (x, y) ∈ l.zip ys → Q x y := by
  induction l with
  | nil => exact Does.pure [] fun _ _ h => nomatch h
  | cons x r ih =>
    refine Does.bind (h x (List.mem_cons_self ..)) fun y hy => Does.bind (ih fun z hz => h z (List.mem_cons_of_mem _ hz)) fun ys hys =>
      Does.pure _ fun x' y' hm => ?_
    rcases List.mem_cons.1 hm with e | hm
    · obtain ⟨rfl, rfl⟩ := Prod.mk.inj e
      exact hy
    · exact hys x' y' hm

theorem whoFeed_ok_of_lt (s : State) {n : Nat} (ctx : Nat) (hn : n < 512) : (whoFeed s n ctx).ok := whoFeed_ok s (BitVec.ofNatLT n hn) ctx

theorem whoDrain_ok_of_lt (s : State) {n : Nat} (ctx : Nat) (hn : n < 512) : (whoDrain s n ctx).ok := whoDrain_ok s (BitVec.ofNatLT n hn) ctx

theorem Does.lookFeed {s0 : State} {K : List Nat} (n : Nat) {ctx : Nat} (hc : ctx < 1024) :
    Does s0 K (Sys2Proof.Machine.look fun s => whoFeed s n ctx) fun w => w = whoFeed s0 n ctx :=
  Does.lookWho whoFeed n ctx hc fun s t e => by simp [whoFeed, e]

theorem Does.lookDrain {s0 : State} {K : List Nat} (n : Nat) {ctx : Nat} (hc : ctx < 1024) :
    Does s0 K (Sys2Proof.Machine.look fun s => whoDrain s n ctx) fun w => w = whoDrain s0 n ctx :=
  Does.lookWho whoDrain n ctx hc fun s t e => by simp [whoDrain, e]

end Sys2Proof.Machine
end

section
/-! The group of a matrix command: its cores, its arrays and the columns each holds (03 R66). -/

namespace Sys2Proof.Machine

/-- The arrays of one core that a matrix command uses. -/
def Mx.arraysOf (c : Mx) (n : Nat) : List (Nat × Nat) := ((rangeFrom 0 2).filter fun a => c.arrs.testBit a).map fun a => (n, a)

theorem Mx.arrays_eq (c : Mx) : c.arrays = c.arraysOf c.core ++ if c.gang then c.arraysOf (c.core + 1) else [] := rfl

theorem Mx.mem_arraysOf {c : Mx} {n n' a : Nat} (h : (n', a) ∈ c.arraysOf n) : n' = n ∧ a < 2 := by
  obtain ⟨a', ha, e⟩ := List.mem_map.1 h
  obtain ⟨rfl, rfl⟩ := Prod.mk.inj e
  have := mem_rangeFrom.1 (List.mem_filter.1 ha).1
  exact ⟨rfl, by omega⟩

/-- What a gang adds to the group belongs to the next core (03 R66). -/
theorem Mx.mem_gangArrays {c : Mx} {n a : Nat} (h : (n, a) ∈ if c.gang then c.arraysOf (c.core + 1) else []) :
    c.gang = true ∧ n = c.core + 1 ∧ a < 2 := by
  split at h
  case isTrue hg => exact ⟨hg, Mx.mem_arraysOf h⟩
  case isFalse => cases h

/-- The arrays on the issuing core are the first of the group. -/
theorem Mx.filter_arrays_core (c : Mx) : (c.arrays.filter fun x => x.1 == c.core) = c.arraysOf c.core := by
  rw [Mx.arrays_eq, List.filter_append, List.filter_eq_self.2 fun x hx => by simp [(Mx.mem_arraysOf hx).1],
    List.filter_eq_nil_iff.2 fun x hx => by simp [(Mx.mem_gangArrays hx).2.1], List.append_nil]

theorem Mx.colsOn_core (c : Mx) : c.colsOn c.core = min c.n ((c.arraysOf c.core).length * c.w) := by
  rw [← Mx.filter_arrays_core]
  exact if_pos rfl

theorem Mx.colsOn_other {c : Mx} {n : Nat} (h : n ≠ c.core) : c.colsOn n = c.n - (c.arraysOf c.core).length * c.w := by
  rw [← Mx.filter_arrays_core]
  exact if_neg h

/-- An array of the group belongs to the issuing core, or comes after that core's own. -/
theorem Mx.place_cases {c : Mx} {j n a : Nat} (h : (j, n, a) ∈ c.places) :
    n = c.core ∧ j < (c.arraysOf c.core).length ∨ n ≠ c.core ∧ (c.arraysOf c.core).length ≤ j := by
  have hget := (mem_numbered h).2
  rw [Nat.sub_zero, Mx.arrays_eq] at hget
  by_cases hj : j < (c.arraysOf c.core).length
  · rw [List.getElem?_append_left hj] at hget
    exact .inl ⟨(Mx.mem_arraysOf (List.mem_of_getElem? hget)).1, hj⟩
  · rw [List.getElem?_append_right (by omega)] at hget
    obtain ⟨-, rfl, -⟩ := Mx.mem_gangArrays (List.mem_of_getElem? hget)
    exact .inr ⟨by omega, by omega⟩

/-- Each real column of an array is one of the columns that its core holds (03 R66, R77). -/
theorem Mx.column_lt_colsOn {c : Mx} {j n a i : Nat} (h : (j, n, a) ∈ c.places) (hi : i < c.colsAt j) :
    (j - if n = c.core then 0 else (c.arraysOf c.core).length) * c.w + i < c.colsOn n := by
  unfold Mx.colsAt at hi
  rcases Mx.place_cases h with ⟨rfl, hj⟩ | ⟨hn, hj⟩
  · rw [if_pos rfl, Nat.sub_zero, Mx.colsOn_core]
    have hstep : (j + 1) * c.w ≤ (c.arraysOf c.core).length * c.w := Nat.mul_le_mul_right _ hj
    rw [Nat.add_mul, Nat.one_mul] at hstep
    omega
  · rw [if_neg hn, Mx.colsOn_other hn, Nat.sub_mul]
    have := Nat.mul_le_mul_right c.w hj
    omega

/-- The cores of a matrix command's group exist. -/
def Mx.Seated (c : Mx) : Prop := c.core < 512 ∧ (c.gang = true → c.core + 1 < 512)

/-- The group of a command that decodes exists: a gang begins at an even core (03 R86, code 0x09). -/
theorem Mx.seated_of_decoded {c : Mx} {p : Pay} (hc : c.core < 512) (h : firstCode (mxCodes c p) = none) : c.Seated := by
  refine ⟨hc, fun hg => ?_⟩
  have hcode : (0x09, c.gang && (c.core % 2 == 1 || c.arrs != 3)) ∈ mxCodes c p := by simp [mxCodes]
  have heven : c.core % 2 ≠ 1 := by
    have := codeClear_of_firstCode h hcode
    simp only [hg, Bool.true_and, Bool.or_eq_false_iff, beq_eq_false_iff_ne] at this
    exact this.1
  omega

theorem Mx.Seated.array {c : Mx} {n a : Nat} (h : c.Seated) (hm : (n, a) ∈ c.arrays) : n < 512 ∧ a < 2 := by
  rw [Mx.arrays_eq, List.mem_append] at hm
  rcases hm with hm | hm
  · obtain ⟨rfl, ha⟩ := Mx.mem_arraysOf hm
    exact ⟨h.1, ha⟩
  · obtain ⟨hg, rfl, ha⟩ := Mx.mem_gangArrays hm
    exact ⟨h.2 hg, ha⟩

theorem Mx.array_of_place {c : Mx} {j n a : Nat} (h : (j, n, a) ∈ c.places) : (n, a) ∈ c.arrays := (List.of_mem_zip h).2

end Sys2Proof.Machine
end

section
/-! The work of the matrix engine (03 R77-R86, 04 R112): reads, results, counters. -/

namespace Sys2Proof.Machine

/-! What the accesses of a problem are, one kind at a time -/

section
variable {s : State} {ctx : Nat} {c : Mx} {q : Prob} {b : Nat} (h : s.mayProb ctx c q b)
include h

theorem State.mayProb.plainRows (hg : c.grind = none) :
    s.mayReadRows (whoFeed s c.core ctx) (b + q.a) c.astr q.m (rowBytes c.afmt c.k) ∧
    s.mayReadRows (whoFeed s c.core ctx) (b + q.sa) c.asstr q.m (scaleBytes c.alay c.k) := by
  have hrows := h.1
  simpa only [hg] using hrows

theorem State.mayProb.grindRows {g : GrSlot} (hg : c.grind = some g) :
    s.mayReadRows (whoFeed s c.core ctx) (b + q.a) c.astr q.m (rowBytes g.ifmt c.k) ∧
    (g.smooth = true → s.mayRead (whoFeed s c.core ctx) (b + g.table) (4 * c.k)) := by
  have hrows := h.1
  simpa only [hg] using hrows

end

/-- The bytes an array's rows are written to are among its problem's. -/
theorem rowKeys_mem_probKeys {s : State} {ctx : Nat} {c : Mx} {q : Prob} {j n a ba i k : Nat} (hp : (j, n, a) ∈ c.places)
    (hs : shareOf s (whoDrain s n ctx) (accBase n a) accSize = some ba) (hi : i < q.m)
    (hk : k ∈ keysOf s (ctxPid s ctx) (ba + q.accb * 1024 + i * (4 * c.w)) (4 * c.colsAt j)) : k ∈ probKeys s ctx c q := by
  refine List.mem_flatMap.2 ⟨_, hp, ?_⟩
  dsimp only
  rw [hs]
  exact List.mem_flatMap.2 ⟨i, mem_rangeFrom.2 ⟨by omega, by omega⟩, hk⟩

/-! Counters and status -/

section
variable {K : List Nat} {c : Mx}

theorem Worked.setSticky (k : Nat) (v : Bool) (s : State) : Worked K s (Sys2Proof.Machine.setSticky k v s) := Worked.eng _ rfl

theorem Worked.countBusy (hc : c.Seated) (strict : Bool) (mpad wait : Nat) (s : State) : Worked K s (countBusy c strict mpad wait s) := by
  refine Worked.trans (Worked.trans (Worked.each _ _ _ fun (n, a) hm u => ?_) Worked.bumpFree) Worked.bumpFree
  obtain ⟨hn, ha⟩ := hc.array hm
  have hcount : ∀ o v t, o + 4 < 0x40 → Worked K t (Sys2Proof.Machine.inc64 (kCore n (0x20 * a) + o) v t) := fun o v t ho => by
    have hk : kCore n (0x20 * a) + o = kCore n (0x20 * a + o) := Nat.add_assoc _ _ _
    rw [hk]
    exact Worked.inc64 v (work_core n _ hn (by omega)) (work_core n (0x20 * a + o + 4) hn (by omega))
  exact (((hcount 0 _ _ (by omega)).trans (hcount 8 _ _ (by omega))).trans (hcount 16 _ _ (by omega))).trans (hcount 24 _ _ (by omega))

/-- MX_STATUS is a register the engine shows itself in (03 R90). -/
theorem Worked.showMx (hc : c.Seated) (ctx : Nat) (s : State) : Worked K s (showMx c ctx s) := by
  refine Worked.each _ _ _ fun n hn u => Worked.setR _ (work_core n 0x40 ?_ (by omega))
  split at hn
  case isTrue hg =>
    rcases List.mem_cons.1 hn with rfl | hn
    · exact hc.1
    · exact List.mem_singleton.1 hn ▸ hc.2 hg
  case isFalse => exact List.mem_singleton.1 hn ▸ hc.1

end

/-! Reads and results of one problem -/

section
variable {s0 : State} {K : List Nat} {c : Mx} {m : EngCmd} {q : Prob} {b : Nat}

theorem Does.grFactors {w : Who} {core k : Nat} {g : GrSlot} (hw : w.ok) (hb : s0.memShare w core false = some b)
    (hr : g.smooth = true → s0.mayRead w (b + g.table) (4 * k)) : Does s0 K (grFactors w core g k) fun _ => True :=
  Does.ite (fun hs => Does.bind (Does.shareE w hw _ _ _ b hb) fun _ e => e ▸ (Does.readWords w hw _ _ (hr hs)).weaken fun _ _ => trivial)
    fun _ => Does.pure _ trivial

/-- A row is read with its scales, or without them through the Grind unit (03 R80, 04 R112). -/
theorem Does.readRow {ctx i : Nat} (fs : List Word) (hw : (whoFeed s0 c.core ctx).ok) (hq : s0.mayProb ctx c q b) (hi : i < q.m) :
    Does s0 K (readRow c m (whoFeed s0 c.core ctx) b q fs i) fun _ => True := by
  unfold Sys2Proof.Machine.readRow
  cases hg : c.grind with
  | none =>
    obtain ⟨hrows, hscales⟩ := hq.plainRows hg
    exact Does.bind (Does.readElems _ hw _ _ _ (hrows i hi)) fun _ _ => Does.bind (Does.readScales _ hw _ _ _ (hscales i hi)) fun _ _ =>
      Does.pure _ trivial
  | some g => exact Does.bind (Does.readElems _ hw _ _ _ ((hq.grindRows hg).1 i hi)) fun _ _ => Does.pure _ trivial

/-- One row's results land where the row's columns are; they are read first when the command adds to them (03 R81, R82). -/
theorem Does.runRow {w : Who} {at_ k0 i : Nat} {cols : List Line} (row : Line) (hw : w.ok)
    (hwr : s0.mayWrite w (at_ + 4 * (i * c.w)) (4 * cols.length))
    (hrd : c.acci = 1 → s0.mayRead w (at_ + 4 * (i * c.w)) (4 * cols.length))
    (hk : ∀ k ∈ keysOf s0 w.pid (at_ + 4 * (i * c.w)) (4 * cols.length), k ∈ K) :
    Does s0 K (runRow c m w at_ k0 cols row i) fun _ => True := by
  unfold Sys2Proof.Machine.runRow
  -- `land` is what follows once the old results are known, read or not.
  extract_lets e0 land
  have hland : ∀ old, Does s0 K (land old) fun _ => True := fun old => by
    refine Does.bind (Does.look (Q := fun _ => True) _ fun _ _ => trivial) fun stk _ => Does.bind (Does.writeE w hw _ _ ?_ ?_) fun _ _ =>
      Does.bind (Does.updT _ fun s _ => Worked.each _ _ _ fun _ _ u => Worked.setSticky _ _ u) fun _ _ => Does.pure _ trivial
    · simpa [length_wordBytes, length_rangeFrom] using hwr
    · simpa [length_wordBytes, length_rangeFrom] using hk
  exact Does.ite (fun h => Does.bind (Does.readWords w hw _ _ (hrd h)) fun old _ => hland old) fun _ =>
    Does.bind (Does.pure (Q := fun _ => True) _ trivial) fun old _ => hland old

section
variable (hseat : c.Seated) (hctx : m.ctx < 1024) (hq : s0.mayProb m.ctx c q b)
include hseat hctx hq

/-- The columns of one array are read, as many as it has real ones (03 R66, R77). -/
theorem Does.readCols {j n a : Nat} (hp : (j, n, a) ∈ c.places) :
    Does s0 K (readCols c m q n j (if n = c.core then 0 else (c.arraysOf c.core).length)) fun cs => cs.length = c.colsAt j := by
  obtain ⟨⟨bn, hs, helems, hscales⟩, -⟩ := hq.2 j n a hp
  have hw := whoFeed_ok_of_lt s0 m.ctx (hseat.array (Mx.array_of_place hp)).1
  refine Does.bind (Does.lookFeed n hctx) fun w e => ?_
  subst e
  refine Does.bind (Does.shareE _ hw _ _ _ bn hs) fun base e => ?_
  subst e
  refine (Does.gatherM _ _ (fun _ _ => True) fun i hi => ?column).weaken fun cs h => h.1.trans (length_rangeFrom _ _)
  have hcol := Mx.column_lt_colsOn hp (i := i) (by have := mem_rangeFrom.1 hi; omega)
  exact Does.bind (Does.readElems _ hw _ _ _ (helems _ hcol)) fun _ _ => Does.bind (Does.readScales _ hw _ _ _ (hscales _ hcol)) fun _ _ =>
    Does.pure _ trivial

/-- The results of one array land in its region's rows and real columns (03 R77, R81). -/
theorem Does.runArray {j n a : Nat} {rows cols : List Line} (hk : ∀ k ∈ probKeys s0 m.ctx c q, k ∈ K) (hp : (j, n, a) ∈ c.places)
    (hrows : rows.length = q.m) (hcols : cols.length = c.colsAt j) : Does s0 K (runArray c m q rows cols n a) fun _ => True := by
  obtain ⟨-, ba, hs, hwr, hrd⟩ := hq.2 j n a hp
  have hw := whoDrain_ok_of_lt s0 m.ctx (hseat.array (Mx.array_of_place hp)).1
  refine Does.bind (Does.lookDrain n hctx) fun w e => ?_
  subst e
  refine Does.bind (Does.shareE _ hw _ _ _ ba hs) fun base e => ?_
  subst e
  refine Does.bind (Does.gatherT _ _ fun (i, row) hm => Does.ite (fun _ => Does.pure _ trivial) fun _ => ?row) fun _ _ => Does.pure _ trivial
  have hi : i < q.m := hrows ▸ lt_of_mem_numbered hm
  have hat : 4 * (i * c.w) = i * (4 * c.w) := Nat.mul_left_comm ..
  refine Does.runRow row hw ?_ (fun hacc => ?_) fun k hmem => hk k (rowKeys_mem_probKeys hp hs hi ?_)
  · rw [hat, hcols]; exact hwr i hi
  · rw [hat, hcols]; exact hrd hacc i hi
  · rwa [hat, hcols] at hmem

/-- A problem whose accesses are granted runs through (03 R77-R82). -/
theorem Does.runProb (hb : s0.memShare (whoFeed s0 c.core m.ctx) c.core false = some b) (hk : ∀ k ∈ probKeys s0 m.ctx c q, k ∈ K) :
    Does s0 K (runProb c m q) fun _ => True := by
  have hw := whoFeed_ok_of_lt s0 m.ctx hseat.1
  refine Does.bind (Does.lookFeed c.core hctx) fun w e => ?_
  subst e
  refine Does.bind (Does.shareE _ hw _ _ _ b hb) fun base e => ?_
  subst e
  -- `rest` is what follows once the smoothing factors are known, read or not.
  extract_lets arrs idx rest
  have hrest : ∀ fs, Does s0 K (rest fs) fun _ => True := fun fs => by
    refine Does.bind (Does.gatherM _ _ (fun _ _ => True) fun i hi => Does.readRow fs hw hq (by have := mem_rangeFrom.1 hi; omega))
      fun rows hrows => ?_
    have hlen : (rows.map (·.1)).length = q.m := by rw [List.length_map, hrows.1, length_rangeFrom]
    refine Does.bind (Does.gatherZip c.places _ (fun x cs => cs.length = c.colsAt x.1) fun (j, n, a) hp => ?columns) fun cols hcols =>
      Does.bind (Does.gatherT (c.places.zip cols) _ fun ((j, n, a), cs) hm => ?array) fun _ _ => Does.pure _ trivial
    case columns =>
      have hread := Does.readCols (K := K) hseat hctx hq hp
      rw [← Mx.filter_arrays_core] at hread
      exact hread
    case array => exact Does.runArray hseat hctx hq hk (List.of_mem_zip hm).1 hlen (hcols _ _ hm)
  cases hg : c.grind with
  | none => exact Does.bind (Does.pure (Q := fun _ => True) _ trivial) fun fs _ => hrest fs
  | some g => exact Does.bind (Does.grFactors hw hb (hq.grindRows hg).2) fun fs _ => hrest fs

end

/-! Tables and commands -/

/-- A group table entry of an MXTAMP that is read as it stands, is legal, and has its accesses granted if it has rows (03 R83-R85). -/
structure State.EntryReady (s : State) (K : List Nat) (ctx : Nat) (c : Mx) (b a : Nat) (e : List Byte) : Prop where
  read : s.mayRead (whoFeed s c.core ctx) a 16
  bytes : e = rawRead s (ctxPid s ctx) a 16
  kept : ∀ k ∈ keysOf s (ctxPid s ctx) a 16, k ∉ K
  fields : entryReserved e = false
  rows : roundUp (entryProb e).m 16 ≤ shapeM c.shape
  fits : regionEnd c.w (entryProb e) ≤ 131072
  prob : (entryProb e).m ≠ 0 → s.mayProb ctx c (entryProb e) b ∧ ∀ k ∈ probKeys s ctx c (entryProb e), k ∈ K

section
variable (hseat : c.Seated) (hctx : m.ctx < 1024) (hb : s0.memShare (whoFeed s0 c.core m.ctx) c.core false = some b)
include hseat hctx hb

/-- The entries of a table whose entries are ready run through; one with no rows is passed over (03 R84). -/
theorem Does.runTable {base : Nat} (l : List Nat) (gap fl : Nat) (h : ∀ i ∈ l, ∃ e, s0.EntryReady K m.ctx c b (base + 16 * i) e) :
    Does s0 K (runTable c m (whoFeed s0 c.core m.ctx) base l gap fl) fun _ => True := by
  induction l generalizing gap fl with
  | nil => exact Does.pure _ trivial
  | cons i r ih =>
    have hw := whoFeed_ok_of_lt s0 m.ctx hseat.1
    obtain ⟨e, he⟩ := h i (List.mem_cons_self ..)
    have hrest := fun gap fl => ih gap fl fun i hi => h i (List.mem_cons_of_mem _ hi)
    refine Does.bind (Does.readKept _ hw _ _ he.read he.kept) fun e' h' => ?_
    obtain rfl : e' = e := h'.trans he.bytes.symm
    refine Does.bind (Does.decodeE _ _ (firstCode_none_of_clear ?legal)) fun _ _ => Does.ite (fun _ => hrest _ _) fun hm => ?problem
    case legal =>
      have hrows := Nat.not_lt.2 he.rows
      have hfits := Nat.not_lt.2 he.fits
      simp [he.fields, hrows, hfits]
    case problem =>
      obtain ⟨hq, hk⟩ := he.prob hm
      exact Does.bind (Does.runProb hseat hctx hq hb hk) fun _ _ =>
        Does.bind (Does.updT _ fun s _ => Worked.countBusy hseat _ _ _ s) fun _ _ => hrest _ _

end
end

/-- A matrix command that decodes runs through when its problem, or each entry of its group table, has its accesses granted (03 R80-R86). -/
theorem Does.mxWork {s0 : State} {K : List Nat} {m : EngCmd} {p : Pay} {b : Nat} (tamp : Bool) (hcore : m.core < 512) (hctx : m.ctx < 1024)
    (hdec : firstCode (mxCodes (mxOf m p tamp) p) = none) (hb : s0.memShare (whoFeed s0 m.core m.ctx) m.core false = some b)
    (hone : tamp = false → s0.mayProb m.ctx (mxOf m p tamp) (mxProb p) b ∧ ∀ k ∈ probKeys s0 m.ctx (mxOf m p tamp) (mxProb p), k ∈ K)
    (htab : tamp = true → ∀ i < pf p 2 16 6, ∃ e, s0.EntryReady K m.ctx (mxOf m p tamp) b (b + pf p 2 31 17 * 64 + 16 * i) e) :
    Does s0 K (mxWork tamp p m) fun st => ∃ fl, st = statusWord 0 fl := by
  have hseat : (mxOf m p tamp).Seated := Mx.seated_of_decoded hcore hdec
  refine Does.bind (Does.lookFeed m.core hctx) fun w e => ?_
  subst e
  refine Does.bind (Does.decodeE _ _ hdec) fun _ _ => Does.bind (Does.updT _ fun s _ => Worked.showMx hseat _ s) fun _ _ =>
    Does.bind (Does.look (Q := fun _ => True) _ fun _ _ => trivial) fun wait _ => Does.bind (Does.updT _ fun s _ => Worked.bumpFree) fun _ _ =>
    Does.ite (fun ht => ?table) fun ht => ?problem
  case table =>
    refine Does.bind (Does.shareE _ (whoFeed_ok_of_lt s0 m.ctx hcore) _ _ _ b hb) fun base e => ?_
    subst e
    exact Does.bind (Does.runTable hseat hctx hb _ _ _ fun i hi => htab ht i (by have := mem_rangeFrom.1 hi; omega)) fun fl _ =>
      Does.pure _ ⟨fl, rfl⟩
  case problem =>
    obtain ⟨hq, hk⟩ := hone (Bool.eq_false_iff.2 ht)
    exact Does.bind (Does.runProb hseat hctx hq hb hk) fun f _ =>
      Does.bind (Does.updT _ fun s _ => Worked.countBusy hseat _ _ _ s) fun _ _ =>
      Does.bind (Does.pure (Q := fun _ => True) _ trivial) fun fl _ => Does.pure _ ⟨fl, rfl⟩

end Sys2Proof.Machine
end

section
/-! The statement about matrix commands. -/

namespace Sys2Proof.Machine

/-- Settles O26: with its accesses granted the work of a matrix command runs through (`Does.mxWork`), and a command whose work runs through has
done it (`runHeld_did`). Its writes are those of `Does.runArray`, of real rows and columns alone (03 R77; padding keeps its values, log 43). -/
theorem matrixCommands : Obligations.MatrixCommands := by
  intro core ctx p s m b hb
  refine ⟨fun hruns hdec hq => ?mxmul, fun es K hruns hdec hlen hes hK => ?mxtamp⟩
  case mxmul =>
    obtain ⟨hcore, hctx⟩ := findCmd_core hruns.1
    rw [← hcore, ← hctx] at hb
    rw [← hctx] at hq ⊢
    obtain ⟨_, ⟨fl, rfl⟩, hdid⟩ := runHeld_did (hold := fun _ _ => none) (p := p) hruns rfl <|
      Does.mxWork false (hcore ▸ core.isLt) (hctx ▸ ctx.isLt) hdec hb (fun _ => ⟨hq, fun _ hk => hk⟩) nofun
    exact ⟨_, fl, rfl, hdid⟩
  case mxtamp =>
    obtain ⟨hcore, hctx⟩ := findCmd_core hruns.1
    rw [← hcore, ← hctx] at hb hes
    rw [← hctx] at hK
    have htab : ∀ i < pf p 2 16 6, ∃ e, s.EntryReady K m.ctx (mxOf m p true) b (b + pf p 2 31 17 * 64 + 16 * i) e := fun i hi => by
      have hget := List.getElem?_eq_getElem (hlen ▸ hi)
      obtain ⟨hread, hbytes, hfields, hrows, hfits, hprob, hkept⟩ := hes i _ hget
      refine ⟨es[i], hread, hbytes, hkept, hfields, hrows, hfits, fun hm => ⟨hprob hm, fun k hk => ?_⟩⟩
      rw [hK]
      exact List.mem_flatMap.2 ⟨_, List.mem_filter.2 ⟨List.mem_of_getElem? hget, bne_iff_ne.2 hm⟩, hk⟩
    obtain ⟨_, ⟨fl, rfl⟩, hdid⟩ := runHeld_did (hold := fun _ _ => none) (p := p) hruns rfl <|
      Does.mxWork true (hcore ▸ core.isLt) (hctx ▸ ctx.isLt) hdec hb nofun fun _ => htab
    exact ⟨_, fl, rfl, hdid⟩

end Sys2Proof.Machine
end

section
/-! Rows of the vector unit: each operation on a row answers as many elements as it takes (05 R121, R141, R144, R148). -/

namespace Sys2Proof.Machine

theorem length_mapFl (f : Word → Word × Nat) (xs : List Word) : (mapFl f xs).1.length = xs.length := by simp [mapFl]

theorem length_preRow (p : Pay) (m : EngCmd) (pre : Bool) (xs : List Word) : (preRow p m pre xs).1.length = xs.length := by
  cases pre
  · rfl
  · exact length_mapFl _ xs

theorem length_vewRow (op : Nat) (strict : Bool) (sc : Word) (m n : Nat) (xs bs : List Word) :
    (vewRow op strict sc m n xs bs).1.length = min xs.length bs.length := by
  induction xs generalizing bs n with
  | nil => simp [vewRow]
  | cons x r ih => cases bs with
    | nil => simp [vewRow]
    | cons y t => simp only [vewRow, List.length_cons, ih]; omega

/-- A soft maximum has an output row of its input's length, and a work row of that length when pass 2 ran (05 R144). -/
theorem length_smaxRow (m : EngCmd) (xs : List Word) :
    (smaxRow m xs).2.1.length = xs.length ∧ ∀ l, (smaxRow m xs).1 = some l → l.length = xs.length := by
  unfold smaxRow
  dsimp only
  split
  case isTrue nan => exact ⟨List.length_replicate, nofun⟩
  split
  case isTrue allLow => exact ⟨List.length_replicate, nofun⟩
  case isFalse => exact ⟨by simp only [length_mapFl], fun l hl => by obtain rfl := Option.some.inj hl; simp only [length_mapFl]⟩

/-- A gain or bias row that is applied when it is there keeps the length. -/
theorem length_zipFl_ite {f : Word → Word → Word × Nat} {ys gs : List Word} {n : Nat} (hy : ys.length = n) (hg : gs = [] ∨ gs.length = n) :
    (if gs.isEmpty then (ys, 0) else zipFl f ys gs).1.length = n := by
  split
  case isTrue => exact hy
  case isFalse hne =>
    rcases hg with rfl | hg
    · exact absurd rfl hne
    · rw [length_zipFl, hy, hg, Nat.min_self]

theorem length_normRow (m : EngCmd) (rms : Bool) (eps : Word) {gs bs xs : List Word} (hg : gs = [] ∨ gs.length = xs.length)
    (hb : bs = [] ∨ bs.length = xs.length) : (normRow m rms eps gs bs xs).1.length = xs.length := by
  unfold normRow
  exact length_zipFl_ite (length_zipFl_ite (by simp only [length_mapFl]) hg) hb

end Sys2Proof.Machine
end

section
/-! The work of the vector unit (05 R117-R123, R139-R148): reads, results, counters. -/

namespace Sys2Proof.Machine

/-- A step that takes its value from one of two computations. -/
theorem Does.bindIte {α β : Type} {s0 : State} {K : List Nat} {c : Prop} [Decidable c] {x y : Eng α} {rest : α → Eng β} {P : α → Prop}
    {Q : β → Prop} (hx : c → Does s0 K x P) (hy : ¬ c → Does s0 K y P) (hrest : ∀ a, P a → Does s0 K (rest a) Q) :
    Does s0 K (if c then x >>= rest else y >>= rest) Q :=
  Does.ite (fun h => Does.bind (hx h) hrest) fun h => Does.bind (hy h) hrest

theorem Worked.same {K : List Nat} {s t : State} (h : Worked K s t) : Same s t := h.2.2.1

/-! Counters and status -/

theorem Worked.showVx {K : List Nat} {core : Nat} (hc : core < 512) (ctx cmd : Nat) (s : State) : Worked K s (showVx core ctx cmd s) :=
  Worked.setR _ (work_core core 0xA0 hc (by omega))

/-- VEC_BUSY, SFU_BUSY and SFU_WAIT are counters of the core's block (05 R152). -/
theorem Worked.countVec {K : List Nat} {core : Nat} (hc : core < 512) (busy sfu wait : Nat) (s : State) :
    Worked K s (countVec core busy sfu wait s) := by
  have hcount : ∀ o v t, o + 4 < 0x140 → Worked K t (Sys2Proof.Machine.inc64 (kCore core o) v t) := fun o v t ho =>
    Worked.inc64 v (work_core core o hc (by omega)) (work_core core (o + 4) hc ho)
  exact ((hcount 0x80 _ _ (by omega)).trans (hcount 0x88 _ _ (by omega))).trans (hcount 0x90 _ _ (by omega))

/-! The table store -/

/-- Residency is set by registers that no engine advances (11 R339, R340). -/
theorem Worked.slotOf {K : List Nat} {s t : State} (h : Worked K s t) {core : Nat} (hc : core < 512) (ctx : Nat) :
    slotOf t core ctx = slotOf s core ctx := by
  refine find_congr' fun i hi => ?_
  have hi : i < 8 := by have := mem_rangeFrom.1 hi; omega
  have hkey : isWork (kCore core (0x180 + 8 * i)) = false := by
    unfold isWork isTally kCore; simp only [Bool.or_eq_false_iff, decide_eq_false_iff_not]; omega
  rw [h.same.getR hkey]

theorem ctxPid_lt (s : State) (c : Nat) : ctxPid s c < 32 := fld_lt _ 4 0

/-- A table is read through when the transfer of the sampled bank does not fail (05 R139, R140). -/
theorem Does.readTable {s0 : State} {K : List Nat} {m : EngCmd} {prog : Nat} (hc : m.core < 512)
    (h : ∀ i, slotOf s0 m.core m.ctx = some i →
      errAt s0 false (rangeFrom (tblBase m.core i prog (if m.banks.testBit prog then 1 else 0)) 1056) = none) :
    Does s0 K (readTable m prog) fun _ => True := by
  intro s hs
  unfold Sys2Proof.Machine.readTable
  rw [hs.slotOf hc]
  cases hi : slotOf s0 m.core m.ctx with
  | none => exact ⟨none, s, rfl, hs, trivial⟩
  | some i =>
    have herr := hs.same.errAt false _ (h i hi)
    dsimp only
    generalize (if m.banks.testBit prog then 1 else 0) = bank at herr ⊢
    split
    case isTrue loaded =>
      rw [herr]
      exact ⟨_, _, rfl, hs.trans (Worked.ofOA (OA.mend _ _ _ (ctxPid_lt s _)) fun a k _ => memByte_of_mem (mend_mem _ _ _ _) a k), trivial⟩
    case isFalse empty => exact ⟨none, s, rfl, hs, trivial⟩

/-! One command -/

/-- A vector command on an existing core and context: its master, and the bases of the master's shares for its inputs and its outputs. -/
structure State.VecSeat (s : State) (m : EngCmd) (w : Who) (b : Nat) (cluster : Bool) (ob : Nat) : Prop where
  core : m.core < 512
  ctx : m.ctx < 1024
  who : w = whoVec s m.core m.ctx
  share : s.memShare w m.core false = some b
  out : s.memShare w m.core cluster = some ob

theorem State.VecSeat.ok {s : State} {m : EngCmd} {w : Who} {b ob : Nat} {cl : Bool} (h : s.VecSeat m w b cl ob) : w.ok :=
  h.who ▸ whoVec_ok s (BitVec.ofNatLT m.core h.core) m.ctx

/-- A vector command whose work runs through, telling its `rows`, has done it. -/
theorem vecCmd_did {s : State} {core : BitVec 9} {ctx : BitVec 10} {opc rows : Nat} {p : Pay} {m : EngCmd} {w : Who} {b ob : Nat} {cl : Bool}
    {K : List Nat} {work : EngCmd → Eng Word} (hruns : s.runs core.toNat ctx.toNat opc m) (hw : w = whoVec s core.toNat ctx.toNat)
    (hb : s.memShare w core.toNat false = some b) (hob : s.memShare w core.toNat cl = some ob)
    (hdoes : s.VecSeat m w b cl ob → Does s K (work m) fun st => ∃ fl, st = statusWord rows fl) :
    ∃ t fl, (.next (runCmd core.toNat ctx.toNat opc p work s) : Out) = .next t ∧ s.didWork m p (statusWord rows fl) K [] t := by
  obtain ⟨hcore, hctx⟩ := findCmd_core hruns.1
  have hseat : s.VecSeat m w b cl ob :=
    ⟨hcore ▸ core.isLt, hctx ▸ ctx.isLt, by rw [hcore, hctx, hw], by rw [hcore, hb], by rw [hcore, hob]⟩
  obtain ⟨_, ⟨fl, rfl⟩, hdid⟩ := runHeld_did (hold := fun _ _ => none) (p := p) hruns rfl (hdoes hseat)
  exact ⟨_, fl, rfl, hdid⟩

section
variable {s0 : State} {K : List Nat} {m : EngCmd} {p : Pay} {w : Who} {b ob : Nat} {cl : Bool} (hs : s0.VecSeat m w b cl ob)
include hs

theorem Does.lookVec : Does s0 K (Sys2Proof.Machine.look fun s => whoVec s m.core m.ctx) fun v => v = w :=
  hs.who ▸ Does.lookWho whoVec m.core m.ctx hs.ctx fun s t e => by simp [whoVec, e]

/-- Every vector command first decodes and shows itself in VX_STATUS (05 R152, R154). -/
theorem Does.vecStart {codes : List (Nat × Bool)} {cmd : Nat} {rest : Who → Eng Word} {Q : Word → Prop} (hdec : firstCode codes = none)
    (hrest : Does s0 K (rest w) Q) :
    Does s0 K (do
      let v ← Sys2Proof.Machine.look fun s => whoVec s m.core m.ctx
      Sys2Proof.Machine.decodeE v codes
      Sys2Proof.Machine.upd (showVx m.core m.ctx cmd)
      rest v) Q := by
  refine Does.bind (Does.lookVec hs) fun v e => ?_
  subst e
  exact Does.bind (Does.decodeE _ _ hdec) fun _ _ => Does.bind (Does.updT _ fun s _ => Worked.showVx hs.core _ _ s) fun _ _ => hrest

theorem Does.inShare (wr : Bool) : Does s0 K (spShare w m.core wr) fun a => a = b := Does.shareE w hs.ok _ _ _ b hs.share

theorem Does.outShare : Does s0 K (Sys2Proof.Machine.memBase w m.core cl true) fun a => a = ob := Does.memBase w hs.ok _ _ _ ob hs.out

/-- An output row of `n` elements lands where it may be written. -/
theorem Does.vecOut {o : OutForm} {rows n i j : Nat} {ys : List Word} (ho : s0.mayOut w o rows n) (hk : ∀ k ∈ outKeys s0 w.pid o rows n, k ∈ K)
    (hi : i < rows) (hlen : ys.length = n) : Does s0 K (Sys2Proof.Machine.outRow w o i j ys) fun _ => True := by
  subst hlen
  exact Does.outRow w hs.ok o i rows hi j ys ho hk

/-- One of a set of rows lands where they may be written. -/
theorem Does.vecRow {a st rows n i at_ : Nat} {bs : List Byte} (ho : s0.mayWriteRows w a st rows n)
    (hk : ∀ k ∈ rowKeys s0 w.pid a st rows n, k ∈ K)
    (hi : i < rows) (hlen : bs.length = n) (hat : at_ = a + i * st) : Does s0 K (Sys2Proof.Machine.writeE w at_ bs) fun _ => True := by
  subst hlen hat
  exact Does.writeE w hs.ok _ bs (ho i hi) fun k hmem => hk k (List.mem_flatMap.2 ⟨i, mem_rangeFrom.2 ⟨by omega, by omega⟩, hmem⟩)

/-- The rows of A run through when they may be read and each row's work runs through. -/
theorem Does.vRows {fmt busy sfu wait : Nat} {f : Nat → List Word → Eng Nat}
    (hr : s0.mayReadRows w (b + vAddr p) (vStride p) (vM p) (rowBytes fmt (vN p)))
    (hf : ∀ i < vM p, ∀ xs, xs.length = vN p → Does s0 K (f i xs) fun _ => True) :
    Does s0 K (vRows m p fmt busy sfu wait f) fun st => ∃ fl, st = statusWord (vM p) fl := by
  refine Does.bind (Does.lookVec hs) fun v e => ?_
  subst e
  refine Does.bind (Does.inShare hs false) fun base e => ?_
  subst e
  refine Does.bind (Does.gatherT _ _ fun i hi => ?row) fun fl _ => Does.pure _ ⟨orFlags fl, rfl⟩
  have hi : i < vM p := by have := mem_rangeFrom.1 hi; omega
  exact Does.bind (Does.readVec _ hs.ok _ _ _ _ (hr i hi)) fun xs hxs =>
    Does.bind (Does.updT _ fun s _ => Worked.countVec hs.core _ _ _ s) fun _ _ => hf i hi xs hxs

/-- The second operand of a row has as many elements as the row (05 R122). -/
theorem Does.vewB {fixed : List Word} {i : Nat} (hi : i < vM p) (hfixed : usesB (pf p 0 31 26) = true → pf p 0 10 9 = 2 → fixed.length = vN p)
    (hr : usesB (pf p 0 31 26) = true → pf p 0 10 9 = 0 →
      s0.mayReadRows w (b + pf p 3 31 17 * 64) (pf p 3 16 6 * 64) (vM p) (rowBytes (pf p 0 21 18) (vN p))) :
    Does s0 K (vewB p m w b fixed i) fun bs => bs.length = vN p := by
  refine Does.ite (fun _ => Does.pure _ List.length_replicate) fun hu => ?_
  have hu : usesB (pf p 0 31 26) = true := by simpa using hu
  split
  case h_1 rows => exact Does.readVec _ hs.ok _ _ _ _ (hr hu rows i hi)
  case h_2 scalar => exact Does.pure _ List.length_replicate
  case h_3 row => exact Does.pure _ (hfixed hu row)
  case h_4 column => exact Does.pure _ List.length_replicate

/-- A gain or bias row, read when the command has one (05 R147). -/
theorem Does.readWhen {β : Type} {c : Bool} {a : Nat} {rest : List Word → Eng β} {Q : β → Prop}
    (hr : c = true → s0.mayRead w a (rowBytes 0 (vN p)))
    (hrest : ∀ gs : List Word, gs = [] ∨ gs.length = vN p → Does s0 K (rest gs) Q) :
    Does s0 K (if c then Sys2Proof.Machine.readVec w 0 a (vN p) m.strict >>= rest else Pure.pure [] >>= rest) Q :=
  Does.bindIte (fun h => (Does.readVec w hs.ok _ _ _ _ (hr h)).weaken fun _ => .inr) (fun _ => Does.pure _ (.inl rfl)) hrest

end

/-! The five commands -/

section
variable {s0 : State} {K : List Nat} {m : EngCmd} {p : Pay} {w : Who} {b ob : Nat}

/-- A VEW that decodes runs through when its rows of A, its B and its output rows are granted (05 R120-R122). -/
theorem Does.vewWork (hs : s0.VecSeat m w b (pb p 0 8) ob) (hdec : firstCode (vewCodes p) = none)
    (hr : s0.mayReadRows w (b + vAddr p) (vStride p) (vM p) (rowBytes (pf p 0 25 22) (vN p)))
    (hrows : usesB (pf p 0 31 26) = true → pf p 0 10 9 = 0 →
      s0.mayReadRows w (b + pf p 3 31 17 * 64) (pf p 3 16 6 * 64) (vM p) (rowBytes (pf p 0 21 18) (vN p)))
    (hfix : usesB (pf p 0 31 26) = true → 2 ≤ pf p 0 10 9 →
      s0.mayRead w (b + pf p 3 31 17 * 64) (rowBytes (pf p 0 21 18) (if pf p 0 10 9 = 2 then vN p else vM p)))
    (ho : s0.mayOut w (vOut p m ob (pf p 0 17 14) (pf p 0 13 12) (pb p 0 11)) (vM p) (vN p))
    (hk : ∀ k ∈ outKeys s0 w.pid (vOut p m ob (pf p 0 17 14) (pf p 0 13 12) (pb p 0 11)) (vM p) (vN p), k ∈ K) :
    Does s0 K (vewWork p m) fun st => ∃ fl, st = statusWord (vM p) fl := by
  refine Does.vecStart hs hdec (Does.bind (Does.inShare hs false) fun base e => ?_)
  subst e
  refine Does.bindIte (P := fun fixed => usesB (pf p 0 31 26) = true → pf p 0 10 9 = 2 → fixed.length = vN p) (fun h => ?fixed) (fun h => ?none)
    fun fixed hfixed => Does.bind (Does.outShare hs) fun base e => ?rows
  case fixed =>
    simp only [Bool.and_eq_true, decide_eq_true_eq] at h
    exact (Does.readVec _ hs.ok _ _ _ _ (hfix h.1 h.2)).weaken fun xs hxs _ h2 => by rw [hxs, if_pos h2]
  case none => exact Does.pure _ fun hu h2 => absurd (by simp [hu, h2]) h
  case rows =>
    subst e
    exact Does.vRows hs hr fun i hi xs hxs => Does.bind (Does.vewB hs hi hfixed hrows) fun bs hbs =>
      Does.bind (Does.vecOut hs ho hk hi (by rw [length_vewRow, hxs, hbs, Nat.min_self])) fun _ _ => Does.pure _ trivial

/-- A VROW that decodes runs through when its rows of A and its results are granted (05 R123). -/
theorem Does.vrowWork (hs : s0.VecSeat m w b (pb p 0 24) ob) (hdec : firstCode (vrowCodes p) = none)
    (hr : s0.mayReadRows w (b + vAddr p) (vStride p) (vM p) (rowBytes (pf p 0 28 25) (vN p)))
    (ho : s0.mayWriteRows w (ob + pf p 4 31 13 * 64) 4 (vM p) 4)
    (hk : ∀ k ∈ rowKeys s0 w.pid (ob + pf p 4 31 13 * 64) 4 (vM p) 4, k ∈ K) :
    Does s0 K (vrowWork p m) fun st => ∃ fl, st = statusWord (vM p) fl := by
  refine Does.vecStart hs hdec (Does.bind (Does.outShare hs) fun base e => ?_)
  subst e
  exact Does.vRows hs hr fun i hi xs _ =>
    Does.bind (Does.vecRow hs ho hk hi (length_leBytes 4 _) (by rw [Nat.mul_comm 4 i])) fun _ _ => Does.pure _ trivial

/-- A VSF that decodes runs through when its table, its rows of A and its output rows are granted (05 R141). -/
theorem Does.vsfWork (hs : s0.VecSeat m w b (pb p 0 15) ob) (hdec : firstCode (vsfCodes p) = none)
    (htab : ∀ i, 0xC ≤ pf p 0 31 27 → slotOf s0 m.core m.ctx = some i → errAt s0 false (rangeFrom (tblBase m.core i (pf p 0 31 27 - 0xC)
      (if m.banks.testBit (pf p 0 31 27 - 0xC) then 1 else 0)) 1056) = none)
    (hr : s0.mayReadRows w (b + vAddr p) (vStride p) (vM p) (rowBytes (pf p 0 26 23) (vN p)))
    (ho : s0.mayOut w (vOut p m ob (pf p 0 22 19) (pf p 0 18 17) (pb p 0 16)) (vM p) (vN p))
    (hk : ∀ k ∈ outKeys s0 w.pid (vOut p m ob (pf p 0 22 19) (pf p 0 18 17) (pb p 0 16)) (vM p) (vN p), k ∈ K) :
    Does s0 K (vsfWork p m) fun st => ∃ fl, st = statusWord (vM p) fl := by
  refine Does.vecStart hs hdec (Does.bindIte (fun hf => Does.readTable hs.core fun i => htab i hf) (fun _ => Does.pure none trivial)
    fun t _ => Does.bind (Does.outShare hs) fun base e => ?_)
  subst e
  refine Does.vRows hs hr fun i hi xs hxs => ?row
  dsimp only
  exact Does.bind (Does.vecOut hs ho hk hi (by rw [length_mapFl, length_preRow, hxs])) fun _ _ => Does.pure _ trivial

/-- A VSMAX that decodes runs through when its rows of A, its work rows and its output rows are granted (05 R143-R145). -/
theorem Does.vsmaxWork (hs : s0.VecSeat m w b (pb p 0 16) ob) (hdec : firstCode (vsmaxCodes p) = none)
    (hr : s0.mayReadRows w (b + vAddr p) (vStride p) (vM p) (rowBytes (pf p 0 27 24) (vN p)))
    (hwork : s0.mayWriteRows w (b + pf p 3 31 17 * 64) (pf p 3 16 6 * 64) (vM p) (4 * vN p))
    (hwk : ∀ k ∈ rowKeys s0 w.pid (b + pf p 3 31 17 * 64) (pf p 3 16 6 * 64) (vM p) (4 * vN p), k ∈ K)
    (ho : s0.mayOut w (vOut p m ob (pf p 0 23 20) (pf p 0 19 18) (pb p 0 17)) (vM p) (vN p))
    (hk : ∀ k ∈ outKeys s0 w.pid (vOut p m ob (pf p 0 23 20) (pf p 0 19 18) (pb p 0 17)) (vM p) (vN p), k ∈ K) :
    Does s0 K (vsmaxWork p m) fun st => ∃ fl, st = statusWord (vM p) fl := by
  refine Does.vecStart hs hdec (Does.bind (Does.outShare hs) fun base e => ?_)
  subst e
  refine Does.bind (Does.inShare hs true) fun base e => ?_
  subst e
  refine Does.vRows hs hr fun i hi xs hxs => ?row
  have hxs : (preRow p m (pb p 0 15) xs).1.length = vN p := by rw [length_preRow, hxs]
  obtain ⟨hys, hws⟩ := length_smaxRow m (preRow p m (pb p 0 15) xs).1
  have hland := Does.vecOut (K := K) hs ho hk hi (j := i * vN p) (hys.trans hxs)
  dsimp only
  cases hwr : (smaxRow m (preRow p m (pb p 0 15) xs).1).1 with
  | none => exact Does.bind hland fun _ _ => Does.pure _ trivial
  | some l =>
    have hl : (wordBytes l).length = 4 * vN p := by rw [length_wordBytes, hws l hwr, hxs]
    exact Does.bind (Does.updT _ fun s _ => Worked.countVec hs.core _ _ _ s) fun _ _ =>
      Does.bind (Does.vecRow hs hwork hwk hi hl rfl) fun _ _ => Does.bind hland fun _ _ => Does.pure _ trivial

/-- A VNORM that decodes runs through when its rows of A, its gain and bias and its output rows are granted (05 R147, R148). -/
theorem Does.vnormWork (hs : s0.VecSeat m w b (pb p 0 18) ob) (hdec : firstCode (vnormCodes p) = none)
    (hr : s0.mayReadRows w (b + vAddr p) (vStride p) (vM p) (rowBytes (pf p 0 29 26) (vN p)))
    (hgain : pb p 0 17 = true → s0.mayRead w (b + pf p 3 31 17 * 64) (rowBytes 0 (vN p)))
    (hbias : pb p 0 16 = true → s0.mayRead w (b + pf p 3 16 2 * 64) (rowBytes 0 (vN p)))
    (ho : s0.mayOut w (vOut p m ob (pf p 0 25 22) (pf p 0 21 20) (pb p 0 19)) (vM p) (vN p))
    (hk : ∀ k ∈ outKeys s0 w.pid (vOut p m ob (pf p 0 25 22) (pf p 0 21 20) (pb p 0 19)) (vM p) (vN p), k ∈ K) :
    Does s0 K (vnormWork p m) fun st => ∃ fl, st = statusWord (vM p) fl := by
  refine Does.vecStart hs hdec (Does.bind (Does.inShare hs false) fun base e => ?_)
  subst e
  refine Does.readWhen hs hgain fun gs hgs => Does.readWhen hs hbias fun bs hbs => Does.bind (Does.outShare hs) fun base e => ?_
  subst e
  refine Does.vRows hs hr fun i hi xs hxs => ?row
  have hlen := length_normRow m (pf p 0 31 30 == 1) (scalarW m.strict p.w6) (hxs.symm ▸ hgs) (hxs.symm ▸ hbs)
  dsimp only
  exact Does.bind (Does.vecOut hs ho hk hi (hlen.trans hxs)) fun _ _ => Does.pure _ trivial

end

end Sys2Proof.Machine
end

section
/-! The statement about vector commands. -/

namespace Sys2Proof.Machine

/-- Settles O25: with its accesses granted the work of each of the five commands runs through (`Does.vewWork` to `Does.vnormWork`), telling the
rows of its payload, and a command whose work runs through has done it (`vecCmd_did`). -/
theorem vectorCommands : Obligations.VectorCommands := by
  refine ⟨fun core ctx p s m w b ob hw hb => ⟨?vew, ?vrow, ?vsf⟩, fun core ctx p s m w b ob hw hb => ⟨?vsmax, ?vnorm⟩⟩
  case vew =>
    intro hruns hdec hob hr hrows hfix ho
    exact vecCmd_did hruns hw hb hob fun hs => Does.vewWork hs hdec hr hrows hfix ho fun _ hk => hk
  case vrow =>
    intro hruns hdec hob hr ho
    exact vecCmd_did hruns hw hb hob fun hs => Does.vrowWork hs hdec hr ho fun _ hk => hk
  case vsf =>
    intro hruns hdec htab hob hr ho
    obtain ⟨hcore, hctx⟩ := findCmd_core hruns.1
    rw [← hcore, ← hctx] at htab
    exact vecCmd_did hruns hw hb hob fun hs => Does.vsfWork hs hdec htab hr ho fun _ hk => hk
  case vsmax =>
    intro hruns hdec hob hr hwork ho
    exact vecCmd_did hruns hw hb hob fun hs => Does.vsmaxWork hs hdec hr hwork (fun _ hk => List.mem_append_left _ hk) ho
      fun _ hk => List.mem_append_right _ hk
  case vnorm =>
    intro hruns hdec hob hr hgain hbias ho
    exact vecCmd_did hruns hw hb hob fun hs => Does.vnormWork hs hdec hr hgain hbias ho fun _ hk => hk

end Sys2Proof.Machine
end

section
/-! Saturating 64-bit counters, tables whose default is 0, sets of keys, and fields of a stored number (03 R91). -/

namespace Sys2Proof.Machine

/-! Saturating 64-bit counters -/

theorem RO.inc64 {s : State} (k n : Nat) : RO s (inc64 k n s) := ⟨_, rfl⟩

theorem get64_inc64_self (k n : Nat) (s : State) : get64 (inc64 k n s) k = min (get64 s k + n) (2 ^ 64 - 1) := by
  rw [inc64, get64_set64_self]
  omega

theorem get64_eq_of_words {k : Nat} {s t : State} (hlo : getR t k = getR s k) (hhi : getR t (k + 4) = getR s (k + 4)) : get64 t k = get64 s k := by
  rw [get64, get64, hlo, hhi]

theorem get64_of_regs {s t : State} (h : t.regs = s.regs) (k : Nat) : get64 t k = get64 s k :=
  get64_eq_of_words (getR_of_regs h k) (getR_of_regs h (k + 4))

theorem get64_inc64_apart {k j : Nat} (n : Nat) (s : State) (h : j + 4 < k ∨ k + 4 < j) : get64 (inc64 k n s) j = get64 s j :=
  get64_eq_of_words (getR_inc64_ne _ _ (by omega) (by omega)) (getR_inc64_ne _ _ (by omega) (by omega))

/-! One counter of each of several partitions -/

theorem getR_each_part_ne {o k : Nat} {l : List Nat} (s : State) (h : ∀ q ∈ l, k ≠ kPart q o ∧ k ≠ kPart q o + 4) :
    getR (each l (fun q => inc64 (kPart q o) 1) s) k = getR s k :=
  each_getR_other l _ s k fun q hq _ => getR_inc64_ne _ _ (h q hq).1 (h q hq).2

/-- A partition named once counts once, one that is not named counts nothing. -/
theorem get64_each_part (o : Nat) {l : List Nat} (hl : l.Nodup) (p : Nat) (s : State) :
    get64 (each l (fun q => inc64 (kPart q o) 1) s) (kPart p o) =
      if p ∈ l then min (get64 s (kPart p o) + 1) (2 ^ 64 - 1) else get64 s (kPart p o) := by
  induction l generalizing s with
  | nil => rfl
  | cons q r ih =>
    obtain ⟨hq, hr⟩ := List.nodup_cons.1 hl
    rw [each_cons, ih hr]
    by_cases hp : p = q
    · rw [hp, if_neg hq, if_pos (List.mem_cons_self ..), get64_inc64_self]
    · rw [get64_inc64_apart _ _ (by unfold kPart; omega)]
      simp [hp]

theorem rangeFrom_eq_range' (a n : Nat) : rangeFrom a n = List.range' a n := by
  induction n generalizing a with
  | zero => rfl
  | succ n ih => rw [rangeFrom, ih, List.range'_succ]

theorem nodup_filter_rangeFrom (p : Nat → Bool) (a n : Nat) : ((rangeFrom a n).filter p).Nodup :=
  (rangeFrom_eq_range' a n ▸ List.nodup_range').filter p

/-! Tables whose default is 0 -/

@[simp] theorem tab0_tabSet0_self (k v : Nat) (t : List (Nat × Nat)) : tab0 (tabSet0 k v t) k = v := by
  rw [tab0, tabSet0, tabFind_tabPut_self]
  by_cases h : v = 0 <;> simp [h]

theorem tab0_tabSet0_ne {k j : Nat} (v : Nat) (t : List (Nat × Nat)) (h : j ≠ k) : tab0 (tabSet0 k v t) j = tab0 t j :=
  congrArg (·.getD 0) (tabFind_tabPut_ne _ _ h t)

theorem tab0_tabClear (lo hi k : Nat) (t : List (Nat × Nat)) : tab0 (tabClear lo hi t) k = if lo ≤ k ∧ k < hi then 0 else tab0 t k := by
  rw [tab0, tabFind_tabClear]
  split <;> rfl

/-! Sets of keys and least elements -/

theorem mem_setIns {k j : Nat} {l : List Nat} : j ∈ setIns k l ↔ j = k ∨ j ∈ l := by
  induction l with
  | nil => simp [setIns]
  | cons x r ih =>
    rw [setIns]
    split
    case isTrue below => simp
    split
    case isTrue same => simp [same]
    case isFalse above => simp [ih, or_left_comm]

theorem mem_foldl_setIns {α : Type} (f : α → Nat) (l : List α) (t : List Nat) (j : Nat) :
    j ∈ l.foldl (fun t x => setIns (f x) t) t ↔ (∃ x ∈ l, j = f x) ∨ j ∈ t := by
  induction l generalizing t with
  | nil => simp
  | cons x r ih => simp [ih, mem_setIns, or_assoc, or_left_comm]

theorem mem_of_leastBy {α : Type} {f : α → Nat} {l : List α} {x : α} (h : leastBy f l = some x) : x ∈ l := by
  induction l generalizing x with
  | nil => cases h
  | cons y r ih =>
    rw [leastBy] at h
    split at h
    case h_1 z hz =>
      split at h <;> obtain rfl := Option.some.inj h
      · exact List.mem_cons_of_mem _ (ih hz)
      · exact List.mem_cons_self ..
    case h_2 => exact Option.some.inj h ▸ List.mem_cons_self ..

/-! Fields -/

theorem getF_lt (s : State) (k hi lo : Nat) : getF s k hi lo < 2 ^ (hi + 1 - lo) := fld_lt _ hi lo

theorem getF_of_getR {s t : State} {k : Nat} (h : getR t k = getR s k) (hi lo : Nat) : getF t k hi lo = getF s k hi lo := by
  rw [getF, getF, h]

theorem getF_of_ofNat {s : State} {k v : Nat} (h : getR s k = BitVec.ofNat 32 v) (hi lo : Nat) :
    getF s k hi lo = v % 2 ^ 32 / 2 ^ lo % 2 ^ (hi + 1 - lo) := by
  rw [getF, h, fld, BitVec.toNat_ofNat, Nat.shiftRight_eq_div_pow]

theorem bit_ofNat (v i : Nat) : bit (BitVec.ofNat 32 v) i = decide (v % 2 ^ 32 / 2 ^ i % 2 = 1) := by
  rw [bit_eq_testBit, BitVec.toNat_ofNat, Nat.testBit_eq_decide_div_mod_eq]

end Sys2Proof.Machine
end

section
/-! What one AO tick does (15 R450, R467; 08 R234; 16 R491, R501). -/

namespace Sys2Proof.Machine

/-! Service credits and watchdogs -/

/-- Only service credits, watchdogs and the free values' counter may have changed (11 R535, 14 R429). -/
def Credited (s t : State) : Prop :=
  ∃ c w q f, t = { s with eng := { s.eng with credit := c }, dbg := { s.dbg with wdg := w, quiet := q }, free := f }

theorem Credited.refl (s : State) : Credited s s := ⟨_, _, _, _, rfl⟩

theorem Credited.trans {s t u : State} (h : Credited s t) (g : Credited t u) : Credited s u := by
  obtain ⟨_, _, _, _, rfl⟩ := h
  obtain ⟨c, w, q, f, rfl⟩ := g
  exact ⟨c, w, q, f, rfl⟩

theorem Credited.regs {s t : State} (h : Credited s t) : t.regs = s.regs := by
  obtain ⟨_, _, _, _, rfl⟩ := h
  rfl

theorem Credited.each {α : Type} (l : List α) {f : α → State → State} (s : State) (h : ∀ x u, Credited u (f x u)) :
    Credited s (each l f s) :=
  each_keeps (Credited s) l f s (.refl s) fun x _ t ht => ht.trans (h x t)

theorem credited_accrueUnit (ns c : Nat) (d : Nat × Nat × Nat × Nat) (s : State) : Credited s (accrueUnit ns c d s) := by
  unfold accrueUnit
  dsimp only
  split
  case h_1 => exact .refl s
  case h_2 =>
    split
    case isTrue served => exact ⟨_, _, _, _, rfl⟩
    case isFalse idle => exact .refl s

theorem credited_accrue (ns : Nat) (s : State) : Credited s (accrue ns s) := by
  refine Credited.each _ s fun x u => ?_
  split
  case h_1 => exact .refl u
  case h_2 => exact Credited.each _ u fun d v => credited_accrueUnit ns x.ctx d v

theorem credited_tickWatch (s : State) : Credited s (tickWatch s) := by
  unfold tickWatch
  dsimp only
  split
  case isTrue noneQuiet => exact ⟨_, _, _, _, rfl⟩
  case isFalse someQuiet => exact ⟨_, _, _, _, rfl⟩

/-! Waits at the channel groups -/

theorem hbmTick_frame (ns : Nat) (s : State) : ∃ r o, hbmTick ns s = { s with regs := r, hbm := { s.hbm with occ := o } } := by
  obtain ⟨r, h⟩ := RO.each _ _ _ fun p u => RO.inc64 (s := u) (kPart p 0x248) 1
  exact ⟨r, _, h⟩

/-- A partition with a master that waits for a credit counts the tick (08 R234). -/
theorem get64_hbmTick (ns : Nat) {p : Nat} (hp : p < 32) (s : State) : get64 (hbmTick ns s) (kPart p 0x248) =
    if s.hbm.waits.any (fun x => x.2.2 == p) then min (get64 s (kPart p 0x248) + 1) (2 ^ 64 - 1) else get64 s (kPart p 0x248) := by
  have hm : p ∈ (rangeFrom 0 32).filter (fun p => s.hbm.waits.any fun x => x.2.2 == p) ↔ s.hbm.waits.any (fun x => x.2.2 == p) = true := by
    rw [List.mem_filter, mem_rangeFrom]
    exact and_iff_right ⟨Nat.zero_le p, by omega⟩
  simp only [← hm]
  exact get64_each_part 0x248 (nodup_filter_rangeFrom _ 0 32) p _

theorem getR_hbmTick_ne (ns : Nat) {k : Nat} (s : State) (h : ∀ p < 32, k ≠ kPart p 0x248 ∧ k ≠ kPart p 0x24C) :
    getR (hbmTick ns s) k = getR s k := by
  refine getR_each_part_ne _ fun p hp => h p ?_
  have := mem_rangeFrom.1 (List.mem_filter.1 hp).1
  omega

/-! Ticks under throttle -/

/-- The last part of a tick: under throttle the device and each sealed partition count it (15 R450; 16 R491, R501). -/
def throttleTick (s : State) : State :=
  if s.pwr.ratio < 256 then each (sealedPids s) (fun p => inc64 (kPart p 0x20C) 1) (inc64 0x860 1 s) else s

theorem RO.throttleTick (s : State) : RO s (throttleTick s) := by
  unfold Machine.throttleTick
  split
  case isTrue throttled => exact (RO.inc64 _ _).trans (.each _ _ _ fun _ _ => .inc64 _ _)
  case isFalse full => exact .rfl'

theorem nodup_sealedPids (s : State) : (sealedPids s).Nodup := nodup_filter_rangeFrom _ 0 32

theorem mem_sealedPids {s : State} {p : Nat} : p ∈ sealedPids s ↔ p < 32 ∧ partState s p = 2 := by
  simp [sealedPids, mem_rangeFrom]

theorem get64_throttleTick_device (s : State) :
    get64 (throttleTick s) 0x860 = if s.pwr.ratio < 256 then min (get64 s 0x860 + 1) (2 ^ 64 - 1) else get64 s 0x860 := by
  unfold throttleTick
  split
  case isFalse full => rfl
  case isTrue throttled =>
    rw [← get64_inc64_self]
    exact get64_eq_of_words (getR_each_part_ne _ fun q _ => by unfold kPart; omega) (getR_each_part_ne _ fun q _ => by unfold kPart; omega)

theorem get64_throttleTick_part {p : Nat} (hp : p < 32) (s : State) : get64 (throttleTick s) (kPart p 0x20C) =
    if s.pwr.ratio < 256 ∧ partState s p = 2 then min (get64 s (kPart p 0x20C) + 1) (2 ^ 64 - 1) else get64 s (kPart p 0x20C) := by
  unfold throttleTick
  by_cases hr : s.pwr.ratio < 256
  · have hm : p ∈ sealedPids s ↔ partState s p = 2 := mem_sealedPids.trans (and_iff_right hp)
    rw [if_pos hr, get64_each_part 0x20C (nodup_sealedPids s), get64_inc64_apart _ _ (by unfold kPart; omega)]
    simp only [hr, hm, true_and]
  · simp only [hr, false_and, if_false]

theorem getR_throttleTick_ne {k : Nat} (s : State) (hd : k ≠ 0x860 ∧ k ≠ 0x864) (hp : ∀ p < 32, k ≠ kPart p 0x20C ∧ k ≠ kPart p 0x210) :
    getR (throttleTick s) k = getR s k := by
  unfold throttleTick
  split
  case isFalse full => rfl
  case isTrue throttled =>
    rw [getR_each_part_ne _ fun q hq => hp q (mem_sealedPids.1 hq).1, getR_inc64_ne _ _ hd.1 hd.2]

/-! The whole tick -/

/-- Device time has advanced by one tick (15 R467). -/
def timeTick (s : State) : State :=
  { s with time := { s.time with dtime := s.time.dtime + BitVec.ofNat 64 (tickLen s)
                                 phase := if s.time.phase = 11 then 0 else s.time.phase + 1 } }

/-- A tick under way: time has advanced, waits, credits and watchdogs have been served, and throttling is still to be counted. -/
def midTick (s : State) : State := tickWatch (accrue (tickLen s) (hbmTick (tickLen s) (timeTick s)))

theorem doTick_eq (s : State) : doTick s = throttleTick (midTick s) := rfl

theorem credited_midTick (s : State) : Credited (hbmTick (tickLen s) (timeTick s)) (midTick s) :=
  (credited_accrue _ _).trans (credited_tickWatch _)

/-- What a tick leaves alone before throttling is counted. -/
theorem midTick_frame (s : State) : ∃ r tm f c o w q, midTick s =
    { s with regs := r, time := tm, free := f, eng := { s.eng with credit := c }, hbm := { s.hbm with occ := o },
             dbg := { s.dbg with wdg := w, quiet := q } } := by
  obtain ⟨r, o, ho⟩ := hbmTick_frame (tickLen s) (timeTick s)
  obtain ⟨c, w, q, f, h⟩ := credited_midTick s
  rw [ho] at h
  exact ⟨r, _, f, c, o, w, q, h⟩

theorem getR_midTick_ne {k : Nat} (s : State) (h : ∀ p < 32, k ≠ kPart p 0x248 ∧ k ≠ kPart p 0x24C) : getR (midTick s) k = getR s k :=
  (getR_of_regs (credited_midTick s).regs k).trans (getR_hbmTick_ne _ _ h)

theorem get64_midTick_waits {p : Nat} (hp : p < 32) (s : State) : get64 (midTick s) (kPart p 0x248) =
    if s.hbm.waits.any (fun x => x.2.2 == p) then min (get64 s (kPart p 0x248) + 1) (2 ^ 64 - 1) else get64 s (kPart p 0x248) :=
  (get64_of_regs (credited_midTick s).regs _).trans (get64_hbmTick _ hp _)

/-- The throttle counters and the partitions' states are as they were when throttling comes to be counted. -/
theorem get64_midTick_ne {k : Nat} (s : State) (h : ∀ p < 32, k + 4 < kPart p 0x248 ∨ kPart p 0x24C < k) : get64 (midTick s) k = get64 s k :=
  get64_eq_of_words (getR_midTick_ne s fun p hp => by have := h p hp; unfold kPart at *; omega)
    (getR_midTick_ne s fun p hp => by have := h p hp; unfold kPart at *; omega)

end Sys2Proof.Machine
end

section
/-! The statement about ticks, heartbeats, SMBus reads and the TAP. -/

namespace Sys2Proof.Machine

/-! The RTP -/

theorem bit_endFmSess (s : State) : bit (getR (endFmSess s) 0x400) 27 = false := by
  unfold endFmSess
  split
  case isTrue held =>
    show bit (getR (setF 0x400 27 27 0 s) 0x400) 27 = false
    rw [getR_setF_self]
    exact bit_putFld_self _ 27 0 (by omega)
  case isFalse none => exact Bool.eq_false_iff.2 none

/-- A table whose every listed partition has lost its handshake lists none with one. -/
theorem kex_dropped (p : Nat) (l : List (Nat × Part)) :
    ((tabFind p (l.map fun x : Nat × Part => (x.1, { x.2 with kex := [] }))).getD {}).kex = [] := by
  induction l with
  | nil => rfl
  | cons x r ih =>
    rw [List.map_cons, tabFind]
    split
    case isTrue found => rfl
    case isFalse other => exact ih

theorem Noted.keeps {s u : State} (h : Noted s u) : u.sec = s.sec ∧ u.mem = s.mem ∧ u.jobs = s.jobs := by
  obtain ⟨⟨_, _, rfl⟩, -⟩ := h
  exact ⟨rfl, rfl, rfl⟩

/-- A restart of the RTP counts once and drops what only the RTP held (12 R364). -/
theorem exec_rtpRestart (s : State) : ∃ t, exec .rtpRestart s = .next t ∧ getR t 0x410 = sat32Add (getR s 0x410) 1 ∧
    bit (getR t 0x400) 27 = false ∧
    t.sec = { s.sec with ready := false, hasImage := false, nonce := [], spdm := [], misses := 100 } ∧ t.mem = s.mem ∧
    (∀ p, (partOf t p).kex = []) ∧ t.jobs = s.jobs ∧ s.regsBut [0x400, 0x410] t := by
  have hended := noted_endFmSess (inc32 0x410 1 s)
  obtain ⟨hsec, hmem, hjobs⟩ := hended.keeps
  refine ⟨doRtpRestart s, rfl, ?count, bit_endFmSess _, ?sec, hmem, fun p => kex_dropped p _, hjobs, fun k hk => ?frame⟩
  case count => exact (hended.2 0x410 (by decide)).trans (getR_inc32_self _ _ _)
  case sec => rw [doRtpRestart, modSec_sec, hsec, inc32_sec]
  case frame =>
    simp only [List.mem_cons, List.not_mem_nil, or_false, not_or] at hk
    exact (hended.2 k hk.1).trans (getR_inc32_ne _ _ hk.2)

/-! The tick, heartbeats and the entropy source -/

theorem exec_dtimeTick (s : State) : ∃ t, exec .dtimeTick s = .next t ∧
    t = { s with regs := t.regs, time := t.time, free := t.free, eng := { s.eng with credit := t.eng.credit }
                 hbm := { s.hbm with occ := t.hbm.occ }, dbg := { s.dbg with wdg := t.dbg.wdg, quiet := t.dbg.quiet } } ∧
    (∀ p < 32, get64 t (kPart p 0x248) = if s.hbm.waits.any (fun x => x.2.2 == p) then min (get64 s (kPart p 0x248) + 1) (2 ^ 64 - 1)
      else get64 s (kPart p 0x248)) ∧
    get64 t 0x860 = (if s.pwr.ratio < 256 then min (get64 s 0x860 + 1) (2 ^ 64 - 1) else get64 s 0x860) ∧
    (∀ p < 32, get64 t (kPart p 0x20C) = if s.pwr.ratio < 256 ∧ partState s p = 2 then min (get64 s (kPart p 0x20C) + 1) (2 ^ 64 - 1)
      else get64 s (kPart p 0x20C)) ∧
    s.regsBut ([0x860, 0x864] ++ (rangeFrom 0 32).flatMap fun p => [kPart p 0x20C, kPart p 0x210, kPart p 0x248, kPart p 0x24C]) t := by
  obtain ⟨r, tm, f, c, o, w, q, hm⟩ := midTick_frame s
  obtain ⟨r', ht⟩ := RO.throttleTick (midTick s)
  have hratio : (midTick s).pwr.ratio = s.pwr.ratio := by rw [hm]
  refine ⟨throttleTick (midTick s), congrArg Host.Outcome.next (doTick_eq s), by rw [ht, hm], fun p hp => ?waits, ?device,
    fun p hp => ?part, fun k hk => ?frame⟩
  case waits =>
    rw [← get64_midTick_waits hp]
    exact get64_eq_of_words (getR_throttleTick_ne _ (by unfold kPart; omega) fun q _ => by unfold kPart; omega)
      (getR_throttleTick_ne _ (by unfold kPart; omega) fun q _ => by unfold kPart; omega)
  case device =>
    rw [get64_throttleTick_device, hratio, get64_midTick_ne s fun p _ => by unfold kPart; omega]
  case part =>
    have hstate : partState (midTick s) p = partState s p :=
      getF_of_getR (getR_midTick_ne s fun q _ => by unfold kPart; omega) 2 0
    rw [get64_throttleTick_part hp, hratio, hstate, get64_midTick_ne s fun q _ => by unfold kPart; omega]
  case frame =>
    simp only [List.mem_append, List.mem_flatMap, List.mem_cons, List.not_mem_nil, or_false, not_or, not_exists, not_and, mem_rangeFrom] at hk
    obtain ⟨hdev, hpart⟩ := hk
    have hpart' (p : Nat) (hp : p < 32) := hpart p ⟨Nat.zero_le p, by omega⟩
    rw [getR_throttleTick_ne _ hdev fun p hp => ⟨(hpart' p hp).1, (hpart' p hp).2.1⟩,
      getR_midTick_ne _ fun p hp => (hpart' p hp).2.2]

/-- A heartbeat notes its unit's time, and no other unit's. -/
theorem exec_unitHeartbeat (cls : Byte) (unit : BitVec 12) (s : State) :
    ∃ h, exec (.unitHeartbeat cls unit) s = .next { s with dbg := { s.dbg with hearts := h } } ∧
      tabFind (cls.toNat * 65536 + unit.toNat) h = some (now s) ∧
      ∀ k, k ≠ cls.toNat * 65536 + unit.toNat → tabFind k h = tabFind k s.dbg.hearts :=
  ⟨_, rfl, tabFind_tabPut_self _ _ _ _, fun _ hk => tabFind_tabPut_ne _ _ hk _⟩

theorem exec_entropyFail (s : State) : ∃ t, exec .entropyFail s = .next t ∧ bit (getR t 0x400) 26 = true ∧ t = { s with regs := t.regs } ∧
    s.regsBut [0x400] t := by
  refine ⟨setF 0x400 26 26 1 s, rfl, ?_, rfl, fun k hk => getR_setF_ne _ _ _ _ (by simpa using hk)⟩
  rw [getR_setF_self]
  exact bit_putFld_self _ 26 1 (by omega)

/-! SMBus -/

/-- With VAUX present a read answers its value, which fits the 16 data bits (17 R511). -/
theorem exec_smbGive {i : Instr} {v : Nat} {s : State} (he : exec i s = .next (smbGive v s)) (ha : s.pwr.vaux = true) (hv : v < 2 ^ 16) :
    ∃ w : BitVec 16, exec i s = .next { s with bus := { s.bus with smb := some w } } ∧ w.toNat = v := by
  refine ⟨BitVec.ofNat 16 v, by rw [he, smbGive, if_pos ha], ?_⟩
  rw [BitVec.toNat_ofNat, Nat.mod_eq_of_lt hv]

theorem railsOr_lt (s : State) {v : Nat} (h : v < 2 ^ 16) : railsOr s v < 2 ^ 16 := by
  unfold railsOr
  split <;> omega

theorem statusByte_lt {v n : Nat} (h : v < n) (b : Bool) : v + (if b then 128 else 0) < n + 128 := by
  split <;> omega

theorem exec_smbSensorSelect {n : Byte} {s : State} (ha : s.pwr.vaux = true) (hn : n.toNat ≤ 53) :
    exec (.smbSensorSelect n) s = .next { s with pwr := { s.pwr with sensor := n.toNat } } := by
  show Host.Outcome.next (if n.toNat < 54 ∧ s.pwr.vaux = true then _ else s) = _
  rw [if_pos ⟨by omega, ha⟩]
  rfl

/-! TAP -/

theorem tapGive_powered (v : Word) {s : State} (h : s.pwr.pwrgd = true) : tapGive v s = { s with bus := { s.bus with tdo := v } } := by
  rw [tapGive, if_pos h]

/-- Settles O12: a tick changes registers only as `hbmTick` and `throttleTick` count, heartbeats and the RTP's restart change what they name, and an
SMBus read answers a value that `exec_smbGive` says fits. -/
theorem tapsBusAndTicks : Obligations.TapsBusAndTicks := by
  refine ⟨⟨exec_dtimeTick, exec_unitHeartbeat, fun s => rfl, exec_rtpRestart, exec_entropyFail⟩, fun s ha => ?smbus, fun s hg => ?tap⟩
  case smbus =>
    have hState : svc s + (if s.pwr.pwrgd then 128 else 0) < 2 ^ 16 := by
      have := statusByte_lt (getF_lt s 0x100 31 29) s.pwr.pwrgd
      exact Nat.lt_trans this (by decide)
    have hEvt : getF s 0x104 3 0 + (if s.pwr.leak then 128 else 0) < 2 ^ 16 := by
      have := statusByte_lt (getF_lt s 0x104 3 0) s.pwr.leak
      exact Nat.lt_trans this (by decide)
    exact ⟨exec_smbGive rfl ha hState, exec_smbGive rfl ha (railsOr_lt s (getF_lt s 0x108 15 0)),
      exec_smbGive rfl ha (railsOr_lt s (getF_lt s 0x108 31 16)), exec_smbGive rfl ha (railsOr_lt s (getF_lt s 0x10C 15 0)),
      exec_smbGive rfl ha hEvt, exec_smbGive rfl ha (Nat.lt_trans (getF_lt s 0x100 15 8) (by decide)),
      exec_smbGive rfl ha (railsOr_lt s (getF_lt s _ 15 0)), fun n hn => exec_smbSensorSelect ha hn⟩
  case tap =>
    exact ⟨congrArg Host.Outcome.next (tapGive_powered _ hg), congrArg Host.Outcome.next (tapGive_powered _ hg)⟩

end Sys2Proof.Machine
end

section
/-! What the upkeep of memories does: waits at the banks, credits, imbalance windows (08 R218, R232-R235, R241, R242). -/

namespace Sys2Proof.Machine

/-! Waits at the banks -/

/-- A wait of `n` cycles added to a memory's total and, where it is the longest, kept (08 R241). -/
def waited (k n : Nat) (s : State) : State := setN (k + 0x14) (max (getR s (k + 0x14)).toNat n) (inc64 k n s)

theorem getR_waited_ne {k j : Nat} (n : Nat) (s : State) (h : j ≠ k) (h4 : j ≠ k + 4) (hm : j ≠ k + 0x14) :
    getR (waited k n s) j = getR s j := by
  rw [waited, getR_setN_ne _ _ hm, getR_inc64_ne _ _ h h4]

theorem get64_waited (k n : Nat) (s : State) : get64 (waited k n s) k = min (get64 s k + n) (2 ^ 64 - 1) := by
  rw [← get64_inc64_self]
  exact get64_eq_of_words (getR_setN_ne _ _ (by omega)) (getR_setN_ne _ _ (by omega))

theorem longest_waited {k n : Nat} (hn : n < 2 ^ 32) (s : State) :
    (getR (waited k n s) (k + 0x14)).toNat = max (getR s (k + 0x14)).toNat n := by
  have := (getR s (k + 0x14)).isLt
  rw [waited, getR_setN_self, BitVec.toNat_ofNat]
  omega

/-- A wait above the limit is counted besides, and latched. -/
theorem starved_above {k n : Nat} {s : State} (h : getF s (k + 0x18) 15 0 < n) :
    starved k n s = setF (k + 0x18) 16 16 1 (inc32 (k + 0x10) 1 (waited k n s)) := by
  have hf : getF (waited k n s) (k + 0x18) 15 0 = getF s (k + 0x18) 15 0 :=
    getF_of_getR (getR_waited_ne n s (by omega) (by omega) (by omega)) 15 0
  exact if_pos (hf ▸ h)

theorem starved_within {k n : Nat} {s : State} (h : ¬ getF s (k + 0x18) 15 0 < n) : starved k n s = waited k n s := by
  have hf : getF (waited k n s) (k + 0x18) 15 0 = getF s (k + 0x18) 15 0 :=
    getF_of_getR (getR_waited_ne n s (by omega) (by omega) (by omega)) 15 0
  exact if_neg (hf ▸ h)

theorem RO.starved (k n : Nat) (s : State) : RO s (starved k n s) := by
  by_cases h : Machine.getF s (k + 0x18) 15 0 < n
  · exact starved_above h ▸ ⟨_, rfl⟩
  · exact starved_within h ▸ ⟨_, rfl⟩

theorem getR_starved_ne {k j : Nat} (n : Nat) (s : State) (hc : j ≠ k + 0x10) (hl : j ≠ k + 0x18) :
    getR (starved k n s) j = getR (waited k n s) j := by
  by_cases h : getF s (k + 0x18) 15 0 < n
  · rw [starved_above h, getR_setF_ne _ _ _ _ hl, getR_inc32_ne _ _ hc]
  · rw [starved_within h]

theorem get64_starved (k n : Nat) (s : State) : get64 (starved k n s) k = min (get64 s k + n) (2 ^ 64 - 1) := by
  rw [← get64_waited]
  exact get64_eq_of_words (getR_starved_ne _ _ (by omega) (by omega)) (getR_starved_ne _ _ (by omega) (by omega))

theorem longest_starved {k n : Nat} (hn : n < 2 ^ 32) (s : State) :
    (getR (starved k n s) (k + 0x14)).toNat = max (getR s (k + 0x14)).toNat n := by
  rw [getR_starved_ne _ _ (by omega) (by omega), longest_waited hn]

theorem starved_regsBut (k n : Nat) (s : State) : s.regsBut [k, k + 4, k + 0x10, k + 0x14, k + 0x18] (starved k n s) := by
  intro j hj
  simp only [List.mem_cons, List.not_mem_nil, or_false, not_or] at hj
  obtain ⟨hlo, hhi, hcount, hmax, hlatch⟩ := hj
  rw [getR_starved_ne _ _ hcount hlatch, getR_waited_ne _ _ hlo hhi hmax]

theorem getR_starved_count (k n : Nat) (s : State) : getR (starved k n s) (k + 0x10) =
    if getF s (k + 0x18) 15 0 < n then sat32Add (getR s (k + 0x10)) 1 else getR s (k + 0x10) := by
  have hw : getR (waited k n s) (k + 0x10) = getR s (k + 0x10) := getR_waited_ne n s (by omega) (by omega) (by omega)
  split
  case isTrue above => rw [starved_above above, getR_setF_ne _ _ _ _ (by omega), getR_inc32_self, hw]
  case isFalse within => rw [starved_within within, hw]

theorem getR_starved_latch (k n : Nat) (s : State) : getR (starved k n s) (k + 0x18) =
    if getF s (k + 0x18) 15 0 < n then putFld (getR s (k + 0x18)) 16 16 1 else getR s (k + 0x18) := by
  have hw : getR (waited k n s) (k + 0x18) = getR s (k + 0x18) := getR_waited_ne n s (by omega) (by omega) (by omega)
  split
  case isTrue above => rw [starved_above above, getR_setF_self, getR_inc32_ne _ _ (by omega), hw]
  case isFalse within => rw [starved_within within, hw]

theorem bit_starved_latch (k n : Nat) (s : State) : bit (getR (starved k n s) (k + 0x18)) 16 =
    (bit (getR s (k + 0x18)) 16 || decide (getF s (k + 0x18) 15 0 < n)) := by
  rw [getR_starved_latch]
  split
  case isTrue above => rw [bit_putFld_self _ _ _ (by omega), decide_eq_true above, Bool.or_true]; rfl
  case isFalse within => rw [decide_eq_false within, Bool.or_false]

theorem limit_starved (k n : Nat) (s : State) : getF (starved k n s) (k + 0x18) 15 0 = getF s (k + 0x18) 15 0 := by
  rw [getF, getR_starved_latch]
  split
  case isTrue above => exact fld_putFld_ne _ _ _ _ _ _ (by omega) (by omega)
  case isFalse within => rfl

/-! Credits -/

/-- The turn is that of a master which waits for the group. -/
theorem creditTurn_waits {s : State} {g m : Nat} (h : creditTurn s g = some m) : ∃ x ∈ s.hbm.waits, x.1 = g ∧ x.2.1 = m := by
  obtain ⟨x, hx, hm⟩ := List.mem_map.1 (mem_of_leastBy h)
  obtain ⟨hw, hg⟩ := List.mem_filter.1 hx
  exact ⟨x, hw, eq_of_beq hg, hm⟩

theorem doCredit_none {s : State} {g : Nat} (h : creditTurn s g = none) :
    doCredit g s = { s with hbm := { s.hbm with occ := tabSet0 g (tab0 s.hbm.occ g - 1) s.hbm.occ } } := by
  rw [doCredit, h]

theorem doCredit_some {s : State} {g m : Nat} (h : creditTurn s g = some m) :
    doCredit g s = { s with hbm := { s.hbm with lastGrant := tabSet0 g m s.hbm.lastGrant
                                                waits := s.hbm.waits.filter fun x => !(x.1 == g && x.2.1 == m) } } := by
  rw [doCredit, h]

theorem mem_waits_granted {g m : Nat} (l : List (Nat × Nat × Nat)) (x : Nat × Nat × Nat) :
    x ∈ l.filter (fun x => !(x.1 == g && x.2.1 == m)) ↔ x ∈ l ∧ ¬ (x.1 = g ∧ x.2.1 = m) := by
  have hm : (x.1 == g && x.2.1 == m) = true ↔ x.1 = g ∧ x.2.1 = m := by rw [Bool.and_eq_true, beq_iff_eq, beq_iff_eq]
  rw [List.mem_filter, Bool.not_eq_true', ← Bool.not_eq_true, hm]

/-! Imbalance windows -/

theorem le_hotGroup (s : State) (p : Nat) (l : List Nat) (b : Nat) : ∀ g ∈ b :: l,
    tab0 s.hbm.win (p * 96 + g) ≤ tab0 s.hbm.win (p * 96 + hotGroup s p l b) := by
  induction l generalizing b with
  | nil => simp [hotGroup]
  | cons x r ih =>
    rw [hotGroup]
    split
    case isTrue hotter =>
      obtain ⟨hx, hr⟩ := List.forall_mem_cons.1 (ih x)
      exact List.forall_mem_cons.2 ⟨Nat.le_trans (Nat.le_of_lt hotter) hx, List.forall_mem_cons.2 ⟨hx, hr⟩⟩
    case isFalse cooler =>
      obtain ⟨hb, hr⟩ := List.forall_mem_cons.1 (ih b)
      exact List.forall_mem_cons.2 ⟨hb, List.forall_mem_cons.2 ⟨Nat.le_trans (Nat.not_lt.1 cooler) hb, hr⟩⟩

theorem hotGroup_mem (s : State) (p : Nat) (l : List Nat) (b : Nat) : hotGroup s p l b ∈ b :: l := by
  induction l generalizing b with
  | nil => simp [hotGroup]
  | cons x r ih =>
    rw [hotGroup]
    split
    case isTrue hotter => exact List.mem_cons_of_mem b (ih x)
    case isFalse cooler => exact List.cons_subset_cons b (List.subset_cons_self x r) (ih b)

/-- The units of a partition's set in its window, their hottest group, and the ratio of that group's share to an even one (08 R235). -/
def windowUnits (s : State) (p : Nat) : Nat := (partOf s p).gset.foldl (fun a g => a + tab0 s.hbm.win (p * 96 + g)) 0
def hottest (s : State) (p : Nat) : Nat := hotGroup s p (partOf s p).gset ((partOf s p).gset.headD 0)
def imbRatio (s : State) (p : Nat) : Nat :=
  min 0xFFFF (tab0 s.hbm.win (p * 96 + hottest s p) * (partOf s p).gset.length * 256 / windowUnits s p)

theorem imbRatio_lt (s : State) (p : Nat) : imbRatio s p < 2 ^ 16 := by
  unfold imbRatio
  omega

/-- With units in the window the hottest group is one of the set, and none has more. -/
theorem hottest_spec {s : State} {p : Nat} (h : windowUnits s p ≠ 0) : hottest s p ∈ (partOf s p).gset ∧
    ∀ g ∈ (partOf s p).gset, tab0 s.hbm.win (p * 96 + g) ≤ tab0 s.hbm.win (p * 96 + hottest s p) := by
  have hle := le_hotGroup s p (partOf s p).gset ((partOf s p).gset.headD 0)
  have hmem := hotGroup_mem s p (partOf s p).gset ((partOf s p).gset.headD 0)
  refine ⟨?_, (List.forall_mem_cons.1 hle).2⟩
  unfold windowUnits at h
  unfold hottest
  cases hg : (partOf s p).gset with
  | nil => exact absurd (hg ▸ rfl) h
  | cons x r => simpa [hg] using hmem

/-- A 16-bit field at bit 0 of a register keeps the largest value. -/
def keepMax (k v : Nat) (s : State) : State := if getF s k 15 0 < v then setF k 15 0 v s else s

theorem RO.keepMax (k v : Nat) (s : State) : RO s (keepMax k v s) := by
  unfold Machine.keepMax
  split
  case isTrue larger => exact ⟨_, rfl⟩
  case isFalse kept => exact .rfl'

theorem getF_keepMax (k : Nat) {v : Nat} (hv : v < 2 ^ 16) (s : State) : getF (keepMax k v s) k 15 0 = max (getF s k 15 0) v := by
  unfold keepMax
  split
  case isTrue larger =>
    rw [getF_setF_self _ _ _ _ _ (by omega)]
    omega
  case isFalse kept => omega

theorem getR_keepMax_ne {k j : Nat} (v : Nat) (s : State) (h : j ≠ k) : getR (keepMax k v s) j = getR s j := by
  unfold keepMax
  split
  case isTrue larger => exact getR_setF_ne _ _ _ _ h
  case isFalse kept => rfl

/-- What HBM_IMB shows of a window: HOT, the hottest group, the ratio. -/
def imbWord (s : State) (p h ratio : Nat) : Nat := (if s.hbm.hot.contains (p * 96 + h) then 2 ^ 31 else 0) + h * 2 ^ 24 + ratio

/-- A window with units shows in HBM_IMB, and HBM_IMBMAX keeps the largest ratio. -/
def imbShown (p : Nat) (s : State) : State :=
  keepMax (kPart p 0x25C) (imbRatio s p) (setN (kPart p 0x258) (imbWord s p (hottest s p) (imbRatio s p)) s)

theorem imbRegs_apart (p : Nat) : kPart p 0x258 ≠ kPart p 0x25C := by
  unfold kPart
  omega

theorem getR_imbShown (p : Nat) (s : State) :
    getR (imbShown p s) (kPart p 0x258) = BitVec.ofNat 32 (imbWord s p (hottest s p) (imbRatio s p)) := by
  rw [imbShown, getR_keepMax_ne _ _ (imbRegs_apart p), getR_setN_self]

theorem getF_imbShown_ratio (p : Nat) (s : State) : getF (imbShown p s) (kPart p 0x258) 15 0 = imbRatio s p := by
  have := imbRatio_lt s p
  rw [getF_of_ofNat (getR_imbShown p s), imbWord]
  split <;> omega

theorem getF_imbShown_group {p : Nat} {s : State} (h : hottest s p < 96) : getF (imbShown p s) (kPart p 0x258) 30 24 = hottest s p := by
  have := imbRatio_lt s p
  rw [getF_of_ofNat (getR_imbShown p s), imbWord]
  split <;> omega

theorem bit_imbShown_hot {p : Nat} {s : State} (h : hottest s p < 96) :
    bit (getR (imbShown p s) (kPart p 0x258)) 31 = decide (p * 96 + hottest s p ∈ s.hbm.hot) := by
  have := imbRatio_lt s p
  rw [getR_imbShown, bit_ofNat, decide_eq_decide, ← List.contains_iff_mem, imbWord]
  split
  case isTrue hot => exact iff_of_true (by omega) hot
  case isFalse cool => exact iff_of_false (by omega) cool

theorem getF_imbShown_max (p : Nat) (s : State) :
    getF (imbShown p s) (kPart p 0x25C) 15 0 = max (getF s (kPart p 0x25C) 15 0) (imbRatio s p) := by
  rw [imbShown, getF_keepMax _ (imbRatio_lt s p), getF_of_getR (getR_setN_ne _ s (imbRegs_apart p).symm)]

/-- The registers at the end of a window: one without units leaves them. -/
def windowShown (p : Nat) (s : State) : State := if windowUnits s p = 0 then s else imbShown p s

theorem RO.windowShown (p : Nat) (s : State) : RO s (windowShown p s) := by
  unfold Machine.windowShown
  split
  case isTrue noUnits => exact .rfl'
  case isFalse units => exact .trans .setR (.keepMax _ _ _)

theorem windowShown_regsBut (p : Nat) (s : State) : s.regsBut [kPart p 0x258, kPart p 0x25C] (windowShown p s) := by
  intro k hk
  simp only [List.mem_cons, List.not_mem_nil, or_false, not_or] at hk
  unfold windowShown
  split
  case isTrue noUnits => rfl
  case isFalse units => rw [imbShown, getR_keepMax_ne _ _ hk.2, getR_setN_ne _ _ hk.1]

/-- The next window starts: no units, the groups whose credits masters of the partition wait for, a length of `n`. -/
def windowReset (p n : Nat) (s : State) : State :=
  { s with hbm := { s.hbm with
      win := tabClear (p * 96) (p * 96 + 96) s.hbm.win
      hot := (s.hbm.waits.filter fun x => x.2.2 == p).foldl (fun l x => setIns (p * 96 + x.1) l) (s.hbm.hot.filter fun k => k / 96 != p)
      imbwin := tabSet0 p n s.hbm.imbwin } }

theorem doWindow_eq (p : Nat) (s : State) :
    doWindow p s = { windowReset p (getF s (kPart p 0x260) 19 0) s with regs := (windowShown p s).regs } := by
  have hd : doWindow p s = windowReset p (getF s (kPart p 0x260) 19 0) (windowShown p s) := rfl
  obtain ⟨r, h⟩ := RO.windowShown p s
  rw [hd, h]
  rfl

theorem doWindow_hbm (p : Nat) (s : State) : (doWindow p s).hbm = (windowReset p (getF s (kPart p 0x260) 19 0) s).hbm := by
  rw [doWindow_eq]

theorem getR_doWindow (p k : Nat) (s : State) : getR (doWindow p s) k = getR (windowShown p s) k :=
  getR_of_regs (by rw [doWindow_eq]) k

theorem getR_doWindow_units {p : Nat} {s : State} (h : windowUnits s p ≠ 0) (k : Nat) : getR (doWindow p s) k = getR (imbShown p s) k := by
  rw [getR_doWindow, windowShown, if_neg h]

theorem tab0_win_windowReset (p n k : Nat) (s : State) :
    tab0 (windowReset p n s).hbm.win k = if k / 96 = p then 0 else tab0 s.hbm.win k := by
  have hk : (p * 96 ≤ k ∧ k < p * 96 + 96) ↔ k / 96 = p := by omega
  exact (tab0_tabClear _ _ _ _).trans (by simp only [hk])

theorem mem_hot_windowReset (p n k : Nat) (s : State) : k ∈ (windowReset p n s).hbm.hot ↔
    (∃ x ∈ s.hbm.waits, x.2.2 = p ∧ k = p * 96 + x.1) ∨ (k ∈ s.hbm.hot ∧ k / 96 ≠ p) := by
  simp [windowReset, mem_foldl_setIns, and_assoc]

end Sys2Proof.Machine
end

section
/-! What the patrol scrubber and stage 2 of a scrub do (08 R237-R240; 12 R391). -/

namespace Sys2Proof.Machine

/-! What the patrol finds -/

/-- The partition that owns a unit, if one does, counts one at an offset of its block. -/
def countFor (own : Option Nat) (o : Nat) (s : State) : State := match own with | some q => inc32 (kPart q o) 1 s | none => s

theorem RO.countFor (own : Option Nat) (o : Nat) (s : State) : RO s (countFor own o s) := by
  cases own with
  | none => exact .rfl'
  | some q => exact .setR

theorem getR_countFor_ne {own : Option Nat} {o k : Nat} (s : State) (hk : k < 0x100000) : getR (countFor own o s) k = getR s k := by
  cases own with
  | none => rfl
  | some q => exact getR_inc32_ne _ _ (by unfold kPart; omega)

/-- The word of a stack's log for an uncorrectable unit: valid, found by the patrol or not, group of the stack, row (18 R522). -/
def ueWord (patrol : Bool) (u : Nat) : Nat := 2 ^ 31 + (if patrol then 2 ^ 30 else 0) + (u / 50331648 % 8) * 2 ^ 26 + u % 50331648

theorem noteUe_eq (patrol : Bool) (u : Nat) (own : Option Nat) (s : State) : ∃ v, noteUe patrol u own s =
    setN (kSel (u / 50331648 / 8) 12) v (setN (kSel (u / 50331648 / 8) 8) (ueWord patrol u)
      (inc32 0x870 1 (inc32 (kSel (u / 50331648 / 8) 4) 1 (countFor own 0x254 s)))) := by
  cases own with
  | none => exact ⟨_, rfl⟩
  | some q => exact ⟨_, rfl⟩

theorem RO.noteUe (patrol : Bool) (u : Nat) (own : Option Nat) (s : State) : RO s (noteUe patrol u own s) := by
  obtain ⟨v, h⟩ := noteUe_eq patrol u own s
  rw [h]
  exact (RO.countFor own _ s).trans (.trans .setR (.trans .setR (.trans .setR .setR)))

/-- An uncorrectable unit is one count of the device (08 R238). -/
theorem getR_noteUe_device (patrol : Bool) (u : Nat) (own : Option Nat) (s : State) :
    getR (noteUe patrol u own s) 0x870 = sat32Add (getR s 0x870) 1 := by
  obtain ⟨v, h⟩ := noteUe_eq patrol u own s
  rw [h, getR_setN_ne _ _ (by unfold kSel; omega), getR_setN_ne _ _ (by unfold kSel; omega), getR_inc32_self,
    getR_inc32_ne _ _ (by unfold kSel; omega), getR_countFor_ne _ (by omega)]

/-- The stack's log names the unit last found (08 R238, 18 R522). -/
theorem getR_noteUe_unit (patrol : Bool) (u : Nat) (own : Option Nat) (s : State) :
    getR (noteUe patrol u own s) (kSel (u / 50331648 / 8) 8) = BitVec.ofNat 32 (ueWord patrol u) := by
  obtain ⟨v, h⟩ := noteUe_eq patrol u own s
  rw [h, getR_setN_ne _ _ (by unfold kSel; omega), getR_setN_self]

@[simp] theorem getR_devLog (kind arg k : Nat) (s : State) : getR (devLog kind arg s) k = getR s k := rfl

theorem noteCe_eq (u : Nat) (own : Option Nat) (s : State) : noteCe u own s =
    devLog 0xCE u (inc32 0x86C 1 (inc32 (kSel (u / 50331648 / 8 % 16) 0) 1
      { countFor own 0x250 s with hbm := { s.hbm with ce := setDel u s.hbm.ce } })) := by
  cases own with
  | none => rfl
  | some p => rfl

/-- What changes when a corrected unit is noted: registers, the mark, the device log with its message. -/
theorem noteCe_frame (u : Nat) (own : Option Nat) (s : State) : ∃ r, noteCe u own s =
    devLog 0xCE u { s with regs := r, hbm := { s.hbm with ce := setDel u s.hbm.ce } } := by
  obtain ⟨r, h⟩ := RO.countFor own 0x250 s
  rw [noteCe_eq, h]
  exact ⟨_, rfl⟩

/-- A corrected unit is one count of the device (08 R237). -/
theorem getR_noteCe_device (u : Nat) (own : Option Nat) (s : State) : getR (noteCe u own s) 0x86C = sat32Add (getR s 0x86C) 1 := by
  rw [noteCe_eq, getR_devLog, getR_inc32_self, getR_inc32_ne _ _ (by unfold kSel; omega)]
  exact congrArg (sat32Add · 1) (getR_countFor_ne s (by omega))

/-- What changes when the patrol finds an uncorrectable unit: registers, the mark, the device log with its message. -/
theorem patrolUe_frame (g row : Nat) (s : State) : ∃ r, patrolUe g row s =
    devLog 0x68 (g * 50331648 + row) { s with regs := r, hbm := { s.hbm with ue := setIns (g * 50331648 + row) s.hbm.ue } } := by
  obtain ⟨r, hr⟩ := RO.noteUe true (g * 50331648 + row) (unitOwner s g row)
    { s with hbm := { s.hbm with ue := setIns (g * 50331648 + row) s.hbm.ue } }
  unfold patrolUe
  dsimp only
  rw [hr]
  split
  case h_1 => exact ⟨_, rfl⟩
  case h_2 => exact ⟨r, rfl⟩

/-- Below the partitions' blocks the registers are as the stack's log and the counters leave them. -/
theorem getR_patrolUe {g row k : Nat} (s : State) (hk : k < 0x100000) : getR (patrolUe g row s) k =
    getR (noteUe true (g * 50331648 + row) (unitOwner s g row) { s with hbm := { s.hbm with ue := setIns (g * 50331648 + row) s.hbm.ue } }) k := by
  unfold patrolUe
  dsimp only
  rw [getR_devLog]
  split
  case h_1 => rw [getR_setN_ne _ _ (by unfold kPart; omega), getR_setN_ne _ _ (by unfold kPart; omega)]
  case h_2 => rfl

/-- A patrol that finds an uncorrectable unit, or one known to be: it is counted, and logged with its stack, group and row (08 R239, R240). -/
theorem patrolUe_found {g row : Nat} {s : State} (hg : g < 96) (hr : row < 50331648) :
    getR (patrolUe g row s) 0x870 = sat32Add (getR s 0x870) 1 ∧ getF (patrolUe g row s) (kSel (g / 8) 8) 25 0 = row ∧
      bit (getR (patrolUe g row s) (kSel (g / 8) 8)) 31 = true := by
  have hu : (g * 50331648 + row) / 50331648 = g := by omega
  have hword : ueWord true (g * 50331648 + row) = 2 ^ 31 + 2 ^ 30 + g % 8 * 2 ^ 26 + row := by
    rw [ueWord, if_pos rfl, hu]
    omega
  have hw : getR (patrolUe g row s) (kSel (g / 8) 8) = BitVec.ofNat 32 (2 ^ 31 + 2 ^ 30 + g % 8 * 2 ^ 26 + row) := by
    have hlog := getR_noteUe_unit true (g * 50331648 + row) (unitOwner s g row)
      { s with hbm := { s.hbm with ue := setIns (g * 50331648 + row) s.hbm.ue } }
    rw [hu, hword] at hlog
    rw [getR_patrolUe _ (by unfold kSel; omega), hlog]
  refine ⟨?count, ?row, ?valid⟩
  case count =>
    rw [getR_patrolUe _ (by omega), getR_noteUe_device]
    rfl
  case row =>
    rw [getF_of_ofNat hw]
    omega
  case valid =>
    rw [hw, bit_ofNat, decide_eq_true_eq]
    omega

/-! The patrol's step -/

theorem groupsN_le (s : State) : groupsN s ≤ 96 := by
  unfold groupsN stackCount
  split <;> omega

/-- The unit of a group that the patrol visits next. -/
def patrolUnit (s : State) (g : Nat) : Nat := g * 50331648 + tab0 s.hbm.patrol g

/-- The patrol's position in a group has advanced. -/
def patrolNext (g : Nat) (s : State) : State :=
  { s with hbm := { s.hbm with patrol := tabSet0 g ((tab0 s.hbm.patrol g + 1) % 50331648) s.hbm.patrol } }

section
variable {g : Nat} {find : PatrolFind} {s : State}

theorem doPatrol_idle (h : svc s ≠ 3 ∨ groupsN s ≤ g) : doPatrol g find s = s := if_pos h

variable (hs : svc s = 3) (hg : g < groupsN s)
include hs hg

theorem doPatrol_ue (h : find = .uncorrectable ∨ patrolUnit s g ∈ s.hbm.ue) :
    doPatrol g find s = patrolUe g (tab0 s.hbm.patrol g) (patrolNext g s) := by
  rw [doPatrol, if_neg (by omega)]
  exact if_pos (by simpa [patrolUnit] using h)

theorem doPatrol_ce (hn : ¬ (find = .uncorrectable ∨ patrolUnit s g ∈ s.hbm.ue)) (h : find = .corrected ∨ patrolUnit s g ∈ s.hbm.ce) :
    doPatrol g find s = noteCe (patrolUnit s g) (unitOwner (patrolNext g s) g (tab0 s.hbm.patrol g)) (patrolNext g s) := by
  rw [doPatrol, if_neg (by omega)]
  exact (if_neg (by simpa [patrolUnit] using hn)).trans (if_pos (by simpa [patrolUnit] using h))

theorem doPatrol_clean (hn : ¬ (find = .uncorrectable ∨ patrolUnit s g ∈ s.hbm.ue))
    (h : ¬ (find = .corrected ∨ patrolUnit s g ∈ s.hbm.ce)) : doPatrol g find s = patrolNext g s := by
  rw [doPatrol, if_neg (by omega)]
  exact (if_neg (by simpa [patrolUnit] using hn)).trans (if_neg (by simpa [patrolUnit] using h))

/-- Whatever the patrol finds, its position in the group advances; besides, only registers, error marks and the device log may change. -/
theorem doPatrol_frame : ∃ r h l ue ce, doPatrol g find s = { s with regs := r, host := h, sec := { s.sec with log := l }
                                                                     hbm := { (patrolNext g s).hbm with ue := ue, ce := ce } } := by
  by_cases hue : find = .uncorrectable ∨ patrolUnit s g ∈ s.hbm.ue
  · obtain ⟨r, h⟩ := patrolUe_frame g (tab0 s.hbm.patrol g) (patrolNext g s)
    exact ⟨r, _, _, _, _, (doPatrol_ue hs hg hue).trans h⟩
  by_cases hce : find = .corrected ∨ patrolUnit s g ∈ s.hbm.ce
  · obtain ⟨r, h⟩ := noteCe_frame (patrolUnit s g) (unitOwner (patrolNext g s) g (tab0 s.hbm.patrol g)) (patrolNext g s)
    exact ⟨r, _, _, _, _, (doPatrol_ce hs hg hue hce).trans h⟩
  · exact ⟨_, _, _, _, _, doPatrol_clean hs hg hue hce⟩

/-- A corrected unit, or one known to hold a correctable error: counted, its mark gone, logged (08 R237, R239). -/
theorem doPatrol_corrected (hn : ¬ (find = .uncorrectable ∨ patrolUnit s g ∈ s.hbm.ue)) (h : find = .corrected ∨ patrolUnit s g ∈ s.hbm.ce) :
    getR (doPatrol g find s) 0x86C = sat32Add (getR s 0x86C) 1 ∧ (doPatrol g find s).hbm.ue = s.hbm.ue ∧
      (doPatrol g find s).hbm.ce = setDel (patrolUnit s g) s.hbm.ce ∧ (doPatrol g find s).sec.log = s.sec.log ++ [(0xCE, patrolUnit s g)] := by
  obtain ⟨r, hr⟩ := noteCe_frame (patrolUnit s g) (unitOwner (patrolNext g s) g (tab0 s.hbm.patrol g)) (patrolNext g s)
  rw [doPatrol_ce hs hg hn h]
  exact ⟨getR_noteCe_device _ _ _, by rw [hr]; rfl, by rw [hr]; rfl, by rw [hr]; rfl⟩

/-- An uncorrectable unit, or one known to be: counted, marked, logged by the device and by its stack (08 R239, R240). -/
theorem doPatrol_found (h : find = .uncorrectable ∨ patrolUnit s g ∈ s.hbm.ue) (hr : tab0 s.hbm.patrol g < 50331648) :
    (doPatrol g find s).hbm.ce = s.hbm.ce ∧ getR (doPatrol g find s) 0x870 = sat32Add (getR s 0x870) 1 ∧
      (doPatrol g find s).hbm.ue = setIns (patrolUnit s g) s.hbm.ue ∧ (doPatrol g find s).sec.log = s.sec.log ++ [(0x68, patrolUnit s g)] ∧
      getF (doPatrol g find s) (kSel (g / 8) 8) 25 0 = tab0 s.hbm.patrol g ∧ bit (getR (doPatrol g find s) (kSel (g / 8) 8)) 31 = true := by
  obtain ⟨r, hframe⟩ := patrolUe_frame g (tab0 s.hbm.patrol g) (patrolNext g s)
  obtain ⟨hcount, hrow, hvalid⟩ := patrolUe_found (s := patrolNext g s) (Nat.lt_of_lt_of_le hg (groupsN_le s)) hr
  rw [doPatrol_ue hs hg h]
  exact ⟨by rw [hframe]; rfl, hcount, by rw [hframe]; rfl, by rw [hframe]; rfl, hrow, hvalid⟩

end

/-! Stage 2 of a scrub -/

theorem doScrub_none {g row : Nat} {s : State} (h : scrubTake g row s.hbm.scrub = none) : doScrub g row s = s := by
  rw [doScrub, h]

theorem doScrub_some {g row : Nat} {s : State} {r : List (Nat × Nat × Nat)} (h : scrubTake g row s.hbm.scrub = some r) :
    doScrub g row s = set64 0x408 (get64 s 0x408 - 1) { memForget (256 * (g * 50331648 + row)) (256 * (g * 50331648 + row) + 256) s with
      hbm := { s.hbm with scrub := r, ue := setDel (g * 50331648 + row) s.hbm.ue, ce := setDel (g * 50331648 + row) s.hbm.ce } } := by
  rw [doScrub, h]
  rfl

theorem get64_lt (s : State) (k : Nat) : get64 s k < 2 ^ 64 := by
  have hlo := (getR s k).isLt
  have hhi := (getR s (k + 4)).isLt
  unfold get64
  omega

theorem tabFind_memForget (lo hi k : Nat) (s : State) :
    tabFind k (memForget lo hi s).mem = if lo ≤ k ∧ k < hi then none else tabFind k s.mem := tabFind_tabClear lo hi k s.mem

/-- One unit fewer is pending; of none, none (12 R391). -/
theorem get64_scrubCount (s u : State) : get64 (set64 0x408 (get64 s 0x408 - 1) u) 0x408 = get64 s 0x408 - 1 := by
  have := get64_lt s 0x408
  rw [get64_set64_self]
  omega

/-- Bytes outside the range forgotten read as before. -/
theorem memForget_memBut (lo n : Nat) (s : State) : s.memBut (rangeFrom lo n) (memForget lo (lo + n) s) := by
  intro m k hk
  rw [mem_rangeFrom] at hk
  rw [memByte, tabFind_memForget, if_neg hk]
  rfl

end Sys2Proof.Machine
end

section
/-! The statement about the upkeep of memories. -/

namespace Sys2Proof.Machine

/-- Settles O41: a wait is what `starved` counts, a credit goes where `creditTurn_waits` says or to nobody, a window shows its `hottest_spec` group
and starts again (`doWindow_eq`), a patrol finds what `doPatrol_clean`, `doPatrol_corrected` or `doPatrol_found` says, a scrubbed unit is forgotten. -/
theorem memoryUpkeep : Obligations.MemoryUpkeep := by
  refine ⟨?starve, fun g s => ⟨?noTurn, ?turn⟩, ?window, fun g find s row u hrow hu => ⟨?idle, ?patrol⟩,
    fun g row s u hu => ⟨?unasked, ?scrub⟩⟩
  case starve =>
    intro ofCore unit n s k hk
    exact ⟨starved k n.toNat s, by rw [hk]; rfl, (RO.starved _ _ _).eq, get64_starved _ _ _, longest_starved n.isLt s, getR_starved_count _ _ _,
      bit_starved_latch _ _ _, limit_starved _ _ _, starved_regsBut _ _ _⟩
  case noTurn =>
    exact fun h => ⟨_, congrArg Host.Outcome.next (doCredit_none h), rfl, tab0_tabSet0_self _ _ _, fun _ hj => tab0_tabSet0_ne _ _ hj⟩
  case turn =>
    exact fun m h =>
      ⟨_, congrArg Host.Outcome.next (doCredit_some h), rfl, tab0_tabSet0_self _ _ _, creditTurn_waits h, mem_waits_granted _⟩
  case window =>
    intro pid s p gs total hp hgs htotal
    subst hp hgs
    replace htotal : total = windowUnits s pid.toNat := htotal
    have hhbm := doWindow_hbm pid.toNat s
    refine ⟨doWindow pid.toNat s, rfl, by rw [doWindow_eq]; rfl, fun g hg => ?empty, fun k hk => ?others, fun k => ?hot, ?length, ?hbm,
      fun k hk => ?frame, fun h0 => ?noUnits, fun h0 => ?units⟩
    case empty => rw [hhbm, tab0_win_windowReset, if_pos (by omega)]
    case others => rw [hhbm, tab0_win_windowReset, if_neg hk]
    case hot => rw [hhbm, mem_hot_windowReset]
    case length => exact hhbm ▸ tab0_tabSet0_self _ _ _
    case hbm => rw [hhbm, windowReset]
    case frame => rw [getR_doWindow, windowShown_regsBut _ s k hk]
    case noUnits => rw [doWindow_eq, windowShown, if_pos (htotal ▸ h0)]
    case units =>
      subst htotal
      obtain ⟨hmem, hle⟩ := hottest_spec h0
      have hshown := getR_doWindow_units h0
      refine ⟨hottest s pid.toNat, hmem, hle, fun h => ⟨?group, ?wasHot⟩, ?ratio, ?largest⟩
      case group => rw [getF_of_getR (hshown _), getF_imbShown_group h]
      case wasHot => rw [hshown, bit_imbShown_hot h]
      case ratio => exact (getF_of_getR (hshown _) 15 0).trans (getF_imbShown_ratio _ s)
      case largest => exact (getF_of_getR (hshown _) 15 0).trans (getF_imbShown_max _ s)
  case idle => exact fun h => congrArg Host.Outcome.next (doPatrol_idle h)
  case patrol =>
    intro hs hg
    subst hrow
    replace hu : u = patrolUnit s g.toNat := hu
    subst hu
    obtain ⟨r, h, l, ue, ce, ht⟩ := doPatrol_frame (find := find) hs hg
    refine ⟨doPatrol g.toNat find s, rfl, by rw [ht], ?position, by rw [ht]; rfl, fun hf hue hce => ?clean, fun hf hue => ?corrected,
      fun hf hlt => ?found⟩
    case position => exact ht ▸ tab0_tabSet0_self _ _ _
    case clean =>
      rw [doPatrol_clean hs hg (by simp [hf, hue]) (by simp [hf, hce])]
      exact ⟨rfl, rfl, rfl, rfl⟩
    case corrected =>
      have hn : find ≠ .uncorrectable := by rcases hf with rfl | ⟨rfl, -⟩ <;> decide
      exact doPatrol_corrected hs hg (by simp [hn, hue]) (hf.imp_right And.right)
    case found => exact doPatrol_found hs hg hf hlt
  case unasked => exact fun h => congrArg Host.Outcome.next (doScrub_none h)
  case scrub =>
    intro r h
    subst hu
    refine ⟨_, congrArg Host.Outcome.next (doScrub_some h), rfl, fun i hi => ?forgotten, memForget_memBut _ _ s, ?pending, fun k hk => ?frame⟩
    case forgotten => exact (tabFind_memForget _ _ _ _).trans (if_pos (by omega))
    case pending => exact (get64_scrubCount s _).symm
    case frame =>
      simp only [List.mem_cons, List.not_mem_nil, or_false, not_or] at hk
      exact getR_set64_ne _ _ hk.1 hk.2

end Sys2Proof.Machine
end
